-- ==== Sys2Proof/Word.lean ====
section
/-! DEFINITION. The word types of the block (rules R6, R9): bytes, 24-bit addresses, 16-bit ids. -/

namespace Sys2Proof

/-- A port register, a data byte or a status byte: `DATA_BITS = 8` (rule R6). -/
abbrev Byte := BitVec 8

/-- An address as it stands in a frame: `ADDR_BITS = 24` (rule R6). Operands are naturals (rule R10). -/
abbrev Addr24 := BitVec 24

/-- A software id: `ID_BITS = 16` (rule R6). -/
abbrev Id16 := BitVec 16

end Sys2Proof
end

