-- ==== Sys2Proof/Config.lean ====
section
/-! DEFINITION. The parameters of the block (rules R7, R8, R27, R32) and the free values: constants without a body
for everything the source leaves open. -/

namespace Sys2Proof

/-- The control-line roles of rule R26. -/
inductive Role where
  | sda | sck | pgm | wr | hsa | hsb
  deriving DecidableEq, Repr, Inhabited

/-- Whether READ_BYTE samples before or after each clock pulse (rule R7, decision D10). -/
inductive ReadOrder where
  | sampleThenPulse
  | pulseThenSample
  deriving DecidableEq, Repr, Inhabited

/-- An immutable chip record (rule R8). Its size rule (`sector_size` is 0 or a power of two) is a check of
`Machine.sectorSizeOk`. -/
structure ChipConfig where
  id              : Id16
  size            : BitVec 32
  sectorSize      : BitVec 32
  name            : String
  maxWriteUsec    : BitVec 32
  maxChipEraseSec : BitVec 32
  deriving DecidableEq, Repr, Inhabited

/-- One step of the handshake `HS_SEQ`: the levels driven on HSA and HSB (rules R7, R118). -/
structure HandshakeStep where
  hsa : Bool
  hsb : Bool
  deriving DecidableEq, Repr, Inhabited

/-- The parameters that rule R7 leaves open or decides. The bit positions are indices 0 to 7; the idle byte is a
logical value. The role constraints of rule R27 are the check `Machine.rolesOk`, not part of the type. -/
structure Params where
  sdaBit      : Fin 8
  sckBit      : Fin 8
  pgmBit      : Fin 8
  wrBit       : Fin 8
  hsaBit      : Fin 8
  hsbBit      : Fin 8
  ctrlXorMask : Byte
  sinBit      : Fin 8
  hs0         : HandshakeStep
  hs1         : HandshakeStep
  hs2         : HandshakeStep
  readOrder   : ReadOrder
  tStepUs     : Nat
  cmdSettleUs : Nat
  ctrlIdle    : Byte
  chipTable   : List ChipConfig
  cmdAddr     : Addr24
  deriving DecidableEq, Repr, Inhabited

/-- Why a configuration is refused (rules R27, R32, code 19 of rule R211). -/
inductive ConfigReason where
  /-- Two entries of a chip table share an id (rule R32). -/
  | duplicateId (id : Id16)
  /-- An entry's `sector_size` is neither 0 nor a power of two (rules R8, R32). -/
  | badSectorSize (size : Nat)
  /-- The role bits break rule R27. -/
  | roleBits
  deriving DecidableEq, Repr

/-- The environment's answer to one port access: it succeeds, or it fails and a failed write may or may not have
reached the lines (rules R60, R212, decision D35). -/
inductive PortDraw where
  | ok
  | fail (reached : Bool)
  deriving DecidableEq, Repr, Inhabited

/-- The parameters of the one machine: rule R7 leaves them open, so nothing is known of this constant (DESIGN CHOICE,
log entry 1). -/
opaque Config.device : Params

/-- The environment's answer to port access number `n`, where the state's script gives none (rule R5; DESIGN CHOICE,
log entry 3: a free value). -/
opaque Config.freePortDraw : Nat → PortDraw

/-- The byte the status register shows at read number `n`, where the state's script gives none (rules R5, R30;
log entry 3). -/
opaque Config.freeStatus : Nat → Byte

/-- Whether the host sets its cancellation flag before poll number `n`, where the state's script gives none
(rules R23, R170; log entry 3). -/
opaque Config.freeHostSets : Nat → Bool

/-- The target-side address register at block entry: rule R240 says unspecified (log entry 13: a free
value). -/
opaque Config.entryFrameReg : Addr24

end Sys2Proof
end

