-- ==== Sys2Proof/Syntax.lean ====
section
/-! DEFINITION. The operations of the block, one constructor per row of spec/opcode_table.json (rules R90, R96, R174),
and the two forms in which the host hands one to the block. -/

namespace Sys2Proof

/-- The mnemonics of rule R90, of the command rows of rule R96 and of the two modes of WRITE_IMAGE. -/
inductive Mnemonic where
  | writeAddress | writeByte | readByte
  | unlock | command
  | cmdIdEntry | cmdIdExit | cmdEraseSetup | cmdChipErase | cmdProgram
  | readSoftwareId | identify | eraseChip | programByte | programRange
  | eraseWait | erase | blankCheck
  | writeImage | writeImageSector | writeImageByte
  deriving DecidableEq, Repr

/-- An operation with its operands, in the order of rule R90. Addresses, counts and delays are naturals
(rules R10, R95); the range checks of rule R52 belong to the meanings. -/
inductive Instr where
  /-- WRITE_ADDRESS a (rule R116). -/
  | writeAddress (a : Nat)
  /-- WRITE_BYTE a, v, d (rule R117); d in microseconds. -/
  | writeByte (a : Nat) (v : Byte) (d : Nat)
  /-- READ_BYTE a (rule R118). -/
  | readByte (a : Nat)
  /-- UNLOCK (rule R140). -/
  | unlock
  /-- COMMAND c (rule R141). -/
  | command (c : Byte)
  /-- CMD_ID_ENTRY: the JEDEC3 sequence with 0x90 (rules R96, R97). -/
  | cmdIdEntry
  /-- CMD_ID_EXIT: the JEDEC3 sequence with 0xF0. -/
  | cmdIdExit
  /-- CMD_ERASE_SETUP: the JEDEC3 sequence with 0x80. -/
  | cmdEraseSetup
  /-- CMD_CHIP_ERASE: the JEDEC3 sequence with 0x10. -/
  | cmdChipErase
  /-- CMD_PROGRAM: the JEDEC3 sequence with 0xA0. -/
  | cmdProgram
  /-- READ_SOFTWARE_ID (rule R142). -/
  | readSoftwareId
  /-- IDENTIFY table (rule R143); the table need not be CHIP_TABLE (DESIGN CHOICE, log entry 22). -/
  | identify (table : List ChipConfig)
  /-- ERASE_CHIP (rule R144). -/
  | eraseChip
  /-- PROGRAM_BYTE a, v, cfg (rule R145). -/
  | programByte (a : Nat) (v : Byte) (cfg : ChipConfig)
  /-- PROGRAM_RANGE s, bytes, cfg (rule R146). -/
  | programRange (start : Nat) (bytes : List Byte) (cfg : ChipConfig)
  /-- ERASE_WAIT (rule R171). -/
  | eraseWait
  /-- ERASE (rule R172). -/
  | erase
  /-- BLANK_CHECK offset, size (rule R173). -/
  | blankCheck (offset size : Nat)
  /-- WRITE_IMAGE offset, src, cfg (rule R174). -/
  | writeImage (offset : Nat) (src : List Byte) (cfg : ChipConfig)
  /-- WRITE_IMAGE.SECTOR: the mode of rule R175, which `cfg.sector_size != 0` selects. -/
  | writeImageSector (offset : Nat) (src : List Byte) (cfg : ChipConfig)
  /-- WRITE_IMAGE.BYTE: the mode of rule R176, which `cfg.sector_size = 0` selects. -/
  | writeImageByte (offset : Nat) (src : List Byte) (cfg : ChipConfig)
  deriving DecidableEq, Repr

/-- The row an operation belongs to. -/
def Instr.mnemonic : Instr → Mnemonic
  | .writeAddress _ => .writeAddress
  | .writeByte _ _ _ => .writeByte
  | .readByte _ => .readByte
  | .unlock => .unlock
  | .command _ => .command
  | .cmdIdEntry => .cmdIdEntry
  | .cmdIdExit => .cmdIdExit
  | .cmdEraseSetup => .cmdEraseSetup
  | .cmdChipErase => .cmdChipErase
  | .cmdProgram => .cmdProgram
  | .readSoftwareId => .readSoftwareId
  | .identify _ => .identify
  | .eraseChip => .eraseChip
  | .programByte _ _ _ => .programByte
  | .programRange _ _ _ => .programRange
  | .eraseWait => .eraseWait
  | .erase => .erase
  | .blankCheck _ _ => .blankCheck
  | .writeImage _ _ _ => .writeImage
  | .writeImageSector _ _ _ => .writeImageSector
  | .writeImageByte _ _ _ => .writeImageByte

/-- Who may issue an operation: the visibility column of rule R90 (decision D34). -/
inductive Visibility where
  /-- Reachable only through the operations that expand to it. -/
  | internal
  /-- A transport operation that the host's loops may call. -/
  | transport
  /-- A public operation. -/
  | everyone
  deriving DecidableEq, Repr

/-- An operand as the program notation writes it (rule R101). -/
inductive Operand where
  | num (n : Nat)
  | bytes (bs : List Byte)
  | cfg (c : ChipConfig)
  | table (cs : List ChipConfig)
  deriving DecidableEq, Repr

/-- One request of the host. `named` is a line of the program notation (rule R101): a mnemonic and its operands.
`wire` is the bit encoding that the opcode table gives a row (rules R91, R94, R97, R98), as bytes in the order in which
the transport sends them; it carries no operand that the table leaves unencoded. -/
inductive Call where
  | named (m : Mnemonic) (ops : List Operand)
  | wire (frame : List Byte)
  deriving DecidableEq, Repr

end Sys2Proof
end

