-- ==== Sys2Proof/Machine/Operands.lean ====
section
/-! DEFINITION. Operand forms and their checks: fixed constants (rules R6, R62, R96), range checks (rule R52), command
bytes (rules R96, R99), configuration checks (rules R27, R32), control lines as bits of a byte (rules R26, R28), operand
assembly (rules R56, R93, R95) and the command sequences as bus cycles (rules R94, R97, R98). -/

namespace Sys2Proof.Machine

/-- The number of target addresses, 2^24 (rules R6, R50). -/
def addrSpace : Nat := 16777216

/-- `ERASED`, the value of an erased byte (rule R6). -/
def erasedByte : Byte := 0xFF#8

/-- The address of unlock cycle 1 (rules R6, R62). -/
def unlockAddr1 : Nat := 0x5555

/-- The data of unlock cycle 1. -/
def unlockData1 : Byte := 0xAA#8

/-- The address of unlock cycle 2. -/
def unlockAddr2 : Nat := 0x2AAA

/-- The data of unlock cycle 2. -/
def unlockData2 : Byte := 0x55#8

/-- `CMD_ID_ENTRY` (rules R6, R96). -/
def cmdIdEntryByte : Byte := 0x90#8

/-- `CMD_ID_EXIT`. -/
def cmdIdExitByte : Byte := 0xF0#8

/-- `CMD_ERASE_SETUP`. -/
def cmdEraseSetupByte : Byte := 0x80#8

/-- `CMD_CHIP_ERASE`. -/
def cmdChipEraseByte : Byte := 0x10#8

/-- `CMD_PROGRAM`. -/
def cmdProgramByte : Byte := 0xA0#8

/-- `SWID_SETTLE_US`, 10 ms (rules R6, R245). -/
def swidSettleUs : Nat := 10000

/-- `ERASE_POLL_US`, 100 ms (rules R6, R171). -/
def erasePollUs : Nat := 100000

/-- `POWERUP_SETTLE_US`, 100 ms: PowerUp's wait, outside the block (rules R6, R249). -/
def powerUpSettleUs : Nat := 100000

/-- `PROGRESS_STEP` (rules R6, R173). -/
def progressStep : Nat := 1024

/-- `BYTE_MODE_CHUNK` (rules R6, R176). -/
def byteModeChunk : Nat := 1024

/-- The decided value of `CMD_ADDR` (rule R7, decision D11). -/
def decidedCmdAddr : Addr24 := 0x5555#24

/-- A single address operand is in range (rule R52). -/
def addrOk (a : Nat) : Bool := decide (a < addrSpace)

/-- A range operand `[start, start + n)` is in range (rule R52). -/
def rangeOk (start n : Nat) : Bool := decide (start + n ≤ addrSpace)

/-- The command bytes of rule R96. -/
def commandBytes : List Byte :=
  [cmdIdEntryByte, cmdIdExitByte, cmdEraseSetupByte, cmdChipEraseByte, cmdProgramByte]

/-- COMMAND takes the bytes of rule R96 and no other (rule R99). -/
def isCommandByte (c : Byte) : Bool := commandBytes.contains c

/-- `n` is a power of two below 2^32 (rule R8: `sector_size` is a u32; log entry 20). -/
def isPowerOfTwo (n : Nat) : Bool := (List.range 32).any fun k => n == 2 ^ k

/-- `sector_size` is either 0 or a power of two (rule R8). -/
def sectorSizeOk (cfg : ChipConfig) : Bool :=
  cfg.sectorSize.toNat == 0 || isPowerOfTwo cfg.sectorSize.toNat

/-- The first problem of a chip table in declaration order: an id that a later entry repeats, or a bad
`sector_size` (rule R32). -/
def tableProblem : List ChipConfig → Option ConfigReason
  | [] => none
  | cfg :: rest =>
    if rest.any fun other => other.id == cfg.id then some (.duplicateId cfg.id)
    else if sectorSizeOk cfg then tableProblem rest
    else some (.badSectorSize cfg.sectorSize.toNat)

/-- `CTRL_BIT(role)` (rules R7, R26). -/
def lineBit (p : Params) : Role → Fin 8
  | .sda => p.sdaBit
  | .sck => p.sckBit
  | .pgm => p.pgmBit
  | .wr => p.wrBit
  | .hsa => p.hsaBit
  | .hsb => p.hsbBit

/-- How many different bits a list of bit indices names. -/
def countDistinct : List (Fin 8) → Nat
  | [] => 0
  | b :: bs => (if bs.contains b then 0 else 1) + countDistinct bs

/-- The bits of the six roles, in the order of rule R26. -/
def roleBitList (p : Params) : List (Fin 8) :=
  [p.sdaBit, p.sckBit, p.pgmBit, p.wrBit, p.hsaBit, p.hsbBit]

/-- The role constraints (a) to (d) of rule R27. -/
def rolesOk (p : Params) : Bool :=
  -- (a) SDA and SCK are dedicated
  decide (p.sdaBit ≠ p.sckBit)
    && !([p.pgmBit, p.wrBit, p.hsaBit, p.hsbBit].contains p.sdaBit)
    && !([p.pgmBit, p.wrBit, p.hsaBit, p.hsbBit].contains p.sckBit)
    -- (b)
    && decide (p.pgmBit ≠ p.wrBit)
    -- (c)
    && decide (p.hsaBit ≠ p.hsbBit)
    -- (d) four digital control lines
    && decide (countDistinct (roleBitList p) ≤ 4)

/-- The configuration check that comes before the first operation (rule R215): the role bits, then CHIP_TABLE, which
is read here only (DESIGN CHOICE, log entry 22). -/
def paramsProblem (p : Params) : Option ConfigReason :=
  if rolesOk p then tableProblem p.chipTable else some .roleBits

/-- Write one bit of a control byte. -/
def setBit (b : Byte) (i : Nat) (level : Bool) : Byte :=
  if level then b ||| (1#8 <<< i) else b &&& ~~~(1#8 <<< i)

/-- The level of a role's line in a logical control byte: 1 is asserted (rule R26). -/
def getLine (p : Params) (r : Role) (ctrl : Byte) : Bool := ctrl.getLsbD (lineBit p r)

/-- A logical control byte with one role's line at a level. -/
def setLine (p : Params) (r : Role) (level : Bool) (ctrl : Byte) : Byte :=
  setBit ctrl (lineBit p r) level

/-- The levels a SetLines gives, one role after the other (rule R28). -/
def setLineList (p : Params) (levels : List (Role × Bool)) (ctrl : Byte) : Byte :=
  levels.foldl (fun c rl => setLine p rl.1 rl.2 c) ctrl

/-- The physical control byte of a logical one, and back (rule R25). -/
def maskCtrl (p : Params) (b : Byte) : Byte := b ^^^ p.ctrlXorMask

/-- The logical control byte at block entry: `CTRL_IDLE`, in which SCK is 0 and WR is 1 (rules R7, R240;
DEDUCED, log entry 15). -/
def entryCtrl (p : Params) : Byte := setLine p .wr true (setLine p .sck false p.ctrlIdle)

/-- The logical bit that a status byte shows: SIN reads inverted (rule R30). -/
def sampleBit (p : Params) (status : Byte) : Bool := !status.getLsbD p.sinBit

/-- The 16-bit id of its two bytes, high byte first (rules R10, R56, R95). -/
def joinId (hi lo : Byte) : Id16 := (hi.setWidth 16 <<< 8) ||| lo.setWidth 16

/-- A bus write cycle: address and data (rule R94). -/
abbrev BusCycle := Nat × Byte

/-- U, the unlock prefix (rules R97, R140). -/
def unlockCycles : List BusCycle := [(unlockAddr1, unlockData1), (unlockAddr2, unlockData2)]

/-- Format JEDEC3 at command address `cmdAddr` (rule R97). -/
def jedec3Cycles (cmdAddr : Nat) (c : Byte) : List BusCycle := unlockCycles ++ [(cmdAddr, c)]

/-- The chip-erase sequence (rule R98). -/
def eraseCycles (cmdAddr : Nat) : List BusCycle :=
  jedec3Cycles cmdAddr cmdEraseSetupByte ++ jedec3Cycles cmdAddr cmdChipEraseByte

/-- The program-byte sequence (rule R98). -/
def programCycles (cmdAddr : Nat) (a : Nat) (v : Byte) : List BusCycle :=
  jedec3Cycles cmdAddr cmdProgramByte ++ [(a, v)]

/-- The program-byte sequences of a range, addresses ascending (rules R95, R98, R146). -/
def programRangeCycles (cmdAddr : Nat) : Nat → List Byte → List BusCycle
  | _, [] => []
  | a, v :: vs => programCycles cmdAddr a v ++ programRangeCycles cmdAddr (a + 1) vs

/-- Some byte of a chunk is not erased (rules R174, R175). -/
def hasProgrammed (bs : List Byte) : Bool := bs.any fun b => decide (b ≠ erasedByte)

/-- The chunks of sector mode: `size` bytes each, the last one perhaps short (rule R175). `fuel` bounds the number
of chunks; the length of the source is enough. -/
def chunksOf (size : Nat) : Nat → List Byte → List (List Byte)
  | 0, _ => []
  | _ + 1, [] => []
  | fuel + 1, b :: bs =>
    (b :: bs).take size :: chunksOf size fuel ((b :: bs).drop size)

/-- The first entry with exactly the given id, in declaration order (rule R143). -/
def lookupChip (table : List ChipConfig) (id : Id16) : Option ChipConfig :=
  table.find? fun cfg => cfg.id == id

/-- The visibility column of rule R90; the command rows of rule R96 are uses of COMMAND, and the two modes of
WRITE_IMAGE share its visibility. -/
def visibility : Mnemonic → Visibility
  | .writeAddress | .unlock | .command | .programByte => .internal
  | .cmdIdEntry | .cmdIdExit | .cmdEraseSetup | .cmdChipErase | .cmdProgram => .internal
  | .writeByte | .readByte => .transport
  | .readSoftwareId | .identify | .eraseChip | .programRange | .eraseWait | .erase | .blankCheck
  | .writeImage | .writeImageSector | .writeImageByte => .everyone

/-- The operations that the host may call: every other one is reachable only through the operations that expand to it
(rules R66, R90, R99, R147). -/
def hostMayCall (i : Instr) : Bool := visibility i.mnemonic != .internal

end Sys2Proof.Machine
end

