-- ==== Sys2Proof/WellFormed.lean ====
section
/-! DEFINITION. Which operations are well formed: the operand checks of rules R8, R32, R52, R90, R96 and R99 hold. -/

namespace Sys2Proof

open Sys2Proof.Machine

/-- Every operand of the operation passes its check. The meaning of an operation that is not well formed takes the
refusal that rule R215 gives; this predicate is a premise of statements, not a gate of the step. -/
def WellFormed : Instr → Bool
  | .writeAddress a => addrOk a
  | .writeByte a _ _ => addrOk a
  | .readByte a => addrOk a
  | .unlock => true
  | .command c => isCommandByte c
  | .cmdIdEntry => true
  | .cmdIdExit => true
  | .cmdEraseSetup => true
  | .cmdChipErase => true
  | .cmdProgram => true
  | .readSoftwareId => true
  | .identify table => (tableProblem table).isNone
  | .eraseChip => true
  | .programByte a _ cfg => addrOk a && sectorSizeOk cfg
  | .programRange start bytes cfg => rangeOk start bytes.length && sectorSizeOk cfg
  | .eraseWait => true
  | .erase => true
  | .blankCheck offset size => rangeOk offset size
  | .writeImage offset src cfg => rangeOk offset src.length && sectorSizeOk cfg
  | .writeImageSector offset src cfg =>
    rangeOk offset src.length && sectorSizeOk cfg && cfg.sectorSize.toNat != 0
  | .writeImageByte offset src cfg => rangeOk offset src.length && cfg.sectorSize.toNat == 0

end Sys2Proof
end

