-- ==== Sys2Proof/Decode.lean ====
section
/-! DEFINITION. From a host's call to an operation and back (rules R90, R95, R98, R99, R101), and the bit encodings of
the opcode table (rules R91, R94, R96 to R98). -/

namespace Sys2Proof

open Sys2Proof.Machine

/-- Why a call stands for no operation. -/
inductive DecodeError where
  /-- The operands are not those that rule R90 gives the mnemonic. -/
  | operandShape (m : Mnemonic)
  /-- An 8-bit operand is given as a number of 256 or more (rule R90: operand widths are exact). -/
  | byteTooWide (m : Mnemonic) (n : Nat)
  /-- No row of the opcode table has an encoding of this many bytes. -/
  | frameLength (n : Nat)
  /-- The frame differs from the fixed bits of every row of its length. -/
  | frameBits (n : Nat)
  deriving DecidableEq, Repr

/-- The record used for a chip configuration that an encoding leaves out: every field 0 (DESIGN CHOICE,
log entry 8). -/
def zeroChip : ChipConfig :=
  { id := 0#16, size := 0#32, sectorSize := 0#32, name := "", maxWriteUsec := 0#32, maxChipEraseSec := 0#32 }

/-- An 8-bit operand given as a number. -/
def decodeByte (m : Mnemonic) (n : Nat) (k : Byte → Instr) : Except DecodeError Instr :=
  if n < 256 then .ok (k (BitVec.ofNat 8 n)) else .error (.byteTooWide m n)

/-- A line of the program notation (rule R101): the operands of a mnemonic are those of rule R90, in that order. -/
def decodeNamed (m : Mnemonic) (ops : List Operand) : Except DecodeError Instr :=
  match m with
  | .writeAddress => match ops with
    | [.num a] => .ok (.writeAddress a)
    | _ => .error (.operandShape m)
  | .writeByte => match ops with
    | [.num a, .num v, .num d] => decodeByte m v fun b => .writeByte a b d
    | _ => .error (.operandShape m)
  | .readByte => match ops with
    | [.num a] => .ok (.readByte a)
    | _ => .error (.operandShape m)
  | .unlock => match ops with
    | [] => .ok .unlock
    | _ => .error (.operandShape m)
  | .command => match ops with
    | [.num c] => decodeByte m c fun b => .command b
    | _ => .error (.operandShape m)
  | .cmdIdEntry => match ops with
    | [] => .ok .cmdIdEntry
    | _ => .error (.operandShape m)
  | .cmdIdExit => match ops with
    | [] => .ok .cmdIdExit
    | _ => .error (.operandShape m)
  | .cmdEraseSetup => match ops with
    | [] => .ok .cmdEraseSetup
    | _ => .error (.operandShape m)
  | .cmdChipErase => match ops with
    | [] => .ok .cmdChipErase
    | _ => .error (.operandShape m)
  | .cmdProgram => match ops with
    | [] => .ok .cmdProgram
    | _ => .error (.operandShape m)
  | .readSoftwareId => match ops with
    | [] => .ok .readSoftwareId
    | _ => .error (.operandShape m)
  | .identify => match ops with
    | [.table t] => .ok (.identify t)
    | _ => .error (.operandShape m)
  | .eraseChip => match ops with
    | [] => .ok .eraseChip
    | _ => .error (.operandShape m)
  | .programByte => match ops with
    | [.num a, .num v, .cfg c] => decodeByte m v fun b => .programByte a b c
    | _ => .error (.operandShape m)
  | .programRange => match ops with
    | [.num s, .bytes bs, .cfg c] => .ok (.programRange s bs c)
    | _ => .error (.operandShape m)
  | .eraseWait => match ops with
    | [] => .ok .eraseWait
    | _ => .error (.operandShape m)
  | .erase => match ops with
    | [] => .ok .erase
    | _ => .error (.operandShape m)
  | .blankCheck => match ops with
    | [.num o, .num n] => .ok (.blankCheck o n)
    | _ => .error (.operandShape m)
  | .writeImage => match ops with
    | [.num o, .bytes bs, .cfg c] => .ok (.writeImage o bs c)
    | _ => .error (.operandShape m)
  | .writeImageSector => match ops with
    | [.num o, .bytes bs, .cfg c] => .ok (.writeImageSector o bs c)
    | _ => .error (.operandShape m)
  | .writeImageByte => match ops with
    | [.num o, .bytes bs, .cfg c] => .ok (.writeImageByte o bs c)
    | _ => .error (.operandShape m)

/-- The three bytes of a SERIAL24 frame as they are sent, high byte first (rules R53, R91). -/
def addrFrame (a : Nat) : List Byte :=
  [BitVec.ofNat 8 (a / 65536), BitVec.ofNat 8 (a / 256), BitVec.ofNat 8 a]

/-- The address of a SERIAL24 frame. -/
def frameAddr (hi mid lo : Byte) : Nat := hi.toNat * 65536 + mid.toNat * 256 + lo.toNat

/-- The frame of bus cycles: SERIAL24 then PAR8 for each, in issue order (rule R94). -/
def cyclesFrame (cs : List BusCycle) : List Byte := cs.flatMap fun c => addrFrame c.1 ++ [c.2]

/-- The twelve bytes of a JEDEC3 sequence, less its command byte (rules R97, R98). -/
def jedec3Prefix : List Byte := cyclesFrame unlockCycles ++ addrFrame decidedCmdAddr.toNat

/-- The row of a command byte: the row that fixes every bit where there is one, else COMMAND (rules R96, R99). -/
def decodeCommandByte (c : Byte) : Instr :=
  if c = cmdIdEntryByte then .cmdIdEntry
  else if c = cmdIdExitByte then .cmdIdExit
  else if c = cmdEraseSetupByte then .cmdEraseSetup
  else if c = cmdChipEraseByte then .cmdChipErase
  else if c = cmdProgramByte then .cmdProgram
  else .command c

/-- A frame of sixteen bytes: PROGRAM_BYTE's four cycles (rule R98). -/
def decodeProgramFrame (frame : List Byte) : Except DecodeError Instr :=
  if frame.take 12 = jedec3Prefix ++ [cmdProgramByte] then
    match frame.drop 12 with
    | [hi, mid, lo, v] => .ok (.programByte (frameAddr hi mid lo) v zeroChip)
    | _ => .error (.frameLength frame.length)
  else .error (.frameBits frame.length)

/-- The bit encodings of the opcode table, told apart by their length and fixed bits. The 32 bits of a BUS cycle are
WRITE_BYTE: READ_BYTE's row has the same length, and its second field is a result. Operands the table leaves
unencoded are 0 (both DESIGN CHOICE, log entry 8). -/
def decodeWire (frame : List Byte) : Except DecodeError Instr :=
  match frame with
  | [hi, mid, lo] => .ok (.writeAddress (frameAddr hi mid lo))
  | [hi, mid, lo, v] => .ok (.writeByte (frameAddr hi mid lo) v 0)
  | _ =>
    if frame.length = 8 then
      if frame = cyclesFrame unlockCycles then .ok .unlock else .error (.frameBits 8)
    else if frame.length = 12 then
      if frame.take 11 = jedec3Prefix then .ok (decodeCommandByte (frame.getD 11 0#8))
      else .error (.frameBits 12)
    else if frame.length = 16 then decodeProgramFrame frame
    else if frame.length = 24 then
      if frame = cyclesFrame (eraseCycles decidedCmdAddr.toNat) then .ok .eraseChip else .error (.frameBits 24)
    else .error (.frameLength frame.length)

/-- The operation a call stands for, or why it stands for none. -/
def decode : Call → Except DecodeError Instr
  | .named m ops => decodeNamed m ops
  | .wire frame => decodeWire frame

/-- The line of the program notation for an operation (rule R101). -/
def encode : Instr → Call
  | .writeAddress a => .named .writeAddress [.num a]
  | .writeByte a v d => .named .writeByte [.num a, .num v.toNat, .num d]
  | .readByte a => .named .readByte [.num a]
  | .unlock => .named .unlock []
  | .command c => .named .command [.num c.toNat]
  | .cmdIdEntry => .named .cmdIdEntry []
  | .cmdIdExit => .named .cmdIdExit []
  | .cmdEraseSetup => .named .cmdEraseSetup []
  | .cmdChipErase => .named .cmdChipErase []
  | .cmdProgram => .named .cmdProgram []
  | .readSoftwareId => .named .readSoftwareId []
  | .identify t => .named .identify [.table t]
  | .eraseChip => .named .eraseChip []
  | .programByte a v cfg => .named .programByte [.num a, .num v.toNat, .cfg cfg]
  | .programRange s bs cfg => .named .programRange [.num s, .bytes bs, .cfg cfg]
  | .eraseWait => .named .eraseWait []
  | .erase => .named .erase []
  | .blankCheck o n => .named .blankCheck [.num o, .num n]
  | .writeImage o bs cfg => .named .writeImage [.num o, .bytes bs, .cfg cfg]
  | .writeImageSector o bs cfg => .named .writeImageSector [.num o, .bytes bs, .cfg cfg]
  | .writeImageByte o bs cfg => .named .writeImageByte [.num o, .bytes bs, .cfg cfg]

/-- The bits that the opcode table gives an operation, as bytes in the order in which they are sent; none for a row
whose encoding is a sequence with reads or a loop. -/
def encodeWire : Instr → Option (List Byte)
  | .writeAddress a => some (addrFrame a)
  | .writeByte a v _ => some (cyclesFrame [(a, v)])
  | .unlock => some (cyclesFrame unlockCycles)
  | .command c => some (cyclesFrame (jedec3Cycles decidedCmdAddr.toNat c))
  | .cmdIdEntry => some (cyclesFrame (jedec3Cycles decidedCmdAddr.toNat cmdIdEntryByte))
  | .cmdIdExit => some (cyclesFrame (jedec3Cycles decidedCmdAddr.toNat cmdIdExitByte))
  | .cmdEraseSetup => some (cyclesFrame (jedec3Cycles decidedCmdAddr.toNat cmdEraseSetupByte))
  | .cmdChipErase => some (cyclesFrame (jedec3Cycles decidedCmdAddr.toNat cmdChipEraseByte))
  | .cmdProgram => some (cyclesFrame (jedec3Cycles decidedCmdAddr.toNat cmdProgramByte))
  | .eraseChip => some (cyclesFrame (eraseCycles decidedCmdAddr.toNat))
  | .programByte a v _ => some (cyclesFrame (programCycles decidedCmdAddr.toNat a v))
  | .readByte _ => none
  | .readSoftwareId => none
  | .identify _ => none
  | .programRange _ _ _ => none
  | .eraseWait => none
  | .erase => none
  | .blankCheck _ _ => none
  | .writeImage _ _ _ => none
  | .writeImageSector _ _ _ => none
  | .writeImageByte _ _ _ => none

/-- What a frame keeps of an operation: the operands the opcode table leaves unencoded become 0, and a command byte
that has a row of its own becomes that row. -/
def wireForm : Instr → Instr
  | .writeByte a v _ => .writeByte a v 0
  | .programByte a v _ => .programByte a v zeroChip
  | .command c => decodeCommandByte c
  | .writeAddress a => .writeAddress a
  | .readByte a => .readByte a
  | .unlock => .unlock
  | .cmdIdEntry => .cmdIdEntry
  | .cmdIdExit => .cmdIdExit
  | .cmdEraseSetup => .cmdEraseSetup
  | .cmdChipErase => .cmdChipErase
  | .cmdProgram => .cmdProgram
  | .readSoftwareId => .readSoftwareId
  | .identify t => .identify t
  | .eraseChip => .eraseChip
  | .programRange s bs cfg => .programRange s bs cfg
  | .eraseWait => .eraseWait
  | .erase => .erase
  | .blankCheck o n => .blankCheck o n
  | .writeImage o bs cfg => .writeImage o bs cfg
  | .writeImageSector o bs cfg => .writeImageSector o bs cfg
  | .writeImageByte o bs cfg => .writeImageByte o bs cfg

/-- The `n` bytes of a number, most significant first: the opcode table puts the first cycle in the most significant
bits (INDEX.md). -/
def frameOfNumber : Nat → Nat → List Byte
  | 0, _ => []
  | n + 1, w => BitVec.ofNat 8 (w / 256 ^ n) :: frameOfNumber n w

/-- The operation that the decoder reads from a word of the opcode table. -/
def decodeTableWord (nbits w : Nat) : Option Instr :=
  match decodeWire (frameOfNumber (nbits / 8) w) with
  | .ok i => some i
  | .error _ => none

/-- The spelling of a mnemonic (rule R90, spec/opcode_table.json). -/
def mnemonicText : Mnemonic → String
  | .writeAddress => "WRITE_ADDRESS"
  | .writeByte => "WRITE_BYTE"
  | .readByte => "READ_BYTE"
  | .unlock => "UNLOCK"
  | .command => "COMMAND"
  | .cmdIdEntry => "CMD_ID_ENTRY"
  | .cmdIdExit => "CMD_ID_EXIT"
  | .cmdEraseSetup => "CMD_ERASE_SETUP"
  | .cmdChipErase => "CMD_CHIP_ERASE"
  | .cmdProgram => "CMD_PROGRAM"
  | .readSoftwareId => "READ_SOFTWARE_ID"
  | .identify => "IDENTIFY"
  | .eraseChip => "ERASE_CHIP"
  | .programByte => "PROGRAM_BYTE"
  | .programRange => "PROGRAM_RANGE"
  | .eraseWait => "ERASE_WAIT"
  | .erase => "ERASE"
  | .blankCheck => "BLANK_CHECK"
  | .writeImage => "WRITE_IMAGE"
  | .writeImageSector => "WRITE_IMAGE.SECTOR"
  | .writeImageByte => "WRITE_IMAGE.BYTE"

/-- Every mnemonic, in the order of the opcode table. -/
def allMnemonics : List Mnemonic :=
  [.writeAddress, .writeByte, .readByte, .unlock, .command, .cmdIdEntry, .cmdIdExit, .cmdEraseSetup, .cmdChipErase,
   .cmdProgram, .readSoftwareId, .identify, .eraseChip, .programByte, .programRange, .eraseWait, .erase, .blankCheck,
   .writeImage, .writeImageSector, .writeImageByte]

/-- A digit of base 16 or less. -/
def digitValue (base : Nat) (c : Char) : Option Nat :=
  let n :=
    if '0' ≤ c ∧ c ≤ '9' then c.toNat - '0'.toNat
    else if 'a' ≤ c ∧ c ≤ 'f' then c.toNat - 'a'.toNat + 10
    else if 'A' ≤ c ∧ c ≤ 'F' then c.toNat - 'A'.toNat + 10
    else base
  if n < base then some n else none

/-- Digits after those already read. -/
def digitsValue (base : Nat) : List Char → Nat → Option Nat
  | [], acc => some acc
  | c :: cs, acc => (digitValue base c).bind fun d => digitsValue base cs (acc * base + d)

/-- A number: hexadecimal with `0x`, or decimal (rule R101). -/
def parseNumber : List Char → Option Nat
  | '0' :: 'x' :: d :: ds => digitsValue 16 (d :: ds) 0
  | d :: ds => digitsValue 10 (d :: ds) 0
  | [] => none

/-- A text without its spaces; the notation gives spaces no meaning inside an operand. -/
def dropSpaces (cs : List Char) : List Char := cs.filter fun c => c ≠ ' '

/-- The parts between commas that stand outside square brackets; `cur` is the part read so far, reversed. -/
def splitOperands : List Char → Bool → List Char → List (List Char)
  | [], _, cur => [cur.reverse]
  | c :: cs, inside, cur =>
    if c = ',' ∧ inside = false then cur.reverse :: splitOperands cs inside []
    else splitOperands cs (if c = '[' then true else if c = ']' then false else inside) (c :: cur)

/-- The parts of a bracketed list, none for the empty list. -/
def splitItems (cs : List Char) : List (List Char) := if cs = [] then [] else splitOperands cs false []

/-- The record that a name stands for in the start state (rule R101). -/
def lookupName (names : List (List Char × ChipConfig)) (word : List Char) : Option ChipConfig :=
  (names.find? fun n => n.1 = word).map Prod.snd

/-- One operand of a line: a number, a byte list, a record's name, or the table of IDENTIFY (rule R101). -/
def parseOperand (names : List (List Char × ChipConfig)) (m : Mnemonic) (word : List Char) : Option Operand :=
  match word with
  | '[' :: rest =>
    if rest.getLast? = some ']' then
      if m = .identify then (splitItems rest.dropLast).mapM (lookupName names) |>.map Operand.table
      else
        ((splitItems rest.dropLast).mapM parseNumber).bind fun ns =>
          if ns.all (fun n => decide (n < 256)) then some (.bytes (ns.map (BitVec.ofNat 8))) else none
    else none
  | _ =>
    match parseNumber word with
    | some n => some (.num n)
    | none => (lookupName names word).map Operand.cfg

/-- The text of a line after its label, if it has one. -/
def dropLabel (line : List Char) : List Char :=
  if line.contains ':' then (line.dropWhile fun c => c ≠ ':').drop 1 else line

/-- A line of the program notation (rule R101): label, mnemonic, operands, comment (DESIGN CHOICE on spacing,
log entry 21). -/
def parseLine (names : List (List Char × ChipConfig)) (line : List Char) : Option Call :=
  let text := (dropLabel (line.takeWhile fun c => c ≠ ';')).dropWhile fun c => c = ' '
  let word := text.takeWhile fun c => c ≠ ' '
  let rest := dropSpaces (text.dropWhile fun c => c ≠ ' ')
  match allMnemonics.find? fun m => (mnemonicText m).toList = word with
  | none => none
  | some m =>
    ((splitItems rest).mapM (parseOperand names m)).map (Call.named m)

end Sys2Proof
end

