-- ==== Sys2Proof/Machine/State.lean ====
section
/-! DEFINITION. The state of the block and of what it is attached to (rules R20 to R35, R240), the events (rule R12),
and the reasons to stop (rules R210, R211). -/

namespace Sys2Proof.Machine

/-- The kind of a port access (rules R12, R212). -/
inductive Access where
  | wrCtrl | wrData | rdStatus
  deriving DecidableEq, Repr

/-- The faults of rule R211. An operation that meets one TAKES it: its meaning answers a next state in which the mark
`faulted` and the outcome record hold the fault (rules R24, R219). The machine answers a stop with this reason when it
is asked to go on AFTER that: "a fault ends the run" (rule R220). Safe: no effect is given that the spec does not
give. -/
inductive Fault where
  /-- Code 1. Raised by every port primitive, when the environment fails the access. -/
  | portIo (kind : Access)
  /-- Code 2. Raised by IDENTIFY, when no table entry has the id read. -/
  | unsupportedChip (id : Id16)
  /-- Code 3. Raised by BLANK_CHECK, at the first byte that is not 0xFF. -/
  | blankCheckMismatch (addr : Nat) (value : Byte)
  deriving DecidableEq, Repr

/-- The refusals of rule R211 and the model's own four. A refusal of rule R211 is TAKEN as a fault is: a next state
with the mark `refused` and the outcome record; the machine answers a stop with the reason when it is asked to go on
after that (rule R24). All are safe: a refusal gives no effect. -/
inductive Refusal where
  /-- The model's own: raised by an arm of `exec` that has no meaning. No arm of this model has it. -/
  | notModelled (mnemonic : String)
  /-- Code 16. Raised by every operation with an address operand (rule R52). -/
  | addrRange (start n : Nat)
  /-- Code 17. Raised by every operation, when the port handle is closed (rule R33). -/
  | handleClosed
  /-- Code 18. Raised by COMMAND, for a byte outside rule R96 (rule R99). -/
  | badCommand (c : Byte)
  /-- Code 19. Raised by every operation, before anything else (rules R32, R215). -/
  | configInvalid (reason : ConfigReason)
  /-- The model's own: raised by WRITE_IMAGE.SECTOR and WRITE_IMAGE.BYTE, when `cfg.sector_size` selects the other
  row of the opcode table. Taken as a refusal of rule R210: the request has no meaning (DESIGN CHOICE, log
  entry 10). -/
  | rowNotSelected (m : Mnemonic)
  /-- The model's own: raised by the step, when the host's call stands for no operation of rule R90 (DESIGN CHOICE,
  log entry 7). -/
  | badCall (e : DecodeError)
  /-- The model's own: raised by the step, when the host's call is an internal operation of rule R90 and the
  state does not expose those (rules R66, R90, R147, item I1: `refuse`; DESIGN CHOICE of the name, log entry 9). Safe:
  nothing runs. -/
  | internalOperation (m : Mnemonic)
  deriving DecidableEq, Repr

/-- The operations that a poll can end (rules R59, R216). -/
inductive LoopOp where
  | eraseWait | blankCheck | writeImage
  deriving DecidableEq, Repr

/-- The result that `Ok` carries (rule R90). -/
inductive Value where
  | none
  | byte (v : Byte)
  | id (v : Id16)
  | chip (cfg : ChipConfig)
  | count (n : Nat)
  deriving DecidableEq, Repr

/-- How an operation ends (rules R13, R210). -/
inductive OpOutcome where
  | ok (v : Value)
  | fault (f : Fault)
  | cancelled (op : LoopOp) (done : Nat)
  | refused (r : Refusal)
  deriving DecidableEq, Repr

/-- The events of rule R12. -/
inductive Event where
  | wrCtrl (b : Byte)
  | wrData (b : Byte)
  | rdStatus (b : Byte)
  | portFail (kind : Access)
  | delay (us : Nat)
  | pollCancel (c : Bool)
  | progress (n : Nat)
  deriving DecidableEq, Repr

/-- The port handle (rule R33). -/
inductive Handle where
  | opened | closed
  deriving DecidableEq, Repr

/-- The environment of rule R5 as plain data: the answers to the accesses to come (DESIGN CHOICE, log entry 3). Each script is a list of runs
`(length, answer)` counted from answer number 0; past its end the answer is a free value of Config. The indices are
the number of answers drawn so far. -/
structure Oracle where
  portScript   : List (Nat × PortDraw)
  statusScript : List (Nat × Byte)
  hostScript   : List (Nat × Bool)
  portIdx      : Nat
  statusIdx    : Nat
  pollIdx      : Nat
  deriving DecidableEq, Repr

/-- The mode of the JEDEC fixture (rule R71). -/
inductive ChipMode where
  | array | id
  deriving DecidableEq, Repr

/-- The JEDEC fixture, less its memory (rules R69, R71). -/
structure JedecChip where
  mode           : ChipMode
  seq            : List (Nat × Byte)
  armed          : Bool
  busy           : Nat
  eraseBusyLoads : Nat
  mfr            : Byte
  dev            : Byte
  deriving DecidableEq, Repr

/-- What answers the status reads: the unconstrained environment of rule R5, or a reference fixture of rules R67 to
R72, whose memory is `State.mem`. -/
inductive Fixture where
  | none
  | ram
  | jedec (chip : JedecChip)
  deriving DecidableEq, Repr

/-- The state. `params`, `fixture`, `mem`, `frameReg`, `oracle`, `calls` and `supplySettled` belong to the block's
surroundings; the rest is the sequencer's (rule R20). -/
structure State where
  /-- The parameters of rule R7. No operation writes them. -/
  params        : Params
  /-- The logical control shadow (rule R20). -/
  ctrl          : Byte
  /-- The data shadow (rules R20, R29). -/
  data          : Byte
  /-- The physical control register (rule R25). -/
  physCtrl      : Byte
  /-- The physical data register (rules R29, R212). -/
  physData      : Byte
  /-- The port handle (rules R20, R33). -/
  handle        : Handle
  /-- The host's cancellation flag (rule R23). -/
  cancelFlag    : Bool
  /-- The fault mark (rule R24). -/
  faulted       : Option Fault
  /-- The refusal mark (rule R24). -/
  refused       : Option Refusal
  /-- The events, oldest first (rules R12, R20). -/
  trace         : List Event
  /-- The outcomes returned to the caller, oldest first (rules R13, R219; log entry 16). -/
  outcomes      : List OpOutcome
  /-- The loop position of an ERASE_WAIT that has not ended: the polls it has completed (rules R22, R171). -/
  active        : Option Nat
  /-- The operations the host has asked for, the next one first (rules R5, R65). -/
  calls         : List Call
  /-- The host reaches the internal operations of rule R90 too, as rule R99 provides for a model that exposes them: the
  setting of the spec's vectors T1 to K15, and of no run of the block (log entry 9). No operation writes it. -/
  internalsExposed : Bool
  /-- The ChipConfig that IDENTIFY returned (rules R240, R242; log entry 17). -/
  identified    : Option ChipConfig
  /-- The supply is raised and has settled for 100 ms (rules R240, R249). No operation writes it (log
  entry 14). -/
  supplySettled : Bool
  /-- The 24-bit shift register on the target side (rules R34, R67, R240). -/
  frameReg      : Addr24
  /-- The bytes of the fixture's memory that are not 0xFF (rules R70, R71). -/
  mem           : List Host.Cell
  /-- What is attached to the port (rules R5, R35, R67). -/
  fixture       : Fixture
  /-- The environment (rule R5). -/
  oracle        : Oracle
  deriving DecidableEq, Repr

/-- The parameters of the machine: open, but for the two that rule R7 decides (log entries 1 and 2). -/
def entryParams : Params :=
  { Config.device with readOrder := .sampleThenPulse, cmdAddr := decidedCmdAddr }

/-- The state at block entry (rule R240): what PowerUp leaves. -/
def State.reset : State where
  params := entryParams
  ctrl := entryCtrl entryParams
  data := 0x00#8
  physCtrl := maskCtrl entryParams (entryCtrl entryParams)
  physData := 0x00#8
  handle := .opened
  cancelFlag := false
  faulted := none
  refused := none
  trace := []
  outcomes := []
  active := none
  calls := []
  internalsExposed := false
  identified := none
  supplySettled := true
  frameReg := Config.entryFrameReg
  mem := []
  fixture := .none
  oracle := { portScript := [], statusScript := [], hostScript := [], portIdx := 0, statusIdx := 0, pollIdx := 0 }

/-- Why an operation stops before its end (rule R13). -/
inductive Stop where
  | fault (f : Fault)
  | cancelled (op : LoopOp) (done : Nat)
  | refused (r : Refusal)
  deriving DecidableEq, Repr

/-- An operation, or a part of one: it runs over the state and gives a value, or it stops, and what encloses it stops
with it (rule R13). -/
abbrev Op (α : Type) := EStateM Stop State α

end Sys2Proof.Machine
end

