-- ==== Sys2Proof/Machine/Flags.lean ====
section
/-! DEFINITION. The flag-like state: the host's cancellation flag (rules R23, R170), the fault and refusal marks
(rule R24) and the outcome codes (rule R211). The block has no condition codes. -/

namespace Sys2Proof.Machine

/-- The answer number `n` of a script of runs. -/
def scriptAt {α : Type} : List (Nat × α) → Nat → Option α
  | [], _ => none
  | (len, x) :: rest, n => if n < len then some x else scriptAt rest (n - len)

/-- Whether the host has set its flag by poll number `n`, since the poll before (rule R170). -/
def hostSets (o : Oracle) (n : Nat) : Bool := (scriptAt o.hostScript n).getD (Config.freeHostSets n)

/-- The flag as the next poll sees it: once set it stays set (rule R23; DESIGN CHOICE, log entry 4). -/
def flagAtPoll (s : State) : Bool := s.cancelFlag || hostSets s.oracle s.oracle.pollIdx

/-- The state with the fault mark set, by the first fault only (rule R24). -/
def markFault (f : Fault) (s : State) : State := { s with faulted := s.faulted.or (some f) }

/-- The state with the refusal mark set, by the first refusal only (rule R24). -/
def markRefused (r : Refusal) (s : State) : State := { s with refused := s.refused.or (some r) }

/-- The codes of the faults (rule R211). -/
def faultCode : Fault → Nat
  | .portIo _ => 1
  | .unsupportedChip _ => 2
  | .blankCheckMismatch _ _ => 3

/-- The codes of the refusals of rule R211; the model's own have none. -/
def refusalCode : Refusal → Option Nat
  | .addrRange _ _ => some 16
  | .handleClosed => some 17
  | .badCommand _ => some 18
  | .configInvalid _ => some 19
  | _ => none

/-- The code of an outcome; `Ok` has none (rule R211). -/
def outcomeCode : OpOutcome → Option Nat
  | .ok _ => none
  | .fault f => some (faultCode f)
  | .cancelled _ _ => some 32
  | .refused r => refusalCode r

end Sys2Proof.Machine
end

