-- ==== Sys2Proof/Machine/Memory.lean ====
section
/-! DEFINITION. The memory of the fixtures (rules R50, R70, R71): a sorted list of the bytes that are not erased. -/

namespace Sys2Proof.Machine

/-- What an address that the list does not name reads as: an erased byte (DESIGN CHOICE, log entry 13). -/
def unlistedByte : Byte := erasedByte

/-- The byte at an address. -/
def memRead : List Host.Cell → Nat → Byte
  | [], _ => unlistedByte
  | (k, v) :: rest, a => if a = k then v else memRead rest a

/-- The list with one address taken out. -/
def memErase : List Host.Cell → Nat → List Host.Cell
  | [], _ => []
  | (k, v) :: rest, a => if a = k then memErase rest a else (k, v) :: memErase rest a

/-- The list with an entry put in front of the first higher address. -/
def memInsert : List Host.Cell → Nat → Byte → List Host.Cell
  | [], a, b => [(a, b)]
  | (k, v) :: rest, a, b => if a < k then (a, b) :: (k, v) :: rest else (k, v) :: memInsert rest a b

/-- Write one byte: the address's entry is taken out, and put in again unless the byte is an erased one. -/
def memWrite (m : List Host.Cell) (a : Nat) (b : Byte) : List Host.Cell :=
  if b = unlistedByte then memErase m a else memInsert (memErase m a) a b

/-- The memory in which every byte is erased (rule R71's chip erase). -/
def memErased : List Host.Cell := []

/-- The canonical form from address `low` on: addresses rise and lie in the address space, and no entry is an
erased byte. -/
def memWfFrom : Nat → List Host.Cell → Bool
  | _, [] => true
  | low, (k, v) :: rest =>
    decide (low ≤ k) && decide (k < addrSpace) && decide (v ≠ unlistedByte) && memWfFrom (k + 1) rest

/-- The canonical form of a memory. -/
def Memory.wf (m : List Host.Cell) : Bool := memWfFrom 0 m

end Sys2Proof.Machine
end

