-- ==== Sys2Proof/Machine/Ops.lean ====
section
/-! DEFINITION. The primitives of rule R11: port accesses (rules R110 to R112), delays (rule R113), polls (rule R170),
progress reports, SetLines (rule R28); taking a fault or a refusal (rules R24, R219); and the frame of a top-level
operation (rules R210, R215). A fault has no return (rule R220), so there is no operation for one. -/

namespace Sys2Proof.Machine

/-- `raise` (rules R11, R219): the fault mark is set and the operation ends; no line is restored, no event emitted. -/
def raise {α : Type} (f : Fault) : Op α := fun s => .error (.fault f) (markFault f s)

/-- `refuse` (rules R11, R219). -/
def refuse {α : Type} (r : Refusal) : Op α := fun s => .error (.refused r) (markRefused r s)

/-- The state with one event more (rule R12). -/
def addEvent (e : Event) (s : State) : State := { s with trace := s.trace ++ [e] }

/-- Append an event. -/
def emit (e : Event) : Op Unit := fun s => .ok () (addEvent e s)

/-- A reference fixture is attached (rules R67 to R71). -/
def attached : Fixture → Bool
  | .none => false
  | .ram => true
  | .jedec _ => true

/-- The environment's answer to port access number `n` (rule R5): what the vector's script says, and where it says
nothing, no failure under a fixture (rule R68) and a free answer without one. -/
def portDrawAt (s : State) (n : Nat) : PortDraw :=
  (scriptAt s.oracle.portScript n).getD (if attached s.fixture then .ok else Config.freePortDraw n)

/-- The byte the status register shows at read number `n` (rules R5, R30). -/
def statusAt (o : Oracle) (n : Nat) : Byte := (scriptAt o.statusScript n).getD (Config.freeStatus n)

/-- One port access more has been answered. -/
def countAccess (s : State) : State :=
  { s with oracle := { s.oracle with portIdx := s.oracle.portIdx + 1 } }

/-- `PortWrCtrl(b)` (rules R110, R212): only SetLines calls it. -/
def portWrCtrl (b : Byte) : Op Unit := fun s =>
  match s.handle with
  | .closed => refuse .handleClosed s
  | .opened =>
    match portDrawAt s s.oracle.portIdx with
    | .ok => .ok () (addEvent (.wrCtrl b) { countAccess s with physCtrl := b })
    | .fail reached =>
      raise (.portIo .wrCtrl) (addEvent (.portFail .wrCtrl)
        { countAccess s with physCtrl := if reached then b else s.physCtrl })

/-- `PortWrData(v)` (rules R29, R111, R212): the shadow follows on success (DEDUCED for the register after
a failure, log entry 18). -/
def portWrData (v : Byte) : Op Unit := fun s =>
  match s.handle with
  | .closed => refuse .handleClosed s
  | .opened =>
    match portDrawAt s s.oracle.portIdx with
    | .ok => .ok () (addEvent (.wrData v) { countAccess s with physData := v, data := v })
    | .fail reached =>
      raise (.portIo .wrData) (addEvent (.portFail .wrData)
        { countAccess s with physData := if reached then v else s.physData })

/-- `PortRdStatus()` (rules R30, R112). A fixture gives the byte it answers with (rule R68); else it is a draw. -/
def portRdStatus (answer : Option Byte) : Op Byte := fun s =>
  match s.handle with
  | .closed => refuse .handleClosed s
  | .opened =>
    match portDrawAt s s.oracle.portIdx with
    | .ok =>
      match answer with
      | some b => .ok b (addEvent (.rdStatus b) (countAccess s))
      | none =>
        let b := statusAt s.oracle s.oracle.statusIdx
        let t := countAccess s
        .ok b (addEvent (.rdStatus b) { t with oracle := { t.oracle with statusIdx := t.oracle.statusIdx + 1 } })
    | .fail _ => raise (.portIo .rdStatus) (addEvent (.portFail .rdStatus) (countAccess s))

/-- `Delay(us)` (rule R113): an event and nothing else (log entry 19: no clock). -/
def delay (us : Nat) : Op Unit := emit (.delay us)

/-- `Progress(n)` (rules R11, R177). -/
def progress (n : Nat) : Op Unit := emit (.progress n)

/-- `PollCancel()` (rule R170). -/
def pollCancel : Op Bool := fun s =>
  .ok (flagAtPoll s) (addEvent (.pollCancel (flagAtPoll s))
    { s with cancelFlag := flagAtPoll s, oracle := { s.oracle with pollIdx := s.oracle.pollIdx + 1 } })

/-- A loop head: poll, and end as Cancelled if the flag is set (rules R13, R216). -/
def pollOrCancel (op : LoopOp) (completed : Nat) : Op Unit := fun s =>
  match pollCancel s with
  | .ok true t => .error (.cancelled op completed) t
  | .ok false t => .ok () t
  | .error e t => .error e t

/-- `SetLines` (rule R28): the shadow takes the levels, then one control write gives the physical byte. -/
def setLines (levels : List (Role × Bool)) : Op Unit := fun s =>
  portWrCtrl (maskCtrl s.params (setLineList s.params levels s.ctrl))
    { s with ctrl := setLineList s.params levels s.ctrl }

/-- The transport's step delay (rules R116, R118, R251). -/
def stepDelay : Op Unit := fun s => delay s.params.tStepUs s

/-- SetLines and the step delay after it. -/
def setLinesAndWait (levels : List (Role × Bool)) : Op Unit := do
  setLines levels
  stepDelay

/-- Refuse an address at or above 2^24 (rule R52). -/
def checkAddr (a : Nat) : Op Unit := if addrOk a then pure () else refuse (.addrRange a 1)

/-- Refuse a range that passes 2^24 (rule R52). -/
def checkRange (start n : Nat) : Op Unit := if rangeOk start n then pure () else refuse (.addrRange start n)

/-- Refuse a bad chip record (rules R8, R32, R215). -/
def chipProblem (cfg : ChipConfig) : Option ConfigReason :=
  if sectorSizeOk cfg then none else some (.badSectorSize cfg.sectorSize.toNat)

/-- The checks that come before an operation's own: the configuration, its own records among it, and then the
handle (rules R33, R215; DEDUCED, log entry 11). -/
def checkCall (own : Option ConfigReason) : Op Unit := fun s =>
  match (paramsProblem s.params).or own with
  | some reason => refuse (.configInvalid reason) s
  | none =>
    match s.handle with
    | .closed => refuse .handleClosed s
    | .opened => .ok () s

/-- How far an operation has come when a step of it ends: done, or in ERASE_WAIT's loop with a number of polls
completed (rule R22). -/
inductive Verdict where
  | done (v : Value)
  | again (polls : Nat)
  deriving DecidableEq, Repr

/-- The outcome record that a stopped operation leaves (rules R210, R219). -/
def stopOutcome : Stop → OpOutcome
  | .fault f => .fault f
  | .cancelled op n => .cancelled op n
  | .refused r => .refused r

/-- The state that an operation leaves: its outcome goes to the caller, or its loop position stays (rules R13, R22). -/
def conclude : EStateM.Result Stop State Verdict → State
  | .ok (.done v) s => { s with outcomes := s.outcomes ++ [.ok v], active := none }
  | .ok (.again n) s => { s with active := some n }
  | .error e s => { s with outcomes := s.outcomes ++ [stopOutcome e], active := none }

/-- Once a mark is set the sequencer does nothing more in the run (rules R24, R220); else the answer is `k`. -/
def ifRunning (s : State) (k : Host.Outcome State Fault Refusal) : Host.Outcome State Fault Refusal :=
  match s.faulted with
  | some f => .fault f
  | none =>
    match s.refused with
    | some r => .refused r
    | none => k

/-- A top-level operation: the common checks, then its body, then its outcome (rules R210, R215). -/
def perform (own : Option ConfigReason) (body : Op Verdict) (s : State) : Host.Outcome State Fault Refusal :=
  ifRunning s (.next (conclude ((do checkCall own; body) s)))

/-- A body that gives no value. -/
def done (body : Op Unit) : Op Verdict := do
  body
  pure (.done .none)

end Sys2Proof.Machine
end

