-- ==== Sys2Proof/Machine/Fixture.lean ====
section
/-! DEFINITION. The reference fixtures (rules R67 to R72): environment oracles for vectors, no part of the block. With
no fixture attached nothing here changes or constrains anything. -/

namespace Sys2Proof.Machine

/-- R67's shift register after one more rising SCK edge. -/
def shiftIn (sr : Addr24) (sda : Bool) : Addr24 := (sr <<< 1) ||| (if sda then 1#24 else 0#24)

/-- The target takes SDA at the rising edge of an address slot (rule R67; DEDUCED, log entry 12). -/
def latchSda : Op Unit := fun s =>
  .ok () { s with frameReg := shiftIn s.frameReg (getLine s.params .sda s.ctrl) }

/-- The erase sequence of the JEDEC fixture; its command address is 0x5555 (rule R71). -/
def fixtureErase : List BusCycle := eraseCycles decidedCmdAddr.toNat

/-- A sequence that the fixture keeps: a proper prefix of U and a third cycle at 0x5555, or of the erase sequence
(rule R71; DEDUCED, log entry 12). -/
def isKeptPrefix (seq : List BusCycle) : Bool :=
  (decide (seq.length < 3) && seq.isPrefixOf unlockCycles)
    || (decide (seq.length < fixtureErase.length) && seq.isPrefixOf fixtureErase)

/-- The JEDEC fixture as it starts (rule R71: `seq` empty, `armed` false, `busy` 0; rule R240: array mode), with its
parameters. -/
def freshChip (eraseBusyLoads : Nat) (mfr dev : Byte) : JedecChip :=
  { mode := .array, seq := [], armed := false, busy := 0, eraseBusyLoads := eraseBusyLoads, mfr := mfr, dev := dev }

/-- One bus write cycle to the JEDEC fixture (rules R71, R72): the memory and the chip afterwards. -/
def jedecWrite (mem : List Host.Cell) (chip : JedecChip) (a : Nat) (v : Byte) : List Host.Cell × JedecChip :=
  if chip.busy > 0 then (mem, chip)
  else if chip.armed then (memWrite mem a v, { chip with armed := false })
  else
    let seq := chip.seq ++ [(a, v)]
    if isKeptPrefix seq then (mem, { chip with seq := seq })
    else if seq = jedec3Cycles decidedCmdAddr.toNat cmdIdEntryByte then (mem, { chip with mode := .id, seq := [] })
    else if seq = jedec3Cycles decidedCmdAddr.toNat cmdIdExitByte then (mem, { chip with mode := .array, seq := [] })
    else if seq = jedec3Cycles decidedCmdAddr.toNat cmdProgramByte ∧ chip.mode = .array then
      (mem, { chip with armed := true, seq := [] })
    else if seq = fixtureErase then (memErased, { chip with busy := chip.eraseBusyLoads, seq := [] })
    else (mem, { chip with seq := [] })

/-- One read of the JEDEC fixture (rule R71): the byte and the chip afterwards. -/
def jedecRead (mem : List Host.Cell) (chip : JedecChip) (a : Nat) : Byte × JedecChip :=
  if chip.busy > 0 then
    (if (chip.eraseBusyLoads - chip.busy) % 2 = 0 then 0xBF#8 else 0xFF#8, { chip with busy := chip.busy - 1 })
  else
    match chip.mode with
    | .id => (if a = 0 then chip.mfr else if a = 1 then chip.dev else 0x00#8, chip)
    | .array => (memRead mem a, chip)

/-- `BusWrite` at the address the shift register holds (rules R67, R68, R70, R71). -/
def busWrite (v : Byte) : Op Unit := fun s =>
  match s.fixture with
  | .none => .ok () s
  | .ram => .ok () { s with mem := memWrite s.mem s.frameReg.toNat v }
  | .jedec chip =>
    let r := jedecWrite s.mem chip s.frameReg.toNat v
    .ok () { s with mem := r.1, fixture := .jedec r.2 }

/-- `BusRead` at the address the shift register holds; no fixture, no answer (rules R67, R68, R70, R71). -/
def busRead : Op (Option Byte) := fun s =>
  match s.fixture with
  | .none => .ok none s
  | .ram => .ok (some (memRead s.mem s.frameReg.toNat)) s
  | .jedec chip =>
    let r := jedecRead s.mem chip s.frameReg.toNat
    .ok (some r.1) { s with fixture := .jedec r.2 }

/-- The status byte with which a fixture shows bit `i` of the byte it returns: inverted at `SIN_BIT`, the other bits
0 (rule R68). -/
def fixtureStatus (p : Params) (u : Byte) (i : Nat) : Byte := setBit 0x00#8 p.sinBit (!u.getLsbD i)

end Sys2Proof.Machine
end

