-- ==== Sys2Proof/Machine/Transport.lean ====
section
/-! DEFINITION. The transport: WRITE_ADDRESS, WRITE_BYTE, READ_BYTE (rules R116 to R119). -/

namespace Sys2Proof.Machine

/-- One address slot: SDA holds the bit while SCK makes a low, high, low pulse (rules R91, R116). -/
def addressSlot (bit : Bool) : Op Unit := do
  setLinesAndWait [(.sda, bit), (.sck, false)]
  setLines [(.sck, true)]
  latchSda
  stepDelay
  setLinesAndWait [(.sck, false)]

/-- The slots of address bits `n - 1` down to 0 (rules R53, R91). -/
def addressSlots (a : Nat) : Nat → Op Unit
  | 0 => pure ()
  | n + 1 => do
    addressSlot (a.testBit n)
    addressSlots a n

/-- WRITE_ADDRESS a (rule R116): 24 slots whatever the chip. -/
def writeAddress (a : Nat) : Op Unit := do
  checkAddr a
  addressSlots a 24

/-- WRITE_BYTE a, v, d (rule R117). -/
def writeByte (a : Nat) (v : Byte) (d : Nat) : Op Unit := do
  writeAddress a
  portWrData v
  setLines [(.pgm, true)]
  setLines [(.wr, false)]
  delay d
  setLines [(.wr, true)]
  busWrite v

/-- One step of the read handshake (rule R118). -/
def handshakeStep (h : HandshakeStep) : Op Unit := setLinesAndWait [(.hsa, h.hsa), (.hsb, h.hsb)]

/-- The three-step handshake, `HS_SEQ` (rule R118). -/
def handshake : Op Unit := fun s => (do
  handshakeStep s.params.hs0
  handshakeStep s.params.hs1
  handshakeStep s.params.hs2 : Op Unit) s

/-- One pulse of the read clock (rules R93, R118). -/
def readPulse : Op Unit := do
  setLinesAndWait [(.sck, true)]
  setLinesAndWait [(.sck, false)]

/-- One status read and the logical bit it shows, for bit `i` of the byte a fixture returns, if one does (rules R30,
R68). -/
def sampleStatus (fixed : Option Byte) (i : Nat) : Op Bool := fun s => (do
  let b ← portRdStatus (fixed.map fun u => fixtureStatus s.params u i)
  pure (sampleBit s.params b) : Op Bool) s

/-- One sample and its clock pulse, in the order of `READ_ORDER` (rule R118). -/
def sampleAndPulse (fixed : Option Byte) (i : Nat) : Op Bool := fun s =>
  match s.params.readOrder with
  | .sampleThenPulse => (do
      let bit ← sampleStatus fixed i
      readPulse
      pure bit : Op Bool) s
  | .pulseThenSample => (do
      readPulse
      sampleStatus fixed i : Op Bool) s

/-- The samples of bits `n - 1` down to 0, put into the accumulator (rules R54, R93). -/
def readBits (fixed : Option Byte) : Nat → Byte → Op Byte
  | 0, acc => pure acc
  | n + 1, acc => do
    let bit ← sampleAndPulse fixed n
    readBits fixed n (setBit acc n bit)

/-- READ_BYTE a (rule R118). -/
def readByte (a : Nat) : Op Byte := do
  writeAddress a
  handshake
  let fixed ← busRead
  readBits fixed 8 0x00#8

/-- The meaning of WRITE_ADDRESS. -/
def execWriteAddress (a : Nat) (s : State) : Host.Outcome State Fault Refusal :=
  perform none (done (writeAddress a)) s

/-- The meaning of WRITE_BYTE. -/
def execWriteByte (a : Nat) (v : Byte) (d : Nat) (s : State) : Host.Outcome State Fault Refusal :=
  perform none (done (writeByte a v d)) s

/-- The meaning of READ_BYTE. -/
def execReadByte (a : Nat) (s : State) : Host.Outcome State Fault Refusal :=
  perform none (do let v ← readByte a; pure (.done (.byte v))) s

end Sys2Proof.Machine
end

