-- ==== Sys2Proof/Machine/Command.lean ====
section
/-! DEFINITION. The JEDEC command protocol (rules R140 to R147) and the command rows of rule R96. -/

namespace Sys2Proof.Machine

/-- A bus write cycle of a command sequence, with the command settle time (rules R95, R102). -/
def commandCycle (a : Nat) (v : Byte) : Op Unit := fun s => writeByte a v s.params.cmdSettleUs s

/-- UNLOCK (rule R140). -/
def unlock : Op Unit := do
  commandCycle unlockAddr1 unlockData1
  commandCycle unlockAddr2 unlockData2

/-- The cycle that carries a command byte, at `CMD_ADDR` (rule R141). -/
def commandByteCycle (c : Byte) : Op Unit := fun s => commandCycle s.params.cmdAddr.toNat c s

/-- Refuse a command byte outside rule R96 (rule R99). -/
def checkCommand (c : Byte) : Op Unit := if isCommandByte c then pure () else refuse (.badCommand c)

/-- COMMAND c (rules R99, R141): another byte is refused before any event. -/
def command (c : Byte) : Op Unit := do
  checkCommand c
  unlock
  commandByteCycle c

/-- READ_SOFTWARE_ID (rule R142). -/
def readSoftwareId : Op Id16 := do
  command cmdIdEntryByte
  delay swidSettleUs
  let hi ← readByte 0
  let lo ← readByte 1
  command cmdIdExitByte
  pure (joinId hi lo)

/-- IDENTIFY's record of what it returned (rules R240, R242). -/
def setIdentified (cfg : ChipConfig) : Op Unit := fun s => .ok () { s with identified := some cfg }

/-- The lookup of IDENTIFY (rules R143, R213): there is no default entry. -/
def matchChip (table : List ChipConfig) (id : Id16) : Op ChipConfig :=
  match lookupChip table id with
  | some cfg => do
    setIdentified cfg
    pure cfg
  | none => raise (.unsupportedChip id)

/-- IDENTIFY table (rule R143): the id is looked up in this operand. That the operand need not be the parameter
CHIP_TABLE of rule R7 is a DESIGN CHOICE, log entry 22. -/
def identify (table : List ChipConfig) : Op ChipConfig := do
  let id ← readSoftwareId
  matchChip table id

/-- ERASE_CHIP (rule R144): it does not wait. -/
def eraseChip : Op Unit := do
  command cmdEraseSetupByte
  command cmdChipEraseByte

/-- PROGRAM_BYTE a, v, cfg (rule R145). -/
def programByte (a : Nat) (v : Byte) (cfg : ChipConfig) : Op Unit := do
  checkAddr a
  command cmdProgramByte
  writeByte a v cfg.maxWriteUsec.toNat

/-- The bytes of a range, each with its own unlock and program command (rule R146). -/
def programBytes (cfg : ChipConfig) : Nat → List Byte → Op Unit
  | _, [] => pure ()
  | a, v :: vs => do
    programByte a v cfg
    programBytes cfg (a + 1) vs

/-- PROGRAM_RANGE s, bytes, cfg (rule R146): the range is checked whole. -/
def programRange (start : Nat) (bytes : List Byte) (cfg : ChipConfig) : Op Unit := do
  checkRange start bytes.length
  programBytes cfg start bytes

/-- The meaning of UNLOCK. -/
def execUnlock (s : State) : Host.Outcome State Fault Refusal := perform none (done unlock) s

/-- The meaning of COMMAND. -/
def execCommand (c : Byte) (s : State) : Host.Outcome State Fault Refusal := perform none (done (command c)) s

/-- The meaning of CMD_ID_ENTRY: enter Software ID mode (rule R96). -/
def execCmdIdEntry (s : State) : Host.Outcome State Fault Refusal := perform none (done (command cmdIdEntryByte)) s

/-- The meaning of CMD_ID_EXIT: exit Software ID mode (rule R96). -/
def execCmdIdExit (s : State) : Host.Outcome State Fault Refusal := perform none (done (command cmdIdExitByte)) s

/-- The meaning of CMD_ERASE_SETUP: the first phase of the erase (rule R96). -/
def execCmdEraseSetup (s : State) : Host.Outcome State Fault Refusal :=
  perform none (done (command cmdEraseSetupByte)) s

/-- The meaning of CMD_CHIP_ERASE: the second phase of the erase (rule R96). -/
def execCmdChipErase (s : State) : Host.Outcome State Fault Refusal :=
  perform none (done (command cmdChipEraseByte)) s

/-- The meaning of CMD_PROGRAM: the program-one-byte command, less its data cycle (rule R96). -/
def execCmdProgram (s : State) : Host.Outcome State Fault Refusal := perform none (done (command cmdProgramByte)) s

/-- The meaning of READ_SOFTWARE_ID. -/
def execReadSoftwareId (s : State) : Host.Outcome State Fault Refusal :=
  perform none (do let v ← readSoftwareId; pure (.done (.id v))) s

/-- The meaning of IDENTIFY; its table is a configuration (rule R32). -/
def execIdentify (table : List ChipConfig) (s : State) : Host.Outcome State Fault Refusal :=
  perform (tableProblem table) (do let cfg ← identify table; pure (.done (.chip cfg))) s

/-- The meaning of ERASE_CHIP. -/
def execEraseChip (s : State) : Host.Outcome State Fault Refusal := perform none (done eraseChip) s

/-- The meaning of PROGRAM_BYTE. -/
def execProgramByte (a : Nat) (v : Byte) (cfg : ChipConfig) (s : State) : Host.Outcome State Fault Refusal :=
  perform (chipProblem cfg) (done (programByte a v cfg)) s

/-- The meaning of PROGRAM_RANGE. -/
def execProgramRange (start : Nat) (bytes : List Byte) (cfg : ChipConfig) (s : State) :
    Host.Outcome State Fault Refusal :=
  perform (chipProblem cfg) (done (programRange start bytes cfg)) s

end Sys2Proof.Machine
end

