-- ==== Sys2Proof/Machine/Sequencer.lean ====
section
/-! DEFINITION. The loops that issue commands: ERASE_WAIT, ERASE, BLANK_CHECK, WRITE_IMAGE and its two modes
(rules R170 to R179). -/

namespace Sys2Proof.Machine

/-- One iteration of ERASE_WAIT's loop with `polls` completed (rule R171): only two erased reads end it. -/
def eraseWaitIteration (polls : Nat) : Op Verdict := do
  pollOrCancel .eraseWait polls
  delay erasePollUs
  let v1 ← readByte 0
  let v2 ← readByte 0
  pure (if v1 = erasedByte ∧ v2 = erasedByte then .done .none else .again (polls + 1))

/-- ERASE up to the end of its first poll iteration (rule R172). -/
def eraseStart : Op Verdict := do
  eraseChip
  eraseWaitIteration 0

/-- The test of one byte (rules R173, R214): another value than 0xFF is a fault with its address. -/
def expectErased (addr : Nat) (v : Byte) : Op Unit :=
  if v = erasedByte then pure () else raise (.blankCheckMismatch addr v)

/-- Report `n` bytes if a report is due (rule R177). -/
def reportIf (due : Bool) (n : Nat) : Op Unit := if due then progress n else pure ()

/-- BLANK_CHECK's loop: `n` bytes are left, from cursor `i` on (rule R173). -/
def blankBytes (offset : Nat) : Nat → Nat → Op Unit
  | 0, _ => pure ()
  | n + 1, i => do
    pollOrCancel .blankCheck i
    let v ← readByte (offset + i)
    expectErased (offset + i) v
    reportIf (decide ((i + 1) % progressStep = 0)) (i + 1)
    blankBytes offset n (i + 1)

/-- BLANK_CHECK offset, size (rule R173). -/
def blankCheck (offset size : Nat) : Op Unit := do
  checkRange offset size
  blankBytes offset size 0

/-- One chunk of sector mode (rule R175): a chunk of erased bytes issues nothing, another one burst and one sleep. -/
def programChunk (a : Nat) (chunk : List Byte) (cfg : ChipConfig) : Op Unit :=
  if hasProgrammed chunk then do
    programRange a chunk cfg
    delay cfg.maxWriteUsec.toNat
  else pure ()

/-- Sector mode's loop over its chunks, from cursor `t` on (rule R175). -/
def writeSectors (offset : Nat) (cfg : ChipConfig) : List (List Byte) → Nat → Op Nat
  | [], t => pure t
  | chunk :: chunks, t => do
    pollOrCancel .writeImage t
    programChunk (offset + t) chunk cfg
    progress (t + chunk.length)
    writeSectors offset cfg chunks (t + chunk.length)

/-- WRITE_IMAGE in sector mode, after the range check (rule R175). -/
def writeSectorMode (offset : Nat) (src : List Byte) (cfg : ChipConfig) : Op Nat :=
  writeSectors offset cfg (chunksOf cfg.sectorSize.toNat src.length src) 0

/-- One byte of byte mode (rule R176): an erased byte issues nothing, another one program cycle and one sleep. -/
def programUnlessErased (a : Nat) (b : Byte) (cfg : ChipConfig) : Op Unit :=
  if b = erasedByte then pure ()
  else do
    programByte a b cfg
    delay cfg.maxWriteUsec.toNat

/-- Byte mode's loop over the source bytes, from cursor `t` on, of `n` bytes in all (rule R176). -/
def writeBytes (offset n : Nat) (cfg : ChipConfig) : List Byte → Nat → Op Nat
  | [], t => pure t
  | b :: bs, t => do
    pollOrCancel .writeImage t
    programUnlessErased (offset + t) b cfg
    reportIf (decide ((t + 1) % byteModeChunk = 0 ∨ t + 1 = n)) (t + 1)
    writeBytes offset n cfg bs (t + 1)

/-- WRITE_IMAGE in byte mode, after the range check (rule R176). -/
def writeByteMode (offset : Nat) (src : List Byte) (cfg : ChipConfig) : Op Nat :=
  writeBytes offset src.length cfg src 0

/-- The mode that `cfg.sector_size` selects (rule R174). -/
def writeSelectedMode (offset : Nat) (src : List Byte) (cfg : ChipConfig) : Op Nat :=
  if cfg.sectorSize.toNat = 0 then writeByteMode offset src cfg else writeSectorMode offset src cfg

/-- WRITE_IMAGE offset, src, cfg (rule R174). -/
def writeImage (offset : Nat) (src : List Byte) (cfg : ChipConfig) : Op Nat := do
  checkRange offset src.length
  writeSelectedMode offset src cfg

/-- Refuse a row of the opcode table that `cfg.sector_size` does not select. -/
def checkRow (m : Mnemonic) (selected : Bool) : Op Unit := if selected then pure () else refuse (.rowNotSelected m)

/-- The row WRITE_IMAGE.SECTOR, which a nonzero `sector_size` selects. -/
def writeImageSector (offset : Nat) (src : List Byte) (cfg : ChipConfig) : Op Nat := do
  checkRange offset src.length
  checkRow .writeImageSector (decide (cfg.sectorSize.toNat ≠ 0))
  writeSectorMode offset src cfg

/-- The row WRITE_IMAGE.BYTE, which `sector_size = 0` selects. -/
def writeImageByte (offset : Nat) (src : List Byte) (cfg : ChipConfig) : Op Nat := do
  checkRange offset src.length
  checkRow .writeImageByte (decide (cfg.sectorSize.toNat = 0))
  writeByteMode offset src cfg

/-- A body whose value is a transferred count (rule R179). -/
def counted (body : Op Nat) : Op Verdict := do
  let t ← body
  pure (.done (.count t))

/-- The meaning of ERASE_WAIT: its first iteration; `resumeEraseWait` is each later one. -/
def execEraseWait (s : State) : Host.Outcome State Fault Refusal := perform none (eraseWaitIteration 0) s

/-- The meaning of ERASE: ERASE_CHIP and the first iteration of ERASE_WAIT. -/
def execErase (s : State) : Host.Outcome State Fault Refusal := perform none eraseStart s

/-- The next iteration of an ERASE_WAIT that has not ended (rules R22, R171): the operation has been checked when it
started. -/
def resumeEraseWait (polls : Nat) (s : State) : Host.Outcome State Fault Refusal :=
  ifRunning s (.next (conclude (eraseWaitIteration polls s)))

/-- The meaning of BLANK_CHECK. -/
def execBlankCheck (offset size : Nat) (s : State) : Host.Outcome State Fault Refusal :=
  perform none (done (blankCheck offset size)) s

/-- The meaning of WRITE_IMAGE. -/
def execWriteImage (offset : Nat) (src : List Byte) (cfg : ChipConfig) (s : State) :
    Host.Outcome State Fault Refusal :=
  perform (chipProblem cfg) (counted (writeImage offset src cfg)) s

/-- The meaning of WRITE_IMAGE.SECTOR. -/
def execWriteImageSector (offset : Nat) (src : List Byte) (cfg : ChipConfig) (s : State) :
    Host.Outcome State Fault Refusal :=
  perform (chipProblem cfg) (counted (writeImageSector offset src cfg)) s

/-- The meaning of WRITE_IMAGE.BYTE. -/
def execWriteImageByte (offset : Nat) (src : List Byte) (cfg : ChipConfig) (s : State) :
    Host.Outcome State Fault Refusal :=
  perform (chipProblem cfg) (counted (writeImageByte offset src cfg)) s

end Sys2Proof.Machine
end

