-- ==== Sys2Proof/Machine/Dispatch.lean ====
section
/-! DEFINITION. One arm per operation: the meaning of each row of the opcode table. -/

namespace Sys2Proof.Machine

def exec (i : Instr) (s : State) : Host.Outcome State Fault Refusal :=
  match i with
  | .writeAddress a => Sys2Proof.Machine.execWriteAddress a s
  | .writeByte a v d => Sys2Proof.Machine.execWriteByte a v d s
  | .readByte a => Sys2Proof.Machine.execReadByte a s
  | .unlock => Sys2Proof.Machine.execUnlock s
  | .command c => Sys2Proof.Machine.execCommand c s
  | .cmdIdEntry => Sys2Proof.Machine.execCmdIdEntry s
  | .cmdIdExit => Sys2Proof.Machine.execCmdIdExit s
  | .cmdEraseSetup => Sys2Proof.Machine.execCmdEraseSetup s
  | .cmdChipErase => Sys2Proof.Machine.execCmdChipErase s
  | .cmdProgram => Sys2Proof.Machine.execCmdProgram s
  | .readSoftwareId => Sys2Proof.Machine.execReadSoftwareId s
  | .identify table => Sys2Proof.Machine.execIdentify table s
  | .eraseChip => Sys2Proof.Machine.execEraseChip s
  | .programByte a v cfg => Sys2Proof.Machine.execProgramByte a v cfg s
  | .programRange start bytes cfg => Sys2Proof.Machine.execProgramRange start bytes cfg s
  | .eraseWait => Sys2Proof.Machine.execEraseWait s
  | .erase => Sys2Proof.Machine.execErase s
  | .blankCheck offset size => Sys2Proof.Machine.execBlankCheck offset size s
  | .writeImage offset src cfg => Sys2Proof.Machine.execWriteImage offset src cfg s
  | .writeImageSector offset src cfg => Sys2Proof.Machine.execWriteImageSector offset src cfg s
  | .writeImageByte offset src cfg => Sys2Proof.Machine.execWriteImageByte offset src cfg s

end Sys2Proof.Machine
end

