-- ==== Sys2Proof/Machine/Fetch.lean ====
section
/-! DEFINITION. Where the next operation comes from: the host's calls, in order (rules R5, R22, R65). -/

namespace Sys2Proof.Machine

/-- The host's next call, and the state in which it has been handed over; none when the host asks for nothing. -/
def fetchCall (s : State) : Option (Call × State) :=
  match s.calls with
  | [] => none
  | c :: rest => some (c, { s with calls := rest })

/-- The host's interface (rules R66, R90, R99): an internal operation is a call only where those are exposed. -/
def mayCall (s : State) (i : Instr) : Bool := s.internalsExposed || hostMayCall i

/-- A frame is that of an internal operation. -/
def isInternalFrame (frame : List Byte) : Bool :=
  match decodeWire frame with
  | .ok i => !hostMayCall i
  | .error _ => false

/-- The state in which the next call is a given frame and no loop is in progress; an internal operation is exposed, for
else its row could not be run by itself (DESIGN CHOICE, log entries 6 and 9). -/
def placeFrame (frame : List Byte) (s : State) : State :=
  { s with
    calls := .wire frame :: s.calls, active := none
    internalsExposed := s.internalsExposed || isInternalFrame frame }

/-- The state in which the host's calls are the lines of a program (rule R101); none if a line is no call. -/
def loadProgram (names : List (List Char × ChipConfig)) (lines : List (List Char)) (s : State) : Option State :=
  (lines.mapM (parseLine names)).map fun cs => { s with calls := cs }

end Sys2Proof.Machine
end

