-- ==== Sys2Proof/Machine/Step.lean ====
section
/-! DEFINITION. One step of the machine: one operation of the host's, or one iteration of an ERASE_WAIT in progress. -/

namespace Sys2Proof.Machine

/-- Once a mark is set the run is over (rules R24, R220). An ERASE_WAIT in progress goes on (rule R171); else the host's
next call runs, if the host may call it: a call of an internal operation is refused by name (rules R66, R90, R244, item
I1; log entry 9), and so is one that stands for no operation. With no call the block waits and emits nothing (rule R5;
DEDUCED, log entry 7). What one step holds is a DESIGN CHOICE, log entry 5. -/
def step (s : State) : Host.Outcome State Fault Refusal :=
  match s.active with
  | some polls => resumeEraseWait polls s
  | none =>
    match fetchCall s with
    | none => ifRunning s (.next s)
    | some (c, t) =>
      match decode c with
      | .ok i => if mayCall s i then exec i t else ifRunning s (.refused (.internalOperation i.mnemonic))
      | .error e => ifRunning s (.refused (.badCall e))

/-- `s` with a word of the opcode table as the host's next call. -/
def State.withFetchWord (s : State) (nbits w : Nat) : State := placeFrame (frameOfNumber (nbits / 8) w) s

end Sys2Proof.Machine
end

