-- ==== Sys2Proof/Machine/Trace.lean ====
section
/-! DEFINITION. What the event trace says (rule R12): how many events of each kind (rules R120, R148), the SDA levels at
the rising SCK edges (rules R67, R91), and the bus write cycles on the wire (rule R94). Nothing here is read by an
operation. -/

namespace Sys2Proof.Machine

/-- The events that a transition from `s` to `t` appended. -/
def newEvents (s t : State) : List Event := t.trace.drop s.trace.length

/-- Numbers of events, by kind. -/
structure EventCounts where
  wrCtrl     : Nat
  wrData     : Nat
  rdStatus   : Nat
  portFail   : Nat
  delay      : Nat
  pollCancel : Nat
  progress   : Nat
  deriving DecidableEq, Repr

/-- No event. -/
def noEvents : EventCounts := ⟨0, 0, 0, 0, 0, 0, 0⟩

/-- The counts with one event more. -/
def countEvent (c : EventCounts) : Event → EventCounts
  | .wrCtrl _ => { c with wrCtrl := c.wrCtrl + 1 }
  | .wrData _ => { c with wrData := c.wrData + 1 }
  | .rdStatus _ => { c with rdStatus := c.rdStatus + 1 }
  | .portFail _ => { c with portFail := c.portFail + 1 }
  | .delay _ => { c with delay := c.delay + 1 }
  | .pollCancel _ => { c with pollCancel := c.pollCancel + 1 }
  | .progress _ => { c with progress := c.progress + 1 }

/-- The number of events of each kind in a list. -/
def countEvents (es : List Event) : EventCounts := es.foldl countEvent noEvents

/-- What an observer of the wire knows: the level of SCK and the last 24 bits clocked in. -/
structure WireView where
  sck : Bool
  sr  : Addr24
  deriving DecidableEq, Repr

/-- The view at a state: the lines as last written. -/
def wireView (s : State) : WireView := { sck := getLine s.params .sck s.ctrl, sr := s.frameReg }

/-- The view after an event: at a rising edge of SCK the SDA level is shifted in (rule R67). -/
def viewAfter (p : Params) (w : WireView) : Event → WireView
  | .wrCtrl b =>
    let level := getLine p .sck (maskCtrl p b)
    let sda := getLine p .sda (maskCtrl p b)
    if level && !w.sck then { sck := level, sr := (w.sr <<< 1) ||| (BitVec.ofBool sda).setWidth 24 }
    else { w with sck := level }
  | _ => w

/-- The SDA levels at the rising edges of SCK, the first edge first. -/
def sdaAtEdges (p : Params) : WireView → List Event → List Bool
  | _, [] => []
  | w, .wrCtrl b :: es =>
    let level := getLine p .sck (maskCtrl p b)
    (if level && !w.sck then [getLine p .sda (maskCtrl p b)] else []) ++ sdaAtEdges p (viewAfter p w (.wrCtrl b)) es
  | w, _ :: es => sdaAtEdges p w es

/-- The bus write cycles: each data write, with the 24 bits clocked in before it (rule R94). -/
def busCycles (p : Params) : WireView → List Event → List BusCycle
  | _, [] => []
  | w, .wrData v :: es => (w.sr.toNat, v) :: busCycles p w es
  | w, e :: es => busCycles p (viewAfter p w e) es

/-- The durations of the delays, in order. -/
def delaysOf (es : List Event) : List Nat :=
  es.filterMap fun e => match e with
    | .delay us => some us
    | _ => none

/-- The durations for which WR is held deasserted in bus write cycles: the delay after a data write and the two
control writes that follow it (rules R117, R246). -/
def windowDelays : List Event → List Nat
  | .wrData _ :: .wrCtrl _ :: .wrCtrl _ :: .delay us :: es => us :: windowDelays es
  | _ :: es => windowDelays es
  | [] => []

/-- The events other than delays (rule R12: a claim may project the delays away). -/
def withoutDelays (es : List Event) : List Event :=
  es.filter fun e => match e with
    | .delay _ => false
    | _ => true

/-- The status bytes read, in order. -/
def samplesOf (es : List Event) : List Byte :=
  es.filterMap fun e => match e with
    | .rdStatus b => some b
    | _ => none

/-- The answers of the polls, in order. -/
def pollsOf (es : List Event) : List Bool :=
  es.filterMap fun e => match e with
    | .pollCancel c => some c
    | _ => none

/-- The bits of a number, bit `n - 1` first (rules R53, R91). -/
def bitsMsbFirst (a : Nat) : Nat → List Bool
  | 0 => []
  | n + 1 => a.testBit n :: bitsMsbFirst a n

/-- An event is a port access (rule R12: the others touch no port). -/
def isPortEvent : Event → Bool
  | .wrCtrl _ | .wrData _ | .rdStatus _ | .portFail _ => true
  | .delay _ | .pollCancel _ | .progress _ => false

/-- What an observer notes, in the order of the events: bus write cycles, the windows in them and the sleeps right after
them, status samples, polls and reports. -/
inductive Mark where
  /-- A data write, with the 24 bits clocked in before it (rule R94). -/
  | cycle (c : BusCycle)
  /-- The delay between the second and the third control write after a data write: WR's window (rule R117). -/
  | window (us : Nat)
  /-- A delay right after the third control write after a data write (rules R245, R246). -/
  | sleep (us : Nat)
  | sample
  | poll (c : Bool)
  | report (n : Nat)
  deriving DecidableEq, Repr

/-- What the observer remembers: the wire, and how many of the five events of a bus cycle it has seen since the data
write; 0 outside of a cycle. -/
structure Observer where
  view  : WireView
  phase : Nat
  deriving DecidableEq, Repr

/-- The place in a bus cycle after an event: data write, two control writes, a delay, a control write (rule R117). -/
def phaseAfter (n : Nat) : Event → Nat
  | .wrData _ => 1
  | .wrCtrl _ => if n = 1 ∨ n = 2 ∨ n = 4 then n + 1 else 0
  | .delay _ => if n = 3 then 4 else 0
  | .rdStatus _ | .portFail _ | .pollCancel _ | .progress _ => 0

/-- What the observer remembers after an event. -/
def observe (p : Params) (o : Observer) (e : Event) : Observer :=
  { view := viewAfter p o.view e, phase := phaseAfter o.phase e }

/-- What the observer notes at an event. -/
def markOf (o : Observer) : Event → List Mark
  | .wrData v => [.cycle (o.view.sr.toNat, v)]
  | .delay us => if o.phase = 3 then [.window us] else if o.phase = 5 then [.sleep us] else []
  | .rdStatus _ => [.sample]
  | .pollCancel c => [.poll c]
  | .progress n => [.report n]
  | .wrCtrl _ | .portFail _ => []

/-- What the observer notes at the events of a list. -/
def marksOf (p : Params) : Observer → List Event → List Mark
  | _, [] => []
  | o, e :: es => markOf o e ++ marksOf p (observe p o e) es

/-- What the observer notes from `s` to `t`. -/
def newMarks (s t : State) : List Mark := marksOf s.params { view := wireView s, phase := 0 } (newEvents s t)

end Sys2Proof.Machine
end

