-- ==== Sys2Proof/Machine/Frames.lean ====
section
/-! DEFINITION. The events that the rules give the wire frames (rules R91 to R94, R116 to R118) and the levels they leave:
the terms of claims about the wire. No operation reads them. -/

namespace Sys2Proof.Machine

/-- The control byte that an address slot leaves. -/
def slotCtrl (p : Params) (bit : Bool) (c : Byte) : Byte := setLine p .sck false (setLine p .sda bit c)

/-- The events of an address slot, from any control byte (rule R116). -/
def slotEvents (p : Params) (c : Byte) (bit : Bool) : List Event :=
  [.wrCtrl (maskCtrl p (slotCtrl p bit c)), .delay p.tStepUs,
   .wrCtrl (maskCtrl p (setLine p .sck true (slotCtrl p bit c))), .delay p.tStepUs,
   .wrCtrl (maskCtrl p (slotCtrl p bit c)), .delay p.tStepUs]

/-- The events of a frame (rule R91). -/
def frameEvents (p : Params) (c : Byte) (a n : Nat) : List Event :=
  (bitsMsbFirst a n).flatMap (slotEvents p c)

/-- The control byte with PGM asserted. -/
def pgmCtrl (p : Params) (c : Byte) : Byte := setLine p .pgm true c

/-- The control byte that WRITE_BYTE leaves. -/
def writtenCtrl (p : Params) (bit : Bool) (c : Byte) : Byte :=
  setLine p .wr true (setLine p .wr false (pgmCtrl p (slotCtrl p bit c)))

/-- The events of WRITE_BYTE (rule R117). -/
def writeEvents (p : Params) (c : Byte) (a : Nat) (v : Byte) (d : Nat) : List Event :=
  frameEvents p c a 24 ++
    [.wrData v, .wrCtrl (maskCtrl p (pgmCtrl p (slotCtrl p (a.testBit 0) c))),
     .wrCtrl (maskCtrl p (setLine p .wr false (pgmCtrl p (slotCtrl p (a.testBit 0) c)))), .delay d,
     .wrCtrl (maskCtrl p (writtenCtrl p (a.testBit 0) c))]

/-- The control byte that the handshake leaves. -/
def handshakeCtrl (p : Params) (h : HandshakeStep) (c : Byte) : Byte :=
  setLine p .hsb h.hsb (setLine p .hsa h.hsa c)

/-- The events of one handshake step. -/
def handshakeStepEvents (p : Params) (h : HandshakeStep) (c : Byte) : List Event :=
  [.wrCtrl (maskCtrl p (handshakeCtrl p h c)), .delay p.tStepUs]

/-- The control byte that the three steps leave. -/
def shakenCtrl (p : Params) (c : Byte) : Byte :=
  handshakeCtrl p p.hs2 (handshakeCtrl p p.hs1 (handshakeCtrl p p.hs0 c))

/-- The events of the handshake (rule R118). -/
def handshakeEvents (p : Params) (c : Byte) : List Event :=
  handshakeStepEvents p p.hs0 c ++ handshakeStepEvents p p.hs1 (handshakeCtrl p p.hs0 c)
    ++ handshakeStepEvents p p.hs2 (handshakeCtrl p p.hs1 (handshakeCtrl p p.hs0 c))

/-- The events of one read-clock pulse. -/
def pulseEvents (p : Params) (c : Byte) : List Event :=
  [.wrCtrl (maskCtrl p (setLine p .sck true c)), .delay p.tStepUs,
   .wrCtrl (maskCtrl p (setLine p .sck false c)), .delay p.tStepUs]

/-- The events of one sample and its pulse, in the order of `READ_ORDER` (rule R118). -/
def sampleEvents (p : Params) (c b : Byte) : List Event :=
  match p.readOrder with
  | .sampleThenPulse => .rdStatus b :: pulseEvents p c
  | .pulseThenSample => pulseEvents p c ++ [.rdStatus b]

end Sys2Proof.Machine
end

