-- ==== Sys2Proof/Machine/Sequences.lean ====
section
/-! DEFINITION. The bus cycles that the rules give each operation that issues writes (rules R98, R102, R145, R146, R175,
R176), and the time each cycle holds WR deasserted (rules R95, R246): the terms of claims about the wire. -/

namespace Sys2Proof.Machine

/-- A bus cycle and the time for which it holds WR deasserted. -/
abbrev TimedCycle := BusCycle × Nat

/-- The cycles of a sequence, all with one settle time. -/
def timed (d : Nat) (cs : List BusCycle) : List TimedCycle := cs.map fun c => (c, d)

/-- A JEDEC3 command with its settle times (rule R141). -/
def commandSequence (p : Params) (c : Byte) : List TimedCycle :=
  timed p.cmdSettleUs (jedec3Cycles p.cmdAddr.toNat c)

/-- One program-byte sequence: the data cycle's window is the chip's (rule R145). -/
def programSequence (p : Params) (cfg : ChipConfig) (a : Nat) (v : Byte) : List TimedCycle :=
  commandSequence p cmdProgramByte ++ [((a, v), cfg.maxWriteUsec.toNat)]

/-- One program-byte sequence for each byte of a range (rule R146). -/
def rangeSequence (p : Params) (cfg : ChipConfig) : Nat → List Byte → List TimedCycle
  | _, [] => []
  | a, v :: vs => programSequence p cfg a v ++ rangeSequence p cfg (a + 1) vs

/-- Byte mode's cycles: none for a byte 0xFF (rule R176). -/
def byteModeSequence (p : Params) (cfg : ChipConfig) : Nat → List Byte → List TimedCycle
  | _, [] => []
  | a, v :: vs => (if v = 0xFF#8 then [] else programSequence p cfg a v) ++ byteModeSequence p cfg (a + 1) vs

/-- Sector mode's cycles: none for a chunk whose bytes are all 0xFF, the whole chunk otherwise (rule R175). -/
def sectorModeSequence (p : Params) (cfg : ChipConfig) : Nat → List (List Byte) → List TimedCycle
  | _, [] => []
  | a, c :: cs =>
    (if ∀ b ∈ c, b = 0xFF#8 then [] else rangeSequence p cfg a c) ++ sectorModeSequence p cfg (a + c.length) cs

/-- The cycles of WRITE_IMAGE in the mode that `cfg.sector_size` selects (rule R174). -/
def imageSequence (p : Params) (offset : Nat) (src : List Byte) (cfg : ChipConfig) : List TimedCycle :=
  if cfg.sectorSize.toNat = 0 then byteModeSequence p cfg offset src
  else sectorModeSequence p cfg offset (chunksOf cfg.sectorSize.toNat src.length src)

/-- The cycles of an operation that issues nothing but bus cycles (rules R98, R102). -/
def operationSequence (p : Params) : Instr → Option (List TimedCycle)
  | .writeByte a v d => some [((a, v), d)]
  | .unlock => some (timed p.cmdSettleUs unlockCycles)
  | .command c => some (commandSequence p c)
  | .cmdIdEntry => some (commandSequence p cmdIdEntryByte)
  | .cmdIdExit => some (commandSequence p cmdIdExitByte)
  | .cmdEraseSetup => some (commandSequence p cmdEraseSetupByte)
  | .cmdChipErase => some (commandSequence p cmdChipEraseByte)
  | .cmdProgram => some (commandSequence p cmdProgramByte)
  | .eraseChip => some (timed p.cmdSettleUs (eraseCycles p.cmdAddr.toNat))
  | .programByte a v cfg => some (programSequence p cfg a v)
  | .programRange start bytes cfg => some (rangeSequence p cfg start bytes)
  | .writeAddress _ => none
  | .readByte _ => none
  | .readSoftwareId => none
  | .identify _ => none
  | .eraseWait => none
  | .erase => none
  | .blankCheck _ _ => none
  | .writeImage _ _ _ => none
  | .writeImageSector _ _ _ => none
  | .writeImageByte _ _ _ => none

/-- What an observer notes of bus cycles: each cycle, then its window. -/
def cycleMarks (cs : List TimedCycle) : List Mark := cs.flatMap fun c => [.cycle c.1, .window c.2]

/-- What an observer notes of byte `t` of byte mode, of `n` in all (rule R176): the poll; the program-byte sequence and
the sleep, unless the byte is 0xFF; the report after every 1024 bytes and at the end. -/
def byteMarks (p : Params) (cfg : ChipConfig) (offset n t : Nat) (v : Byte) : List Mark :=
  .poll false
    :: (if v = 0xFF#8 then []
        else cycleMarks (programSequence p cfg (offset + t) v) ++ [.sleep cfg.maxWriteUsec.toNat])
    ++ (if (t + 1) % 1024 = 0 ∨ t + 1 = n then [.report (t + 1)] else [])

/-- What an observer notes of a chunk of sector mode that begins at byte `t` (rule R175): the poll; the burst and the
sleep, unless the bytes are all 0xFF; the report. -/
def chunkMarks (p : Params) (cfg : ChipConfig) (offset t : Nat) (c : List Byte) : List Mark :=
  .poll false
    :: (if ∀ b ∈ c, b = 0xFF#8 then []
        else cycleMarks (rangeSequence p cfg (offset + t) c) ++ [.sleep cfg.maxWriteUsec.toNat])
    ++ [.report (t + c.length)]

/-- What an observer notes of the chunks of sector mode, the first one beginning at byte `t` (rule R175). -/
def sectorMarks (p : Params) (cfg : ChipConfig) (offset : Nat) : Nat → List (List Byte) → List Mark
  | _, [] => []
  | t, c :: cs => chunkMarks p cfg offset t c ++ sectorMarks p cfg offset (t + c.length) cs

/-- What an observer notes of byte `i` of BLANK_CHECK, if it is erased (rule R173): the poll, the eight samples of one
READ_BYTE, the report after every 1024 bytes. -/
def blankMarks (i : Nat) : List Mark :=
  .poll false :: List.replicate 8 .sample ++ (if (i + 1) % 1024 = 0 then [.report (i + 1)] else [])

/-- Where in a command an observer is (rules R97, R98): outside of any, after the first unlock cycle, after both, or after
a 0xA0 command cycle, whose data cycle is due. -/
inductive CommandPlace where
  | outside | oneUnlock | twoUnlocks | dataDue
  deriving DecidableEq, Repr

/-- The place after one mark, if command integrity allows it (rules R66, R147, R244): a command is its own two unlock
cycles, its command cycle, and for 0xA0 its data cycle, with no other data write, sample, poll or report between them.
Time may pass anywhere, and control writes leave no mark. -/
def followCommand (cmdAddr : Nat) (place : CommandPlace) (m : Mark) : Option CommandPlace :=
  match m with
  | .window _ | .sleep _ => some place
  | .sample | .poll _ | .report _ => if place = .outside then some .outside else none
  | .cycle c =>
    match place with
    | .outside => if c = (0x5555, 0xAA#8) then some .oneUnlock else none
    | .oneUnlock => if c = (0x2AAA, 0x55#8) then some .twoUnlocks else none
    | .twoUnlocks =>
      if c = (cmdAddr, 0xA0#8) then some .dataDue
      else if c.1 = cmdAddr ∧ c.2 ∈ [0x90#8, 0xF0#8, 0x80#8, 0x10#8] then some .outside
      else none
    | .dataDue => some .outside

/-- The place after a list of marks, if command integrity allows them all. -/
def commandPlace (cmdAddr : Nat) (ms : List Mark) (place : CommandPlace) : Option CommandPlace :=
  match ms with
  | [] => some place
  | m :: ms => (followCommand cmdAddr place m).bind (commandPlace cmdAddr ms)

/-- The addresses that an operation's bus cycles name, and so may store to on a transparent memory (rule R70). -/
def cycleAddrs (p : Params) : Instr → List Nat
  | .writeByte a _ _ => [a]
  | .unlock => [unlockAddr1, unlockAddr2]
  | .programByte a _ _ => [unlockAddr1, unlockAddr2, p.cmdAddr.toNat, a]
  | .programRange start bytes _ =>
    [unlockAddr1, unlockAddr2, p.cmdAddr.toNat] ++ List.range' start bytes.length
  | .writeImage offset src _ | .writeImageSector offset src _ | .writeImageByte offset src _ =>
    [unlockAddr1, unlockAddr2, p.cmdAddr.toNat] ++ List.range' offset src.length
  | .command _ | .cmdIdEntry | .cmdIdExit | .cmdEraseSetup | .cmdChipErase | .cmdProgram
  | .readSoftwareId | .identify _ | .eraseChip | .erase => [unlockAddr1, unlockAddr2, p.cmdAddr.toNat]
  | .writeAddress _ | .readByte _ | .eraseWait | .blankCheck _ _ => []

/-- The range that an operation's address operands name, its start and its length (rule R52). -/
def addrOperand : Instr → Option (Nat × Nat)
  | .writeAddress a | .writeByte a _ _ | .readByte a | .programByte a _ _ => some (a, 1)
  | .programRange start bytes _ => some (start, bytes.length)
  | .blankCheck offset size => some (offset, size)
  | .writeImage offset src _ | .writeImageSector offset src _ | .writeImageByte offset src _ =>
    some (offset, src.length)
  | .unlock | .command _ | .cmdIdEntry | .cmdIdExit | .cmdEraseSetup | .cmdChipErase | .cmdProgram
  | .readSoftwareId | .identify _ | .eraseChip | .eraseWait | .erase => none

/-- The configuration that an operation carries and that is checked before it (rules R32, R215). -/
def ownProblem : Instr → Option ConfigReason
  | .identify table => tableProblem table
  | .programByte _ _ cfg | .programRange _ _ cfg => chipProblem cfg
  | .writeImage _ _ cfg | .writeImageSector _ _ cfg | .writeImageByte _ _ cfg => chipProblem cfg
  | .writeAddress _ | .writeByte _ _ _ | .readByte _ | .unlock | .command _ | .cmdIdEntry | .cmdIdExit
  | .cmdEraseSetup | .cmdChipErase | .cmdProgram | .readSoftwareId | .eraseChip | .eraseWait | .erase
  | .blankCheck _ _ => none

/-- The parts of an operation that expands to others (rules R102, R146), the command byte at `CMD_ADDR`. -/
def expansion (p : Params) : Instr → Option (List Instr)
  | .unlock =>
    some [.writeByte unlockAddr1 unlockData1 p.cmdSettleUs, .writeByte unlockAddr2 unlockData2 p.cmdSettleUs]
  | .command c => some [.unlock, .writeByte p.cmdAddr.toNat c p.cmdSettleUs]
  | .cmdIdEntry => some [.command cmdIdEntryByte]
  | .cmdIdExit => some [.command cmdIdExitByte]
  | .cmdEraseSetup => some [.command cmdEraseSetupByte]
  | .cmdChipErase => some [.command cmdChipEraseByte]
  | .cmdProgram => some [.command cmdProgramByte]
  | .programByte a v cfg => some [.command cmdProgramByte, .writeByte a v cfg.maxWriteUsec.toNat]
  | .eraseChip => some [.command cmdEraseSetupByte, .command cmdChipEraseByte]
  | .erase => some [.eraseChip, .eraseWait]
  | .programRange start (v :: vs) cfg => some ((v :: vs).mapIdx fun i b => .programByte (start + i) b cfg)
  | .programRange _ [] _ | .writeAddress _ | .writeByte _ _ _ | .readByte _ | .readSoftwareId | .identify _
  | .eraseWait | .blankCheck _ _ | .writeImage _ _ _ | .writeImageSector _ _ _ | .writeImageByte _ _ _ => none

/-- The event counts of rules R120 and R148. -/
def ruleCounts : Instr → Option EventCounts
  | .writeAddress _ => some ⟨72, 0, 0, 0, 72, 0, 0⟩
  | .writeByte _ _ _ => some ⟨75, 1, 0, 0, 73, 0, 0⟩
  | .readByte _ => some ⟨91, 0, 8, 0, 91, 0, 0⟩
  | .unlock => some ⟨150, 2, 0, 0, 146, 0, 0⟩
  | .command _ | .cmdIdEntry | .cmdIdExit | .cmdEraseSetup | .cmdChipErase | .cmdProgram =>
    some ⟨225, 3, 0, 0, 219, 0, 0⟩
  | .readSoftwareId => some ⟨632, 6, 16, 0, 621, 0, 0⟩
  | .eraseChip => some ⟨450, 6, 0, 0, 438, 0, 0⟩
  | .programByte _ _ _ => some ⟨300, 4, 0, 0, 292, 0, 0⟩
  | .programRange _ bytes _ => some ⟨300 * bytes.length, 4 * bytes.length, 0, 0, 292 * bytes.length, 0, 0⟩
  | .identify _ | .eraseWait | .erase | .blankCheck _ _ | .writeImage _ _ _ | .writeImageSector _ _ _
  | .writeImageByte _ _ _ => none

end Sys2Proof.Machine
end

