-- ==== Sys2Proof/Safety.lean ====
section
/-! DEFINITION. The terms in which claims speak: the launch state (rule R240), the host's duties (rules R66, R241,
R242), the premises on the environment (rule R5), the answers of the target (rules R68 to R71), operations run one after
the other (rule R102), refusals (rule R215), and the invariant of the machine. -/

namespace Sys2Proof.Machine

/-- The launch premise of a claim: the entry values of rule R240, for every value of what it leaves open; a JEDEC fixture
as it starts (rule R71), in array mode with nothing pending; the host's interface that of rule R90. -/
def Launch (s : State) : Prop :=
  s.data = 0x00#8 ∧ s.physData = 0x00#8
    ∧ s.ctrl = entryCtrl s.params ∧ s.physCtrl = maskCtrl s.params s.ctrl
    ∧ s.handle = .opened ∧ s.faulted = none ∧ s.refused = none ∧ s.trace = [] ∧ s.outcomes = []
    ∧ s.cancelFlag = false ∧ s.active = none ∧ s.identified = none ∧ s.supplySettled = true
    ∧ s.internalsExposed = false ∧ Memory.wf s.mem = true
    ∧ match s.fixture with
      | .jedec chip => chip = freshChip chip.eraseBusyLoads chip.mfr chip.dev
      | .none => True
      | .ram => True

/-- The configuration record that an operation is given (rule R242). -/
def cfgOperand : Instr → Option ChipConfig
  | .programByte _ _ cfg | .programRange _ _ cfg => some cfg
  | .writeImage _ _ cfg | .writeImageSector _ _ cfg | .writeImageByte _ _ cfg => some cfg
  | .writeAddress _ | .writeByte _ _ _ | .readByte _ | .unlock | .command _ | .cmdIdEntry | .cmdIdExit
  | .cmdEraseSetup | .cmdChipErase | .cmdProgram | .readSoftwareId | .identify _ | .eraseChip | .eraseWait | .erase
  | .blankCheck _ _ => none

/-- The host passes the ChipConfig that IDENTIFY returned (rule R242). -/
def CfgDuty (s : State) (i : Instr) : Prop := ∀ cfg, cfgOperand i = some cfg → s.identified = some cfg

/-- The place of an operation in the order of rule R241. -/
def bootRank : Instr → Option Nat
  | .identify _ => some 0
  | .erase => some 1
  | .blankCheck _ _ => some 2
  | .writeImage _ _ _ | .writeImageSector _ _ _ | .writeImageByte _ _ _ => some 3
  | .writeAddress _ | .writeByte _ _ _ | .readByte _ | .unlock | .command _ | .cmdIdEntry | .cmdIdExit
  | .cmdEraseSetup | .cmdChipErase | .cmdProgram | .readSoftwareId | .eraseChip | .programByte _ _ _
  | .programRange _ _ _ | .eraseWait => none

/-- The ranks rise from `r` on. -/
def ranksRise : Nat → List Instr → Bool
  | _, [] => true
  | r, i :: is =>
    match bootRank i with
    | some n => decide (r < n) && ranksRise n is
    | none => false

/-- A run of the block in the order of rule R241: IDENTIFY, then each of ERASE, BLANK_CHECK and WRITE_IMAGE at
most once, in that order. -/
def inBootOrder : List Instr → Bool
  | .identify _ :: rest => ranksRise 0 rest
  | _ => false

/-- The run has not ended: no mark is set (rule R24). -/
def Running (s : State) : Prop := s.faulted = none ∧ s.refused = none

/-- The machine may start an operation: the run has not ended, the configuration is valid and the handle open
(rules R24, R33, R215). -/
def CanStart (s : State) : Prop := Running s ∧ paramsProblem s.params = none ∧ s.handle = .opened

/-- The environment lets the next `n` port accesses succeed (rules R5, R60, decision D35). -/
def PortsOk (n : Nat) (s : State) : Prop := ∀ k, k < n → portDrawAt s (s.oracle.portIdx + k) = .ok

/-- The host does not ask for cancellation before the next `n` polls are over (rule R170). -/
def NotCancelled (n : Nat) (s : State) : Prop :=
  s.cancelFlag = false ∧ ∀ k, k < n → hostSets s.oracle (s.oracle.pollIdx + k) = false

/-- The host asks for cancellation after `n` polls and before the next one (rule R170). -/
def CancelledAfter (n : Nat) (s : State) : Prop :=
  NotCancelled n s ∧ hostSets s.oracle (s.oracle.pollIdx + n) = true

/-- The byte that read number `j` from now on returns, if no fixture is attached: eight inverted samples, the first one
bit 7 (rules R30, R93). -/
def drawnByte (s : State) (j : Nat) : Byte :=
  (List.range 8).foldl (fun acc k =>
    setBit acc (7 - k) (sampleBit s.params (statusAt s.oracle (s.oracle.statusIdx + 8 * j + k)))) 0x00#8

/-- The byte with which a fixture answers a read at an address; none without a fixture (rules R68, R70, R71). -/
def targetAnswer (s : State) (a : Nat) : Option Byte :=
  match s.fixture with
  | .none => none
  | .ram => some (memRead s.mem a)
  | .jedec chip => some (jedecRead s.mem chip a).1

/-- What is attached, after it has answered a read (rule R71). -/
def targetAfterRead (s : State) (a : Nat) : Fixture :=
  match s.fixture with
  | .none => .none
  | .ram => .ram
  | .jedec chip => .jedec (jedecRead s.mem chip a).2

/-- The memory and the fixture after one bus write cycle (rules R70, R71). -/
def targetWrite (mf : List Host.Cell × Fixture) (c : BusCycle) : List Host.Cell × Fixture :=
  match mf.2 with
  | .none => mf
  | .ram => (memWrite mf.1 c.1 c.2, .ram)
  | .jedec chip => ((jedecWrite mf.1 chip c.1 c.2).1, .jedec (jedecWrite mf.1 chip c.1 c.2).2)

/-- The byte that read number `j` from now on returns, if it is at address `a` and only reads come before it. -/
def answerAt (s : State) (a j : Nat) : Byte :=
  match s.fixture with
  | .none => drawnByte s j
  | .ram => memRead s.mem a
  | .jedec chip => (jedecRead s.mem { chip with busy := chip.busy - j } a).1

/-- Iteration `k` of an ERASE_WAIT that starts now reads 0xFF twice (rule R171). -/
def pairErased (s : State) (k : Nat) : Bool :=
  answerAt s 0 (2 * k) == erasedByte && answerAt s 0 (2 * k + 1) == erasedByte

/-- The state after bus cycles sent one after the other, in all but the records of the run: the lines and registers as
the last cycle leaves them (rules R67, R117), and the target after all of them. -/
def cyclesLeave (s : State) (cs : List TimedCycle) : State :=
  match cs.getLast? with
  | none => s
  | some last =>
    { s with
      ctrl := writtenCtrl s.params (last.1.1.testBit 0) s.ctrl
      physCtrl := maskCtrl s.params (writtenCtrl s.params (last.1.1.testBit 0) s.ctrl)
      data := last.1.2
      physData := last.1.2
      frameReg := BitVec.ofNat 24 last.1.1
      mem := ((cs.map Prod.fst).foldl targetWrite (s.mem, s.fixture)).1
      fixture := ((cs.map Prod.fst).foldl targetWrite (s.mem, s.fixture)).2
      oracle := { s.oracle with portIdx := s.oracle.portIdx + 76 * cs.length } }

/-- An operation leads from `s` to `t`, or a later iteration of a loop in progress does (rules R13, R22, R171). -/
def Advances (s t : State) : Prop := (∃ i, exec i s = .next t) ∨ s.active ≠ none ∧ step s = .next t

/-- Steps of the machine one after the other, for as long as it goes on. -/
def runSteps : Nat → State → Host.Outcome State Fault Refusal
  | 0, s => .next s
  | n + 1, s =>
    match step s with
    | .next t => runSteps n t
    | .fault f => .fault f
    | .refused r => .refused r

/-- Operations called one after the other, for as long as the machine goes on. -/
def runAll : List Instr → State → Host.Outcome State Fault Refusal
  | [], s => .next s
  | i :: is, s =>
    match exec i s with
    | .next t => runAll is t
    | .fault f => .fault f
    | .refused r => .refused r

/-- Operations run as the parts of an enclosing one: a part that ends Ok hands on to the next, with no outcome to the
caller, and any other outcome is the outcome of the whole (rules R13, R102). -/
def runParts : List Instr → State → Host.Outcome State Fault Refusal
  | [], s => .next s
  | [i], s => exec i s
  | i :: is, s =>
    match exec i s with
    | .next t => if t.outcomes = s.outcomes ++ [.ok .none] then runParts is { t with outcomes := s.outcomes } else .next t
    | .fault f => .fault f
    | .refused r => .refused r

/-- What an operation's operands alone refuse (rules R52, R99); the last case is the model's own. -/
def operandRefusal (i : Instr) : Option Refusal :=
  match i with
  | .command c => if isCommandByte c then none else some (.badCommand c)
  | _ =>
    match addrOperand i with
    | none => none
    | some (start, n) =>
      if start + n ≤ addrSpace then
        match i with
        | .writeImageSector _ _ cfg => if cfg.sectorSize.toNat = 0 then some (.rowNotSelected .writeImageSector) else none
        | .writeImageByte _ _ cfg => if cfg.sectorSize.toNat = 0 then none else some (.rowNotSelected .writeImageByte)
        | _ => none
      else some (.addrRange start n)

/-- The refusal that an operation takes before its first event, in the order of rule R215. -/
def refusalOf (s : State) (i : Instr) : Option Refusal :=
  match (paramsProblem s.params).or (ownProblem i) with
  | some reason => some (.configInvalid reason)
  | none => if s.handle = .closed then some .handleClosed else operandRefusal i

/-- The state after a refusal at the start of an operation (rule R219). -/
def refusedState (r : Refusal) (s : State) : State :=
  { s with refused := some r, outcomes := s.outcomes ++ [.refused r], active := none }

/-- The constraints (a) to (d) of rule R27 on the bits of the six roles. -/
structure RolesMeet (p : Params) : Prop where
  /-- (a), for SDA. -/
  sdaDedicated : ∀ r, r ≠ .sda → lineBit p r ≠ lineBit p .sda
  /-- (a), for SCK. -/
  sckDedicated : ∀ r, r ≠ .sck → lineBit p r ≠ lineBit p .sck
  /-- (b). -/
  pgmIsNotWr : lineBit p .pgm ≠ lineBit p .wr
  /-- (c). -/
  hsaIsNotHsb : lineBit p .hsa ≠ lineBit p .hsb
  /-- (d): four bits cover the six roles. -/
  fourBits : ∃ bits : List (Fin 8), bits.length ≤ 4 ∧ ∀ r, lineBit p r ∈ bits

/-- `sector_size` is 0 or a power of two (rule R8). -/
def SectorSizeMeets (size : Nat) : Prop := size = 0 ∨ ∃ k : Nat, size = 2 ^ k

/-- Two entries of a table share an id (rule R32). -/
def SharesId (table : List ChipConfig) (id : Id16) : Prop :=
  ∃ (j k : Nat) (a b : ChipConfig), j < k ∧ table[j]? = some a ∧ table[k]? = some b ∧ a.id = id ∧ b.id = id

/-- The chip tables that stand when an operation is called: CHIP_TABLE, and the one that IDENTIFY is given (rules R7,
R90; log entries 11 and 22). -/
def GivenTable (p : Params) (i : Instr) (table : List ChipConfig) : Prop := table = p.chipTable ∨ i = .identify table

/-- The chip records that stand when an operation is called: the entries of the tables, and the record that the
operation is given (log entry 11). -/
def GivenRecord (p : Params) (i : Instr) (cfg : ChipConfig) : Prop :=
  (∃ table, GivenTable p i table ∧ cfg ∈ table) ∨ cfgOperand i = some cfg

/-- What is wrong with a configuration, in the words of the rules and not in those of the model's checks (rules R8, R27,
R32; code 19 of rule R211). -/
def ConfigError (p : Params) (i : Instr) : ConfigReason → Prop
  | .roleBits => ¬ RolesMeet p
  | .duplicateId id => ∃ table, GivenTable p i table ∧ SharesId table id
  | .badSectorSize size => ¬ SectorSizeMeets size ∧ ∃ cfg, GivenRecord p i cfg ∧ cfg.sectorSize.toNat = size

/-- The invariant of the machine. (1) The fixture's memory keeps its canonical form. (2) The bits of `ctrl` that no
role names keep the value of `CTRL_IDLE` (rule R26). (3) At most one mark is set, and no loop is in progress once one
is, with a closed handle or with a configuration that is refused (rules R24, R33, R215, R219). (4) Without a fault, the
registers hold what the shadows say (rules R25, R29). (5) Without a fault, SCK is low between operations (rules R116 to
R118), if the configuration is valid. (6) A set mark is the last outcome (rule R219). -/
structure Inv (s : State) : Prop where
  memWf : Memory.wf s.mem = true
  unnamedBits : ∀ i : Fin 8, i ∉ roleBitList s.params → s.ctrl.getLsbD i = s.params.ctrlIdle.getLsbD i
  oneMark : s.faulted = none ∨ s.refused = none
  loopCanGoOn : s.active ≠ none → CanStart s
  shadows : s.faulted = none → s.physCtrl = maskCtrl s.params s.ctrl ∧ s.physData = s.data
  sckLow : s.faulted = none → rolesOk s.params = true → getLine s.params .sck s.ctrl = false
  faultRecorded : ∀ f, s.faulted = some f → s.outcomes.getLast? = some (.fault f)
  refusalRecorded : ∀ r, s.refused = some r → s.outcomes.getLast? = some (.refused r)

end Sys2Proof.Machine
end

