-- ==== Sys2Proof/Certificates/Slice0/Obligations.lean ====
section
/-! DEFINITION. The statements for the provers. Each docstring names the rules of spec/ that the statement formalises,
or says that it is about a choice of the model's. -/

open Sys2Proof Sys2Proof.Machine

/-! ### Encodings -/

/-- Decode and encode agree (rules R90, R101): every operation, with any operands, is read back from its line of the
program notation. -/
def Obligations.DecodeEncodeGivesTheOperation : Prop := ∀ i : Instr, decode (encode i) = .ok i

/-- Every frame that the opcode table gives an operation decodes to that operation, every encoded operand bit kept
(rules R91, R94, R97, R98). What the table does not encode reads as 0 (a choice of the model's, log entry 8). -/
def Obligations.FrameDecodesToItsOperation : Prop :=
  ∀ (i : Instr) (frame : List Byte), encodeWire i = some frame →
    (∀ r, addrOperand i = some r → r.1 + r.2 ≤ addrSpace) →
      decodeWire frame = .ok (wireForm i)

/-- A frame that decodes is the encoding of what it decodes to: no two frames stand for one operation, and every other
frame is rejected (rules R91, R94, R97, R98; the choice for 32-bit frames is the model's, log entry 8). -/
def Obligations.DecodedFrameIsTheEncoding : Prop :=
  ∀ (frame : List Byte) (i : Instr), decodeWire frame = .ok i →
    encodeWire i = some frame ∧ wireForm i = i ∧ ∀ r, addrOperand i = some r → r.1 + r.2 ≤ addrSpace

/-- A few words of the opcode table decode to their rows; a sanity check. That 32 bits are WRITE_BYTE with delay 0, and
that PROGRAM_BYTE carries the zero record, are choices of the model's (log entry 8). -/
def Obligations.TableWordsDecode : Prop :=
  decodeTableWord 24 0x123456 = some (.writeAddress 0x123456)
    ∧ decodeTableWord 32 0x002AAA55 = some (.writeByte 0x2AAA 0x55#8 0)
    ∧ decodeTableWord 64 0x005555AA002AAA55 = some .unlock
    ∧ decodeTableWord 96 0x005555AA002AAA5500555590 = some .cmdIdEntry
    ∧ decodeTableWord 96 0x005555AA002AAA55005555A0 = some .cmdProgram
    ∧ decodeTableWord 128 0x005555AA002AAA55005555A00001235A = some (.programByte 0x123 0x5A#8 zeroChip)
    ∧ decodeTableWord 192 0x005555AA002AAA5500555580005555AA002AAA5500555510 = some .eraseChip
    ∧ decodeTableWord 64 0x005555AA002AAA54 = none

/-- What an observer of the wire reads from the events of an operation is the operation's encoding in the opcode table:
the bus write cycles, in issue order, as SERIAL24 and PAR8 frames (rules R94, R97, R98), with the command byte at the
decided `CMD_ADDR` (decision D11). WRITE_ADDRESS, whose frame is no bus cycle, is left to its own statement. -/
def Obligations.WireShowsTheEncoding : Prop :=
  ∀ (i : Instr) (frame : List Byte) (s : State), encodeWire i = some frame → i.mnemonic ≠ .writeAddress →
    CanStart s → WellFormed i = true → s.params.cmdAddr = decidedCmdAddr → PortsOk (19 * frame.length) s →
      ∃ t, exec i s = .next t ∧ cyclesFrame (busCycles s.params (wireView s) (newEvents s t)) = frame

/-! ### The step -/

/-- The host's next call is what a step runs (rules R5, R65): if it decodes to `i`, the step is `exec i` in the state in
which the call has been handed over. But the host may not call an internal operation (rules R66, R90, R147, R244): where
those are not exposed (log entry 9), such a call is refused by name and nothing happens. -/
def Obligations.StepRunsTheNextCall : Prop :=
  ∀ (s : State) (c : Call) (rest : List Call) (i : Instr) (inner : List Mnemonic),
    inner = [.writeAddress, .unlock, .command, .cmdIdEntry, .cmdIdExit, .cmdEraseSetup, .cmdChipErase, .cmdProgram,
      .programByte] →
    s.active = none → s.calls = c :: rest → decode c = .ok i →
      (s.internalsExposed = true ∨ i.mnemonic ∉ inner → step s = exec i { s with calls := rest })
        ∧ (s.internalsExposed = false → i.mnemonic ∈ inner → Running s →
            step s = .refused (.internalOperation i.mnemonic))

/-- A word of the opcode table that is placed as the next call is what the next step runs, in the same state but for a
loop in progress, which placing the word puts an end to, and for the exposure of an internal operation, which placing
its word brings (choices of the model's, log entries 6 and 9). -/
def Obligations.StepRunsThePlacedWord : Prop :=
  ∀ (s : State) (nbits w : Nat) (i : Instr), decodeTableWord nbits w = some i →
    step (s.withFetchWord nbits w) =
      exec i { s with active := none, internalsExposed := s.internalsExposed || !hostMayCall i }

/-- With no call the step changes nothing, for the block does nothing that the host does not ask for (rule R5; an
inference, log entry 7). A call that stands for no operation stops the machine by name (the model's own refusal, log
entry 7). -/
def Obligations.StepWithoutAnOperation : Prop :=
  ∀ s : State, Running s → s.active = none →
    (s.calls = [] → step s = .next s)
      ∧ ∀ c rest e, s.calls = c :: rest → decode c = .error e → step s = .refused (.badCall e)

/-- Once a mark is set the run is over: the machine answers the mark and nothing runs, whatever is asked of it (rules
R24, R220). -/
def Obligations.EndedRunGoesNoFurther : Prop :=
  ∀ s : State,
    (∀ f, s.faulted = some f → step s = .fault f ∧ ∀ i, exec i s = .fault f)
      ∧ ∀ r, s.faulted = none → s.refused = some r → step s = .refused r ∧ ∀ i, exec i s = .refused r

/-- A mark is set exactly when the outcome is that fault or that refusal (rules R24, R210, R219): no other outcome, and
no step without an outcome, sets one. -/
def Obligations.MarkIsSetByItsOutcome : Prop :=
  ∀ s t : State, Running s → ((∃ i, exec i s = .next t) ∨ step s = .next t) →
    (∀ f, t.faulted = some f ↔ t.outcomes = s.outcomes ++ [.fault f])
      ∧ ∀ r, t.refused = some r ↔ t.outcomes = s.outcomes ++ [.refused r]

/-! ### The port -/

/-- `PortWrCtrl` (rules R110, R212): refused on a closed handle with no event; else one event, and the physical register
takes the byte, or, if the access fails, takes it or does not, as the environment draws. -/
def Obligations.PortWriteControl : Prop :=
  ∀ (b : Byte) (s : State),
    (s.handle = .closed →
      portWrCtrl b s = .error (.refused .handleClosed) { s with refused := s.refused.or (some .handleClosed) })
    ∧ (s.handle = .opened → portDrawAt s s.oracle.portIdx = .ok →
      portWrCtrl b s = .ok () { s with
        physCtrl := b, trace := s.trace ++ [.wrCtrl b],
        oracle := { s.oracle with portIdx := s.oracle.portIdx + 1 } })
    ∧ ∀ reached, s.handle = .opened → portDrawAt s s.oracle.portIdx = .fail reached →
      portWrCtrl b s = .error (.fault (.portIo .wrCtrl)) { s with
        physCtrl := if reached then b else s.physCtrl, faulted := s.faulted.or (some (.portIo .wrCtrl)),
        trace := s.trace ++ [.portFail .wrCtrl],
        oracle := { s.oracle with portIdx := s.oracle.portIdx + 1 } }

/-- `PortWrData` (rules R29, R111, R212): as `PortWrCtrl`, and on success the `data` shadow holds the byte. That after a
failure the register holds the byte or its old value, and the shadow its old one, is an inference of the model's (log
entry 18). -/
def Obligations.PortWriteData : Prop :=
  ∀ (v : Byte) (s : State),
    (s.handle = .closed →
      portWrData v s = .error (.refused .handleClosed) { s with refused := s.refused.or (some .handleClosed) })
    ∧ (s.handle = .opened → portDrawAt s s.oracle.portIdx = .ok →
      portWrData v s = .ok () { s with
        physData := v, data := v, trace := s.trace ++ [.wrData v],
        oracle := { s.oracle with portIdx := s.oracle.portIdx + 1 } })
    ∧ ∀ reached, s.handle = .opened → portDrawAt s s.oracle.portIdx = .fail reached →
      portWrData v s = .error (.fault (.portIo .wrData)) { s with
        physData := if reached then v else s.physData, faulted := s.faulted.or (some (.portIo .wrData)),
        trace := s.trace ++ [.portFail .wrData],
        oracle := { s.oracle with portIdx := s.oracle.portIdx + 1 } }

/-- `PortRdStatus` (rules R30, R112): the byte is the environment's draw, or the byte a fixture shows; it is recorded as
the event; a failed access gives no byte and the fault. The byte that a fixture shows is rule R68's; that neither it nor
a failed access uses up a status draw is a choice of the model's (log entry 3). -/
def Obligations.PortReadStatus : Prop :=
  ∀ (fixed : Option Byte) (s : State),
    (s.handle = .closed →
      portRdStatus fixed s = .error (.refused .handleClosed) { s with refused := s.refused.or (some .handleClosed) })
    ∧ (s.handle = .opened → portDrawAt s s.oracle.portIdx = .ok → fixed = none →
      portRdStatus fixed s = .ok (statusAt s.oracle s.oracle.statusIdx) { s with
        trace := s.trace ++ [.rdStatus (statusAt s.oracle s.oracle.statusIdx)],
        oracle := { s.oracle with portIdx := s.oracle.portIdx + 1, statusIdx := s.oracle.statusIdx + 1 } })
    ∧ (∀ b, s.handle = .opened → portDrawAt s s.oracle.portIdx = .ok → fixed = some b →
      portRdStatus fixed s = .ok b { s with
        trace := s.trace ++ [.rdStatus b], oracle := { s.oracle with portIdx := s.oracle.portIdx + 1 } })
    ∧ ∀ reached, s.handle = .opened → portDrawAt s s.oracle.portIdx = .fail reached →
      portRdStatus fixed s = .error (.fault (.portIo .rdStatus)) { s with
        faulted := s.faulted.or (some (.portIo .rdStatus)), trace := s.trace ++ [.portFail .rdStatus],
        oracle := { s.oracle with portIdx := s.oracle.portIdx + 1 } }

/-- `SetLines` (rules R25, R28): one control write carries all the listed levels and leaves every other bit of the shadow
alone; the shadow takes the levels even if the write fails. Stated for one role and for two roles on different bits,
the forms that the block uses. -/
def Obligations.SetLinesIsOneWrite : Prop :=
  ∀ (s : State) (q r : Role) (x y : Bool), lineBit s.params q ≠ lineBit s.params r →
    ∃ c1 c2 : Byte,
      (∀ j : Fin 8, c1.getLsbD j = if j = lineBit s.params q then x else s.ctrl.getLsbD j)
      ∧ (∀ j : Fin 8, c2.getLsbD j =
          if j = lineBit s.params q then x else if j = lineBit s.params r then y else s.ctrl.getLsbD j)
      ∧ setLines [(q, x)] s = portWrCtrl (c1 ^^^ s.params.ctrlXorMask) { s with ctrl := c1 }
      ∧ setLines [(q, x), (r, y)] s = portWrCtrl (c2 ^^^ s.params.ctrlXorMask) { s with ctrl := c2 }

/-- `PollCancel` (rules R23, R170): it reads the flag and records the answer. The flag is what the host has made of it
since the last poll; once an answer is true every later one is (the host's duty of stickiness, which the model builds
in, log entry 4). -/
def Obligations.PollReadsTheStickyFlag : Prop :=
  ∀ s : State, ∃ c t, pollCancel s = .ok c t
    ∧ c = (s.cancelFlag || hostSets s.oracle s.oracle.pollIdx)
    ∧ t = { s with
        cancelFlag := c, trace := s.trace ++ [.pollCancel c],
        oracle := { s.oracle with pollIdx := s.oracle.pollIdx + 1 } }
    ∧ (c = true → ∀ u, u.cancelFlag = t.cancelFlag → ∃ v, pollCancel u = .ok true v)

/-! ### The transport -/

/-- WRITE_ADDRESS (rules R67, R91, R116): it emits the 24 slots of its address and nothing else, leaves SDA at bit 0 and
SCK low, and changes nothing but what is named here. -/
def Obligations.WriteAddressSendsItsFrame : Prop :=
  ∀ (a : Nat) (s : State), CanStart s → a < addrSpace → PortsOk 72 s →
    exec (.writeAddress a) s = .next { s with
      ctrl := slotCtrl s.params (a.testBit 0) s.ctrl
      physCtrl := maskCtrl s.params (slotCtrl s.params (a.testBit 0) s.ctrl)
      trace := s.trace ++ (List.range 24).flatMap fun k => slotEvents s.params s.ctrl (a.testBit (23 - k))
      outcomes := s.outcomes ++ [.ok .none]
      active := none
      frameReg := BitVec.ofNat 24 a
      oracle := { s.oracle with portIdx := s.oracle.portIdx + 72 } }

/-- The address frame is MSB-first (rules R53, R91): the SDA level at rising SCK edge `k` of WRITE_ADDRESS is address bit
`23 - k`, and there are 24 edges. -/
def Obligations.AddressFrameIsMsbFirst : Prop :=
  ∀ (a : Nat) (s : State), CanStart s → a < addrSpace → PortsOk 72 s →
    ∃ t, exec (.writeAddress a) s = .next t
      ∧ sdaAtEdges s.params (wireView s) (newEvents s t) = (List.range 24).map fun k => a.testBit (23 - k)

/-- WRITE_BYTE (rules R94, R117): the address frame, then the data write, PGM asserted, WR deasserted for `d`
microseconds and asserted again; the data register keeps the byte; the target has taken one bus cycle with this address
and this byte. Nothing else changes. -/
def Obligations.WriteByteIsOneBusCycle : Prop :=
  ∀ (a : Nat) (v : Byte) (d : Nat) (s : State), CanStart s → a < addrSpace → PortsOk 76 s →
    exec (.writeByte a v d) s = .next { s with
      ctrl := writtenCtrl s.params (a.testBit 0) s.ctrl
      physCtrl := maskCtrl s.params (writtenCtrl s.params (a.testBit 0) s.ctrl)
      data := v
      physData := v
      trace := s.trace ++ writeEvents s.params s.ctrl a v d
      outcomes := s.outcomes ++ [.ok .none]
      active := none
      frameReg := BitVec.ofNat 24 a
      mem := (targetWrite (s.mem, s.fixture) (a, v)).1
      fixture := (targetWrite (s.mem, s.fixture) (a, v)).2
      oracle := { s.oracle with portIdx := s.oracle.portIdx + 76 } }

/-- The levels that WRITE_BYTE drives (rule R117): after it PGM and WR are asserted, SCK is low, SDA is at address bit 0,
and every bit that none of these roles names is as before. Its last events are the data write, a control write that
asserts PGM, one that deasserts WR, the delay with WR deasserted and PGM asserted, and one that asserts WR again. -/
def Obligations.WriteByteLevels : Prop :=
  ∀ (a : Nat) (v : Byte) (d : Nat) (s : State), CanStart s → a < addrSpace → PortsOk 76 s →
    ∃ (t : State) (es : List Event) (b1 b2 b3 : Byte), exec (.writeByte a v d) s = .next t
      ∧ getLine s.params .pgm t.ctrl = true ∧ getLine s.params .wr t.ctrl = true
      ∧ getLine s.params .sck t.ctrl = false ∧ getLine s.params .sda t.ctrl = a.testBit 0
      ∧ (∀ j : Fin 8, j ∉ [s.params.sdaBit, s.params.sckBit, s.params.pgmBit, s.params.wrBit] →
          t.ctrl.getLsbD j = s.ctrl.getLsbD j)
      ∧ t.physCtrl = t.ctrl ^^^ s.params.ctrlXorMask
      ∧ newEvents s t = es ++ [.wrData v, .wrCtrl (b1 ^^^ s.params.ctrlXorMask), .wrCtrl (b2 ^^^ s.params.ctrlXorMask),
          .delay d, .wrCtrl (b3 ^^^ s.params.ctrlXorMask)]
      ∧ getLine s.params .pgm b1 = true ∧ getLine s.params .wr b1 = getLine s.params .wr s.ctrl
      ∧ getLine s.params .pgm b2 = true ∧ getLine s.params .wr b2 = false
      ∧ b3 = t.ctrl

/-- READ_BYTE (rules R54, R68, R93, R118): the address frame, the handshake, then eight samples with their pulses in the
order of `READ_ORDER`; the byte's bit `7 - k` is the inverse of sample `k`'s `SIN_BIT`; the samples are the environment's
draws, or show the byte a fixture answers with, which is then what READ_BYTE returns. No bus cycle, no store. That the
target's shift register (rule R67) still holds the address after the read pulses is an inference of the model's (log
entry 12). -/
def Obligations.ReadByteReturnsTheInvertedSamples : Prop :=
  ∀ (a : Nat) (s : State), CanStart s → a < addrSpace → PortsOk 99 s →
    ∃ (v : Byte) (samples : List Byte),
      samples.length = 8
      ∧ (∀ k, k < 8 → v.getLsbD (7 - k) = !(samples.getD k 0#8).getLsbD s.params.sinBit)
      ∧ (targetAnswer s a = none →
          samples = (List.range 8).map fun k => statusAt s.oracle (s.oracle.statusIdx + k))
      ∧ (∀ u, targetAnswer s a = some u →
          v = u ∧ samples = (List.range 8).map fun k => fixtureStatus s.params u (7 - k))
      ∧ exec (.readByte a) s = .next { s with
          ctrl := setLine s.params .sck false (shakenCtrl s.params (slotCtrl s.params (a.testBit 0) s.ctrl))
          physCtrl := maskCtrl s.params
            (setLine s.params .sck false (shakenCtrl s.params (slotCtrl s.params (a.testBit 0) s.ctrl)))
          trace := s.trace ++ frameEvents s.params s.ctrl a 24
            ++ handshakeEvents s.params (slotCtrl s.params (a.testBit 0) s.ctrl)
            ++ samples.flatMap fun b =>
                sampleEvents s.params (shakenCtrl s.params (slotCtrl s.params (a.testBit 0) s.ctrl)) b
          outcomes := s.outcomes ++ [.ok (.byte v)]
          active := none
          frameReg := BitVec.ofNat 24 a
          fixture := targetAfterRead s a
          oracle := { s.oracle with
            portIdx := s.oracle.portIdx + 99,
            statusIdx := s.oracle.statusIdx + if targetAnswer s a = none then 8 else 0 } }

/-- The event counts and rising edges of the transport operations (rule R120). -/
def Obligations.TransportEventCounts : Prop :=
  ∀ s : State, CanStart s → ∀ a, a < addrSpace →
    (PortsOk 72 s → ∃ t, exec (.writeAddress a) s = .next t
      ∧ countEvents (newEvents s t) = ⟨72, 0, 0, 0, 72, 0, 0⟩
      ∧ (sdaAtEdges s.params (wireView s) (newEvents s t)).length = 24)
    ∧ (∀ v d, PortsOk 76 s → ∃ t, exec (.writeByte a v d) s = .next t
      ∧ countEvents (newEvents s t) = ⟨75, 1, 0, 0, 73, 0, 0⟩
      ∧ (sdaAtEdges s.params (wireView s) (newEvents s t)).length = 24)
    ∧ (PortsOk 99 s → ∃ t, exec (.readByte a) s = .next t
      ∧ countEvents (newEvents s t) = ⟨91, 0, 8, 0, 91, 0, 0⟩
      ∧ (sdaAtEdges s.params (wireView s) (newEvents s t)).length = 32)

/-- The check of the role bits is that of the constraints (a) to (d), and they leave the handshake lines no bits but
those of PGM and WR (rule R27). -/
def Obligations.HandshakeSharesThePgmAndWrBits : Prop :=
  ∀ p : Params, (rolesOk p = true ↔ RolesMeet p)
    ∧ (RolesMeet p →
        (p.hsaBit = p.pgmBit ∧ p.hsbBit = p.wrBit) ∨ (p.hsaBit = p.wrBit ∧ p.hsbBit = p.pgmBit))

/-! ### Failures and refusals -/

/-- A port failure ends the operation, or the iteration of ERASE_WAIT, at the failing access, with nothing retried and
nothing undone, and it is the outcome (rules R60, R119, R212, R218, R219): a failure event is the last event, and there
is one exactly when the fault is PORT_IO of its kind. Under a fixture an access fails only if the script says so (rule
R68). -/
def Obligations.PortFailureEndsTheOperation : Prop :=
  ∀ s t : State, Advances s t →
    (∀ kind, t.faulted = some (.portIo kind) ↔ (newEvents s t).getLast? = some (.portFail kind))
      ∧ (∀ kind, .portFail kind ∉ (newEvents s t).dropLast)
      ∧ (∀ kind, t.faulted = some (.portIo kind) →
          ∃ n reached, t.oracle.portIdx = s.oracle.portIdx + n + 1 ∧ PortsOk n s
            ∧ portDrawAt s (s.oracle.portIdx + n) = .fail reached
            ∧ (s.fixture ≠ .none → scriptAt s.oracle.portScript (s.oracle.portIdx + n) = some (.fail reached)))

/-- A refusal is decided before the first event, in the order CONFIG_INVALID, HANDLE_CLOSED, BAD_COMMAND, ADDR_RANGE,
and only the first is reported (rules R52, R99, R215, R219): the operation answers at once and has touched nothing. An
operation that nothing refuses at its start is refused by nothing later. A configuration is refused exactly if two
entries of a table share an id, a `sector_size` is neither 0 nor a power of two, or the role bits break (a) to (d) (rules
R8, R27, R32), and the reason reported is true. That the configuration is checked at every operation, and with it the
record or the table that the operation is given, is an inference of the model's (log entries 11 and 22). The refusal of a
mode of WRITE_IMAGE that `sector_size` does not select is the model's own (log entry 10). -/
def Obligations.RefusalIsDecidedFirst : Prop :=
  ∀ (i : Instr) (s : State), Running s →
    (∀ r, refusalOf s i = some r → exec i s = .next (refusedState r s))
      ∧ (refusalOf s i = none → ∃ t, exec i s = .next t ∧ t.refused = none)
      ∧ ((∃ reason, ConfigError s.params i reason) ↔
          ∃ t reason, exec i s = .next t ∧ t.refused = some (.configInvalid reason))
      ∧ ∀ t reason, exec i s = .next t → t.refused = some (.configInvalid reason) → ConfigError s.params i reason

/-- The address checks (rule R52): a single address must be below 2^24 and a range must end at 2^24 or below; a failed
check is refused with the address and the length and nothing else happens; a check that passes is not refused so,
whatever the chip's size. -/
def Obligations.AddressRangeIsChecked : Prop :=
  ∀ (i : Instr) (start n : Nat) (s : State), addrOperand i = some (start, n) → CanStart s → ownProblem i = none →
    (¬ start + n ≤ 16777216 → exec i s = .next (refusedState (.addrRange start n) s))
      ∧ (start + n ≤ 16777216 → ∃ t, exec i s = .next t ∧ ∀ st m, t.refused ≠ some (.addrRange st m))

/-- The block needs an open handle (rule R33): on a closed one every operation is refused and emits nothing. -/
def Obligations.ClosedHandleIsRefused : Prop :=
  ∀ (i : Instr) (s : State), Running s → paramsProblem s.params = none → ownProblem i = none → s.handle = .closed →
    exec i s = .next (refusedState .handleClosed s)

/-- COMMAND takes the five bytes of rule R96 and refuses every other one before any event (rules R96, R99, R141). -/
def Obligations.BadCommandByteIsRefused : Prop :=
  ∀ (c : Byte) (s : State), CanStart s → PortsOk 228 s →
    (c ∈ [0x90#8, 0xF0#8, 0x80#8, 0x10#8, 0xA0#8] →
      ∃ t, exec (.command c) s = .next t ∧ t.outcomes = s.outcomes ++ [.ok .none])
    ∧ (c ∉ [0x90#8, 0xF0#8, 0x80#8, 0x10#8, 0xA0#8] → exec (.command c) s = .next (refusedState (.badCommand c) s))

/-- Being well formed is exactly being refused by nothing but the machine's own configuration and handle (rules R52, R96,
R99, R215). That the record or the table an operation is given is checked with its operands is an inference of the
model's (log entry 11); the rows of WRITE_IMAGE are its choice (log entry 10). -/
def Obligations.WellFormedIsNeverRefused : Prop :=
  ∀ (i : Instr) (s : State), CanStart s →
    ∃ t, exec i s = .next t ∧ (t.refused = none ↔ WellFormed i = true)

/-! ### Commands -/

/-- Every operation that issues nothing but bus cycles issues exactly the cycles of its rule, in order, each with its
WR window (rules R94, R97, R98, R117, R140, R141, R144, R145, R146, R246), and ends Ok. The lines, the registers and
the target are as after those cycles; nothing else changes. It holds for every `CMD_ADDR` and every step delay. -/
def Obligations.CommandsAreTheirBusCycles : Prop :=
  ∀ (i : Instr) (cs : List TimedCycle) (s : State), operationSequence s.params i = some cs →
    CanStart s → WellFormed i = true → PortsOk (76 * cs.length) s →
      ∃ t, exec i s = .next t
        ∧ busCycles s.params (wireView s) (newEvents s t) = cs.map Prod.fst
        ∧ windowDelays (newEvents s t) = cs.map Prod.snd
        ∧ countEvents (newEvents s t) = ⟨75 * cs.length, cs.length, 0, 0, 73 * cs.length, 0, 0⟩
        ∧ t = { cyclesLeave s cs with
            trace := s.trace ++ newEvents s t, outcomes := s.outcomes ++ [.ok .none], active := none }

/-- The expansions are exact (rules R102, R146): an operation that expands is, event for event and whatever the
environment does, its parts run one after the other, and nothing falls between them. -/
def Obligations.ExpansionsAreExact : Prop :=
  ∀ (i : Instr) (parts : List Instr) (s : State), WellFormed i = true → expansion s.params i = some parts →
    exec i s = runParts parts s

/-- The event counts of the command operations (rule R148), one for each bus cycle and each READ_BYTE. -/
def Obligations.CommandEventCounts : Prop :=
  ∀ (i : Instr) (c : EventCounts) (s : State), ruleCounts i = some c → CanStart s → WellFormed i = true →
    PortsOk (c.wrCtrl + c.wrData + c.rdStatus) s →
      ∃ t, exec i s = .next t ∧ countEvents (newEvents s t) = c
        ∧ (busCycles s.params (wireView s) (newEvents s t)).length = c.wrData
        ∧ (samplesOf (newEvents s t)).length = c.rdStatus

/-- READ_SOFTWARE_ID (rules R56, R142, R245): the ID entry command, a delay of 10 ms, reads at 0 and 1, the ID exit
command, and the 16-bit id, high byte first. Its state is that of its parts; with no fixture the id is made of the next
sixteen draws. -/
def Obligations.ReadSoftwareIdIsItsParts : Prop :=
  ∀ s : State, CanStart s → PortsOk 654 s →
    ∃ (u t : State) (hi lo : Byte),
      exec (.command 0x90#8) s = .next u
      ∧ runAll [.readByte 0, .readByte 1, .command 0xF0#8] { u with trace := u.trace ++ [.delay 10000] } = .next t
      ∧ t.outcomes = s.outcomes ++ [.ok .none, .ok (.byte hi), .ok (.byte lo), .ok .none]
      ∧ exec .readSoftwareId s = .next { t with outcomes := s.outcomes ++ [.ok (.id (hi ++ lo))] }
      ∧ (s.fixture = .none → hi = drawnByte s 0 ∧ lo = drawnByte s 1)

/-- IDENTIFY (rules R143, R213): it is READ_SOFTWARE_ID and an exact lookup, first match in declaration order, no
default. The record found is the result and the host's to pass on (rule R242); with none, the id is unsupported. That
the table may be another than the parameter CHIP_TABLE is a choice of the model's (log entry 22). -/
def Obligations.IdentifyLooksUpTheId : Prop :=
  ∀ (table : List ChipConfig) (s : State), CanStart s → tableProblem table = none → PortsOk 654 s →
    ∃ (u : State) (id : Id16),
      exec .readSoftwareId s = .next u ∧ u.outcomes = s.outcomes ++ [.ok (.id id)]
      ∧ (∀ before cfg after, table = before ++ cfg :: after → (∀ c ∈ before, c.id ≠ id) → cfg.id = id →
          exec (.identify table) s = .next { u with
            identified := some cfg, outcomes := s.outcomes ++ [.ok (.chip cfg)] })
      ∧ ((∀ cfg ∈ table, cfg.id ≠ id) →
          exec (.identify table) s = .next { u with
            faulted := some (.unsupportedChip id), outcomes := s.outcomes ++ [.fault (.unsupportedChip id)] })

/-! ### The loops -/

/-- One iteration of ERASE_WAIT (rule R171), the first one or a later one: poll, wait 100 ms, read address 0 twice; it
ends Ok if both bytes are 0xFF and goes on with one poll more otherwise. Its state is that of its two reads. -/
def Obligations.EraseWaitIteration : Prop :=
  ∀ (s : State) (k : Nat) (answer : Host.Outcome State Fault Refusal), CanStart s →
    (k = 0 ∧ answer = exec .eraseWait s ∨ s.active = some k ∧ answer = step s) →
      PortsOk 198 s → NotCancelled 1 s →
        ∃ (u : State) (v1 v2 : Byte),
          runAll [.readByte 0, .readByte 0] { s with
            active := none, trace := s.trace ++ [.pollCancel false, .delay 100000],
            oracle := { s.oracle with pollIdx := s.oracle.pollIdx + 1 } } = .next u
          ∧ u.outcomes = s.outcomes ++ [.ok (.byte v1), .ok (.byte v2)]
          ∧ v1 = answerAt s 0 0 ∧ v2 = answerAt s 0 1
          ∧ answer = .next (if v1 = 0xFF#8 ∧ v2 = 0xFF#8
              then { u with outcomes := s.outcomes ++ [.ok .none] }
              else { u with outcomes := s.outcomes, active := some (k + 1) })

/-- ERASE_WAIT ends at the first pair of erased reads and not before (rules R171, R253): if pair `m` is the first with
two 0xFF bytes, and neither the host nor the port intervenes, then `m + 1` steps finish it, with one poll, one delay of
100 ms and two reads each. That such a pair comes is a premise on the environment; there is no timeout. -/
def Obligations.EraseWaitEndsAtTheFirstErasedPair : Prop :=
  ∀ (s : State) (c : Call) (rest : List Call) (m : Nat), CanStart s → s.active = none →
    s.calls = c :: rest → decode c = .ok .eraseWait → PortsOk (198 * (m + 1)) s → NotCancelled (m + 1) s →
      (∀ k, k < m → pairErased s k = false) → pairErased s m = true →
        ∃ t : State, runSteps (m + 1) s = .next t
          ∧ t.outcomes = s.outcomes ++ [.ok .none] ∧ t.active = none ∧ t.calls = rest ∧ t.mem = s.mem
          ∧ countEvents (newEvents s t) = ⟨182 * (m + 1), 0, 16 * (m + 1), 0, 183 * (m + 1), m + 1, 0⟩
          ∧ pollsOf (newEvents s t) = List.replicate (m + 1) false
          ∧ ∀ n t', n < m + 1 → runSteps n s = .next t' → t'.outcomes = s.outcomes

/-- ERASE (rules R59, R172): no poll comes before the erase command; then ERASE_WAIT's first poll decides. If the flag is
up by then, the command has been sent all the same and nothing is read; else the first pair of reads is done and the
operation has ended Ok or waits for its next iteration. -/
def Obligations.EraseIssuesTheCommandFirst : Prop :=
  ∀ s : State, CanStart s → PortsOk 654 s →
    ∃ u t : State, exec .eraseChip s = .next u ∧ exec .erase s = .next t
      ∧ ((s.cancelFlag || hostSets s.oracle s.oracle.pollIdx) = true → t = { u with
          cancelFlag := true, trace := u.trace ++ [.pollCancel true],
          outcomes := s.outcomes ++ [.cancelled .eraseWait 0],
          oracle := { u.oracle with pollIdx := u.oracle.pollIdx + 1 } })
      ∧ (NotCancelled 1 s →
          exec .eraseWait { u with outcomes := s.outcomes } = .next t
          ∧ (t.outcomes = s.outcomes ++ [.ok .none] ∧ t.active = none ∨ t.outcomes = s.outcomes ∧ t.active = some 1))

/-- Cancellation between polls of ERASE_WAIT (rules R171, R178, R216): a poll that answers true ends the loop at once,
with the number of iterations completed, no event more and no mark. -/
def Obligations.EraseWaitIsCancelledAtItsPoll : Prop :=
  ∀ (s : State) (k : Nat) (answer : Host.Outcome State Fault Refusal), CanStart s →
    (k = 0 ∧ answer = exec .eraseWait s ∨ s.active = some k ∧ answer = step s) →
      (s.cancelFlag || hostSets s.oracle s.oracle.pollIdx) = true →
        answer = .next { s with
          active := none, cancelFlag := true, trace := s.trace ++ [.pollCancel true],
          outcomes := s.outcomes ++ [.cancelled .eraseWait k],
          oracle := { s.oracle with pollIdx := s.oracle.pollIdx + 1 } }

/-- BLANK_CHECK over erased bytes (rules R173, R177): for every byte of the range in ascending order a poll, one read and,
after every 1024 bytes, a report, in this order; and it ends Ok. Its lines, registers and target are those of the
reads. -/
def Obligations.BlankCheckPasses : Prop :=
  ∀ (offset n : Nat) (s : State), CanStart s → offset + n ≤ addrSpace → PortsOk (99 * n) s → NotCancelled n s →
    (∀ j, j < n → answerAt s (offset + j) j = 0xFF#8) →
      ∃ t u : State, exec (.blankCheck offset n) s = .next t
        ∧ runAll ((List.range n).map fun j => .readByte (offset + j)) s = .next u
        ∧ (newEvents s t).filter (fun e => isPortEvent e || !(delaysOf [e]).isEmpty) = newEvents s u
        ∧ newMarks s t = (List.range n).flatMap blankMarks
        ∧ countEvents (newEvents s t) = ⟨91 * n, 0, 8 * n, 0, 91 * n, n, n / 1024⟩
        ∧ t = { u with
            trace := s.trace ++ newEvents s t, outcomes := s.outcomes ++ [.ok .none], active := none,
            oracle := { u.oracle with pollIdx := u.oracle.pollIdx + n } }

/-- BLANK_CHECK at the first byte that is not erased (rules R173, R214): the fault gives the address `offset + K` and the
value read; exactly `K + 1` bytes have been read, and the last address on the wire is `offset + K`: the SDA levels at
the rising edges of that read are its bits, high bit first. -/
def Obligations.BlankCheckStopsAtTheFirstMismatch : Prop :=
  ∀ (offset n k : Nat) (s : State), CanStart s → offset + n ≤ addrSpace → k < n → PortsOk (99 * (k + 1)) s →
    NotCancelled (k + 1) s → (∀ j, j < k → answerAt s (offset + j) j = 0xFF#8) →
      answerAt s (offset + k) k ≠ 0xFF#8 →
        ∃ t : State, exec (.blankCheck offset n) s = .next t
          ∧ t.outcomes = s.outcomes ++ [.fault (.blankCheckMismatch (offset + k) (answerAt s (offset + k) k))]
          ∧ t.faulted = some (.blankCheckMismatch (offset + k) (answerAt s (offset + k) k))
          ∧ countEvents (newEvents s t) = ⟨91 * (k + 1), 0, 8 * (k + 1), 0, 91 * (k + 1), k + 1, k / 1024⟩
          ∧ (sdaAtEdges s.params (wireView s) (newEvents s t)).length = 32 * (k + 1)
          ∧ ((sdaAtEdges s.params (wireView s) (newEvents s t)).drop (32 * k)).take 24
              = (List.range 24).map (fun j => (offset + k).testBit (23 - j))
          ∧ t.mem = s.mem ∧ t.data = s.data

/-- BLANK_CHECK under cancellation (rules R173, R178, R216): the poll before byte `k` ends it, with `k` bytes checked and
nothing emitted after the poll. -/
def Obligations.BlankCheckIsCancelledAtItsPoll : Prop :=
  ∀ (offset n k : Nat) (s : State), CanStart s → offset + n ≤ addrSpace → k < n → PortsOk (99 * k) s →
    CancelledAfter k s → (∀ j, j < k → answerAt s (offset + j) j = 0xFF#8) →
      ∃ t u : State, exec (.blankCheck offset n) s = .next t ∧ exec (.blankCheck offset k) s = .next u
        ∧ t = { u with
            cancelFlag := true, trace := u.trace ++ [.pollCancel true],
            outcomes := s.outcomes ++ [.cancelled .blankCheck k],
            oracle := { u.oracle with pollIdx := u.oracle.pollIdx + 1 } }

/-- WRITE_IMAGE in byte mode (rules R174, R176, R177, R179, R246): for every byte in order a poll; if it is not 0xFF, the
program-byte sequence at its own address, each cycle with its window, and a sleep of `max_write_usec`; then, after every
1024 bytes and at the end, a report. The count is that of all bytes, the skipped ones too. -/
def Obligations.WriteImageByteMode : Prop :=
  ∀ (i : Instr) (offset : Nat) (src : List Byte) (cfg : ChipConfig) (s : State),
    (i = .writeImage offset src cfg ∨ i = .writeImageByte offset src cfg) → cfg.sectorSize = 0#32 →
    CanStart s → offset + src.length ≤ addrSpace →
    PortsOk (76 * (byteModeSequence s.params cfg offset src).length) s → NotCancelled src.length s →
      ∃ t : State, exec i s = .next t
        ∧ newMarks s t = src.zipIdx.flatMap (fun x => byteMarks s.params cfg offset src.length x.2 x.1)
        ∧ (countEvents (newEvents s t)).wrCtrl = 75 * (byteModeSequence s.params cfg offset src).length
        ∧ t = { cyclesLeave s (byteModeSequence s.params cfg offset src) with
            trace := s.trace ++ newEvents s t, outcomes := s.outcomes ++ [.ok (.count src.length)], active := none
            oracle := { s.oracle with
              portIdx := s.oracle.portIdx + 76 * (byteModeSequence s.params cfg offset src).length,
              pollIdx := s.oracle.pollIdx + src.length } }

/-- WRITE_IMAGE in sector mode (rules R174, R175, R177, R179, R246): for every chunk of `S` bytes from the offset on, the
last one perhaps short, a poll; if some byte is not 0xFF, the chunk whole, byte by byte, each cycle with its window, and
one sleep of `max_write_usec`; then a report. The count is that of all bytes. -/
def Obligations.WriteImageSectorMode : Prop :=
  ∀ (i : Instr) (offset : Nat) (src : List Byte) (cfg : ChipConfig) (s : State) (chunks : List (List Byte)),
    (i = .writeImage offset src cfg ∨ i = .writeImageSector offset src cfg) → cfg.sectorSize ≠ 0#32 →
    sectorSizeOk cfg = true → chunks = chunksOf cfg.sectorSize.toNat src.length src →
    CanStart s → offset + src.length ≤ addrSpace →
    PortsOk (76 * (sectorModeSequence s.params cfg offset chunks).length) s → NotCancelled chunks.length s →
      ∃ t : State, exec i s = .next t
        ∧ newMarks s t = sectorMarks s.params cfg offset 0 chunks
        ∧ (countEvents (newEvents s t)).wrCtrl = 75 * (sectorModeSequence s.params cfg offset chunks).length
        ∧ t = { cyclesLeave s (sectorModeSequence s.params cfg offset chunks) with
            trace := s.trace ++ newEvents s t, outcomes := s.outcomes ++ [.ok (.count src.length)], active := none
            oracle := { s.oracle with
              portIdx := s.oracle.portIdx + 76 * (sectorModeSequence s.params cfg offset chunks).length,
              pollIdx := s.oracle.pollIdx + chunks.length } }

/-- The chunks of sector mode (rules R57, R175): they are the source bytes in order, each of exactly `S` bytes but the
last, which has between 1 and `S`; nothing is asked of the offset's alignment. -/
def Obligations.ChunksCoverTheSource : Prop :=
  ∀ (size : Nat) (src : List Byte), 0 < size →
    (chunksOf size src.length src).flatten = src
      ∧ (∀ c ∈ (chunksOf size src.length src).dropLast, c.length = size)
      ∧ ∀ c ∈ chunksOf size src.length src, 0 < c.length ∧ c.length ≤ size

/-- `sector_size` selects the mode of WRITE_IMAGE (rule R174), in every environment: WRITE_IMAGE is WRITE_IMAGE.BYTE if it
is 0 and WRITE_IMAGE.SECTOR otherwise. -/
def Obligations.SectorSizeSelectsTheMode : Prop :=
  ∀ (offset : Nat) (src : List Byte) (cfg : ChipConfig) (s : State),
    exec (.writeImage offset src cfg) s =
      if cfg.sectorSize = 0#32 then exec (.writeImageByte offset src cfg) s
      else exec (.writeImageSector offset src cfg) s

/-- WRITE_IMAGE under cancellation (rules R175, R176, R178, R179): it ends at the poll that answers true, after `k`
chunks (in byte mode, bytes), with the count of the bytes they hold; it has issued the cycles of those bytes and no
other, and nothing after the poll. -/
def Obligations.WriteImageIsCancelledAtItsPoll : Prop :=
  ∀ (offset : Nat) (src : List Byte) (cfg : ChipConfig) (s : State) (k consumed : Nat),
    consumed = (if cfg.sectorSize = 0#32 then k else k * cfg.sectorSize.toNat) → consumed < src.length →
    sectorSizeOk cfg = true → CanStart s → offset + src.length ≤ addrSpace →
    PortsOk (76 * (imageSequence s.params offset (src.take consumed) cfg).length) s → CancelledAfter k s →
      ∃ t : State, exec (.writeImage offset src cfg) s = .next t
        ∧ t.outcomes = s.outcomes ++ [.cancelled .writeImage consumed]
        ∧ busCycles s.params (wireView s) (newEvents s t)
            = (imageSequence s.params offset (src.take consumed) cfg).map Prod.fst
        ∧ pollsOf (newEvents s t) = List.replicate k false ++ [true]
        ∧ (newEvents s t).getLast? = some (.pollCancel true)
        ∧ t.faulted = none ∧ t.refused = none

/-- With the flag up, every loop ends at its first poll, with no port access (rules R173, R174, R178, R216); a BLANK_CHECK
or a WRITE_IMAGE over no byte has no poll and ends Ok. -/
def Obligations.RaisedFlagEndsEveryLoop : Prop :=
  ∀ (s : State) (offset : Nat), CanStart s → s.cancelFlag = true → offset ≤ addrSpace →
    (∀ (i : Instr) (op : LoopOp), refusalOf s i = none →
      (i = .eraseWait ∧ op = .eraseWait
        ∨ (∃ o n, 0 < n ∧ i = .blankCheck o n ∧ op = .blankCheck)
        ∨ ∃ o src cfg, src ≠ [] ∧ op = .writeImage
            ∧ (i = .writeImage o src cfg ∨ i = .writeImageSector o src cfg ∨ i = .writeImageByte o src cfg)) →
        exec i s = .next { s with
          active := none, trace := s.trace ++ [.pollCancel true], outcomes := s.outcomes ++ [.cancelled op 0]
          oracle := { s.oracle with pollIdx := s.oracle.pollIdx + 1 } })
    ∧ exec (.blankCheck offset 0) s = .next { s with outcomes := s.outcomes ++ [.ok .none], active := none }
    ∧ ∀ cfg, sectorSizeOk cfg = true →
        exec (.writeImage offset [] cfg) s =
          .next { s with outcomes := s.outcomes ++ [.ok (.count 0)], active := none }

/-! ### The whole machine -/

/-- Every step keeps the invariant (rules R24, R25, R26, R29, R116 to R118, R219). -/
def Obligations.StepKeepsTheInvariant : Prop := ∀ s t : State, Inv s → step s = .next t → Inv t

/-- The machine starts in a launch state, and every launch state meets the invariant. A launch state holds what rule R240
gives, a JEDEC fixture in it is idle in array mode as rules R71 and R240 start it, and the host's interface is that of
rule R90. -/
def Obligations.LaunchMeetsTheInvariant : Prop :=
  Launch State.reset ∧ Inv State.reset ∧ ∀ s, Launch s → Inv s
    ∧ ∀ chip, s.fixture = .jedec chip → chip.mode = .array ∧ chip.seq = [] ∧ chip.armed = false ∧ chip.busy = 0

/-- The entry values (rule R240): both registers and their shadows, SCK low and WR asserted with every other bit as
`CTRL_IDLE` has it, the handle open, no mark, no event, no cancellation, no ChipConfig, the supply settled. What the
rule leaves open is an open constant of the model. READ_ORDER and CMD_ADDR have the values that rule R7 decides
(decisions D10 and D11, from general knowledge: log entry 2), and internal operations are not exposed (log entry 9). -/
def Obligations.EntryStateIsAsGiven : Prop :=
  State.reset.data = 0x00#8 ∧ State.reset.physData = 0x00#8
    ∧ State.reset.ctrl = entryCtrl State.reset.params
    ∧ State.reset.physCtrl = State.reset.ctrl ^^^ State.reset.params.ctrlXorMask
    ∧ State.reset.handle = .opened ∧ State.reset.faulted = none ∧ State.reset.refused = none
    ∧ State.reset.trace = [] ∧ State.reset.cancelFlag = false
    ∧ State.reset.supplySettled = true ∧ State.reset.identified = none
    ∧ State.reset.params.readOrder = .sampleThenPulse ∧ State.reset.params.cmdAddr = 0x5555#24
    ∧ State.reset.internalsExposed = false
    ∧ ∀ p : Params, rolesOk p = true →
        getLine p .sck (entryCtrl p) = false ∧ getLine p .wr (entryCtrl p) = true
          ∧ ∀ j : Fin 8, j ≠ p.sckBit → j ≠ p.wrBit → (entryCtrl p).getLsbD j = p.ctrlIdle.getLsbD j

/-- What no operation writes, and no later iteration of a loop, whatever the outcome (rules R4, R7, R20, R23, R26, R33,
R65): the parameters, the handle, the host's calls, the supply, the bits of `ctrl` that no role names, the scripts of
the environment, the exposure of internal operations. The records only grow, and the flag is never lowered. Only
IDENTIFY writes the ChipConfig it returned (rule R242). -/
def Obligations.OperationsLeaveTheRestAlone : Prop :=
  ∀ s t : State, Advances s t →
    t.params = s.params ∧ t.handle = s.handle ∧ t.calls = s.calls ∧ t.supplySettled = s.supplySettled
      ∧ t.internalsExposed = s.internalsExposed
      ∧ (∀ j : Fin 8, j ∉ roleBitList s.params → t.ctrl.getLsbD j = s.ctrl.getLsbD j)
      ∧ t.oracle.portScript = s.oracle.portScript ∧ t.oracle.statusScript = s.oracle.statusScript
      ∧ t.oracle.hostScript = s.oracle.hostScript
      ∧ s.trace <+: t.trace ∧ s.outcomes <+: t.outcomes
      ∧ (s.cancelFlag = true → t.cancelFlag = true)
      ∧ (∀ i, exec i s = .next t → i.mnemonic ≠ .identify → t.identified = s.identified)
      ∧ (s.active ≠ none → step s = .next t → t.identified = s.identified)
      ∧ ∀ cfg, t.outcomes = s.outcomes ++ [.ok (.chip cfg)] → t.identified = some cfg

/-- Every operation ends with exactly one outcome (rules R13, R210), but an ERASE_WAIT whose last pair of reads was not
erased: it has no outcome yet, holds its place in the loop, and the run has not ended (rules R22, R171). So does every
later iteration. -/
def Obligations.OneOutcomeOrOneLoopPosition : Prop :=
  ∀ s t : State,
    (∀ i : Instr, exec i s = .next t →
      (t.active = none ∧ ∃ o, t.outcomes = s.outcomes ++ [o])
        ∨ ((i = .eraseWait ∨ i = .erase) ∧ t.active = some 1 ∧ t.outcomes = s.outcomes ∧ Running t))
    ∧ ∀ k, s.active = some k → step s = .next t →
        (t.active = none ∧ ∃ o, t.outcomes = s.outcomes ++ [o])
          ∨ (t.active = some (k + 1) ∧ t.outcomes = s.outcomes ∧ Running t)

/-- No poll occurs inside a transport call, a command or a burst (rule R59): those operations record no poll, do not
read the flag and are never cancelled. -/
def Obligations.NoPollInsideACommand : Prop :=
  ∀ (i : Instr) (s t : State),
    i.mnemonic ∉ [.eraseWait, .erase, .blankCheck, .writeImage, .writeImageSector, .writeImageByte] →
    exec i s = .next t →
      pollsOf (newEvents s t) = [] ∧ t.cancelFlag = s.cancelFlag ∧ t.oracle.pollIdx = s.oracle.pollIdx
        ∧ ∀ op n, t.outcomes ≠ s.outcomes ++ [.cancelled op n]

/-- Cancelled arises only from a poll that answers true, and always from one (rules R178, R210, R216): the poll is the
last event of the operation, or of the iteration, every poll before it answered false, and no mark is set. -/
def Obligations.CancelledOnlyAtATruePoll : Prop :=
  ∀ s t : State, Advances s t →
    (∀ op n, t.outcomes = s.outcomes ++ [.cancelled op n] →
      (newEvents s t).getLast? = some (.pollCancel true) ∧ t.cancelFlag = true ∧ Running t)
    ∧ (.pollCancel true ∈ newEvents s t → ∃ op n, t.outcomes = s.outcomes ++ [.cancelled op n])
    ∧ ∀ es e, newEvents s t = es ++ [e] → .pollCancel true ∉ es

/-- What stores, and where (rules R61, R70, R71): an operation that issues no bus cycle changes no byte of the target and
leaves the data register alone, and neither does a later iteration of a loop; on the transparent memory an operation
changes only bytes at the addresses of its own cycles, whatever its outcome; with nothing attached there is nothing to
change. -/
def Obligations.StoresOnlyAtItsCycles : Prop :=
  ∀ s t : State,
    (∀ i : Instr, exec i s = .next t →
      (cycleAddrs s.params i = [] → t.mem = s.mem ∧ t.data = s.data ∧ t.physData = s.physData)
        ∧ (s.fixture = .ram → t.fixture = .ram
            ∧ ∀ x, x ∉ cycleAddrs s.params i → memRead t.mem x = memRead s.mem x)
        ∧ (s.fixture = .none → t.fixture = .none ∧ t.mem = s.mem))
    ∧ (s.active ≠ none → step s = .next t →
        t.mem = s.mem ∧ t.data = s.data ∧ t.physData = s.physData
          ∧ (s.fixture = .ram → t.fixture = .ram) ∧ (s.fixture = .none → t.fixture = .none))

/-- No rule depends on the step and settle times (rules R251, R252): two machines that differ in them alone do the same,
event for event, delays apart, and end in the same state but for those times and events; in an operation and in a later
iteration of a loop. -/
def Obligations.StepTimesOnlyChangeDelays : Prop :=
  ∀ (s t : State) (step1 settle1 : Nat) (other : List Event → State → State),
    other = (fun tr u => { u with
      params := { u.params with tStepUs := step1, cmdSettleUs := settle1 }, trace := tr }) →
    (∀ i : Instr, exec i s = .next t →
      ∃ es, withoutDelays es = withoutDelays (newEvents s t)
        ∧ exec i (other s.trace s) = .next (other (s.trace ++ es) t))
    ∧ (s.active ≠ none → step s = .next t →
      ∃ es, withoutDelays es = withoutDelays (newEvents s t)
        ∧ step (other s.trace s) = .next (other (s.trace ++ es) t))

/-! ### The reference fixtures -/

/-- The transparent memory gives back what was written (rules R70; property L1.2), at every address and for every byte,
and the write leaves every other byte alone. -/
def Obligations.RamReturnsTheByteWritten : Prop :=
  ∀ (a : Nat) (v : Byte) (d : Nat) (s : State), CanStart s → a < addrSpace → s.fixture = .ram → PortsOk 175 s →
    ∃ t u : State, exec (.writeByte a v d) s = .next t ∧ exec (.readByte a) t = .next u
      ∧ u.outcomes = s.outcomes ++ [.ok .none, .ok (.byte v)]
      ∧ ∀ x, memRead u.mem x = if x = a then v else memRead s.mem x

/-- On the JEDEC fixture in array mode PROGRAM_BYTE stores the byte at its address and nowhere else, and a read gives it
back (rules R71, R72); a bare bus cycle that begins no sequence stores nothing (conflict C4). -/
def Obligations.JedecProgramsOnlyByCommand : Prop :=
  ∀ (a : Nat) (v : Byte) (cfg : ChipConfig) (s : State) (chip : JedecChip), CanStart s → a < addrSpace →
    sectorSizeOk cfg = true → s.params.cmdAddr = decidedCmdAddr → s.fixture = .jedec chip → chip.mode = .array →
    chip.seq = [] → chip.armed = false → chip.busy = 0 → PortsOk 403 s →
      (∃ t u : State, exec (.programByte a v cfg) s = .next t ∧ exec (.readByte a) t = .next u
        ∧ u.outcomes = s.outcomes ++ [.ok .none, .ok (.byte v)] ∧ u.fixture = s.fixture
        ∧ ∀ x, memRead u.mem x = if x = a then v else memRead s.mem x)
      ∧ ∀ d, (a, v) ≠ (0x5555, 0xAA#8) →
          ∃ t : State, exec (.writeByte a v d) s = .next t ∧ t.mem = s.mem ∧ t.fixture = s.fixture

/-- READ_SOFTWARE_ID against the JEDEC fixture returns the chip's own id and leaves it in array mode with its memory as
it was (rules R71, R142; property L1.4). -/
def Obligations.JedecReportsItsId : Prop :=
  ∀ (s : State) (chip : JedecChip), CanStart s → s.params.cmdAddr = decidedCmdAddr → s.fixture = .jedec chip →
    chip.mode = .array → chip.seq = [] → chip.armed = false → chip.busy = 0 → PortsOk 654 s →
      ∃ t : State, exec .readSoftwareId s = .next t
        ∧ t.outcomes = s.outcomes ++ [.ok (.id (chip.mfr ++ chip.dev))]
        ∧ t.fixture = .jedec chip ∧ t.mem = s.mem

/-- ERASE against the JEDEC fixture (rules R69, R71, R171, R172): the chip reports busy to a fixed number of reads, and
after as many pairs of reads as it takes, and one pair more, the operation ends Ok with every byte erased. -/
def Obligations.JedecEraseEndsErased : Prop :=
  ∀ (s : State) (chip : JedecChip) (c : Call) (rest : List Call) (n : Nat), CanStart s → s.active = none →
    s.calls = c :: rest → decode c = .ok .erase → s.params.cmdAddr = decidedCmdAddr → s.fixture = .jedec chip →
    chip.seq = [] → chip.armed = false → chip.busy = 0 → n = (chip.eraseBusyLoads + 1) / 2 + 1 →
    chip.mode = .array → PortsOk (456 + 198 * n) s → NotCancelled n s →
      ∃ t : State, runSteps n s = .next t
        ∧ t.outcomes = s.outcomes ++ [.ok .none] ∧ t.active = none ∧ t.fixture = .jedec chip
        ∧ ∀ x, memRead t.mem x = 0xFF#8

/-! ### Command integrity -/

/-- Command integrity (rules R66, R147, R244), in every environment: whatever the host calls where internal operations
are not exposed, but a bare WRITE_BYTE, which item I1 allows, the bus cycles of a step are commands, each its own two
unlock cycles, its command cycle and, for 0xA0, its data cycle, with no other data write, sample, poll or report between
them. Only a port failure leaves a command unfinished, and it ends the run. Control writes and time are not noted here:
in each environment the events of an operation are those of its parts one after the other (ExpansionsAreExact), and
CommandsAreTheirBusCycles counts the accesses of a command. -/
def Obligations.HostCannotSplitACommand : Prop :=
  ∀ s t : State, s.internalsExposed = false → step s = .next t →
    (∀ c rest i, s.active = none → s.calls = c :: rest → decode c = .ok i → i.mnemonic ≠ .writeByte) →
      ∃ place, commandPlace s.params.cmdAddr.toNat (newMarks s t) .outside = some place
        ∧ (place = .outside ∨ ∃ kind, t.faulted = some (.portIo kind))
end

