-- ==== Sys2Proof/Laws/Bits.lean ====
section
/-! SUPPORT. Control lines as bits of a byte: what writing a line does to each line. -/

namespace Sys2Proof.Machine

theorem setBit_getLsbD (b : Byte) (i j : Nat) (level : Bool) (hi : i < 8) :
    (setBit b i level).getLsbD j = if j = i then level else b.getLsbD j := by
  unfold setBit
  by_cases hj : j < 8
  · cases level <;> by_cases h : j = i
    · subst h; simp [hj]
    · have : ¬ (j - i = 0 ∧ i ≤ j) := by omega
      simp [h, hj]
      intro _
      omega
    · subst h; simp [hj]
    · simp [h, hj]
      omega
  · have h : j ≠ i := by omega
    have h8 : 8 ≤ j := by omega
    cases level <;> simp [h, BitVec.getLsbD_of_ge _ _ h8]

theorem byte_ext {a b : Byte} (h : ∀ j, j < 8 → a.getLsbD j = b.getLsbD j) : a = b :=
  BitVec.eq_of_getLsbD_eq fun j hj => h j hj

theorem setLine_getLsbD (p : Params) (r : Role) (level : Bool) (c : Byte) (j : Nat) :
    (setLine p r level c).getLsbD j = if j = (lineBit p r).val then level else c.getLsbD j :=
  setBit_getLsbD c _ j level (lineBit p r).isLt

theorem getLine_setLine (p : Params) (r q : Role) (level : Bool) (c : Byte) :
    getLine p q (setLine p r level c) = if lineBit p q = lineBit p r then level else getLine p q c := by
  unfold getLine
  rw [setLine_getLsbD]
  simp [Fin.ext_iff]

@[simp] theorem getLine_setLine_same (p : Params) (r : Role) (level : Bool) (c : Byte) :
    getLine p r (setLine p r level c) = level := by
  simp [getLine_setLine]

theorem setLine_setLine_same (p : Params) (r : Role) (x y : Bool) (c : Byte) :
    setLine p r x (setLine p r y c) = setLine p r x c := by
  apply byte_ext
  intro j _
  simp only [setLine_getLsbD]
  split <;> rfl

theorem setLine_comm (p : Params) {r q : Role} (h : lineBit p r ≠ lineBit p q) (x y : Bool) (c : Byte) :
    setLine p r x (setLine p q y c) = setLine p q y (setLine p r x c) := by
  have hne : (lineBit p r).val ≠ (lineBit p q).val := fun e => h (Fin.ext e)
  apply byte_ext
  intro j _
  simp only [setLine_getLsbD]
  split <;> split <;> first | rfl | omega

@[simp] theorem maskCtrl_maskCtrl (p : Params) (b : Byte) : maskCtrl p (maskCtrl p b) = b := by
  simp [maskCtrl]

/-- The role constraints as inequalities (rule R27). -/
theorem rolesOk_distinct {p : Params} (h : rolesOk p = true) :
    p.sdaBit ≠ p.sckBit ∧ p.sdaBit ≠ p.pgmBit ∧ p.sdaBit ≠ p.wrBit ∧ p.sdaBit ≠ p.hsaBit ∧ p.sdaBit ≠ p.hsbBit
      ∧ p.sckBit ≠ p.pgmBit ∧ p.sckBit ≠ p.wrBit ∧ p.sckBit ≠ p.hsaBit ∧ p.sckBit ≠ p.hsbBit
      ∧ p.pgmBit ≠ p.wrBit ∧ p.hsaBit ≠ p.hsbBit := by
  simp [rolesOk] at h
  tauto

theorem paramsProblem_none {p : Params} (h : paramsProblem p = none) : rolesOk p = true := by
  unfold paramsProblem at h
  split at h
  · assumption
  · cases h

end Sys2Proof.Machine
end

