-- ==== Sys2Proof/Laws/State.lean ====
section
/-! SUPPORT. One lemma per field for every named update of the state. -/

namespace Sys2Proof.Machine

@[simp] theorem addEvent_params (e : Event) (s : State) : (addEvent e s).params = s.params := rfl
@[simp] theorem addEvent_ctrl (e : Event) (s : State) : (addEvent e s).ctrl = s.ctrl := rfl
@[simp] theorem addEvent_data (e : Event) (s : State) : (addEvent e s).data = s.data := rfl
@[simp] theorem addEvent_physCtrl (e : Event) (s : State) : (addEvent e s).physCtrl = s.physCtrl := rfl
@[simp] theorem addEvent_physData (e : Event) (s : State) : (addEvent e s).physData = s.physData := rfl
@[simp] theorem addEvent_handle (e : Event) (s : State) : (addEvent e s).handle = s.handle := rfl
@[simp] theorem addEvent_cancelFlag (e : Event) (s : State) : (addEvent e s).cancelFlag = s.cancelFlag := rfl
@[simp] theorem addEvent_faulted (e : Event) (s : State) : (addEvent e s).faulted = s.faulted := rfl
@[simp] theorem addEvent_refused (e : Event) (s : State) : (addEvent e s).refused = s.refused := rfl
@[simp] theorem addEvent_trace (e : Event) (s : State) : (addEvent e s).trace = s.trace ++ [e] := rfl
@[simp] theorem addEvent_outcomes (e : Event) (s : State) : (addEvent e s).outcomes = s.outcomes := rfl
@[simp] theorem addEvent_active (e : Event) (s : State) : (addEvent e s).active = s.active := rfl
@[simp] theorem addEvent_calls (e : Event) (s : State) : (addEvent e s).calls = s.calls := rfl
@[simp] theorem addEvent_internalsExposed (e : Event) (s : State) : (addEvent e s).internalsExposed = s.internalsExposed := rfl
@[simp] theorem addEvent_identified (e : Event) (s : State) : (addEvent e s).identified = s.identified := rfl
@[simp] theorem addEvent_supplySettled (e : Event) (s : State) : (addEvent e s).supplySettled = s.supplySettled := rfl
@[simp] theorem addEvent_frameReg (e : Event) (s : State) : (addEvent e s).frameReg = s.frameReg := rfl
@[simp] theorem addEvent_mem (e : Event) (s : State) : (addEvent e s).mem = s.mem := rfl
@[simp] theorem addEvent_fixture (e : Event) (s : State) : (addEvent e s).fixture = s.fixture := rfl
@[simp] theorem addEvent_oracle (e : Event) (s : State) : (addEvent e s).oracle = s.oracle := rfl

@[simp] theorem countAccess_params (s : State) : (countAccess s).params = s.params := rfl
@[simp] theorem countAccess_ctrl (s : State) : (countAccess s).ctrl = s.ctrl := rfl
@[simp] theorem countAccess_data (s : State) : (countAccess s).data = s.data := rfl
@[simp] theorem countAccess_physCtrl (s : State) : (countAccess s).physCtrl = s.physCtrl := rfl
@[simp] theorem countAccess_physData (s : State) : (countAccess s).physData = s.physData := rfl
@[simp] theorem countAccess_handle (s : State) : (countAccess s).handle = s.handle := rfl
@[simp] theorem countAccess_cancelFlag (s : State) : (countAccess s).cancelFlag = s.cancelFlag := rfl
@[simp] theorem countAccess_faulted (s : State) : (countAccess s).faulted = s.faulted := rfl
@[simp] theorem countAccess_refused (s : State) : (countAccess s).refused = s.refused := rfl
@[simp] theorem countAccess_trace (s : State) : (countAccess s).trace = s.trace := rfl
@[simp] theorem countAccess_outcomes (s : State) : (countAccess s).outcomes = s.outcomes := rfl
@[simp] theorem countAccess_active (s : State) : (countAccess s).active = s.active := rfl
@[simp] theorem countAccess_calls (s : State) : (countAccess s).calls = s.calls := rfl
@[simp] theorem countAccess_internalsExposed (s : State) : (countAccess s).internalsExposed = s.internalsExposed := rfl
@[simp] theorem countAccess_identified (s : State) : (countAccess s).identified = s.identified := rfl
@[simp] theorem countAccess_supplySettled (s : State) : (countAccess s).supplySettled = s.supplySettled := rfl
@[simp] theorem countAccess_frameReg (s : State) : (countAccess s).frameReg = s.frameReg := rfl
@[simp] theorem countAccess_mem (s : State) : (countAccess s).mem = s.mem := rfl
@[simp] theorem countAccess_fixture (s : State) : (countAccess s).fixture = s.fixture := rfl
@[simp] theorem countAccess_oracle (s : State) : (countAccess s).oracle = { s.oracle with portIdx := s.oracle.portIdx + 1 } := rfl

@[simp] theorem markFault_params (f : Fault) (s : State) : (markFault f s).params = s.params := rfl
@[simp] theorem markFault_ctrl (f : Fault) (s : State) : (markFault f s).ctrl = s.ctrl := rfl
@[simp] theorem markFault_data (f : Fault) (s : State) : (markFault f s).data = s.data := rfl
@[simp] theorem markFault_physCtrl (f : Fault) (s : State) : (markFault f s).physCtrl = s.physCtrl := rfl
@[simp] theorem markFault_physData (f : Fault) (s : State) : (markFault f s).physData = s.physData := rfl
@[simp] theorem markFault_handle (f : Fault) (s : State) : (markFault f s).handle = s.handle := rfl
@[simp] theorem markFault_cancelFlag (f : Fault) (s : State) : (markFault f s).cancelFlag = s.cancelFlag := rfl
@[simp] theorem markFault_faulted (f : Fault) (s : State) : (markFault f s).faulted = s.faulted.or (some f) := rfl
@[simp] theorem markFault_refused (f : Fault) (s : State) : (markFault f s).refused = s.refused := rfl
@[simp] theorem markFault_trace (f : Fault) (s : State) : (markFault f s).trace = s.trace := rfl
@[simp] theorem markFault_outcomes (f : Fault) (s : State) : (markFault f s).outcomes = s.outcomes := rfl
@[simp] theorem markFault_active (f : Fault) (s : State) : (markFault f s).active = s.active := rfl
@[simp] theorem markFault_calls (f : Fault) (s : State) : (markFault f s).calls = s.calls := rfl
@[simp] theorem markFault_internalsExposed (f : Fault) (s : State) : (markFault f s).internalsExposed = s.internalsExposed := rfl
@[simp] theorem markFault_identified (f : Fault) (s : State) : (markFault f s).identified = s.identified := rfl
@[simp] theorem markFault_supplySettled (f : Fault) (s : State) : (markFault f s).supplySettled = s.supplySettled := rfl
@[simp] theorem markFault_frameReg (f : Fault) (s : State) : (markFault f s).frameReg = s.frameReg := rfl
@[simp] theorem markFault_mem (f : Fault) (s : State) : (markFault f s).mem = s.mem := rfl
@[simp] theorem markFault_fixture (f : Fault) (s : State) : (markFault f s).fixture = s.fixture := rfl
@[simp] theorem markFault_oracle (f : Fault) (s : State) : (markFault f s).oracle = s.oracle := rfl

@[simp] theorem markRefused_params (r : Refusal) (s : State) : (markRefused r s).params = s.params := rfl
@[simp] theorem markRefused_ctrl (r : Refusal) (s : State) : (markRefused r s).ctrl = s.ctrl := rfl
@[simp] theorem markRefused_data (r : Refusal) (s : State) : (markRefused r s).data = s.data := rfl
@[simp] theorem markRefused_physCtrl (r : Refusal) (s : State) : (markRefused r s).physCtrl = s.physCtrl := rfl
@[simp] theorem markRefused_physData (r : Refusal) (s : State) : (markRefused r s).physData = s.physData := rfl
@[simp] theorem markRefused_handle (r : Refusal) (s : State) : (markRefused r s).handle = s.handle := rfl
@[simp] theorem markRefused_cancelFlag (r : Refusal) (s : State) : (markRefused r s).cancelFlag = s.cancelFlag := rfl
@[simp] theorem markRefused_faulted (r : Refusal) (s : State) : (markRefused r s).faulted = s.faulted := rfl
@[simp] theorem markRefused_refused (r : Refusal) (s : State) : (markRefused r s).refused = s.refused.or (some r) := rfl
@[simp] theorem markRefused_trace (r : Refusal) (s : State) : (markRefused r s).trace = s.trace := rfl
@[simp] theorem markRefused_outcomes (r : Refusal) (s : State) : (markRefused r s).outcomes = s.outcomes := rfl
@[simp] theorem markRefused_active (r : Refusal) (s : State) : (markRefused r s).active = s.active := rfl
@[simp] theorem markRefused_calls (r : Refusal) (s : State) : (markRefused r s).calls = s.calls := rfl
@[simp] theorem markRefused_internalsExposed (r : Refusal) (s : State) : (markRefused r s).internalsExposed = s.internalsExposed := rfl
@[simp] theorem markRefused_identified (r : Refusal) (s : State) : (markRefused r s).identified = s.identified := rfl
@[simp] theorem markRefused_supplySettled (r : Refusal) (s : State) : (markRefused r s).supplySettled = s.supplySettled := rfl
@[simp] theorem markRefused_frameReg (r : Refusal) (s : State) : (markRefused r s).frameReg = s.frameReg := rfl
@[simp] theorem markRefused_mem (r : Refusal) (s : State) : (markRefused r s).mem = s.mem := rfl
@[simp] theorem markRefused_fixture (r : Refusal) (s : State) : (markRefused r s).fixture = s.fixture := rfl
@[simp] theorem markRefused_oracle (r : Refusal) (s : State) : (markRefused r s).oracle = s.oracle := rfl

@[simp] theorem placeFrame_params (w : List Byte) (s : State) : (placeFrame w s).params = s.params := rfl
@[simp] theorem placeFrame_ctrl (w : List Byte) (s : State) : (placeFrame w s).ctrl = s.ctrl := rfl
@[simp] theorem placeFrame_data (w : List Byte) (s : State) : (placeFrame w s).data = s.data := rfl
@[simp] theorem placeFrame_physCtrl (w : List Byte) (s : State) : (placeFrame w s).physCtrl = s.physCtrl := rfl
@[simp] theorem placeFrame_physData (w : List Byte) (s : State) : (placeFrame w s).physData = s.physData := rfl
@[simp] theorem placeFrame_handle (w : List Byte) (s : State) : (placeFrame w s).handle = s.handle := rfl
@[simp] theorem placeFrame_cancelFlag (w : List Byte) (s : State) : (placeFrame w s).cancelFlag = s.cancelFlag := rfl
@[simp] theorem placeFrame_faulted (w : List Byte) (s : State) : (placeFrame w s).faulted = s.faulted := rfl
@[simp] theorem placeFrame_refused (w : List Byte) (s : State) : (placeFrame w s).refused = s.refused := rfl
@[simp] theorem placeFrame_trace (w : List Byte) (s : State) : (placeFrame w s).trace = s.trace := rfl
@[simp] theorem placeFrame_outcomes (w : List Byte) (s : State) : (placeFrame w s).outcomes = s.outcomes := rfl
@[simp] theorem placeFrame_active (w : List Byte) (s : State) : (placeFrame w s).active = none := rfl
@[simp] theorem placeFrame_calls (w : List Byte) (s : State) : (placeFrame w s).calls = .wire w :: s.calls := rfl
@[simp] theorem placeFrame_internalsExposed (w : List Byte) (s : State) :
    (placeFrame w s).internalsExposed = (s.internalsExposed || isInternalFrame w) := rfl
@[simp] theorem placeFrame_identified (w : List Byte) (s : State) : (placeFrame w s).identified = s.identified := rfl
@[simp] theorem placeFrame_supplySettled (w : List Byte) (s : State) : (placeFrame w s).supplySettled = s.supplySettled := rfl
@[simp] theorem placeFrame_frameReg (w : List Byte) (s : State) : (placeFrame w s).frameReg = s.frameReg := rfl
@[simp] theorem placeFrame_mem (w : List Byte) (s : State) : (placeFrame w s).mem = s.mem := rfl
@[simp] theorem placeFrame_fixture (w : List Byte) (s : State) : (placeFrame w s).fixture = s.fixture := rfl
@[simp] theorem placeFrame_oracle (w : List Byte) (s : State) : (placeFrame w s).oracle = s.oracle := rfl

end Sys2Proof.Machine
end

