-- ==== Sys2Proof/Laws/Ops.lean ====
section
/-! SUPPORT. One lemma for each primitive: what it does when its access succeeds, and everything it can do. -/

namespace Sys2Proof.Machine

theorem bind_ok {α β : Type} {m : Op α} {k : α → Op β} {s t : State} {a : α} (h : m s = .ok a t) :
    (m >>= k) s = k a t := by
  show EStateM.bind m k s = _
  simp [EStateM.bind, h]

theorem bind_error {α β : Type} {m : Op α} {k : α → Op β} {s t : State} {e : Stop} (h : m s = .error e t) :
    (m >>= k) s = .error e t := by
  show EStateM.bind m k s = _
  simp [EStateM.bind, h]

/-- A sequence whose first part ends well: go on with the second. -/
theorem seq_ok {α β : Type} {m : Op α} {k : α → Op β} {s t : State} {a : α} {r : EStateM.Result Stop State β}
    (h : m s = .ok a t) (h' : k a t = r) : (m >>= k) s = r := (bind_ok h).trans h'

/-- The last part of a sequence. -/
theorem last_ok {α : Type} {m : Op α} {s t : State} {a : α} {r : EStateM.Result Stop State α}
    (h : m s = .ok a t) (h' : .ok a t = r) : m s = r := h.trans h'

@[simp] theorem pure_apply {α : Type} (a : α) (s : State) : (pure a : Op α) s = .ok a s := rfl

/-- A sequence that ends well came from a first part that ended well. -/
theorem bind_eq_ok {α β : Type} {m : Op α} {k : α → Op β} {s t : State} {b : β} (h : (m >>= k) s = .ok b t) :
    ∃ a u, m s = .ok a u ∧ k a u = .ok b t := by
  cases hm : m s with
  | ok a u => exact ⟨a, u, rfl, by rwa [bind_ok hm] at h⟩
  | error e u => rw [bind_error hm] at h; cases h

/-- A sequence that stops, stops in one of its parts. -/
theorem bind_eq_error {α β : Type} {m : Op α} {k : α → Op β} {s t : State} {e : Stop}
    (h : (m >>= k) s = .error e t) :
    m s = .error e t ∨ ∃ a u, m s = .ok a u ∧ k a u = .error e t := by
  cases hm : m s with
  | ok a u => exact .inr ⟨a, u, rfl, by rwa [bind_ok hm] at h⟩
  | error e' u => rw [bind_error hm] at h; cases h; exact .inl rfl

/-- `s` with the port index moved on by `n`. -/
def portsUsed (n : Nat) (s : State) : State :=
  { s with oracle := { s.oracle with portIdx := s.oracle.portIdx + n } }

/-- `s` after control writes that leave the logical byte `c`, with the events `es` of `n` port accesses. -/
def driven (c : Byte) (es : List Event) (n : Nat) (s : State) : State :=
  { s with
    ctrl := c, physCtrl := maskCtrl s.params c, trace := s.trace ++ es,
    oracle := { s.oracle with portIdx := s.oracle.portIdx + n } }

@[simp] theorem driven_params (c : Byte) (es : List Event) (n : Nat) (s : State) :
    (driven c es n s).params = s.params := rfl
@[simp] theorem driven_ctrl (c : Byte) (es : List Event) (n : Nat) (s : State) : (driven c es n s).ctrl = c := rfl
@[simp] theorem driven_handle (c : Byte) (es : List Event) (n : Nat) (s : State) :
    (driven c es n s).handle = s.handle := rfl
@[simp] theorem driven_trace (c : Byte) (es : List Event) (n : Nat) (s : State) :
    (driven c es n s).trace = s.trace ++ es := rfl
@[simp] theorem driven_frameReg (c : Byte) (es : List Event) (n : Nat) (s : State) :
    (driven c es n s).frameReg = s.frameReg := rfl
@[simp] theorem driven_fixture (c : Byte) (es : List Event) (n : Nat) (s : State) :
    (driven c es n s).fixture = s.fixture := rfl

@[simp] theorem driven_driven (c c' : Byte) (es es' : List Event) (n n' : Nat) (s : State) :
    driven c' es' n' (driven c es n s) = driven c' (es ++ es') (n + n') s := by
  simp [driven, List.append_assoc, Nat.add_assoc]

theorem driven_setFrameReg (c : Byte) (es : List Event) (n : Nat) (s : State) (r : Addr24) :
    driven c es n { s with frameReg := r } = { driven c es n s with frameReg := r } := rfl

/-- The environment's answers depend on the script and on whether a fixture is attached. -/
theorem portDrawAt_congr {s t : State} (hs : t.oracle.portScript = s.oracle.portScript)
    (ha : attached t.fixture = attached s.fixture) (n : Nat) : portDrawAt t n = portDrawAt s n := by
  unfold portDrawAt
  rw [hs, ha]

/-- The premise on the environment moves on with the port index. -/
theorem portsOk_of_oracle {m n : Nat} {s t : State} (h : PortsOk (m + n) s)
    (hs : t.oracle.portScript = s.oracle.portScript) (ha : attached t.fixture = attached s.fixture)
    (hi : t.oracle.portIdx = s.oracle.portIdx + m) : PortsOk n t := by
  intro k hk
  rw [portDrawAt_congr hs ha, hi, Nat.add_assoc]
  exact h (m + k) (by omega)

theorem portsOk_le {m n : Nat} {s : State} (h : PortsOk n s) (hle : m ≤ n) : PortsOk m s :=
  fun k hk => h k (by omega)

theorem portsOk_driven {m n : Nat} {s : State} (c : Byte) (es : List Event) (h : PortsOk (m + n) s) :
    PortsOk n (driven c es m s) :=
  portsOk_of_oracle h rfl rfl rfl

theorem portsOk_head {n : Nat} {s : State} (h : PortsOk (n + 1) s) :
    portDrawAt s s.oracle.portIdx = .ok := h 0 (by omega)

theorem portWrCtrl_ok {b : Byte} {s : State} (hh : s.handle = .opened) (hp : PortsOk 1 s) :
    portWrCtrl b s = .ok () (addEvent (.wrCtrl b) { countAccess s with physCtrl := b }) := by
  have h0 := portsOk_head hp
  simp [portWrCtrl, hh, h0]

theorem setLines_ok {levels : List (Role × Bool)} {s : State} (hh : s.handle = .opened) (hp : PortsOk 1 s) :
    setLines levels s = .ok () (driven (setLineList s.params levels s.ctrl)
      [.wrCtrl (maskCtrl s.params (setLineList s.params levels s.ctrl))] 1 s) :=
  portWrCtrl_ok (s := { s with ctrl := setLineList s.params levels s.ctrl }) hh hp

theorem setLinesAndWait_ok {levels : List (Role × Bool)} {s : State} (hh : s.handle = .opened) (hp : PortsOk 1 s) :
    setLinesAndWait levels s = .ok () (driven (setLineList s.params levels s.ctrl)
      [.wrCtrl (maskCtrl s.params (setLineList s.params levels s.ctrl)), .delay s.params.tStepUs] 1 s) := by
  unfold setLinesAndWait
  rw [bind_ok (setLines_ok hh hp)]
  simp [stepDelay, delay, emit, addEvent, driven]

theorem stepDelay_driven (c : Byte) (es : List Event) (n : Nat) (s : State) :
    stepDelay (driven c es n s) = .ok () (driven c (es ++ [.delay s.params.tStepUs]) n s) := by
  simp [stepDelay, delay, emit, addEvent, driven]

theorem portWrData_ok {v : Byte} {s : State} (hh : s.handle = .opened) (hp : PortsOk 1 s) :
    portWrData v s = .ok () (addEvent (.wrData v) { countAccess s with physData := v, data := v }) := by
  have h0 := portsOk_head hp
  simp [portWrData, hh, h0]

/-- The byte a successful status read gives: a fixture's, or a draw. -/
def statusByte (fixed : Option Byte) (s : State) : Byte :=
  fixed.getD (statusAt s.oracle s.oracle.statusIdx)

/-- The state after a successful status read: a draw is used up only if it is used. -/
def statusRead (fixed : Option Byte) (s : State) : State :=
  { s with
    trace := s.trace ++ [.rdStatus (statusByte fixed s)],
    oracle := { s.oracle with
      portIdx := s.oracle.portIdx + 1,
      statusIdx := s.oracle.statusIdx + (if fixed.isNone then 1 else 0) } }

theorem portRdStatus_ok {fixed : Option Byte} {s : State} (hh : s.handle = .opened) (hp : PortsOk 1 s) :
    portRdStatus fixed s = .ok (statusByte fixed s) (statusRead fixed s) := by
  have h0 := portsOk_head hp
  cases fixed <;> simp [portRdStatus, hh, h0, statusByte, statusRead, addEvent, countAccess]

/-- Everything a control write can do. -/
theorem portWrCtrl_cases (b : Byte) (s : State) :
    (s.handle = .closed ∧ portWrCtrl b s = .error (.refused .handleClosed) (markRefused .handleClosed s))
    ∨ (s.handle = .opened ∧ portDrawAt s s.oracle.portIdx = .ok
        ∧ portWrCtrl b s = .ok () (addEvent (.wrCtrl b) { countAccess s with physCtrl := b }))
    ∨ (∃ reached, s.handle = .opened ∧ portDrawAt s s.oracle.portIdx = .fail reached
        ∧ portWrCtrl b s = .error (.fault (.portIo .wrCtrl)) (markFault (.portIo .wrCtrl)
            (addEvent (.portFail .wrCtrl) { countAccess s with physCtrl := if reached then b else s.physCtrl }))) := by
  cases hh : s.handle with
  | closed => simp [portWrCtrl, hh, refuse]
  | opened =>
    cases hd : portDrawAt s s.oracle.portIdx with
    | ok => simp [portWrCtrl, hh, hd]
    | fail reached => simp [portWrCtrl, hh, hd, raise]

/-- Everything a data write can do. -/
theorem portWrData_cases (v : Byte) (s : State) :
    (s.handle = .closed ∧ portWrData v s = .error (.refused .handleClosed) (markRefused .handleClosed s))
    ∨ (s.handle = .opened ∧ portDrawAt s s.oracle.portIdx = .ok
        ∧ portWrData v s = .ok () (addEvent (.wrData v) { countAccess s with physData := v, data := v }))
    ∨ (∃ reached, s.handle = .opened ∧ portDrawAt s s.oracle.portIdx = .fail reached
        ∧ portWrData v s = .error (.fault (.portIo .wrData)) (markFault (.portIo .wrData)
            (addEvent (.portFail .wrData) { countAccess s with physData := if reached then v else s.physData }))) := by
  cases hh : s.handle with
  | closed => simp [portWrData, hh, refuse]
  | opened =>
    cases hd : portDrawAt s s.oracle.portIdx with
    | ok => simp [portWrData, hh, hd]
    | fail reached => simp [portWrData, hh, hd, raise]

/-- Everything a status read can do. -/
theorem portRdStatus_cases (fixed : Option Byte) (s : State) :
    (s.handle = .closed ∧ portRdStatus fixed s = .error (.refused .handleClosed) (markRefused .handleClosed s))
    ∨ (s.handle = .opened ∧ portDrawAt s s.oracle.portIdx = .ok
        ∧ portRdStatus fixed s = .ok (statusByte fixed s) (statusRead fixed s))
    ∨ (∃ reached, s.handle = .opened ∧ portDrawAt s s.oracle.portIdx = .fail reached
        ∧ portRdStatus fixed s = .error (.fault (.portIo .rdStatus)) (markFault (.portIo .rdStatus)
            (addEvent (.portFail .rdStatus) (countAccess s)))) := by
  cases hh : s.handle with
  | closed => simp [portRdStatus, hh, refuse]
  | opened =>
    cases hd : portDrawAt s s.oracle.portIdx with
    | ok => cases fixed <;> simp [portRdStatus, hh, hd, statusByte, statusRead, addEvent, countAccess]
    | fail reached => simp [portRdStatus, hh, hd, raise]

/-- The state after a poll. -/
def polled (s : State) : State :=
  addEvent (.pollCancel (flagAtPoll s))
    { s with cancelFlag := flagAtPoll s, oracle := { s.oracle with pollIdx := s.oracle.pollIdx + 1 } }

/-- Everything a loop head can do. -/
theorem pollOrCancel_eq (op : LoopOp) (n : Nat) (s : State) :
    pollOrCancel op n s =
      if flagAtPoll s then .error (.cancelled op n) (polled s) else .ok () (polled s) := by
  unfold pollOrCancel pollCancel
  cases h : flagAtPoll s <;> simp [polled, h]

theorem checkAddr_eq (a : Nat) (s : State) :
    checkAddr a s = if a < addrSpace then .ok () s else .error (.refused (.addrRange a 1)) (markRefused (.addrRange a 1) s) := by
  unfold checkAddr addrOk
  by_cases h : a < addrSpace <;> simp [h, refuse]

theorem checkAddr_ok {a : Nat} {s : State} (h : a < addrSpace) : checkAddr a s = .ok () s := by
  rw [checkAddr_eq, if_pos h]

theorem checkRange_eq (a n : Nat) (s : State) :
    checkRange a n s =
      if a + n ≤ addrSpace then .ok () s else .error (.refused (.addrRange a n)) (markRefused (.addrRange a n) s) := by
  unfold checkRange rangeOk
  by_cases h : a + n ≤ addrSpace <;> simp [h, refuse]

theorem checkRange_ok {a n : Nat} {s : State} (h : a + n ≤ addrSpace) : checkRange a n s = .ok () s := by
  rw [checkRange_eq, if_pos h]

theorem checkCall_ok {own : Option ConfigReason} {s : State} (hp : paramsProblem s.params = none)
    (ho : own = none) (hh : s.handle = .opened) : checkCall own s = .ok () s := by
  simp [checkCall, hp, ho, hh]

/-- Everything the checks before an operation can do (rule R215). -/
theorem checkCall_cases (own : Option ConfigReason) (s : State) :
    (∃ reason, (paramsProblem s.params).or own = some reason
        ∧ checkCall own s = .error (.refused (.configInvalid reason)) (markRefused (.configInvalid reason) s))
    ∨ ((paramsProblem s.params).or own = none ∧ s.handle = .closed
        ∧ checkCall own s = .error (.refused .handleClosed) (markRefused .handleClosed s))
    ∨ ((paramsProblem s.params).or own = none ∧ s.handle = .opened ∧ checkCall own s = .ok () s) := by
  cases hr : (paramsProblem s.params).or own with
  | some reason => simp [checkCall, hr, refuse]
  | none => cases hh : s.handle <;> simp [checkCall, hr, hh, refuse]

theorem ifRunning_running {s : State} (h : Running s) (k : Host.Outcome State Fault Refusal) :
    ifRunning s k = k := by
  simp [ifRunning, h.1, h.2]

/-- What a top-level operation answers: it stops only in a run that has ended (rules R24, R220). -/
theorem perform_running {own : Option ConfigReason} {body : Op Verdict} {s : State} (h : Running s) :
    perform own body s = .next (conclude ((do checkCall own; body) s)) := ifRunning_running h _

theorem perform_next {own : Option ConfigReason} {body : Op Verdict} {s t : State}
    (h : perform own body s = .next t) : Running s ∧ t = conclude ((do checkCall own; body) s) := by
  unfold perform ifRunning at h
  cases hf : s.faulted with
  | some f => simp [hf] at h
  | none =>
    cases hr : s.refused with
    | some r => simp [hf, hr] at h
    | none => simp [hf, hr] at h; exact ⟨⟨hf, hr⟩, h.symm⟩

/-- A top-level operation whose checks pass. -/
theorem perform_ok {own : Option ConfigReason} {body : Op Verdict} {s : State} (h : CanStart s) (ho : own = none) :
    perform own body s = .next (conclude (body s)) := by
  rw [perform_running h.1, bind_ok (checkCall_ok h.2.1 ho h.2.2)]

end Sys2Proof.Machine
end

