-- ==== Sys2Proof/Laws/Transport.lean ====
section
/-! SUPPORT. What the transport operations do when the environment lets their port accesses succeed: the state they leave,
written out (rules R116 to R118). -/

namespace Sys2Proof.Machine

theorem slotCtrl_slotCtrl {p : Params} (h : p.sdaBit ≠ p.sckBit) (x y : Bool) (c : Byte) :
    slotCtrl p x (slotCtrl p y c) = slotCtrl p x c := by
  have hne : lineBit p .sda ≠ lineBit p .sck := h
  unfold slotCtrl
  rw [setLine_comm p hne, setLine_setLine_same, setLine_setLine_same]

theorem slotEvents_slotCtrl {p : Params} (h : p.sdaBit ≠ p.sckBit) (x y : Bool) (c : Byte) :
    slotEvents p (slotCtrl p y c) x = slotEvents p c x := by
  simp [slotEvents, slotCtrl_slotCtrl h]

@[simp] theorem getLine_sck_slotCtrl (p : Params) (b : Bool) (c : Byte) : getLine p .sck (slotCtrl p b c) = false := by
  simp [slotCtrl]

theorem getLine_slotCtrl {p : Params} {r : Role} (b : Bool) (c : Byte)
    (h1 : lineBit p r ≠ lineBit p .sda) (h2 : lineBit p r ≠ lineBit p .sck) :
    getLine p r (slotCtrl p b c) = getLine p r c := by
  simp [slotCtrl, getLine_setLine, h1, h2]

theorem getLine_sda_slotCtrl {p : Params} (h : p.sdaBit ≠ p.sckBit) (b : Bool) (c : Byte) :
    getLine p .sda (slotCtrl p b c) = b := by
  have hne : lineBit p .sda ≠ lineBit p .sck := h
  simp [slotCtrl, getLine_setLine, hne]

theorem addressSlot_ok {b : Bool} {s : State} (hd : s.params.sdaBit ≠ s.params.sckBit) (hh : s.handle = .opened)
    (hp : PortsOk 3 s) :
    addressSlot b s = .ok () { driven (slotCtrl s.params b s.ctrl) (slotEvents s.params s.ctrl b) 3 s with
      frameReg := shiftIn s.frameReg b } := by
  have hne : lineBit s.params .sda ≠ lineBit s.params .sck := hd
  have h2 : getLine s.params .sda (setLine s.params .sck true (slotCtrl s.params b s.ctrl)) = b := by
    rw [getLine_setLine, if_neg hne, getLine_sda_slotCtrl hd]
  have h3 : setLine s.params .sck false (setLine s.params .sck true (slotCtrl s.params b s.ctrl))
      = slotCtrl s.params b s.ctrl := by
    rw [setLine_setLine_same]
    exact setLine_setLine_same _ _ _ _ _
  unfold addressSlot
  refine seq_ok (setLinesAndWait_ok hh (portsOk_le hp (by omega))) ?_
  refine seq_ok (setLines_ok hh (portsOk_of_oracle (m := 1) (portsOk_le hp (by omega)) rfl rfl rfl)) ?_
  refine seq_ok (show latchSda _ = .ok () _ from rfl) ?_
  refine seq_ok (show stepDelay _ = .ok () _ from rfl) ?_
  refine last_ok (setLinesAndWait_ok hh (portsOk_of_oracle (m := 2) (portsOk_le hp (by omega)) rfl rfl rfl)) ?_
  unfold slotCtrl at h2 h3
  simp [setLineList, driven, addEvent, h2, h3, slotEvents, slotCtrl]

/-- The shift register after the slots of bits `n - 1` down to 0. -/
def shiftFrame (a : Nat) : Nat → Addr24 → Addr24
  | 0, sr => sr
  | n + 1, sr => shiftFrame a n (shiftIn sr (a.testBit n))

theorem frameEvents_slotCtrl {p : Params} (h : p.sdaBit ≠ p.sckBit) (b : Bool) (c : Byte) (a n : Nat) :
    frameEvents p (slotCtrl p b c) a n = frameEvents p c a n := by
  have : slotEvents p (slotCtrl p b c) = slotEvents p c := funext fun x => slotEvents_slotCtrl h x b c
  simp [frameEvents, this]

theorem frameEvents_succ (p : Params) (c : Byte) (a n : Nat) :
    frameEvents p c a (n + 1) = slotEvents p c (a.testBit n) ++ frameEvents p c a n := by
  simp [frameEvents, bitsMsbFirst]

theorem addressSlots_ok (a : Nat) {n : Nat} {s : State} (hd : s.params.sdaBit ≠ s.params.sckBit)
    (hh : s.handle = .opened) (hp : PortsOk (3 * (n + 1)) s) :
    addressSlots a (n + 1) s = .ok ()
      { driven (slotCtrl s.params (a.testBit 0) s.ctrl) (frameEvents s.params s.ctrl a (n + 1)) (3 * (n + 1)) s with
        frameReg := shiftFrame a (n + 1) s.frameReg } := by
  induction n generalizing s with
  | zero =>
    refine seq_ok (addressSlot_ok hd hh hp) ?_
    simp [addressSlots, frameEvents, bitsMsbFirst, shiftFrame]
  | succ n ih =>
    refine seq_ok (addressSlot_ok hd hh (portsOk_le hp (by omega))) ?_
    refine last_ok (ih hd hh (portsOk_of_oracle (m := 3) (portsOk_le hp (by omega)) rfl rfl rfl)) ?_
    simp [driven, slotCtrl_slotCtrl hd, frameEvents_slotCtrl hd, frameEvents_succ, shiftFrame]
    omega

theorem shiftIn_getLsbD (sr : Addr24) (b : Bool) (j : Nat) (hj : j < 24) :
    (shiftIn sr b).getLsbD j = if j = 0 then b else sr.getLsbD (j - 1) := by
  unfold shiftIn
  by_cases h : j = 0
  · subst h; cases b <;> simp
  · have h1 : ¬ j < 1 := by omega
    have h2 : j - 1 < 24 := by omega
    cases b <;> simp [hj, h, h1, BitVec.getLsbD_eq_getElem h2]

theorem shiftFrame_getLsbD (a n : Nat) (sr : Addr24) (j : Nat) (hj : j < 24) :
    (shiftFrame a n sr).getLsbD j = if j < n then a.testBit j else sr.getLsbD (j - n) := by
  induction n generalizing sr with
  | zero => simp [shiftFrame]
  | succ n ih =>
    rw [shiftFrame, ih]
    by_cases h : j < n
    · simp [h, show j < n + 1 by omega]
    · rw [if_neg h, shiftIn_getLsbD _ _ _ (by omega)]
      by_cases h2 : j = n
      · subst h2; simp
      · rw [if_neg (by omega), if_neg (by omega)]
        congr 1

/-- After a whole frame the register holds the address, whatever it held before (rule R67). -/
theorem shiftFrame_full (a : Nat) (sr : Addr24) : shiftFrame a 24 sr = BitVec.ofNat 24 a := by
  apply BitVec.eq_of_getLsbD_eq
  intro j hj
  rw [shiftFrame_getLsbD a 24 sr j hj, if_pos hj, BitVec.getLsbD_ofNat]
  simp [hj]

/-- The state that WRITE_ADDRESS leaves. -/
def addressed (a : Nat) (s : State) : State :=
  { driven (slotCtrl s.params (a.testBit 0) s.ctrl) (frameEvents s.params s.ctrl a 24) 72 s with
    frameReg := BitVec.ofNat 24 a }

theorem writeAddress_ok {a : Nat} {s : State} (ha : a < addrSpace) (hd : s.params.sdaBit ≠ s.params.sckBit)
    (hh : s.handle = .opened) (hp : PortsOk 72 s) : writeAddress a s = .ok () (addressed a s) := by
  unfold writeAddress
  refine seq_ok (checkAddr_ok ha) ?_
  refine last_ok (addressSlots_ok a (n := 23) hd hh hp) ?_
  rw [shiftFrame_full]
  rfl

/-- The state that a bus write leaves on the target side. -/
def busWritten (v : Byte) (s : State) : State :=
  match s.fixture with
  | .none => s
  | .ram => { s with mem := memWrite s.mem s.frameReg.toNat v }
  | .jedec chip =>
    { s with
      mem := (jedecWrite s.mem chip s.frameReg.toNat v).1,
      fixture := .jedec (jedecWrite s.mem chip s.frameReg.toNat v).2 }

theorem busWrite_eq (v : Byte) (s : State) : busWrite v s = .ok () (busWritten v s) := by
  unfold busWrite busWritten
  cases s.fixture <;> rfl

/-- The state that WRITE_BYTE leaves, before the target has taken the cycle. -/
def byteSent (a : Nat) (v : Byte) (d : Nat) (s : State) : State :=
  { driven (writtenCtrl s.params (a.testBit 0) s.ctrl) (writeEvents s.params s.ctrl a v d) 76 s with
    frameReg := BitVec.ofNat 24 a, data := v, physData := v }

/-- The state that WRITE_BYTE leaves. -/
def byteWritten (a : Nat) (v : Byte) (d : Nat) (s : State) : State := busWritten v (byteSent a v d s)

theorem writeByte_ok {a : Nat} {v : Byte} {d : Nat} {s : State} (ha : a < addrSpace)
    (hd : s.params.sdaBit ≠ s.params.sckBit) (hh : s.handle = .opened) (hp : PortsOk 76 s) :
    writeByte a v d s = .ok () (byteWritten a v d s) := by
  unfold writeByte
  refine seq_ok (writeAddress_ok ha hd hh (portsOk_le hp (by omega))) ?_
  refine seq_ok (portWrData_ok hh (portsOk_of_oracle (m := 72) (portsOk_le hp (by omega)) rfl rfl rfl)) ?_
  refine seq_ok (setLines_ok hh (portsOk_of_oracle (m := 73) (portsOk_le hp (by omega)) rfl rfl rfl)) ?_
  refine seq_ok (setLines_ok hh (portsOk_of_oracle (m := 74) (portsOk_le hp (by omega)) rfl rfl rfl)) ?_
  refine seq_ok (show delay d _ = .ok () _ from rfl) ?_
  refine seq_ok (setLines_ok hh (portsOk_of_oracle (m := 75) (portsOk_le hp (by omega)) rfl rfl rfl)) ?_
  rw [busWrite_eq]
  simp [byteWritten, byteSent, addressed, driven, addEvent, countAccess, setLineList, writtenCtrl, pgmCtrl,
    writeEvents, List.append_assoc]

theorem handshake_ok {s : State} (hh : s.handle = .opened) (hp : PortsOk 3 s) :
    handshake s = .ok () (driven (shakenCtrl s.params s.ctrl) (handshakeEvents s.params s.ctrl) 3 s) := by
  unfold handshake handshakeStep
  refine seq_ok (setLinesAndWait_ok hh (portsOk_le hp (by omega))) ?_
  refine seq_ok (setLinesAndWait_ok hh (portsOk_of_oracle (m := 1) (portsOk_le hp (by omega)) rfl rfl rfl)) ?_
  refine last_ok (setLinesAndWait_ok hh (portsOk_of_oracle (m := 2) (portsOk_le hp (by omega)) rfl rfl rfl)) ?_
  simp [driven, setLineList, shakenCtrl, handshakeCtrl, handshakeEvents, handshakeStepEvents]

/-- The state after a bus read, and the byte a fixture answers with (rule R68). -/
def busReadState (s : State) : State :=
  match s.fixture with
  | .jedec chip => { s with fixture := .jedec (jedecRead s.mem chip s.frameReg.toNat).2 }
  | _ => s

/-- The byte with which a fixture answers a bus read. -/
def busReadByte (s : State) : Option Byte :=
  match s.fixture with
  | .none => none
  | .ram => some (memRead s.mem s.frameReg.toNat)
  | .jedec chip => some (jedecRead s.mem chip s.frameReg.toNat).1

theorem busRead_eq (s : State) : busRead s = .ok (busReadByte s) (busReadState s) := by
  unfold busRead busReadByte busReadState
  cases s.fixture <;> rfl

theorem readPulse_ok {s : State} (hh : s.handle = .opened) (hp : PortsOk 2 s) :
    readPulse s = .ok () (driven (setLine s.params .sck false s.ctrl) (pulseEvents s.params s.ctrl) 2 s) := by
  unfold readPulse
  refine seq_ok (setLinesAndWait_ok hh (portsOk_le hp (by omega))) ?_
  refine last_ok (setLinesAndWait_ok hh (portsOk_of_oracle (m := 1) (portsOk_le hp (by omega)) rfl rfl rfl)) ?_
  simp [driven, setLineList, pulseEvents, setLine_setLine_same]

/-- The status byte that shows bit `i`, at status read number `idx`. -/
def shownByte (p : Params) (o : Oracle) (fixed : Option Byte) (i idx : Nat) : Byte :=
  (fixed.map fun u => fixtureStatus p u i).getD (statusAt o idx)

/-- How many draws a status read uses up. -/
def drawsUsed (fixed : Option Byte) : Nat := if fixed.isNone then 1 else 0

/-- The state after one sample and its pulse. -/
def sampled (fixed : Option Byte) (i : Nat) (s : State) : State :=
  { s with
    ctrl := setLine s.params .sck false s.ctrl
    physCtrl := maskCtrl s.params (setLine s.params .sck false s.ctrl)
    trace := s.trace ++ sampleEvents s.params s.ctrl (shownByte s.params s.oracle fixed i s.oracle.statusIdx)
    oracle := { s.oracle with
      portIdx := s.oracle.portIdx + 3, statusIdx := s.oracle.statusIdx + drawsUsed fixed } }

theorem sampleStatus_ok {fixed : Option Byte} {i : Nat} {s : State} (hh : s.handle = .opened) (hp : PortsOk 1 s) :
    sampleStatus fixed i s = .ok (sampleBit s.params (shownByte s.params s.oracle fixed i s.oracle.statusIdx))
      (statusRead (fixed.map fun u => fixtureStatus s.params u i) s) := by
  unfold sampleStatus
  exact seq_ok (portRdStatus_ok hh hp) rfl

theorem sampleAndPulse_ok {fixed : Option Byte} {i : Nat} {s : State} (hh : s.handle = .opened)
    (hp : PortsOk 3 s) :
    sampleAndPulse fixed i s = .ok (sampleBit s.params (shownByte s.params s.oracle fixed i s.oracle.statusIdx))
      (sampled fixed i s) := by
  unfold sampleAndPulse
  split
  · next h =>
    refine seq_ok (sampleStatus_ok hh (portsOk_le hp (by omega))) ?_
    refine seq_ok (readPulse_ok hh (portsOk_of_oracle (m := 1) (portsOk_le hp (by omega)) rfl rfl rfl)) ?_
    cases fixed <;>
      simp [statusRead, driven, sampled, sampleEvents, h, shownByte, statusByte, drawsUsed, Nat.add_assoc]
  · next h =>
    refine seq_ok (readPulse_ok hh (portsOk_le hp (by omega))) ?_
    refine last_ok (sampleStatus_ok hh (portsOk_of_oracle (m := 2) (portsOk_le hp (by omega)) rfl rfl rfl)) ?_
    cases fixed <;>
      simp [statusRead, driven, sampled, sampleEvents, h, shownByte, statusByte, drawsUsed, Nat.add_assoc, statusAt]

/-- The byte that `n` samples build, the first of them read number `idx` (rule R93). -/
def readValue (p : Params) (o : Oracle) (fixed : Option Byte) : Nat → Nat → Byte → Byte
  | 0, _, acc => acc
  | n + 1, idx, acc =>
    readValue p o fixed n (idx + drawsUsed fixed) (setBit acc n (sampleBit p (shownByte p o fixed n idx)))

/-- The events of `n` samples and their pulses. -/
def readEvents (p : Params) (o : Oracle) (fixed : Option Byte) (c : Byte) : Nat → Nat → List Event
  | 0, _ => []
  | n + 1, idx =>
    sampleEvents p c (shownByte p o fixed n idx) ++ readEvents p o fixed c n (idx + drawsUsed fixed)

theorem pulseEvents_low (p : Params) (c : Byte) : pulseEvents p (setLine p .sck false c) = pulseEvents p c := by
  simp [pulseEvents, setLine_setLine_same]

theorem readEvents_low (p : Params) (o : Oracle) (fixed : Option Byte) (c : Byte) (n idx : Nat) :
    readEvents p o fixed (setLine p .sck false c) n idx = readEvents p o fixed c n idx := by
  induction n generalizing idx with
  | zero => rfl
  | succ n ih => simp [readEvents, ih, sampleEvents, pulseEvents_low]

theorem shownByte_oracle (p : Params) (o : Oracle) (fixed : Option Byte) (i idx : Nat) (x y : Nat) :
    shownByte p { o with portIdx := x, statusIdx := y } fixed i idx = shownByte p o fixed i idx := rfl

theorem readValue_oracle (p : Params) (o : Oracle) (fixed : Option Byte) (n idx : Nat) (acc : Byte) (x y : Nat) :
    readValue p { o with portIdx := x, statusIdx := y } fixed n idx acc = readValue p o fixed n idx acc := by
  induction n generalizing idx acc with
  | zero => rfl
  | succ n ih => simp [readValue, ih, shownByte_oracle]

theorem readEvents_oracle (p : Params) (o : Oracle) (fixed : Option Byte) (c : Byte) (n idx : Nat) (x y : Nat) :
    readEvents p { o with portIdx := x, statusIdx := y } fixed c n idx = readEvents p o fixed c n idx := by
  induction n generalizing idx with
  | zero => rfl
  | succ n ih => simp [readEvents, ih, shownByte_oracle]

/-- The state after `n` samples and their pulses. -/
def bitsRead (fixed : Option Byte) (n : Nat) (s : State) : State :=
  { s with
    ctrl := setLine s.params .sck false s.ctrl
    physCtrl := maskCtrl s.params (setLine s.params .sck false s.ctrl)
    trace := s.trace ++ readEvents s.params s.oracle fixed s.ctrl n s.oracle.statusIdx
    oracle := { s.oracle with
      portIdx := s.oracle.portIdx + 3 * n, statusIdx := s.oracle.statusIdx + n * drawsUsed fixed } }

theorem readBits_ok (fixed : Option Byte) (n : Nat) (acc : Byte) {s : State} (hh : s.handle = .opened)
    (hp : PortsOk (3 * (n + 1)) s) :
    readBits fixed (n + 1) acc s =
      .ok (readValue s.params s.oracle fixed (n + 1) s.oracle.statusIdx acc) (bitsRead fixed (n + 1) s) := by
  induction n generalizing s acc with
  | zero =>
    refine seq_ok (sampleAndPulse_ok hh hp) ?_
    simp [readBits, readValue, readEvents, bitsRead, sampled]
  | succ n ih =>
    refine seq_ok (sampleAndPulse_ok hh (portsOk_le hp (by omega))) ?_
    refine last_ok (ih _ hh (portsOk_of_oracle (m := 3) (portsOk_le hp (by omega)) rfl rfl rfl)) ?_
    have h1 : 3 + 3 * (n + 1) = 3 * (n + 1 + 1) := by ring
    have h2 : drawsUsed fixed + (n + 1) * drawsUsed fixed = (n + 1 + 1) * drawsUsed fixed := by ring
    simp [sampled, bitsRead, setLine_setLine_same, readEvents_low, readValue_oracle, readEvents_oracle, h1, h2,
      Nat.add_assoc]
    exact ⟨rfl, by rw [← readEvents]⟩

/-- The state before the samples of READ_BYTE: addressed, shaken, and asked of the fixture. -/
def readReady (a : Nat) (s : State) : State :=
  busReadState (driven (shakenCtrl s.params (slotCtrl s.params (a.testBit 0) s.ctrl))
    (handshakeEvents s.params (slotCtrl s.params (a.testBit 0) s.ctrl)) 3 (addressed a s))

/-- The byte with which a fixture answers READ_BYTE a. -/
def readAnswer (a : Nat) (s : State) : Option Byte := busReadByte (addressed a s)

/-- The byte that READ_BYTE a returns. -/
def byteRead (a : Nat) (s : State) : Byte :=
  readValue s.params s.oracle (readAnswer a s) 8 s.oracle.statusIdx 0x00#8

/-- The state that READ_BYTE a leaves. -/
def readDone (a : Nat) (s : State) : State := bitsRead (readAnswer a s) 8 (readReady a s)

@[simp] theorem busReadState_params (s : State) : (busReadState s).params = s.params := by
  unfold busReadState; split <;> rfl
@[simp] theorem busReadState_handle (s : State) : (busReadState s).handle = s.handle := by
  unfold busReadState; split <;> rfl
/-- A bus read attaches and detaches nothing. -/
@[simp] theorem busReadState_attached (s : State) : attached (busReadState s).fixture = attached s.fixture := by
  unfold busReadState; cases h : s.fixture <;> simp [h, attached]
@[simp] theorem busReadState_oracle (s : State) : (busReadState s).oracle = s.oracle := by
  unfold busReadState; split <;> rfl

theorem readByte_ok {a : Nat} {s : State} (ha : a < addrSpace) (hd : s.params.sdaBit ≠ s.params.sckBit)
    (hh : s.handle = .opened) (hp : PortsOk 99 s) : readByte a s = .ok (byteRead a s) (readDone a s) := by
  unfold readByte
  refine seq_ok (writeAddress_ok ha hd hh (portsOk_le hp (by omega))) ?_
  refine seq_ok (handshake_ok hh (portsOk_of_oracle (m := 72) (portsOk_le hp (by omega)) rfl rfl rfl)) ?_
  refine seq_ok (busRead_eq _) ?_
  refine last_ok (readBits_ok _ 7 _ (by rw [busReadState_handle]; exact hh)
    (portsOk_of_oracle (m := 75) hp (by rw [busReadState_oracle]; rfl) (busReadState_attached _) (by rw [busReadState_oracle]; rfl))) ?_
  rw [busReadState_params, busReadState_oracle]
  have h : (driven (shakenCtrl s.params (slotCtrl s.params (a.testBit 0) s.ctrl))
    (handshakeEvents s.params (slotCtrl s.params (a.testBit 0) s.ctrl)) 3 (addressed a s)).oracle
      = { s.oracle with portIdx := s.oracle.portIdx + 72 + 3, statusIdx := s.oracle.statusIdx } := rfl
  rw [show (addressed a s).params = s.params from rfl, show (addressed a s).ctrl = slotCtrl s.params (a.testBit 0) s.ctrl from rfl, h,
    driven_params, readValue_oracle]
  rfl

theorem readValue_getLsbD (p : Params) (o : Oracle) (fixed : Option Byte) (n idx : Nat) (acc : Byte) (hn : n ≤ 8)
    (j : Nat) :
    (readValue p o fixed n idx acc).getLsbD j =
      if j < n then sampleBit p (shownByte p o fixed j (idx + (n - 1 - j) * drawsUsed fixed)) else acc.getLsbD j := by
  induction n generalizing idx acc with
  | zero => simp [readValue]
  | succ n ih =>
    rw [readValue, ih _ _ (by omega)]
    by_cases h : j < n
    · rw [if_pos h, if_pos (by omega)]
      congr 2
      rw [show n + 1 - 1 - j = (n - 1 - j) + 1 by omega]
      ring
    · rw [if_neg h, setBit_getLsbD _ _ _ _ (by omega)]
      by_cases h2 : j = n
      · subst h2; simp
      · rw [if_neg h2, if_neg (by omega)]

theorem sampleBit_fixtureStatus (p : Params) (u : Byte) (i : Nat) :
    sampleBit p (fixtureStatus p u i) = u.getLsbD i := by
  unfold sampleBit fixtureStatus
  rw [setBit_getLsbD _ _ _ _ p.sinBit.isLt]
  simp

/-- A fixture's byte is read back whole (rule R68). -/
theorem readValue_fixture (p : Params) (o : Oracle) (u : Byte) (idx : Nat) (acc : Byte) :
    readValue p o (some u) 8 idx acc = u := by
  apply byte_ext
  intro j hj
  rw [readValue_getLsbD _ _ _ _ _ _ (by omega), if_pos hj]
  simp [shownByte, sampleBit_fixtureStatus]

/-- With no fixture, bit `7 - k` of the byte is the inverse of the k-th draw's `SIN_BIT` (rule R93). -/
theorem readValue_draws (p : Params) (o : Oracle) (idx : Nat) (acc : Byte) (k : Nat) (hk : k < 8) :
    (readValue p o none 8 idx acc).getLsbD (7 - k) = !(statusAt o (idx + k)).getLsbD p.sinBit := by
  rw [readValue_getLsbD _ _ _ _ _ _ (by omega), if_pos (by omega)]
  simp [shownByte, drawsUsed, sampleBit, show 7 - (7 - k) = k by omega]

end Sys2Proof.Machine
end

