-- ==== Sys2Proof/Laws/Trace.lean ====
section
/-! SUPPORT. What an observer sees in the events of the transport operations: counts (rule R120), edges (rule R91) and bus
cycles (rule R94). -/

namespace Sys2Proof.Machine

/-- Counts add up. -/
def addCounts (x y : EventCounts) : EventCounts :=
  ⟨x.wrCtrl + y.wrCtrl, x.wrData + y.wrData, x.rdStatus + y.rdStatus, x.portFail + y.portFail, x.delay + y.delay,
   x.pollCancel + y.pollCancel, x.progress + y.progress⟩

theorem foldl_countEvent (es : List Event) (c : EventCounts) :
    es.foldl countEvent c = addCounts c (countEvents es) := by
  induction es generalizing c with
  | nil => simp [countEvents, noEvents, addCounts]
  | cons e es ih =>
    have h := ih (countEvent noEvents e)
    rw [countEvents, List.foldl_cons, List.foldl_cons, ih, h]
    cases e <;> simp [addCounts, countEvent, noEvents] <;> omega

@[simp] theorem countEvents_nil : countEvents [] = noEvents := rfl

theorem countEvents_append (xs ys : List Event) :
    countEvents (xs ++ ys) = addCounts (countEvents xs) (countEvents ys) := by
  rw [countEvents, List.foldl_append, foldl_countEvent]
  rfl

theorem countEvents_cons (e : Event) (es : List Event) :
    countEvents (e :: es) = addCounts (countEvent noEvents e) (countEvents es) := by
  rw [countEvents, List.foldl_cons, foldl_countEvent]

/-- The view after a list of events. -/
def viewAll (p : Params) (w : WireView) (es : List Event) : WireView := es.foldl (viewAfter p) w

theorem viewAll_append (p : Params) (w : WireView) (xs ys : List Event) :
    viewAll p w (xs ++ ys) = viewAll p (viewAll p w xs) ys := List.foldl_append

theorem busCycles_append (p : Params) (w : WireView) (xs ys : List Event) :
    busCycles p w (xs ++ ys) = busCycles p w xs ++ busCycles p (viewAll p w xs) ys := by
  induction xs generalizing w with
  | nil => rfl
  | cons e xs ih => cases e <;> simp [busCycles, ih, viewAll, viewAfter]

theorem sdaAtEdges_append (p : Params) (w : WireView) (xs ys : List Event) :
    sdaAtEdges p w (xs ++ ys) = sdaAtEdges p w xs ++ sdaAtEdges p (viewAll p w xs) ys := by
  induction xs generalizing w with
  | nil => rfl
  | cons e xs ih => cases e <;> simp [sdaAtEdges, ih, viewAll, viewAfter]

theorem shiftIn_eq (sr : Addr24) (b : Bool) : (sr <<< 1) ||| (BitVec.ofBool b).setWidth 24 = shiftIn sr b := by
  cases b <;> rfl

theorem getLine_sck_high {p : Params} (h : p.sdaBit ≠ p.sckBit) (b : Bool) (c : Byte) :
    getLine p .sda (setLine p .sck true (slotCtrl p b c)) = b := by
  have hne : lineBit p .sda ≠ lineBit p .sck := h
  rw [getLine_setLine, if_neg hne, getLine_sda_slotCtrl h]

theorem viewAll_slot {p : Params} (h : p.sdaBit ≠ p.sckBit) (w : WireView) (b : Bool) (c : Byte) :
    viewAll p w (slotEvents p c b) = ⟨false, shiftIn w.sr b⟩ := by
  simp [viewAll, slotEvents, viewAfter, getLine_sck_high h, shiftIn_eq]

theorem busCycles_slot {p : Params} (w : WireView) (b : Bool) (c : Byte) : busCycles p w (slotEvents p c b) = [] := by
  simp [slotEvents, busCycles]

theorem sdaAtEdges_slot {p : Params} (h : p.sdaBit ≠ p.sckBit) (w : WireView) (b : Bool) (c : Byte) :
    sdaAtEdges p w (slotEvents p c b) = [b] := by
  simp [slotEvents, sdaAtEdges, viewAfter, getLine_sck_high h]

theorem viewAll_frame {p : Params} (h : p.sdaBit ≠ p.sckBit) (w : WireView) (c : Byte) (a n : Nat) :
    viewAll p w (frameEvents p c a (n + 1)) = ⟨false, shiftFrame a (n + 1) w.sr⟩ := by
  induction n generalizing w with
  | zero => simp [frameEvents, bitsMsbFirst, viewAll_slot h, shiftFrame]
  | succ n ih =>
    rw [frameEvents_succ, viewAll_append, viewAll_slot h, ih]
    rfl

theorem busCycles_frame {p : Params} (w : WireView) (c : Byte) (a n : Nat) :
    busCycles p w (frameEvents p c a n) = [] := by
  induction n generalizing w with
  | zero => rfl
  | succ n ih => rw [frameEvents_succ, busCycles_append, busCycles_slot, ih]; rfl

/-- The SDA levels at the rising edges of an address frame are the address bits, the highest first (rule R91). -/
theorem sdaAtEdges_frame {p : Params} (h : p.sdaBit ≠ p.sckBit) (w : WireView) (c : Byte) (a n : Nat) :
    sdaAtEdges p w (frameEvents p c a n) = bitsMsbFirst a n := by
  induction n generalizing w with
  | zero => rfl
  | succ n ih => rw [frameEvents_succ, sdaAtEdges_append, sdaAtEdges_slot h, ih]; rfl

theorem countEvents_frame (p : Params) (c : Byte) (a n : Nat) :
    countEvents (frameEvents p c a n) = ⟨3 * n, 0, 0, 0, 3 * n, 0, 0⟩ := by
  induction n with
  | zero => rfl
  | succ n ih =>
    rw [frameEvents_succ, countEvents_append, ih]
    simp [slotEvents, countEvents_cons, addCounts, countEvent, noEvents]
    omega

/-- The lines that WRITE_BYTE drives after the frame leave SCK low. -/
theorem getLine_sck_written {p : Params} (h : rolesOk p = true) (b : Bool) (c : Byte) :
    getLine p .sck (pgmCtrl p (slotCtrl p b c)) = false
      ∧ getLine p .sck (setLine p .wr false (pgmCtrl p (slotCtrl p b c))) = false
      ∧ getLine p .sck (writtenCtrl p b c) = false := by
  obtain ⟨-, -, -, -, -, h1, h2, -, -, -, -⟩ := rolesOk_distinct h
  have hp : lineBit p .sck ≠ lineBit p .pgm := h1
  have hw : lineBit p .sck ≠ lineBit p .wr := h2
  simp [pgmCtrl, writtenCtrl, getLine_setLine, hp, hw]

/-- WRITE_BYTE is one bus cycle with its address and its byte (rule R94), whatever the wire saw before. -/
theorem busCycles_write {p : Params} (h : rolesOk p = true) (w : WireView) (c : Byte) (a : Nat) (v : Byte) (d : Nat)
    (ha : a < addrSpace) : busCycles p w (writeEvents p c a v d) = [(a, v)] := by
  have ha' : a < 2 ^ 24 := ha
  rw [writeEvents, busCycles_append, busCycles_frame, viewAll_frame (rolesOk_distinct h).1, shiftFrame_full]
  simp [busCycles]
  omega

theorem viewAll_write {p : Params} (h : rolesOk p = true) (w : WireView) (c : Byte) (a : Nat) (v : Byte) (d : Nat) :
    viewAll p w (writeEvents p c a v d) = ⟨false, BitVec.ofNat 24 a⟩ := by
  rw [writeEvents, viewAll_append, viewAll_frame (rolesOk_distinct h).1, shiftFrame_full]
  generalize a.testBit 0 = b
  obtain ⟨h1, h2, h3⟩ := getLine_sck_written h b c
  simp [viewAll, viewAfter, h1, h2, h3]

theorem countEvents_write (p : Params) (c : Byte) (a : Nat) (v : Byte) (d : Nat) :
    countEvents (writeEvents p c a v d) = ⟨75, 1, 0, 0, 73, 0, 0⟩ := by
  rw [writeEvents, countEvents_append, countEvents_frame]
  simp [countEvents_cons, addCounts, countEvent, noEvents]

theorem countEvents_sample (p : Params) (c b : Byte) :
    countEvents (sampleEvents p c b) = ⟨2, 0, 1, 0, 2, 0, 0⟩ := by
  unfold sampleEvents
  split <;> simp [pulseEvents, countEvents_cons, addCounts, countEvent, noEvents]

theorem countEvents_read (p : Params) (o : Oracle) (fixed : Option Byte) (c : Byte) (n idx : Nat) :
    countEvents (readEvents p o fixed c n idx) = ⟨2 * n, 0, n, 0, 2 * n, 0, 0⟩ := by
  induction n generalizing idx with
  | zero => rfl
  | succ n ih =>
    rw [readEvents, countEvents_append, ih, countEvents_sample]
    simp [addCounts]
    omega

theorem countEvents_handshake (p : Params) (c : Byte) :
    countEvents (handshakeEvents p c) = ⟨3, 0, 0, 0, 3, 0, 0⟩ := by
  simp [handshakeEvents, handshakeStepEvents, countEvents_cons, addCounts, countEvent, noEvents]

theorem busCycles_noData {p : Params} {es : List Event} (h : ∀ v, Event.wrData v ∉ es) (w : WireView) :
    busCycles p w es = [] := by
  induction es generalizing w with
  | nil => rfl
  | cons e es ih =>
    have h' : ∀ v, Event.wrData v ∉ es := fun v hv => h v (List.mem_cons_of_mem _ hv)
    cases e with
    | wrData v => exact absurd List.mem_cons_self (h v)
    | _ => exact ih h' _

end Sys2Proof.Machine
end

