-- ==== Sys2Proof/Laws/Command.lean ====
section
/-! SUPPORT. What the command protocol does when the environment lets its port accesses succeed (rules R140 to R146):
every operation is a list of bus cycles sent one after the other. -/

namespace Sys2Proof.Machine

/-- The state after bus cycles sent one after the other. -/
def allSent (cs : List TimedCycle) (s : State) : State :=
  cs.foldl (fun s c => byteWritten c.1.1 c.1.2 c.2 s) s

theorem allSent_append (xs ys : List TimedCycle) (s : State) : allSent (xs ++ ys) s = allSent ys (allSent xs s) :=
  List.foldl_append

@[simp] theorem allSent_cons (c : TimedCycle) (cs : List TimedCycle) (s : State) :
    allSent (c :: cs) s = allSent cs (byteWritten c.1.1 c.1.2 c.2 s) := rfl

@[simp] theorem allSent_nil (s : State) : allSent [] s = s := rfl

@[simp] theorem busWritten_params (v : Byte) (s : State) : (busWritten v s).params = s.params := by
  unfold busWritten; split <;> rfl
@[simp] theorem busWritten_handle (v : Byte) (s : State) : (busWritten v s).handle = s.handle := by
  unfold busWritten; split <;> rfl
/-- A bus write attaches and detaches nothing. -/
@[simp] theorem busWritten_attached (v : Byte) (s : State) : attached (busWritten v s).fixture = attached s.fixture := by
  unfold busWritten; cases h : s.fixture <;> simp [h, attached]
@[simp] theorem busWritten_oracle (v : Byte) (s : State) : (busWritten v s).oracle = s.oracle := by
  unfold busWritten; split <;> rfl
@[simp] theorem busWritten_trace (v : Byte) (s : State) : (busWritten v s).trace = s.trace := by
  unfold busWritten; split <;> rfl
@[simp] theorem busWritten_ctrl (v : Byte) (s : State) : (busWritten v s).ctrl = s.ctrl := by
  unfold busWritten; split <;> rfl
@[simp] theorem busWritten_frameReg (v : Byte) (s : State) : (busWritten v s).frameReg = s.frameReg := by
  unfold busWritten; split <;> rfl
@[simp] theorem busWritten_outcomes (v : Byte) (s : State) : (busWritten v s).outcomes = s.outcomes := by
  unfold busWritten; split <;> rfl

@[simp] theorem byteWritten_params (a : Nat) (v : Byte) (d : Nat) (s : State) :
    (byteWritten a v d s).params = s.params := by simp [byteWritten, byteSent]
@[simp] theorem byteWritten_handle (a : Nat) (v : Byte) (d : Nat) (s : State) :
    (byteWritten a v d s).handle = s.handle := by simp [byteWritten, byteSent]
@[simp] theorem byteWritten_oracle (a : Nat) (v : Byte) (d : Nat) (s : State) :
    (byteWritten a v d s).oracle = { s.oracle with portIdx := s.oracle.portIdx + 76 } := by
  simp [byteWritten, byteSent, driven]
@[simp] theorem byteWritten_attached (a : Nat) (v : Byte) (d : Nat) (s : State) :
    attached (byteWritten a v d s).fixture = attached s.fixture := by simp [byteWritten, byteSent]
@[simp] theorem byteWritten_trace (a : Nat) (v : Byte) (d : Nat) (s : State) :
    (byteWritten a v d s).trace = s.trace ++ writeEvents s.params s.ctrl a v d := by
  simp [byteWritten, byteSent]
@[simp] theorem byteWritten_ctrl (a : Nat) (v : Byte) (d : Nat) (s : State) :
    (byteWritten a v d s).ctrl = writtenCtrl s.params (a.testBit 0) s.ctrl := by simp [byteWritten, byteSent]
@[simp] theorem byteWritten_outcomes (a : Nat) (v : Byte) (d : Nat) (s : State) :
    (byteWritten a v d s).outcomes = s.outcomes := by simp [byteWritten, byteSent, driven]

/-- The machine can go on sending: roles, handle and environment. -/
structure CanSend (n : Nat) (s : State) : Prop where
  roles : rolesOk s.params = true
  opened : s.handle = .opened
  ports : PortsOk n s

theorem CanSend.le {m n : Nat} {s : State} (h : CanSend n s) (hle : m ≤ n) : CanSend m s :=
  ⟨h.roles, h.opened, portsOk_le h.ports hle⟩

theorem CanSend.written {n : Nat} {s : State} (h : CanSend (76 + n) s) (a : Nat) (v : Byte) (d : Nat) :
    CanSend n (byteWritten a v d s) :=
  ⟨by simpa using h.roles, by simpa using h.opened, portsOk_of_oracle h.ports (by simp) (by simp) (by simp)⟩

theorem CanSend.sent {n : Nat} {s : State} (cs : List TimedCycle) (h : CanSend (76 * cs.length + n) s) :
    CanSend n (allSent cs s) := by
  induction cs generalizing s with
  | nil => simpa using h
  | cons c cs ih =>
    exact ih (CanSend.written (h.le (by simp; omega)) _ _ _)

theorem writeByte_sent {a : Nat} {v : Byte} {d : Nat} {s : State} (ha : a < addrSpace) (h : CanSend 76 s) :
    writeByte a v d s = .ok () (allSent [((a, v), d)] s) :=
  writeByte_ok ha (rolesOk_distinct h.roles).1 h.opened h.ports

theorem unlock_ok {s : State} (h : CanSend 152 s) :
    unlock s = .ok () (allSent (timed s.params.cmdSettleUs unlockCycles) s) := by
  unfold unlock commandCycle
  refine seq_ok (writeByte_sent (by decide) (h.le (by omega))) ?_
  refine last_ok (writeByte_sent (by decide) (CanSend.sent _ (h.le (by simp)))) ?_
  simp [allSent, timed, unlockCycles]

@[simp] theorem commandSequence_length (p : Params) (c : Byte) : (commandSequence p c).length = 3 := rfl

theorem allSent_params (cs : List TimedCycle) (s : State) : (allSent cs s).params = s.params := by
  induction cs generalizing s with
  | nil => rfl
  | cons c cs ih => simp [ih]

theorem command_ok {c : Byte} {s : State} (hc : isCommandByte c = true) (h : CanSend 228 s) :
    command c s = .ok () (allSent (commandSequence s.params c) s) := by
  unfold command
  refine seq_ok (show checkCommand c s = .ok () s by rw [checkCommand, if_pos hc]; rfl) ?_
  refine seq_ok (unlock_ok (h.le (by omega))) ?_
  unfold commandByteCycle commandCycle
  refine last_ok (writeByte_sent (by have := s.params.cmdAddr.isLt; rw [allSent_params]; exact this)
    (CanSend.sent _ (h.le (by simp [timed, unlockCycles])))) ?_
  simp [allSent_params, commandSequence, timed, jedec3Cycles, allSent_append]

/-- Two commands one after the other. -/
theorem eraseChip_ok {s : State} (h : CanSend 456 s) :
    eraseChip s = .ok () (allSent (timed s.params.cmdSettleUs (eraseCycles s.params.cmdAddr.toNat)) s) := by
  unfold eraseChip
  refine seq_ok (command_ok (by decide) (h.le (by omega))) ?_
  refine last_ok (command_ok (by decide) (CanSend.sent _ (h.le (by simp)))) ?_
  simp [allSent_params, commandSequence, eraseCycles, timed, allSent_append]

theorem programByte_ok {a : Nat} {v : Byte} {cfg : ChipConfig} {s : State} (ha : a < addrSpace)
    (h : CanSend 304 s) : programByte a v cfg s = .ok () (allSent (programSequence s.params cfg a v) s) := by
  unfold programByte
  refine seq_ok (checkAddr_ok ha) ?_
  refine seq_ok (command_ok (by decide) (h.le (by omega))) ?_
  refine last_ok (writeByte_sent ha (CanSend.sent _ (h.le (by simp)))) ?_
  simp [programSequence, allSent_append]

theorem rangeSequence_length (p : Params) (cfg : ChipConfig) (a : Nat) (vs : List Byte) :
    (rangeSequence p cfg a vs).length = 4 * vs.length := by
  induction vs generalizing a with
  | nil => rfl
  | cons v vs ih => simp [rangeSequence, programSequence, ih]; ring

theorem programBytes_ok {a : Nat} {vs : List Byte} {cfg : ChipConfig} {s : State} (ha : a + vs.length ≤ addrSpace)
    (h : CanSend (304 * vs.length) s) :
    programBytes cfg a vs s = .ok () (allSent (rangeSequence s.params cfg a vs) s) := by
  induction vs generalizing a s with
  | nil => rfl
  | cons v vs ih =>
    have hl : (v :: vs).length = vs.length + 1 := rfl
    refine seq_ok (programByte_ok (by omega) (h.le (by omega))) ?_
    refine last_ok (ih (by omega) (CanSend.sent _ (h.le (by simp [programSequence]; omega)))) ?_
    simp [allSent_params, rangeSequence, allSent_append]

theorem programRange_ok {a : Nat} {vs : List Byte} {cfg : ChipConfig} {s : State} (ha : a + vs.length ≤ addrSpace)
    (h : CanSend (304 * vs.length) s) :
    programRange a vs cfg s = .ok () (allSent (rangeSequence s.params cfg a vs) s) := by
  unfold programRange
  refine seq_ok (checkRange_ok ha) ?_
  exact programBytes_ok ha h

/-- The events of bus cycles sent one after the other, from control byte `c` on. -/
def sentEvents (p : Params) : Byte → List TimedCycle → List Event
  | _, [] => []
  | c, x :: xs =>
    writeEvents p c x.1.1 x.1.2 x.2 ++ sentEvents p (writtenCtrl p (x.1.1.testBit 0) c) xs

theorem allSent_trace (cs : List TimedCycle) (s : State) :
    (allSent cs s).trace = s.trace ++ sentEvents s.params s.ctrl cs := by
  induction cs generalizing s with
  | nil => simp [sentEvents]
  | cons c cs ih => simp [ih, sentEvents]

theorem countEvents_sent (p : Params) (c : Byte) (cs : List TimedCycle) :
    countEvents (sentEvents p c cs) = ⟨75 * cs.length, cs.length, 0, 0, 73 * cs.length, 0, 0⟩ := by
  induction cs generalizing c with
  | nil => rfl
  | cons x xs ih =>
    rw [sentEvents, countEvents_append, countEvents_write, ih]
    simp [addCounts]
    omega

/-- What is sent is what the wire shows: the bus cycles, in order, with their addresses and bytes (rules R94, R98). -/
theorem busCycles_sent {p : Params} (h : rolesOk p = true) (w : WireView) (c : Byte) (cs : List TimedCycle)
    (ha : ∀ x ∈ cs, x.1.1 < addrSpace) : busCycles p w (sentEvents p c cs) = cs.map Prod.fst := by
  induction cs generalizing w c with
  | nil => rfl
  | cons x xs ih =>
    rw [sentEvents, busCycles_append, busCycles_write h _ _ _ _ _ (ha x (by simp)), ih _ _ fun y hy => ha y (by simp [hy])]
    rfl

theorem viewAll_sent {p : Params} (h : rolesOk p = true) (w : WireView) (c : Byte) (x : TimedCycle)
    (cs : List TimedCycle) : (viewAll p w (sentEvents p c (x :: cs))).sck = false := by
  induction cs generalizing w c x with
  | nil => simp [sentEvents, viewAll_write h]
  | cons y ys ih => rw [sentEvents, viewAll_append]; exact ih _ _ _

end Sys2Proof.Machine
end

