-- ==== Sys2Proof/Laws/Configuration.lean ====
section
/-! SUPPORT. The checks of a configuration, in the words of rules R8, R27 and R32: one spec lemma for each check. -/

namespace Sys2Proof.Machine

theorem countDistinct_eq_dedup (bits : List (Fin 8)) : countDistinct bits = bits.dedup.length := by
  induction bits with
  | nil => rfl
  | cons b bs ih =>
    by_cases h : b ∈ bs
    · simp [countDistinct, ih, h, List.dedup_cons_of_mem]
    · simp [countDistinct, ih, h, List.dedup_cons_of_notMem, Nat.add_comm]

/-- Counting the distinct bits is asking for a list that covers them (rule R27, clause (d)). -/
theorem countDistinct_le_iff {n : Nat} (bits : List (Fin 8)) :
    countDistinct bits ≤ n ↔ ∃ cover : List (Fin 8), cover.length ≤ n ∧ ∀ b ∈ bits, b ∈ cover := by
  rw [countDistinct_eq_dedup]
  constructor
  · exact fun h => ⟨bits.dedup, h, fun b hb => List.mem_dedup.mpr hb⟩
  · rintro ⟨cover, hn, hc⟩
    have hs : bits.dedup ⊆ cover := fun b hb => hc b (List.mem_dedup.mp hb)
    exact (((List.nodup_dedup bits).subperm hs).length_le).trans hn

theorem isPowerOfTwo_iff {n : Nat} (h : n < 2 ^ 32) : isPowerOfTwo n = true ↔ ∃ k, n = 2 ^ k := by
  simp only [isPowerOfTwo, List.any_eq_true, List.mem_range, beq_iff_eq]
  constructor
  · exact fun ⟨k, _, e⟩ => ⟨k, e⟩
  · rintro ⟨k, rfl⟩
    exact ⟨k, (Nat.pow_lt_pow_iff_right (by decide)).mp h, rfl⟩

theorem sectorSizeOk_iff (cfg : ChipConfig) : sectorSizeOk cfg = true ↔ SectorSizeMeets cfg.sectorSize.toNat := by
  simp only [sectorSizeOk, Bool.or_eq_true, beq_iff_eq, isPowerOfTwo_iff cfg.sectorSize.isLt, SectorSizeMeets]

@[simp] theorem sharesId_nil (id : Id16) : ¬ SharesId [] id := by
  rintro ⟨j, k, a, b, -, h, -⟩
  simp at h

theorem sharesId_cons (cfg : ChipConfig) (rest : List ChipConfig) (id : Id16) :
    SharesId (cfg :: rest) id ↔ (cfg.id = id ∧ ∃ other ∈ rest, other.id = id) ∨ SharesId rest id := by
  constructor
  · rintro ⟨j, k, a, b, hjk, ha, hb, ea, eb⟩
    obtain ⟨k, rfl⟩ : ∃ m, k = m + 1 := ⟨k - 1, by omega⟩
    cases j with
    | zero =>
      obtain rfl : cfg = a := by simpa using ha
      exact .inl ⟨ea, b, List.mem_of_getElem? (by simpa using hb), eb⟩
    | succ j => exact .inr ⟨j, k, a, b, by omega, by simpa using ha, by simpa using hb, ea, eb⟩
  · rintro (⟨e, other, hm, eo⟩ | ⟨j, k, a, b, hjk, ha, hb, ea, eb⟩)
    · obtain ⟨k, hk⟩ := List.mem_iff_getElem?.mp hm
      exact ⟨0, k + 1, cfg, other, by omega, by simp, by simpa using hk, e, eo⟩
    · exact ⟨j + 1, k + 1, a, b, by omega, by simpa using ha, by simpa using hb, ea, eb⟩

/-- A table that passes the check: no two entries share an id and every `sector_size` meets rule R8. -/
theorem tableProblem_none {table : List ChipConfig} (h : tableProblem table = none) :
    (∀ id, ¬ SharesId table id) ∧ ∀ cfg ∈ table, SectorSizeMeets cfg.sectorSize.toNat := by
  induction table with
  | nil => simp
  | cons cfg rest ih =>
    simp only [tableProblem] at h
    split at h
    · cases h
    · next hd =>
      split at h
      · next hs =>
        obtain ⟨h1, h2⟩ := ih h
        refine ⟨fun id hid => ?_, fun c hc => ?_⟩
        · rcases (sharesId_cons ..).mp hid with ⟨rfl, o, ho, e⟩ | hid
          · exact hd (List.any_eq_true.mpr ⟨o, ho, by simp [e]⟩)
          · exact h1 id hid
        · rcases List.mem_cons.mp hc with rfl | hc
          · exact (sectorSizeOk_iff _).mp hs
          · exact h2 c hc
      · cases h

/-- A table that fails the check: the reason is true of it, and is not the role bits. -/
theorem tableProblem_some {table : List ChipConfig} {reason : ConfigReason} (h : tableProblem table = some reason) :
    (∃ id, reason = .duplicateId id ∧ SharesId table id)
    ∨ ∃ cfg ∈ table, reason = .badSectorSize cfg.sectorSize.toNat ∧ ¬ SectorSizeMeets cfg.sectorSize.toNat := by
  induction table with
  | nil => cases h
  | cons cfg rest ih =>
    simp only [tableProblem] at h
    split at h
    · next hd =>
      obtain ⟨o, ho, e⟩ := List.any_eq_true.mp hd
      cases h
      exact .inl ⟨_, rfl, (sharesId_cons ..).mpr (.inl ⟨rfl, o, ho, by simpa using e⟩)⟩
    · split at h
      · rcases ih h with ⟨id, e, hid⟩ | ⟨c, hc, e, hs⟩
        · exact .inl ⟨id, e, (sharesId_cons ..).mpr (.inr hid)⟩
        · exact .inr ⟨c, List.mem_cons_of_mem _ hc, e, hs⟩
      · next hs =>
        cases h
        exact .inr ⟨cfg, List.mem_cons_self, rfl, fun hm => hs ((sectorSizeOk_iff cfg).mpr hm)⟩

theorem chipProblem_none {cfg : ChipConfig} (h : chipProblem cfg = none) : SectorSizeMeets cfg.sectorSize.toNat := by
  unfold chipProblem at h
  split at h
  · next hs => exact (sectorSizeOk_iff cfg).mp hs
  · cases h

theorem chipProblem_some {cfg : ChipConfig} {reason : ConfigReason} (h : chipProblem cfg = some reason) :
    reason = .badSectorSize cfg.sectorSize.toNat ∧ ¬ SectorSizeMeets cfg.sectorSize.toNat := by
  unfold chipProblem at h
  split at h
  · cases h
  · next hs =>
    cases h
    exact ⟨rfl, fun hm => hs ((sectorSizeOk_iff cfg).mpr hm)⟩

end Sys2Proof.Machine
end

