-- ==== Sys2Proof/Laws/Decode.lean ====
section
/-! SUPPORT. The frames of the opcode table and the address they hold. -/

namespace Sys2Proof

open Sys2Proof.Machine

/-- The frame of an address in range has that address. -/
theorem frameAddr_addrFrame {a : Nat} (h : a < addrSpace) :
    frameAddr (BitVec.ofNat 8 (a / 65536)) (BitVec.ofNat 8 (a / 256)) (BitVec.ofNat 8 a) = a := by
  simp [frameAddr, addrSpace] at *
  omega

/-- Three bytes are the frame of their address. -/
theorem addrFrame_frameAddr (hi mid lo : Byte) : addrFrame (frameAddr hi mid lo) = [hi, mid, lo] := by
  have h1 := hi.isLt; have h2 := mid.isLt; have h3 := lo.isLt
  simp [addrFrame, frameAddr]
  refine ⟨?_, ?_, ?_⟩ <;> apply BitVec.eq_of_toNat_eq <;> simp <;> omega

/-- A frame holds an address in range. -/
theorem frameAddr_lt (hi mid lo : Byte) : frameAddr hi mid lo < addrSpace := by
  have h1 := hi.isLt; have h2 := mid.isLt; have h3 := lo.isLt
  simp [frameAddr, addrSpace]; omega

/-- Twelve bytes with the JEDEC3 prefix are the row of their command byte. -/
theorem decodeWire_command (c : Byte) : decodeWire (jedec3Prefix ++ [c]) = .ok (decodeCommandByte c) := by
  simp [decodeWire, jedec3Prefix, cyclesFrame, unlockCycles, addrFrame]

/-- Sixteen bytes with the program command are PROGRAM_BYTE. -/
theorem decodeWire_program (hi mid lo v : Byte) :
    decodeWire (jedec3Prefix ++ [cmdProgramByte] ++ [hi, mid, lo, v]) = .ok (.programByte (frameAddr hi mid lo) v zeroChip) := by
  simp [decodeWire, decodeProgramFrame, jedec3Prefix, cyclesFrame, unlockCycles, addrFrame]

/-- The frame of a JEDEC3 sequence. -/
theorem cyclesFrame_jedec3 (c : Byte) : cyclesFrame (jedec3Cycles decidedCmdAddr.toNat c) = jedec3Prefix ++ [c] := by
  simp [cyclesFrame, jedec3Cycles, jedec3Prefix]

/-- The row of a command byte has the JEDEC3 frame with that byte. -/
theorem decodeCommandByte_cases (c : Byte) :
    encodeWire (decodeCommandByte c) = some (jedec3Prefix ++ [c]) ∧ wireForm (decodeCommandByte c) = decodeCommandByte c
      ∧ addrOperand (decodeCommandByte c) = none := by
  unfold decodeCommandByte
  split
  · next h => subst h; refine ⟨?_, rfl, rfl⟩; simp [encodeWire, cyclesFrame_jedec3]
  split
  · next h => subst h; refine ⟨?_, rfl, rfl⟩; simp [encodeWire, cyclesFrame_jedec3]
  split
  · next h => subst h; refine ⟨?_, rfl, rfl⟩; simp [encodeWire, cyclesFrame_jedec3]
  split
  · next h => subst h; refine ⟨?_, rfl, rfl⟩; simp [encodeWire, cyclesFrame_jedec3]
  split
  · next h => subst h; refine ⟨?_, rfl, rfl⟩; simp [encodeWire, cyclesFrame_jedec3]
  · next h1 h2 h3 h4 h5 => refine ⟨?_, ?_, rfl⟩ <;> simp [encodeWire, cyclesFrame_jedec3, wireForm, decodeCommandByte, *]

/-- A word of the opcode table that decodes is what `placeFrame` puts before the machine. -/
theorem decode_wire {nbits w : Nat} {i : Instr} (h : decodeTableWord nbits w = some i) :
    decode (.wire (frameOfNumber (nbits / 8) w)) = .ok i := by
  unfold decodeTableWord at h
  split at h
  · next j hj => cases h; exact hj
  · cases h

end Sys2Proof
end

