-- ==== Sys2Proof/Laws/Memory.lean ====
section
/-! SUPPORT. The laws of the fixtures' memory: read after write, and the canonical form. -/

namespace Sys2Proof.Machine

theorem memRead_memErase (m : List Host.Cell) (a a' : Nat) :
    memRead (memErase m a) a' = if a' = a then unlistedByte else memRead m a' := by
  induction m with
  | nil => simp [memErase, memRead]
  | cons c rest ih =>
    obtain ⟨k, v⟩ := c
    by_cases hk : a = k
    · by_cases h' : a' = k <;> simp_all [memErase, memRead]
    · by_cases h' : a' = k <;> simp_all [memErase, memRead]
      intro h; exact absurd h.symm hk

theorem memRead_memInsert (m : List Host.Cell) (a : Nat) (b : Byte) (a' : Nat) (h : ∀ c ∈ m, c.1 ≠ a) :
    memRead (memInsert m a b) a' = if a' = a then b else memRead m a' := by
  induction m with
  | nil => simp [memInsert, memRead]
  | cons c rest ih =>
    obtain ⟨k, v⟩ := c
    have hk : k ≠ a := h (k, v) (by simp)
    have ih := ih fun c hc => h c (by simp [hc])
    unfold memInsert
    split
    · rfl
    · by_cases h' : a' = k <;> simp_all [memRead]

theorem memErase_ne (m : List Host.Cell) (a : Nat) : ∀ c ∈ memErase m a, c.1 ≠ a := by
  induction m with
  | nil => simp [memErase]
  | cons c rest ih =>
    obtain ⟨k, v⟩ := c
    unfold memErase
    split
    · exact ih
    · intro c hc
      rcases List.mem_cons.mp hc with rfl | hc
      · simp only; omega
      · exact ih c hc

/-- A read after a write: the written address gives the byte, every other address what it gave before. -/
theorem memRead_memWrite (m : List Host.Cell) (a : Nat) (b : Byte) (a' : Nat) :
    memRead (memWrite m a b) a' = if a' = a then b else memRead m a' := by
  unfold memWrite
  split
  · next h => rw [memRead_memErase]; simp [h]
  · rw [memRead_memInsert _ _ _ _ (memErase_ne m a), memRead_memErase]
    split <;> rfl

theorem memWfFrom_mono {low low' : Nat} {m : List Host.Cell} (h : memWfFrom low m = true) (hle : low' ≤ low) :
    memWfFrom low' m = true := by
  cases m with
  | nil => rfl
  | cons c rest =>
    obtain ⟨k, v⟩ := c
    simp only [memWfFrom, Bool.and_eq_true, decide_eq_true_eq] at h ⊢
    exact ⟨⟨⟨by omega, h.1.1.2⟩, h.1.2⟩, h.2⟩

theorem memWfFrom_memErase (m : List Host.Cell) (a low : Nat) (h : memWfFrom low m = true) :
    memWfFrom low (memErase m a) = true := by
  induction m generalizing low with
  | nil => rfl
  | cons c rest ih =>
    obtain ⟨k, v⟩ := c
    simp only [memWfFrom, Bool.and_eq_true, decide_eq_true_eq] at h
    unfold memErase
    split
    · exact ih low (memWfFrom_mono h.2 (by omega))
    · simp only [memWfFrom, Bool.and_eq_true, decide_eq_true_eq]
      exact ⟨h.1, ih _ h.2⟩

theorem memWfFrom_memInsert (m : List Host.Cell) (a : Nat) (b : Byte) (low : Nat) (h : memWfFrom low m = true)
    (ha : a < addrSpace) (hb : b ≠ unlistedByte) (hne : ∀ c ∈ m, c.1 ≠ a) (hlow : low ≤ a) :
    memWfFrom low (memInsert m a b) = true := by
  induction m generalizing low with
  | nil => simp [memInsert, memWfFrom, ha, hb, hlow]
  | cons c rest ih =>
    obtain ⟨k, v⟩ := c
    have hk : k ≠ a := hne (k, v) (by simp)
    simp only [memWfFrom, Bool.and_eq_true, decide_eq_true_eq] at h
    unfold memInsert
    split
    · simp only [memWfFrom, Bool.and_eq_true, decide_eq_true_eq]
      exact ⟨⟨⟨hlow, ha⟩, hb⟩, ⟨⟨by omega, h.1.1.2⟩, h.1.2⟩, h.2⟩
    · simp only [memWfFrom, Bool.and_eq_true, decide_eq_true_eq]
      exact ⟨h.1, ih _ h.2 (fun c hc => hne c (by simp [hc])) (by omega)⟩

/-- A write keeps the canonical form. -/
theorem wf_memWrite {m : List Host.Cell} {a : Nat} (b : Byte) (h : Memory.wf m = true) (ha : a < addrSpace) :
    Memory.wf (memWrite m a b) = true := by
  unfold memWrite
  split
  · exact memWfFrom_memErase m a 0 h
  · next hb =>
    exact memWfFrom_memInsert _ a b 0 (memWfFrom_memErase m a 0 h) ha hb (memErase_ne m a) (Nat.zero_le _)

/-- A chip erase keeps the canonical form. -/
theorem wf_memErased : Memory.wf memErased = true := rfl

theorem memRead_memErased (a : Nat) : memRead memErased a = erasedByte := rfl

/-- Below the first address that a list can name, every byte is erased. -/
theorem memRead_below {low a : Nat} {m : List Host.Cell} (h : memWfFrom low m = true) (ha : a < low) :
    memRead m a = unlistedByte := by
  induction m generalizing low with
  | nil => rfl
  | cons c rest ih =>
    obtain ⟨k, v⟩ := c
    simp only [memWfFrom, Bool.and_eq_true, decide_eq_true_eq] at h
    unfold memRead
    split
    · omega
    · exact ih h.2 (by omega)

end Sys2Proof.Machine
end

