-- ==== Sys2Proof/Laws/Relation.lean ====
section
/-! SUPPORT. Everything an operation can do, said once: it is a chain of primitive updates. A relation between states that
is reflexive, transitive and holds of every primitive update holds of every operation. -/

namespace Sys2Proof.Machine

/-- The state in which an operation ends, well or not. -/
def endState {α : Type} : EStateM.Result Stop State α → State
  | .ok _ t => t
  | .error _ t => t

/-- A relation holds between the state before an operation and the state after it. -/
def Keeps {α : Type} (R : State → State → Prop) (m : Op α) : Prop := ∀ s, R s (endState (m s))

/-- The relation can be chained. -/
structure Chains (R : State → State → Prop) : Prop where
  refl : ∀ s, R s s
  trans : ∀ {s t u}, R s t → R t u → R s u

theorem keeps_pure {α : Type} {R : State → State → Prop} (h : Chains R) (a : α) : Keeps R (pure a) :=
  fun s => h.refl s

theorem keeps_bind {α β : Type} {R : State → State → Prop} (h : Chains R) {m : Op α} {k : α → Op β}
    (hm : Keeps R m) (hk : ∀ a, Keeps R (k a)) : Keeps R (m >>= k) := by
  intro s
  have h1 := hm s
  cases hs : m s with
  | ok a t =>
    rw [hs] at h1
    rw [bind_ok hs]
    exact h.trans h1 (hk a t)
  | error e t =>
    rw [hs] at h1
    rw [bind_error hs]
    exact h1

/-- The relation holds of every update that sending an address and reading a byte make. -/
structure AdmitsRead (R : State → State → Prop) : Prop extends Chains R where
  fault : ∀ f s, R s (markFault f s)
  refusal : ∀ r s, R s (markRefused r s)
  lines : ∀ levels s, R s { s with ctrl := setLineList s.params levels s.ctrl }
  wrCtrl : ∀ b s, R s (addEvent (.wrCtrl b) { countAccess s with physCtrl := b })
  rdStatus : ∀ fixed s, R s (statusRead fixed s)
  failCtrl : ∀ b s, R s (addEvent (.portFail .wrCtrl) { countAccess s with physCtrl := b })
  failStatus : ∀ s, R s (addEvent (.portFail .rdStatus) (countAccess s))
  delay : ∀ us s, R s (addEvent (.delay us) s)
  shift : ∀ b s, R s { s with frameReg := shiftIn s.frameReg b }
  busRead : ∀ s, R s (busReadState s)

/-- The relation holds of every update that the transport makes. -/
structure AdmitsPort (R : State → State → Prop) : Prop extends AdmitsRead R where
  wrData : ∀ v s, R s (addEvent (.wrData v) { countAccess s with physData := v, data := v })
  failData : ∀ b s, R s (addEvent (.portFail .wrData) { countAccess s with physData := b })
  busWrite : ∀ v s, R s (busWritten v s)

section Reading

variable {R : State → State → Prop} (h : AdmitsRead R)
include h

theorem keeps_raise {α : Type} (f : Fault) : Keeps R (raise f : Op α) := fun s => h.fault f s

theorem keeps_refuse {α : Type} (r : Refusal) : Keeps R (refuse r : Op α) := fun s => h.refusal r s

theorem keeps_portWrCtrl (b : Byte) : Keeps R (portWrCtrl b) := by
  intro s
  rcases portWrCtrl_cases b s with ⟨-, e⟩ | ⟨-, -, e⟩ | ⟨reached, -, -, e⟩ <;> rw [e]
  · exact h.refusal _ _
  · exact h.wrCtrl _ _
  · exact h.trans (h.failCtrl _ _) (h.fault _ _)

theorem keeps_portRdStatus (fixed : Option Byte) : Keeps R (portRdStatus fixed) := by
  intro s
  rcases portRdStatus_cases fixed s with ⟨-, e⟩ | ⟨-, -, e⟩ | ⟨reached, -, -, e⟩ <;> rw [e]
  · exact h.refusal _ _
  · exact h.rdStatus _ _
  · exact h.trans (h.failStatus _) (h.fault _ _)

theorem keeps_delay (us : Nat) : Keeps R (delay us) := fun s => h.delay us s

theorem keeps_stepDelay : Keeps R stepDelay := fun s => h.delay s.params.tStepUs s

theorem keeps_setLines (levels : List (Role × Bool)) : Keeps R (setLines levels) := fun s =>
  h.trans (h.lines levels s) (keeps_portWrCtrl h _ _)

theorem keeps_setLinesAndWait (levels : List (Role × Bool)) : Keeps R (setLinesAndWait levels) :=
  keeps_bind h.toChains (keeps_setLines h levels) fun _ => keeps_stepDelay h

theorem keeps_checkAddr (a : Nat) : Keeps R (checkAddr a) := by
  unfold checkAddr
  split
  · exact keeps_pure h.toChains _
  · exact keeps_refuse h _

theorem keeps_checkRange (a n : Nat) : Keeps R (checkRange a n) := by
  unfold checkRange
  split
  · exact keeps_pure h.toChains _
  · exact keeps_refuse h _

theorem keeps_latchSda : Keeps R latchSda := fun s => h.shift _ s

theorem keeps_addressSlots (a n : Nat) : Keeps R (addressSlots a n) := by
  induction n with
  | zero => exact keeps_pure h.toChains _
  | succ n ih =>
    exact keeps_bind h.toChains
      (keeps_bind h.toChains (keeps_setLinesAndWait h _) fun _ =>
        keeps_bind h.toChains (keeps_setLines h _) fun _ =>
          keeps_bind h.toChains (keeps_latchSda h) fun _ =>
            keeps_bind h.toChains (keeps_stepDelay h) fun _ => keeps_setLinesAndWait h _) fun _ => ih

theorem keeps_writeAddress (a : Nat) : Keeps R (writeAddress a) :=
  keeps_bind h.toChains (keeps_checkAddr h a) fun _ => keeps_addressSlots h a 24

theorem keeps_busRead : Keeps R busRead := fun s => by
  rw [busRead_eq]; exact h.busRead s

theorem keeps_handshake : Keeps R handshake := fun s =>
  (keeps_bind h.toChains (keeps_setLinesAndWait h _) fun _ =>
    keeps_bind h.toChains (keeps_setLinesAndWait h _) fun _ => keeps_setLinesAndWait h _) s

theorem keeps_readPulse : Keeps R readPulse :=
  keeps_bind h.toChains (keeps_setLinesAndWait h _) fun _ => keeps_setLinesAndWait h _

theorem keeps_sampleStatus (fixed : Option Byte) (i : Nat) : Keeps R (sampleStatus fixed i) := fun s =>
  (keeps_bind h.toChains (keeps_portRdStatus h _) fun _ => keeps_pure h.toChains _) s

theorem keeps_sampleAndPulse (fixed : Option Byte) (i : Nat) : Keeps R (sampleAndPulse fixed i) := by
  intro s
  unfold sampleAndPulse
  split
  · exact (keeps_bind h.toChains (keeps_sampleStatus h fixed i) fun _ =>
      keeps_bind h.toChains (keeps_readPulse h) fun _ => keeps_pure h.toChains _) s
  · exact (keeps_bind h.toChains (keeps_readPulse h) fun _ => keeps_sampleStatus h fixed i) s

theorem keeps_readBits (fixed : Option Byte) (n : Nat) (acc : Byte) : Keeps R (readBits fixed n acc) := by
  induction n generalizing acc with
  | zero => exact keeps_pure h.toChains _
  | succ n ih => exact keeps_bind h.toChains (keeps_sampleAndPulse h fixed n) fun _ => ih _

theorem keeps_readByte (a : Nat) : Keeps R (readByte a) :=
  keeps_bind h.toChains (keeps_writeAddress h a) fun _ =>
    keeps_bind h.toChains (keeps_handshake h) fun _ =>
      keeps_bind h.toChains (keeps_busRead h) fun _ => keeps_readBits h _ _ _

theorem keeps_checkCall (own : Option ConfigReason) : Keeps R (checkCall own) := by
  intro s
  rcases checkCall_cases own s with ⟨reason, -, e⟩ | ⟨-, -, e⟩ | ⟨-, -, e⟩ <;> rw [e]
  · exact h.refusal _ _
  · exact h.refusal _ _
  · exact h.refl _

end Reading

section Transport

variable {R : State → State → Prop} (h : AdmitsPort R)
include h

theorem keeps_portWrData (v : Byte) : Keeps R (portWrData v) := by
  intro s
  rcases portWrData_cases v s with ⟨-, e⟩ | ⟨-, -, e⟩ | ⟨reached, -, -, e⟩ <;> rw [e]
  · exact h.refusal _ _
  · exact h.wrData _ _
  · exact h.trans (h.failData _ _) (h.fault _ _)

theorem keeps_busWrite (v : Byte) : Keeps R (busWrite v) := fun s => by
  rw [busWrite_eq]; exact h.busWrite v s

theorem keeps_writeByte (a : Nat) (v : Byte) (d : Nat) : Keeps R (writeByte a v d) :=
  keeps_bind h.toChains (keeps_writeAddress h.toAdmitsRead a) fun _ =>
    keeps_bind h.toChains (keeps_portWrData h v) fun _ =>
      keeps_bind h.toChains (keeps_setLines h.toAdmitsRead _) fun _ =>
        keeps_bind h.toChains (keeps_setLines h.toAdmitsRead _) fun _ =>
          keeps_bind h.toChains (keeps_delay h.toAdmitsRead d) fun _ =>
            keeps_bind h.toChains (keeps_setLines h.toAdmitsRead _) fun _ => keeps_busWrite h v

theorem keeps_commandCycle (a : Nat) (v : Byte) : Keeps R (commandCycle a v) := fun s => keeps_writeByte h a v _ s

theorem keeps_unlock : Keeps R unlock :=
  keeps_bind h.toChains (keeps_commandCycle h _ _) fun _ => keeps_commandCycle h _ _

theorem keeps_command (c : Byte) : Keeps R (command c) := by
  refine keeps_bind h.toChains ?_ fun _ => keeps_bind h.toChains (keeps_unlock h) fun _ =>
    fun s => keeps_commandCycle h _ _ s
  unfold checkCommand
  split
  · exact keeps_pure h.toChains _
  · exact keeps_refuse h.toAdmitsRead _

theorem keeps_readSoftwareId : Keeps R readSoftwareId :=
  keeps_bind h.toChains (keeps_command h _) fun _ =>
    keeps_bind h.toChains (keeps_delay h.toAdmitsRead _) fun _ =>
      keeps_bind h.toChains (keeps_readByte h.toAdmitsRead _) fun _ =>
        keeps_bind h.toChains (keeps_readByte h.toAdmitsRead _) fun _ =>
          keeps_bind h.toChains (keeps_command h _) fun _ => keeps_pure h.toChains _

theorem keeps_eraseChip : Keeps R eraseChip :=
  keeps_bind h.toChains (keeps_command h _) fun _ => keeps_command h _

theorem keeps_programByte (a : Nat) (v : Byte) (cfg : ChipConfig) : Keeps R (programByte a v cfg) :=
  keeps_bind h.toChains (keeps_checkAddr h.toAdmitsRead a) fun _ =>
    keeps_bind h.toChains (keeps_command h _) fun _ => keeps_writeByte h _ _ _

theorem keeps_programBytes (cfg : ChipConfig) (a : Nat) (vs : List Byte) : Keeps R (programBytes cfg a vs) := by
  induction vs generalizing a with
  | nil => exact keeps_pure h.toChains _
  | cons v vs ih => exact keeps_bind h.toChains (keeps_programByte h a v cfg) fun _ => ih _

theorem keeps_programRange (a : Nat) (vs : List Byte) (cfg : ChipConfig) : Keeps R (programRange a vs cfg) :=
  keeps_bind h.toChains (keeps_checkRange h.toAdmitsRead _ _) fun _ => keeps_programBytes h cfg a vs

end Transport

/-- The relation holds of the updates of the loops too. -/
structure AdmitsLoops (R : State → State → Prop) : Prop extends AdmitsPort R where
  poll : ∀ s, R s (polled s)
  progress : ∀ n s, R s (addEvent (.progress n) s)

/-- The relation holds of the update of IDENTIFY too. -/
structure AdmitsAll (R : State → State → Prop) : Prop extends AdmitsLoops R where
  identified : ∀ cfg s, R s { s with identified := some cfg }

section Sequencer

variable {R : State → State → Prop} (h : AdmitsLoops R)
include h

theorem keeps_pollOrCancel (op : LoopOp) (n : Nat) : Keeps R (pollOrCancel op n) := by
  intro s
  rw [pollOrCancel_eq]
  split <;> exact h.poll s

theorem keeps_progress (n : Nat) : Keeps R (progress n) := fun s => h.progress n s

theorem keeps_eraseWaitIteration (polls : Nat) : Keeps R (eraseWaitIteration polls) :=
  keeps_bind h.toChains (keeps_pollOrCancel h _ _) fun _ =>
    keeps_bind h.toChains (keeps_delay h.toAdmitsPort.toAdmitsRead _) fun _ =>
      keeps_bind h.toChains (keeps_readByte h.toAdmitsPort.toAdmitsRead _) fun _ =>
        keeps_bind h.toChains (keeps_readByte h.toAdmitsPort.toAdmitsRead _) fun _ => keeps_pure h.toChains _

theorem keeps_eraseStart : Keeps R eraseStart :=
  keeps_bind h.toChains (keeps_eraseChip h.toAdmitsPort) fun _ => keeps_eraseWaitIteration h 0

theorem keeps_reportIf (due : Bool) (n : Nat) : Keeps R (reportIf due n) := by
  unfold reportIf
  split
  · exact keeps_progress h n
  · exact keeps_pure h.toChains _

theorem keeps_expectErased (a : Nat) (v : Byte) : Keeps R (expectErased a v) := by
  unfold expectErased
  split
  · exact keeps_pure h.toChains _
  · exact keeps_raise h.toAdmitsPort.toAdmitsRead _

theorem keeps_blankBytes (offset n i : Nat) : Keeps R (blankBytes offset n i) := by
  induction n generalizing i with
  | zero => exact keeps_pure h.toChains _
  | succ n ih =>
    exact keeps_bind h.toChains (keeps_pollOrCancel h _ _) fun _ =>
      keeps_bind h.toChains (keeps_readByte h.toAdmitsPort.toAdmitsRead _) fun _ =>
        keeps_bind h.toChains (keeps_expectErased h _ _) fun _ =>
          keeps_bind h.toChains (keeps_reportIf h _ _) fun _ => ih _

theorem keeps_blankCheck (offset size : Nat) : Keeps R (blankCheck offset size) :=
  keeps_bind h.toChains (keeps_checkRange h.toAdmitsPort.toAdmitsRead _ _) fun _ => keeps_blankBytes h _ _ _

theorem keeps_writeSectors (offset : Nat) (cfg : ChipConfig) (chunks : List (List Byte)) (t : Nat) :
    Keeps R (writeSectors offset cfg chunks t) := by
  induction chunks generalizing t with
  | nil => exact keeps_pure h.toChains _
  | cons chunk chunks ih =>
    refine keeps_bind h.toChains (keeps_pollOrCancel h _ _) fun _ =>
      keeps_bind h.toChains ?_ fun _ => keeps_bind h.toChains (keeps_progress h _) fun _ => ih _
    unfold programChunk
    split
    · exact keeps_bind h.toChains (keeps_programRange h.toAdmitsPort _ _ _) fun _ => keeps_delay h.toAdmitsPort.toAdmitsRead _
    · exact keeps_pure h.toChains _

theorem keeps_writeBytes (offset n : Nat) (cfg : ChipConfig) (bs : List Byte) (t : Nat) :
    Keeps R (writeBytes offset n cfg bs t) := by
  induction bs generalizing t with
  | nil => exact keeps_pure h.toChains _
  | cons b bs ih =>
    refine keeps_bind h.toChains (keeps_pollOrCancel h _ _) fun _ =>
      keeps_bind h.toChains ?_ fun _ => keeps_bind h.toChains (keeps_reportIf h _ _) fun _ => ih _
    unfold programUnlessErased
    split
    · exact keeps_pure h.toChains _
    · exact keeps_bind h.toChains (keeps_programByte h.toAdmitsPort _ _ _) fun _ => keeps_delay h.toAdmitsPort.toAdmitsRead _

theorem keeps_checkRow (m : Mnemonic) (b : Bool) : Keeps R (checkRow m b) := by
  unfold checkRow
  split
  · exact keeps_pure h.toChains _
  · exact keeps_refuse h.toAdmitsPort.toAdmitsRead _

theorem keeps_writeImage (offset : Nat) (src : List Byte) (cfg : ChipConfig) : Keeps R (writeImage offset src cfg) := by
  refine keeps_bind h.toChains (keeps_checkRange h.toAdmitsPort.toAdmitsRead _ _) fun _ => ?_
  unfold writeSelectedMode
  split
  · exact keeps_writeBytes h _ _ _ _ _
  · exact keeps_writeSectors h _ _ _ _

theorem keeps_writeImageSector (offset : Nat) (src : List Byte) (cfg : ChipConfig) :
    Keeps R (writeImageSector offset src cfg) :=
  keeps_bind h.toChains (keeps_checkRange h.toAdmitsPort.toAdmitsRead _ _) fun _ =>
    keeps_bind h.toChains (keeps_checkRow h _ _) fun _ => keeps_writeSectors h _ _ _ _

theorem keeps_writeImageByte (offset : Nat) (src : List Byte) (cfg : ChipConfig) :
    Keeps R (writeImageByte offset src cfg) :=
  keeps_bind h.toChains (keeps_checkRange h.toAdmitsPort.toAdmitsRead _ _) fun _ =>
    keeps_bind h.toChains (keeps_checkRow h _ _) fun _ => keeps_writeBytes h _ _ _ _ _

end Sequencer

theorem keeps_identify {R : State → State → Prop} (h : AdmitsAll R) (table : List ChipConfig) : Keeps R (identify table) := by
  refine keeps_bind h.toChains (keeps_readSoftwareId h.toAdmitsPort) fun id => ?_
  unfold matchChip
  split
  · exact keeps_bind h.toChains (fun s => h.identified _ s) fun _ => keeps_pure h.toChains _
  · exact keeps_raise h.toAdmitsPort.toAdmitsRead _

/-- The body of an operation, after the common checks. -/
def bodyOf : Instr → Op Verdict
  | .writeAddress a => done (writeAddress a)
  | .writeByte a v d => done (writeByte a v d)
  | .readByte a => do let v ← readByte a; pure (.done (.byte v))
  | .unlock => done unlock
  | .command c => done (command c)
  | .cmdIdEntry => done (command cmdIdEntryByte)
  | .cmdIdExit => done (command cmdIdExitByte)
  | .cmdEraseSetup => done (command cmdEraseSetupByte)
  | .cmdChipErase => done (command cmdChipEraseByte)
  | .cmdProgram => done (command cmdProgramByte)
  | .readSoftwareId => do let v ← readSoftwareId; pure (.done (.id v))
  | .identify table => do let cfg ← identify table; pure (.done (.chip cfg))
  | .eraseChip => done eraseChip
  | .programByte a v cfg => done (programByte a v cfg)
  | .programRange start bytes cfg => done (programRange start bytes cfg)
  | .eraseWait => eraseWaitIteration 0
  | .erase => eraseStart
  | .blankCheck offset size => done (blankCheck offset size)
  | .writeImage offset src cfg => counted (writeImage offset src cfg)
  | .writeImageSector offset src cfg => counted (writeImageSector offset src cfg)
  | .writeImageByte offset src cfg => counted (writeImageByte offset src cfg)

/-- Every meaning is the common frame around its body. -/
theorem exec_eq_perform (i : Instr) (s : State) : exec i s = perform (ownProblem i) (bodyOf i) s := by
  cases i <;> rfl

theorem keeps_done {R : State → State → Prop} (h : Chains R) {m : Op Unit} (hm : Keeps R m) : Keeps R (done m) :=
  keeps_bind h hm fun _ => keeps_pure h _

/-- Every operation but IDENTIFY. -/
theorem keeps_bodyOf_loops {R : State → State → Prop} (h : AdmitsLoops R) (i : Instr) (hi : i.mnemonic ≠ .identify) :
    Keeps R (bodyOf i) := by
  have hc := h.toChains
  have hp := h.toAdmitsPort
  cases i with
  | writeAddress a => exact keeps_done hc (keeps_writeAddress hp.toAdmitsRead a)
  | writeByte a v d => exact keeps_done hc (keeps_writeByte hp a v d)
  | readByte a => exact keeps_bind hc (keeps_readByte hp.toAdmitsRead a) fun _ => keeps_pure hc _
  | unlock => exact keeps_done hc (keeps_unlock hp)
  | command c => exact keeps_done hc (keeps_command hp c)
  | cmdIdEntry => exact keeps_done hc (keeps_command hp _)
  | cmdIdExit => exact keeps_done hc (keeps_command hp _)
  | cmdEraseSetup => exact keeps_done hc (keeps_command hp _)
  | cmdChipErase => exact keeps_done hc (keeps_command hp _)
  | cmdProgram => exact keeps_done hc (keeps_command hp _)
  | readSoftwareId => exact keeps_bind hc (keeps_readSoftwareId hp) fun _ => keeps_pure hc _
  | identify table => exact absurd rfl hi
  | eraseChip => exact keeps_done hc (keeps_eraseChip hp)
  | programByte a v cfg => exact keeps_done hc (keeps_programByte hp a v cfg)
  | programRange start bytes cfg => exact keeps_done hc (keeps_programRange hp start bytes cfg)
  | eraseWait => exact keeps_eraseWaitIteration h 0
  | erase => exact keeps_eraseStart h
  | blankCheck offset size => exact keeps_done hc (keeps_blankCheck h offset size)
  | writeImage offset src cfg => exact keeps_bind hc (keeps_writeImage h offset src cfg) fun _ => keeps_pure hc _
  | writeImageSector offset src cfg =>
    exact keeps_bind hc (keeps_writeImageSector h offset src cfg) fun _ => keeps_pure hc _
  | writeImageByte offset src cfg =>
    exact keeps_bind hc (keeps_writeImageByte h offset src cfg) fun _ => keeps_pure hc _

theorem keeps_bodyOf {R : State → State → Prop} (h : AdmitsAll R) (i : Instr) : Keeps R (bodyOf i) := by
  by_cases hi : i.mnemonic = .identify
  · cases i <;> cases hi
    exact keeps_bind h.toChains (keeps_identify h _) fun _ => keeps_pure h.toChains _
  · exact keeps_bodyOf_loops h.toAdmitsLoops i hi

/-- Everything a meaning that answers a next state can do: a chain of primitive updates, and then its conclusion. -/
theorem exec_next_chain {R : State → State → Prop} (h : AdmitsAll R) {i : Instr} {s t : State}
    (he : exec i s = .next t) :
    ∃ r : EStateM.Result Stop State Verdict, R s (endState r) ∧ t = conclude r ∧ Running s
      ∧ r = (do checkCall (ownProblem i); bodyOf i : Op Verdict) s := by
  rw [exec_eq_perform] at he
  obtain ⟨hr, ht⟩ := perform_next he
  exact ⟨_, keeps_bind h.toChains (keeps_checkCall h.toAdmitsPort.toAdmitsRead _) (fun _ => keeps_bodyOf h i) s, ht, hr, rfl⟩

end Sys2Proof.Machine
end

