-- ==== Sys2Proof/Laws/Meanings.lean ====
section
/-! SUPPORT. From the body of an operation to its meaning, and the states that the transport operations leave, in the
terms of claims. -/

namespace Sys2Proof.Machine

theorem canStart_roles {s : State} (h : CanStart s) : rolesOk s.params = true := paramsProblem_none h.2.1

theorem canStart_sda {s : State} (h : CanStart s) : s.params.sdaBit ≠ s.params.sckBit :=
  (rolesOk_distinct (canStart_roles h)).1

theorem newEvents_append {s t : State} {es : List Event} (h : t.trace = s.trace ++ es) : newEvents s t = es := by
  simp [newEvents, h]

/-- A meaning is its body, if the operation may start. -/
theorem exec_body {i : Instr} {s : State} (h : CanStart s) (ho : ownProblem i = none) :
    exec i s = .next (conclude (bodyOf i s)) := by
  rw [exec_eq_perform, perform_ok h ho]

/-- A meaning whose body ends well. -/
theorem exec_ok {i : Instr} {s t : State} {v : Value} (h : CanStart s) (ho : ownProblem i = none)
    (hb : bodyOf i s = .ok (.done v) t) :
    exec i s = .next { t with outcomes := t.outcomes ++ [.ok v], active := none } := by
  rw [exec_eq_perform, perform_ok h ho, hb]
  rfl

/-- A meaning whose body stops. -/
theorem exec_error {i : Instr} {s t : State} {e : Stop} (h : CanStart s) (ho : ownProblem i = none)
    (hb : bodyOf i s = .error e t) :
    exec i s = .next { t with outcomes := t.outcomes ++ [stopOutcome e], active := none } := by
  rw [exec_eq_perform, perform_ok h ho, hb]
  rfl

theorem done_ok {m : Op Unit} {s t : State} (h : m s = .ok () t) : done m s = .ok (.done .none) t := by
  unfold done
  rw [bind_ok h]
  rfl

theorem done_error {m : Op Unit} {s t : State} {e : Stop} (h : m s = .error e t) : done m s = .error e t := by
  unfold done
  rw [bind_error h]

theorem counted_ok {m : Op Nat} {s t : State} {n : Nat} (h : m s = .ok n t) :
    counted m s = .ok (.done (.count n)) t := by
  unfold counted
  rw [bind_ok h]
  rfl

theorem counted_error {m : Op Nat} {s t : State} {e : Stop} (h : m s = .error e t) : counted m s = .error e t := by
  unfold counted
  rw [bind_error h]

theorem bitsMsbFirst_eq (a n : Nat) : bitsMsbFirst a n = (List.range n).map fun k => a.testBit (n - 1 - k) := by
  induction n with
  | zero => rfl
  | succ n ih =>
    rw [bitsMsbFirst, ih, List.range_succ_eq_map]
    simp only [List.map_cons, List.map_map]
    congr 1
    apply List.map_congr_left
    intro k _
    simp only [Function.comp, Nat.succ_eq_add_one]
    congr 1
    omega

/-- The state that WRITE_BYTE leaves, field by field. -/
theorem byteWritten_eq {a : Nat} {v : Byte} {d : Nat} {s : State} (ha : a < addrSpace) :
    byteWritten a v d s = { s with
      ctrl := writtenCtrl s.params (a.testBit 0) s.ctrl
      physCtrl := maskCtrl s.params (writtenCtrl s.params (a.testBit 0) s.ctrl)
      data := v
      physData := v
      trace := s.trace ++ writeEvents s.params s.ctrl a v d
      frameReg := BitVec.ofNat 24 a
      mem := (targetWrite (s.mem, s.fixture) (a, v)).1
      fixture := (targetWrite (s.mem, s.fixture) (a, v)).2
      oracle := { s.oracle with portIdx := s.oracle.portIdx + 76 } } := by
  have ha' : a % 16777216 = a := Nat.mod_eq_of_lt ha
  unfold byteWritten busWritten byteSent targetWrite
  cases hf : s.fixture <;> simp [driven, hf, ha']

/-- The eight status bytes of a read, the first sample first. -/
def sampleList (p : Params) (o : Oracle) (fixed : Option Byte) (idx : Nat) : List Byte :=
  (List.range 8).map fun k => shownByte p o fixed (7 - k) (idx + k * drawsUsed fixed)

theorem readEvents_eq (p : Params) (o : Oracle) (fixed : Option Byte) (c : Byte) (n idx : Nat) :
    readEvents p o fixed c n idx =
      ((List.range n).map fun k => shownByte p o fixed (n - 1 - k) (idx + k * drawsUsed fixed)).flatMap
        (sampleEvents p c) := by
  induction n generalizing idx with
  | zero => rfl
  | succ n ih =>
    rw [readEvents, ih, List.range_succ_eq_map]
    simp only [List.map_cons, List.flatMap_cons, List.map_map]
    congr 1
    · simp
    · congr 1
      apply List.map_congr_left
      intro k _
      simp only [Function.comp, Nat.succ_eq_add_one]
      congr 1
      · omega
      · ring

theorem readAnswer_eq {a : Nat} {s : State} (ha : a < addrSpace) : readAnswer a s = targetAnswer s a := by
  have ha' : a % 16777216 = a := Nat.mod_eq_of_lt ha
  unfold readAnswer busReadByte targetAnswer addressed
  cases hf : s.fixture <;> simp [driven, hf, ha']

/-- The control byte that READ_BYTE leaves. -/
def readCtrl (p : Params) (b : Bool) (c : Byte) : Byte := setLine p .sck false (shakenCtrl p (slotCtrl p b c))

/-- The state that READ_BYTE leaves, field by field. -/
theorem readDone_eq {a : Nat} {s : State} (ha : a < addrSpace) :
    readDone a s = { s with
      ctrl := readCtrl s.params (a.testBit 0) s.ctrl
      physCtrl := maskCtrl s.params (readCtrl s.params (a.testBit 0) s.ctrl)
      trace := s.trace ++ frameEvents s.params s.ctrl a 24
        ++ handshakeEvents s.params (slotCtrl s.params (a.testBit 0) s.ctrl)
        ++ (sampleList s.params s.oracle (targetAnswer s a) s.oracle.statusIdx).flatMap fun b =>
            sampleEvents s.params (shakenCtrl s.params (slotCtrl s.params (a.testBit 0) s.ctrl)) b
      frameReg := BitVec.ofNat 24 a
      fixture := targetAfterRead s a
      oracle := { s.oracle with
        portIdx := s.oracle.portIdx + 99,
        statusIdx := s.oracle.statusIdx + if targetAnswer s a = none then 8 else 0 } } := by
  have ha' : a % 16777216 = a := Nat.mod_eq_of_lt ha
  have hd : 8 * drawsUsed (targetAnswer s a) = if targetAnswer s a = none then 8 else 0 := by
    cases targetAnswer s a <;> rfl
  have e (x : Nat) (f : Option Byte) (i idx : Nat) :
      shownByte s.params { s.oracle with portIdx := x } f i idx = shownByte s.params s.oracle f i idx := rfl
  unfold readDone bitsRead
  rw [readAnswer_eq ha, readEvents_eq]
  unfold readReady busReadState targetAfterRead
  cases hf : s.fixture <;>
    simp [driven, hf, addressed, hd, sampleList, ha', List.append_assoc, e, readCtrl]

/-- Bit `7 - k` of the byte read is the inverse of sample `k` (rule R93). -/
theorem byteRead_bits {a : Nat} {s : State} (ha : a < addrSpace) {k : Nat} (hk : k < 8) :
    (byteRead a s).getLsbD (7 - k) =
      !((sampleList s.params s.oracle (targetAnswer s a) s.oracle.statusIdx).getD k 0#8).getLsbD s.params.sinBit := by
  unfold byteRead
  rw [readAnswer_eq ha, readValue_getLsbD _ _ _ _ _ _ (by omega), if_pos (by omega)]
  have h7 : 8 - 1 - (7 - k) = k := by omega
  simp [sampleList, hk, sampleBit, h7]

theorem drawnByte_eq (s : State) (j : Nat) :
    drawnByte s j = readValue s.params s.oracle none 8 (s.oracle.statusIdx + 8 * j) 0x00#8 := rfl

/-- The byte that READ_BYTE returns, in the terms of claims. -/
theorem byteRead_eq {a : Nat} {s : State} (ha : a < addrSpace) : byteRead a s = answerAt s a 0 := by
  unfold byteRead
  rw [readAnswer_eq ha]
  unfold answerAt targetAnswer
  cases hf : s.fixture with
  | none => exact (drawnByte_eq s 0).symm
  | ram => exact readValue_fixture _ _ _ _ _
  | jedec chip => exact readValue_fixture _ _ _ _ _

theorem exec_writeAddress {a : Nat} {s : State} (h : CanStart s) (ha : a < addrSpace) (hp : PortsOk 72 s) :
    exec (.writeAddress a) s =
      .next { addressed a s with outcomes := s.outcomes ++ [.ok .none], active := none } :=
  exec_ok h rfl (done_ok (writeAddress_ok ha (canStart_sda h) h.2.2 hp))

theorem exec_writeByte {a : Nat} {v : Byte} {d : Nat} {s : State} (h : CanStart s) (ha : a < addrSpace)
    (hp : PortsOk 76 s) :
    exec (.writeByte a v d) s =
      .next { byteWritten a v d s with outcomes := s.outcomes ++ [.ok .none], active := none } := by
  rw [exec_ok (i := .writeByte a v d) h rfl (done_ok (writeByte_ok ha (canStart_sda h) h.2.2 hp)), byteWritten_outcomes]

theorem exec_readByte {a : Nat} {s : State} (h : CanStart s) (ha : a < addrSpace) (hp : PortsOk 99 s) :
    exec (.readByte a) s =
      .next { readDone a s with outcomes := s.outcomes ++ [.ok (.byte (answerAt s a 0))], active := none } := by
  have hb : bodyOf (.readByte a) s = .ok (.done (.byte (answerAt s a 0))) (readDone a s) := by
    simp only [bodyOf]
    rw [bind_ok (readByte_ok ha (canStart_sda h) h.2.2 hp), byteRead_eq ha]
    rfl
  rw [exec_ok h rfl hb, readDone_eq ha]

end Sys2Proof.Machine
end

