-- ==== Sys2Proof/Laws/Sequencer.lean ====
section
/-! SUPPORT. What the loops do when neither the port nor the host intervenes (rules R171 to R176): the state they leave,
apart from the records of the run, and the events they emit. -/

namespace Sys2Proof.Machine

/-- `s` with other records: the trace and the number of polls. -/
def withRecords (tr : List Event) (k : Nat) (s : State) : State :=
  { s with trace := tr, oracle := { s.oracle with pollIdx := k } }

@[simp] theorem withRecords_params (tr : List Event) (k : Nat) (s : State) :
    (withRecords tr k s).params = s.params := rfl
@[simp] theorem withRecords_ctrl (tr : List Event) (k : Nat) (s : State) : (withRecords tr k s).ctrl = s.ctrl := rfl
@[simp] theorem withRecords_handle (tr : List Event) (k : Nat) (s : State) :
    (withRecords tr k s).handle = s.handle := rfl
@[simp] theorem withRecords_trace (tr : List Event) (k : Nat) (s : State) : (withRecords tr k s).trace = tr := rfl
@[simp] theorem withRecords_oracle (tr : List Event) (k : Nat) (s : State) :
    (withRecords tr k s).oracle = { s.oracle with pollIdx := k } := rfl
@[simp] theorem withRecords_cancelFlag (tr : List Event) (k : Nat) (s : State) :
    (withRecords tr k s).cancelFlag = s.cancelFlag := rfl
@[simp] theorem withRecords_outcomes (tr : List Event) (k : Nat) (s : State) :
    (withRecords tr k s).outcomes = s.outcomes := rfl
@[simp] theorem withRecords_withRecords (tr tr' : List Event) (k k' : Nat) (s : State) :
    withRecords tr' k' (withRecords tr k s) = withRecords tr' k' s := rfl
theorem withRecords_self (s : State) : withRecords s.trace s.oracle.pollIdx s = s := rfl

theorem CanSend.records {n : Nat} {s : State} (h : CanSend n s) (tr : List Event) (k : Nat) :
    CanSend n (withRecords tr k s) := ⟨h.roles, h.opened, h.ports⟩

theorem canSend_of_canStart {n : Nat} {s : State} (h : CanStart s) (hp : PortsOk n s) : CanSend n s :=
  ⟨canStart_roles h, h.2.2, hp⟩

/-! ### Bus cycles -/

theorem slotCtrl_getLsbD (p : Params) (b : Bool) (c : Byte) (j : Nat) :
    (slotCtrl p b c).getLsbD j =
      if j = p.sckBit.val then false else if j = p.sdaBit.val then b else c.getLsbD j := by
  rw [slotCtrl, setLine_getLsbD, setLine_getLsbD]
  rfl

theorem writtenCtrl_getLsbD (p : Params) (b : Bool) (c : Byte) (j : Nat) :
    (writtenCtrl p b c).getLsbD j =
      if j = p.wrBit.val then true else if j = p.pgmBit.val then true else (slotCtrl p b c).getLsbD j := by
  rw [writtenCtrl, pgmCtrl, setLine_getLsbD, setLine_getLsbD, setLine_getLsbD]
  show (if j = p.wrBit.val then true else if j = p.wrBit.val then false else _) = _
  split <;> rfl

/-- A second cycle leaves the lines as if it were the only one. -/
theorem writtenCtrl_writtenCtrl (p : Params) (b b' : Bool) (c : Byte) :
    writtenCtrl p b (writtenCtrl p b' c) = writtenCtrl p b c := by
  apply byte_ext
  intro j _
  simp only [writtenCtrl_getLsbD, slotCtrl_getLsbD]
  by_cases h1 : j = p.wrBit.val <;> by_cases h2 : j = p.pgmBit.val <;> by_cases h3 : j = p.sckBit.val <;>
    by_cases h4 : j = p.sdaBit.val <;> simp_all

theorem cyclesLeave_nil (s : State) : cyclesLeave s [] = s := rfl

theorem cyclesLeave_records (tr : List Event) (k : Nat) (s : State) (cs : List TimedCycle) :
    cyclesLeave (withRecords tr k s) cs = withRecords tr k (cyclesLeave s cs) := by
  unfold cyclesLeave
  cases cs.getLast? <;> rfl

theorem cyclesLeave_append (s : State) (xs ys : List TimedCycle) :
    cyclesLeave s (xs ++ ys) = cyclesLeave (cyclesLeave s xs) ys := by
  cases hy : ys.getLast? with
  | none =>
    rw [List.getLast?_eq_none_iff] at hy
    subst hy
    rw [List.append_nil]
    rfl
  | some y =>
    cases hx : xs.getLast? with
    | none =>
      rw [List.getLast?_eq_none_iff] at hx
      subst hx
      rfl
    | some x =>
      have hxy : (xs ++ ys).getLast? = some y := by simp [List.getLast?_append, hy]
      simp only [cyclesLeave, hx, hy, hxy, writtenCtrl_writtenCtrl, List.map_append, List.foldl_append,
        List.length_append, Nat.mul_add, Nat.add_assoc]

theorem byteWritten_leave {a : Nat} {v : Byte} {d : Nat} {s : State} (ha : a < addrSpace) :
    byteWritten a v d s =
      withRecords (s.trace ++ writeEvents s.params s.ctrl a v d) s.oracle.pollIdx (cyclesLeave s [((a, v), d)]) := by
  rw [byteWritten_eq ha]
  rfl

theorem cyclesLeave_params (s : State) (cs : List TimedCycle) : (cyclesLeave s cs).params = s.params := by
  unfold cyclesLeave
  cases cs.getLast? <;> rfl

theorem cyclesLeave_trace (s : State) (cs : List TimedCycle) : (cyclesLeave s cs).trace = s.trace := by
  unfold cyclesLeave
  cases cs.getLast? <;> rfl

theorem cyclesLeave_outcomes (s : State) (cs : List TimedCycle) : (cyclesLeave s cs).outcomes = s.outcomes := by
  unfold cyclesLeave
  cases cs.getLast? <;> rfl

theorem cyclesLeave_cancelFlag (s : State) (cs : List TimedCycle) : (cyclesLeave s cs).cancelFlag = s.cancelFlag := by
  unfold cyclesLeave
  cases cs.getLast? <;> rfl

theorem cyclesLeave_oracle (s : State) (cs : List TimedCycle) :
    (cyclesLeave s cs).oracle = { s.oracle with portIdx := s.oracle.portIdx + 76 * cs.length } := by
  unfold cyclesLeave
  cases h : cs.getLast? with
  | none =>
    rw [List.getLast?_eq_none_iff] at h
    subst h
    rfl
  | some x => rfl

theorem targetWrite_attached (mf : List Host.Cell × Fixture) (c : BusCycle) :
    attached (targetWrite mf c).2 = attached mf.2 := by
  unfold targetWrite
  cases h : mf.2 <;> simp [h, attached]

/-- Bus cycles attach and detach nothing. -/
theorem cyclesLeave_attached (s : State) (cs : List TimedCycle) :
    attached (cyclesLeave s cs).fixture = attached s.fixture := by
  have h : ∀ (xs : List BusCycle) (mf : List Host.Cell × Fixture),
      attached (xs.foldl targetWrite mf).2 = attached mf.2 := by
    intro xs
    induction xs with
    | nil => intro mf; rfl
    | cons x xs ih => intro mf; exact (ih _).trans (targetWrite_attached mf x)
  unfold cyclesLeave
  cases cs.getLast? with
  | none => rfl
  | some x => exact h _ _

/-- A read attaches and detaches nothing. -/
theorem targetAfterRead_attached (s : State) (a : Nat) : attached (targetAfterRead s a) = attached s.fixture := by
  unfold targetAfterRead
  cases h : s.fixture <;> rfl

theorem CanSend.leave {n : Nat} {s : State} (cs : List TimedCycle) (h : CanSend (76 * cs.length + n) s) :
    CanSend n (cyclesLeave s cs) := by
  refine ⟨by rw [cyclesLeave_params]; exact h.roles, ?_, portsOk_of_oracle h.ports ?_ (cyclesLeave_attached _ _) ?_⟩
  · have := h.opened
    unfold cyclesLeave
    cases cs.getLast? <;> exact this
  · rw [cyclesLeave_oracle]
  · rw [cyclesLeave_oracle]

/-- Every address of the cycles is in range. -/
def AddrsOk (cs : List TimedCycle) : Prop := ∀ c ∈ cs, c.1.1 < addrSpace

/-- The state after bus cycles sent one after the other: the one that the terms of claims give, with their events. -/
theorem allSent_eq {cs : List TimedCycle} {s : State} (ha : AddrsOk cs) :
    allSent cs s =
      withRecords (s.trace ++ sentEvents s.params s.ctrl cs) s.oracle.pollIdx (cyclesLeave s cs) := by
  induction cs generalizing s with
  | nil => simp [sentEvents, cyclesLeave_nil, withRecords_self]
  | cons c cs ih =>
    obtain ⟨⟨a, v⟩, d⟩ := c
    have hc : a < addrSpace := ha ((a, v), d) (by simp)
    rw [allSent_cons, ih (fun x hx => ha x (by simp [hx])), byteWritten_leave hc, cyclesLeave_records,
      ← cyclesLeave_append]
    simp only [withRecords_withRecords, withRecords_trace, withRecords_params, withRecords_ctrl, withRecords_oracle,
      cyclesLeave_params, sentEvents, List.append_assoc, List.singleton_append]
    rfl

theorem addrsOk_command (p : Params) (c : Byte) : AddrsOk (commandSequence p c) := by
  intro x hx
  have := p.cmdAddr.isLt
  simp [commandSequence, timed, jedec3Cycles, unlockCycles] at hx
  rcases hx with rfl | rfl | rfl
  · exact (by decide : unlockAddr1 < addrSpace)
  · exact (by decide : unlockAddr2 < addrSpace)
  · exact this

theorem addrsOk_append {xs ys : List TimedCycle} (hx : AddrsOk xs) (hy : AddrsOk ys) : AddrsOk (xs ++ ys) := by
  intro c hc
  rcases List.mem_append.mp hc with h | h
  · exact hx c h
  · exact hy c h

theorem addrsOk_program (p : Params) (cfg : ChipConfig) {a : Nat} (v : Byte) (ha : a < addrSpace) :
    AddrsOk (programSequence p cfg a v) := by
  refine addrsOk_append (addrsOk_command p _) ?_
  intro c hc
  rw [List.mem_singleton.mp hc]
  exact ha

theorem addrsOk_range (p : Params) (cfg : ChipConfig) {a : Nat} {vs : List Byte} (ha : a + vs.length ≤ addrSpace) :
    AddrsOk (rangeSequence p cfg a vs) := by
  induction vs generalizing a with
  | nil => intro c hc; cases hc
  | cons v vs ih =>
    have hl : (v :: vs).length = vs.length + 1 := rfl
    exact addrsOk_append (addrsOk_program p cfg v (by omega)) (ih (by omega))

/-- The control byte after a sequence that ends with the cycle of address `a`. -/
theorem cyclesLeave_ctrl_last {s : State} {cs : List TimedCycle} {c : TimedCycle} (h : cs.getLast? = some c) :
    (cyclesLeave s cs).ctrl = writtenCtrl s.params (c.1.1.testBit 0) s.ctrl := by
  simp [cyclesLeave, h]

/-! ### Reads -/

/-- The events of READ_BYTE. -/
def readTrace (a : Nat) (s : State) : List Event :=
  frameEvents s.params s.ctrl a 24 ++ handshakeEvents s.params (slotCtrl s.params (a.testBit 0) s.ctrl)
    ++ (sampleList s.params s.oracle (targetAnswer s a) s.oracle.statusIdx).flatMap fun b =>
        sampleEvents s.params (shakenCtrl s.params (slotCtrl s.params (a.testBit 0) s.ctrl)) b

/-- The state that READ_BYTE leaves, apart from the trace. -/
def readLeave (a : Nat) (s : State) : State :=
  { s with
    ctrl := readCtrl s.params (a.testBit 0) s.ctrl
    physCtrl := maskCtrl s.params (readCtrl s.params (a.testBit 0) s.ctrl)
    frameReg := BitVec.ofNat 24 a
    fixture := targetAfterRead s a
    oracle := { s.oracle with
      portIdx := s.oracle.portIdx + 99,
      statusIdx := s.oracle.statusIdx + if targetAnswer s a = none then 8 else 0 } }

@[simp] theorem readLeave_params (a : Nat) (s : State) : (readLeave a s).params = s.params := rfl
@[simp] theorem readLeave_trace (a : Nat) (s : State) : (readLeave a s).trace = s.trace := rfl
@[simp] theorem readLeave_outcomes (a : Nat) (s : State) : (readLeave a s).outcomes = s.outcomes := rfl
@[simp] theorem readLeave_cancelFlag (a : Nat) (s : State) : (readLeave a s).cancelFlag = s.cancelFlag := rfl
@[simp] theorem readLeave_pollIdx (a : Nat) (s : State) : (readLeave a s).oracle.pollIdx = s.oracle.pollIdx := rfl
@[simp] theorem readLeave_hostScript (a : Nat) (s : State) :
    (readLeave a s).oracle.hostScript = s.oracle.hostScript := rfl

theorem readDone_leave {a : Nat} {s : State} (ha : a < addrSpace) :
    readDone a s = withRecords (s.trace ++ readTrace a s) s.oracle.pollIdx (readLeave a s) := by
  rw [readDone_eq ha]
  simp [withRecords, readLeave, readTrace, List.append_assoc]

theorem readTrace_records (a : Nat) (tr : List Event) (k : Nat) (s : State) :
    readTrace a (withRecords tr k s) = readTrace a s := rfl

theorem readLeave_records (a : Nat) (tr : List Event) (k : Nat) (s : State) :
    readLeave a (withRecords tr k s) = withRecords tr k (readLeave a s) := rfl

theorem answerAt_records (a j : Nat) (tr : List Event) (k : Nat) (s : State) :
    answerAt (withRecords tr k s) a j = answerAt s a j := rfl

theorem CanSend.read {n : Nat} {s : State} (a : Nat) (h : CanSend (99 + n) s) : CanSend n (readLeave a s) :=
  ⟨h.roles, h.opened, portsOk_of_oracle h.ports rfl (targetAfterRead_attached s a) rfl⟩

/-- A read uses up one answer of the target. -/
theorem answerAt_readLeave (a b j : Nat) (s : State) : answerAt (readLeave a s) b j = answerAt s b (j + 1) := by
  unfold answerAt readLeave targetAfterRead targetAnswer
  cases hf : s.fixture with
  | none =>
    simp only [if_true]
    unfold drawnByte
    congr 1
    funext acc k
    simp only
    rw [show s.oracle.statusIdx + 8 + 8 * j + k = s.oracle.statusIdx + 8 * (j + 1) + k by ring]
    rfl
  | ram => rfl
  | jedec chip =>
    have h : { (jedecRead s.mem chip a).2 with busy := (jedecRead s.mem chip a).2.busy - j }
        = { chip with busy := chip.busy - (j + 1) } := by
      unfold jedecRead
      by_cases hb : chip.busy > 0
      · simp [hb]; omega
      · have h0 : chip.busy = 0 := by omega
        cases hm : chip.mode <;> simp [h0, hm]
    simp only [h]

theorem readByte_leave {a : Nat} {s : State} (ha : a < addrSpace) (h : CanSend 99 s) :
    readByte a s =
      .ok (answerAt s a 0) (withRecords (s.trace ++ readTrace a s) s.oracle.pollIdx (readLeave a s)) := by
  rw [readByte_ok ha (rolesOk_distinct h.roles).1 h.opened h.ports, byteRead_eq ha, readDone_leave ha]

/-- The state after reads one after the other, apart from the trace. -/
def readsLeave (as : List Nat) (s : State) : State := as.foldl (fun t a => readLeave a t) s

/-- Reads attach and detach nothing. -/
theorem readsLeave_attached (as : List Nat) (s : State) : attached (readsLeave as s).fixture = attached s.fixture := by
  induction as generalizing s with
  | nil => rfl
  | cons a as ih => exact (ih (readLeave a s)).trans (targetAfterRead_attached s a)

/-- A loop that goes on has what its last read had attached. -/
theorem again_attached {n k : Nat} {tr : List Event} {s t : State} (h : attached t.fixture = attached s.fixture) :
    attached (conclude (.ok (.again n) (withRecords tr k t))).fixture = attached s.fixture := by
  unfold conclude withRecords
  exact h

/-- The events of reads one after the other. -/
def readsTrace : List Nat → State → List Event
  | [], _ => []
  | a :: as, s => readTrace a s ++ readsTrace as (readLeave a s)

/-- The outcomes of reads one after the other. -/
def readsOutcomes : List Nat → Nat → State → List OpOutcome
  | [], _, _ => []
  | a :: as, j, s => .ok (.byte (answerAt s a j)) :: readsOutcomes as (j + 1) s

theorem readsOutcomes_readLeave (as : List Nat) (j a : Nat) (s : State) :
    readsOutcomes as j (readLeave a s) = readsOutcomes as (j + 1) s := by
  induction as generalizing j with
  | nil => rfl
  | cons b as ih => simp [readsOutcomes, answerAt_readLeave, ih]

theorem readsLeave_records (as : List Nat) (tr : List Event) (k : Nat) (s : State) :
    readsLeave as (withRecords tr k s) = withRecords tr k (readsLeave as s) := by
  induction as generalizing s with
  | nil => rfl
  | cons a as ih => exact ih (readLeave a s)

theorem canStart_read {n : Nat} {s : State} (a : Nat) (tr : List Event) (os : List OpOutcome) (h : CanStart s)
    (hp : PortsOk (99 + n) s) :
    CanStart { readLeave a s with trace := tr, outcomes := os, active := none }
      ∧ PortsOk n { readLeave a s with trace := tr, outcomes := os, active := none } :=
  ⟨⟨h.1, h.2.1, h.2.2⟩, portsOk_of_oracle hp rfl (targetAfterRead_attached s a) rfl⟩

/-- READ_BYTEs called one after the other. -/
theorem runAll_reads {as : List Nat} {s : State} (ha : ∀ a ∈ as, a < addrSpace) (h : CanStart s)
    (hp : PortsOk (99 * as.length) s) (hn : as ≠ []) :
    runAll (as.map .readByte) s = .next { readsLeave as s with
      trace := s.trace ++ readsTrace as s, outcomes := s.outcomes ++ readsOutcomes as 0 s, active := none } := by
  induction as generalizing s with
  | nil => exact absurd rfl hn
  | cons a as ih =>
    have hl : 99 * (a :: as).length = 99 + 99 * as.length := by simp; ring
    rw [hl] at hp
    have ha1 := ha a (by simp)
    simp only [List.map_cons, runAll, exec_readByte h ha1 (portsOk_le hp (by omega)), readDone_leave ha1]
    by_cases hc : as = []
    · subst hc
      simp [runAll, withRecords, readLeave, readsLeave, readsTrace, readsOutcomes]
    · obtain ⟨h', hp'⟩ := canStart_read a (s.trace ++ readTrace a s)
        (s.outcomes ++ [.ok (.byte (answerAt s a 0))]) h hp
      have e := ih (fun b hb => ha b (by simp [hb])) h' hp' hc
      have e1 : ∀ (bs : List Nat) (u : State) (tr : List Event) (os : List OpOutcome),
          readsTrace bs { u with trace := tr, outcomes := os, active := none } = readsTrace bs u
            ∧ (∀ j, readsOutcomes bs j { u with trace := tr, outcomes := os, active := none } = readsOutcomes bs j u)
            ∧ readsLeave bs { u with trace := tr, outcomes := os, active := none }
              = { readsLeave bs u with trace := tr, outcomes := os, active := none } := by
        intro bs
        induction bs with
        | nil => intro u tr os; exact ⟨rfl, fun _ => rfl, rfl⟩
        | cons b bs ihb =>
          intro u tr os
          obtain ⟨x1, -, x3⟩ := ihb (readLeave b u) tr os
          obtain ⟨-, x2, -⟩ := ihb u tr os
          refine ⟨?_, fun j => ?_, x3⟩
          · exact congrArg (readTrace b u ++ ·) x1
          · exact congrArg (OpOutcome.ok (.byte (answerAt u b j)) :: ·) (x2 (j + 1))
      obtain ⟨x1, x2, x3⟩ := e1 as (readLeave a s) (s.trace ++ readTrace a s)
        (s.outcomes ++ [.ok (.byte (answerAt s a 0))])
      rw [x1, x2, x3, readsOutcomes_readLeave] at e
      simp only [readsTrace, readsOutcomes, List.append_assoc, List.singleton_append] at e ⊢
      exact e

/-! ### Polls -/

theorem pollOrCancel_ok {op : LoopOp} {n : Nat} {s : State} (h : NotCancelled 1 s) :
    pollOrCancel op n s = .ok () (withRecords (s.trace ++ [.pollCancel false]) (s.oracle.pollIdx + 1) s) := by
  have hf : flagAtPoll s = false := by simpa [flagAtPoll, h.1] using h.2 0 (by omega)
  rw [pollOrCancel_eq, hf]
  simp [polled, hf, withRecords, addEvent, h.1]

theorem notCancelled_le {m n : Nat} {s : State} (h : NotCancelled n s) (hle : m ≤ n) : NotCancelled m s :=
  ⟨h.1, fun k hk => h.2 k (by omega)⟩

theorem notCancelled_of {m n : Nat} {s t : State} (h : NotCancelled (m + n) s) (hc : t.cancelFlag = s.cancelFlag)
    (hs : t.oracle.hostScript = s.oracle.hostScript) (hi : t.oracle.pollIdx = s.oracle.pollIdx + m) :
    NotCancelled n t := by
  refine ⟨hc.trans h.1, fun k hk => ?_⟩
  have := h.2 (m + k) (by omega)
  simpa [hostSets, hs, hi, Nat.add_assoc] using this

/-- One iteration of ERASE_WAIT. -/
theorem eraseWaitIteration_ok {k : Nat} {s : State} (h : CanSend 198 s) (hc : NotCancelled 1 s) :
    eraseWaitIteration k s = .ok
      (if answerAt s 0 0 = erasedByte ∧ answerAt s 0 1 = erasedByte then .done .none else .again (k + 1))
      (withRecords (s.trace ++ [.pollCancel false, .delay erasePollUs] ++ readsTrace [0, 0] s) (s.oracle.pollIdx + 1)
        (readsLeave [0, 0] s)) := by
  unfold eraseWaitIteration
  refine seq_ok (pollOrCancel_ok hc) ?_
  refine seq_ok (show delay erasePollUs _ = .ok () (withRecords
    (s.trace ++ [.pollCancel false, .delay erasePollUs]) (s.oracle.pollIdx + 1) s) by
      simp [delay, emit, addEvent, withRecords]) ?_
  refine seq_ok (readByte_leave (by decide) ((h.le (by omega)).records _ _)) ?_
  refine seq_ok (readByte_leave (by decide) (((CanSend.read 0 h).records _ _).records _ _)) ?_
  simp only [answerAt_records, readTrace_records, readLeave_records, answerAt_readLeave, withRecords_withRecords,
    withRecords_trace, withRecords_oracle, readsTrace, readsLeave, List.append_nil, List.append_assoc,
    List.foldl_cons, List.foldl_nil]
  rfl

/-- The events of BLANK_CHECK over `n` erased bytes, from cursor `i` on (rule R173). -/
def blankEvents (offset : Nat) : Nat → Nat → State → List Event
  | 0, _, _ => []
  | n + 1, i, s =>
    .pollCancel false :: readTrace (offset + i) s
      ++ (if (i + 1) % progressStep = 0 then [.progress (i + 1)] else [])
      ++ blankEvents offset n (i + 1) (readLeave (offset + i) s)

theorem reportIf_eq (due : Bool) (n : Nat) (s : State) :
    reportIf due n s =
      .ok () (withRecords (s.trace ++ if due then [.progress n] else []) s.oracle.pollIdx s) := by
  unfold reportIf
  cases due <;> simp [progress, emit, addEvent, withRecords]

theorem blankBytes_step {offset n i : Nat} {s : State} (h : CanSend 99 s) (hc : NotCancelled 1 s)
    (ha : offset + i < addrSpace) (he : answerAt s (offset + i) 0 = erasedByte) :
    blankBytes offset (n + 1) i s = blankBytes offset n (i + 1)
      (withRecords (s.trace ++ .pollCancel false :: readTrace (offset + i) s
        ++ (if (i + 1) % progressStep = 0 then [.progress (i + 1)] else [])) (s.oracle.pollIdx + 1)
        (readLeave (offset + i) s)) := by
  rw [blankBytes]
  refine seq_ok (pollOrCancel_ok hc) ?_
  refine seq_ok (readByte_leave ha (h.records _ _)) ?_
  refine seq_ok (show expectErased _ _ _ = .ok () _ by
    rw [answerAt_records, he]; unfold expectErased; rw [if_pos rfl]; rfl) ?_
  refine seq_ok (reportIf_eq _ _ _) ?_
  simp only [readTrace_records, readLeave_records, withRecords_withRecords, withRecords_trace, withRecords_oracle,
    List.append_assoc, decide_eq_true_eq, List.cons_append, List.nil_append]

/-- BLANK_CHECK's loop over erased bytes. -/
theorem blankBytes_ok {offset n i : Nat} {s : State} (h : CanSend (99 * n) s) (hc : NotCancelled n s)
    (ha : offset + i + n ≤ addrSpace) (he : ∀ j, j < n → answerAt s (offset + (i + j)) j = erasedByte) (rest : Nat) :
    blankBytes offset (n + rest) i s = blankBytes offset rest (i + n)
      (withRecords (s.trace ++ blankEvents offset n i s) (s.oracle.pollIdx + n)
        (readsLeave ((List.range' i n).map (offset + ·)) s)) := by
  induction n generalizing i s with
  | zero => simp [blankEvents, readsLeave, withRecords_self]
  | succ n ih =>
    rw [show n + 1 + rest = (n + rest) + 1 by omega,
      blankBytes_step (h.le (by omega)) (notCancelled_le hc (by omega)) (by omega) (by simpa using he 0 (by omega)),
      ih ((CanSend.read _ (h.le (by omega))).records _ _)
        (notCancelled_of (m := 1) (notCancelled_le hc (by omega)) rfl rfl rfl) (by omega)
        (fun j hj => by rw [answerAt_records, answerAt_readLeave, ← he (j + 1) (by omega)]; congr 1; omega)]
    have hbl : ∀ (m i : Nat) (tr : List Event) (k : Nat) (u : State),
        blankEvents offset m i (withRecords tr k u) = blankEvents offset m i u := by
      intro m
      induction m with
      | zero => intros; rfl
      | succ m ihm =>
        intro i tr k u
        simp only [blankEvents, readTrace_records, readLeave_records, ihm]
    simp only [withRecords_withRecords, withRecords_trace, withRecords_oracle, readsLeave_records, hbl]
    rw [show i + 1 + n = i + (n + 1) by omega, List.range'_succ]
    simp only [List.map_cons, readsLeave, List.foldl_cons, blankEvents, List.append_assoc, List.cons_append]
    congr 1
    congr 1
    omega

/-! ### WRITE_IMAGE -/

theorem pollOrCancel_records {op : LoopOp} {n : Nat} {tr : List Event} {k : Nat} {s : State}
    (h : NotCancelled 1 (withRecords tr k s)) :
    pollOrCancel op n (withRecords tr k s) = .ok () (withRecords (tr ++ [.pollCancel false]) (k + 1) s) :=
  pollOrCancel_ok h

theorem programByte_leave {a : Nat} {v : Byte} {cfg : ChipConfig} {s : State} (ha : a < addrSpace)
    (h : CanSend 304 s) : programByte a v cfg s = .ok () (withRecords
      (s.trace ++ sentEvents s.params s.ctrl (programSequence s.params cfg a v)) s.oracle.pollIdx
      (cyclesLeave s (programSequence s.params cfg a v))) := by
  rw [programByte_ok ha h, allSent_eq (addrsOk_program _ _ _ ha)]

theorem programRange_leave {a : Nat} {vs : List Byte} {cfg : ChipConfig} {s : State} (ha : a + vs.length ≤ addrSpace)
    (h : CanSend (304 * vs.length) s) : programRange a vs cfg s = .ok () (withRecords
      (s.trace ++ sentEvents s.params s.ctrl (rangeSequence s.params cfg a vs)) s.oracle.pollIdx
      (cyclesLeave s (rangeSequence s.params cfg a vs))) := by
  rw [programRange_ok ha h, allSent_eq (addrsOk_range _ _ ha)]

/-- The control byte after bus cycles. -/
def sentCtrl (p : Params) (c : Byte) (cs : List TimedCycle) : Byte :=
  match cs.getLast? with
  | none => c
  | some x => writtenCtrl p (x.1.1.testBit 0) c

theorem cyclesLeave_ctrl (s : State) (cs : List TimedCycle) :
    (cyclesLeave s cs).ctrl = sentCtrl s.params s.ctrl cs := by
  unfold cyclesLeave sentCtrl
  cases cs.getLast? <;> rfl

/-- The events of the program sequences of a part of an image, with the sleep after them. -/
def burstEvents (p : Params) (c : Byte) (cs : List TimedCycle) (us : Nat) : List Event :=
  if cs = [] then [] else sentEvents p c cs ++ [.delay us]

/-- The cycles of one byte of byte mode (rule R176). -/
def byteCycles (p : Params) (cfg : ChipConfig) (a : Nat) (b : Byte) : List TimedCycle :=
  if b = erasedByte then [] else programSequence p cfg a b

/-- The cycles of one chunk of sector mode (rule R175). -/
def chunkCycles (p : Params) (cfg : ChipConfig) (a : Nat) (c : List Byte) : List TimedCycle :=
  if ∀ b ∈ c, b = 0xFF#8 then [] else rangeSequence p cfg a c

theorem programUnlessErased_ok {a : Nat} {b : Byte} {cfg : ChipConfig} {s : State} (ha : a < addrSpace)
    (h : CanSend (76 * (byteCycles s.params cfg a b).length) s) :
    programUnlessErased a b cfg s = .ok () (withRecords
      (s.trace ++ burstEvents s.params s.ctrl (byteCycles s.params cfg a b) cfg.maxWriteUsec.toNat) s.oracle.pollIdx
      (cyclesLeave s (byteCycles s.params cfg a b))) := by
  unfold programUnlessErased byteCycles burstEvents at *
  by_cases hb : b = erasedByte
  · simp [hb, cyclesLeave_nil, withRecords_self]
  · rw [if_neg hb, if_neg hb, if_neg (by simp [programSequence])]
    rw [if_neg hb] at h
    refine seq_ok (programByte_leave ha (h.le (by simp [programSequence]))) ?_
    simp [delay, emit, addEvent, withRecords, List.append_assoc]

/-- The test of sector mode: some byte is not 0xFF (rule R175). -/
theorem hasProgrammed_iff (c : List Byte) : hasProgrammed c = true ↔ ¬∀ b ∈ c, b = 0xFF#8 := by
  unfold hasProgrammed
  rw [List.any_eq_true, not_forall]
  refine exists_congr fun b => ?_
  rw [decide_eq_true_eq, Classical.not_imp]
  rfl

theorem rangeSequence_ne_nil {p : Params} {cfg : ChipConfig} {a : Nat} {c : List Byte} (h : ¬∀ b ∈ c, b = 0xFF#8) :
    rangeSequence p cfg a c ≠ [] := by
  cases c with
  | nil => simp at h
  | cons v vs => simp [rangeSequence, programSequence]

theorem programChunk_ok {a : Nat} {c : List Byte} {cfg : ChipConfig} {s : State} (ha : a + c.length ≤ addrSpace)
    (h : CanSend (76 * (chunkCycles s.params cfg a c).length) s) :
    programChunk a c cfg s = .ok () (withRecords
      (s.trace ++ burstEvents s.params s.ctrl (chunkCycles s.params cfg a c) cfg.maxWriteUsec.toNat) s.oracle.pollIdx
      (cyclesLeave s (chunkCycles s.params cfg a c))) := by
  unfold programChunk chunkCycles burstEvents at *
  by_cases hb : ∀ b ∈ c, b = 0xFF#8
  · have hp : hasProgrammed c = false := by
      rw [← Bool.not_eq_true, hasProgrammed_iff, not_not]
      exact hb
    rw [hp, if_pos hb]
    simp [cyclesLeave_nil, withRecords_self]
  · rw [if_pos ((hasProgrammed_iff c).mpr hb), if_neg hb, if_neg (rangeSequence_ne_nil hb)]
    rw [if_neg hb] at h
    refine seq_ok (programRange_leave ha (h.le (by rw [rangeSequence_length]; omega))) ?_
    simp [delay, emit, addEvent, withRecords, List.append_assoc]

/-- The events of byte mode from cursor `t` on, of `n` bytes in all (rule R176). -/
def byteModeEvents (p : Params) (cfg : ChipConfig) (offset n : Nat) : Byte → List Byte → Nat → List Event
  | _, [], _ => []
  | c, b :: bs, t =>
    .pollCancel false :: burstEvents p c (byteCycles p cfg (offset + t) b) cfg.maxWriteUsec.toNat
      ++ (if (t + 1) % byteModeChunk = 0 ∨ t + 1 = n then [.progress (t + 1)] else [])
      ++ byteModeEvents p cfg offset n (sentCtrl p c (byteCycles p cfg (offset + t) b)) bs (t + 1)

theorem byteModeSequence_cons (p : Params) (cfg : ChipConfig) (a : Nat) (b : Byte) (bs : List Byte) :
    byteModeSequence p cfg a (b :: bs) = byteCycles p cfg a b ++ byteModeSequence p cfg (a + 1) bs := rfl

theorem sectorModeSequence_cons (p : Params) (cfg : ChipConfig) (a : Nat) (c : List Byte) (cs : List (List Byte)) :
    sectorModeSequence p cfg a (c :: cs) = chunkCycles p cfg a c ++ sectorModeSequence p cfg (a + c.length) cs := rfl

/-- Byte mode's loop over a first part of its bytes. -/
theorem writeBytes_ok {offset n : Nat} {cfg : ChipConfig} {bs rest : List Byte} {t : Nat} {s : State}
    (ha : offset + t + bs.length ≤ addrSpace)
    (h : CanSend (76 * (byteModeSequence s.params cfg (offset + t) bs).length) s) (hc : NotCancelled bs.length s) :
    writeBytes offset n cfg (bs ++ rest) t s = writeBytes offset n cfg rest (t + bs.length) (withRecords
      (s.trace ++ byteModeEvents s.params cfg offset n s.ctrl bs t) (s.oracle.pollIdx + bs.length)
      (cyclesLeave s (byteModeSequence s.params cfg (offset + t) bs))) := by
  induction bs generalizing t s with
  | nil => simp [byteModeEvents, byteModeSequence, cyclesLeave_nil, withRecords_self]
  | cons b bs ih =>
    have hl : (b :: bs).length = bs.length + 1 := rfl
    rw [byteModeSequence_cons, List.length_append, Nat.mul_add] at h
    rw [List.cons_append, writeBytes]
    refine seq_ok (pollOrCancel_ok (notCancelled_le hc (by omega))) ?_
    refine seq_ok (programUnlessErased_ok (by omega) ((h.le (by simp)).records _ _)) ?_
    refine seq_ok (reportIf_eq _ _ _) ?_
    rw [cyclesLeave_records]
    simp only [withRecords_withRecords, withRecords_trace, withRecords_params, withRecords_ctrl, withRecords_oracle]
    refine Eq.trans (ih (by omega) ?_ ?_) ?_
    · rw [withRecords_params, cyclesLeave_params]
      exact (CanSend.leave _ h).records _ _
    · exact notCancelled_of (m := 1) (notCancelled_le hc (by omega)) (cyclesLeave_cancelFlag _ _)
        (by simp [cyclesLeave_oracle]) (by simp)
    simp only [cyclesLeave_records, ← cyclesLeave_append, withRecords_withRecords, withRecords_trace,
      withRecords_params, withRecords_ctrl, withRecords_oracle, cyclesLeave_params, cyclesLeave_ctrl,
      byteModeSequence_cons, byteModeEvents, List.append_assoc, List.cons_append, List.nil_append, hl,
      decide_eq_true_eq, Nat.add_assoc, Nat.add_comm 1]

/-- The events of sector mode from cursor `t` on (rule R175). -/
def sectorModeEvents (p : Params) (cfg : ChipConfig) (offset : Nat) : Byte → List (List Byte) → Nat → List Event
  | _, [], _ => []
  | c, x :: xs, t =>
    .pollCancel false :: burstEvents p c (chunkCycles p cfg (offset + t) x) cfg.maxWriteUsec.toNat
      ++ .progress (t + x.length)
      :: sectorModeEvents p cfg offset (sentCtrl p c (chunkCycles p cfg (offset + t) x)) xs (t + x.length)

/-- Sector mode's loop over a first part of its chunks. -/
theorem writeSectors_ok {offset : Nat} {cfg : ChipConfig} {xs rest : List (List Byte)} {t : Nat} {s : State}
    (ha : offset + t + xs.flatten.length ≤ addrSpace)
    (h : CanSend (76 * (sectorModeSequence s.params cfg (offset + t) xs).length) s) (hc : NotCancelled xs.length s) :
    writeSectors offset cfg (xs ++ rest) t s = writeSectors offset cfg rest (t + xs.flatten.length) (withRecords
      (s.trace ++ sectorModeEvents s.params cfg offset s.ctrl xs t) (s.oracle.pollIdx + xs.length)
      (cyclesLeave s (sectorModeSequence s.params cfg (offset + t) xs))) := by
  induction xs generalizing t s with
  | nil => simp [sectorModeEvents, sectorModeSequence, cyclesLeave_nil, withRecords_self]
  | cons x xs ih =>
    have hl : (x :: xs).length = xs.length + 1 := rfl
    have hf : (x :: xs).flatten.length = x.length + xs.flatten.length := by simp
    rw [sectorModeSequence_cons, List.length_append, Nat.mul_add] at h
    rw [List.cons_append, writeSectors]
    refine seq_ok (pollOrCancel_ok (notCancelled_le hc (by omega))) ?_
    refine seq_ok (programChunk_ok (by omega) ((h.le (by simp)).records _ _)) ?_
    refine seq_ok (show progress _ _ = .ok () _ from rfl) ?_
    rw [cyclesLeave_records]
    simp only [withRecords_withRecords, withRecords_trace, withRecords_params, withRecords_ctrl, withRecords_oracle]
    rw [show ∀ (tr : List Event) (k : Nat) (u : State) (e : Event),
      addEvent e (withRecords tr k u) = withRecords (tr ++ [e]) k u from fun _ _ _ _ => rfl]
    refine Eq.trans (ih (by omega) ?_ ?_) ?_
    · rw [withRecords_params, cyclesLeave_params]
      simpa only [Nat.add_assoc] using (CanSend.leave _ h).records _ _
    · exact notCancelled_of (m := 1) (notCancelled_le hc (by omega)) (cyclesLeave_cancelFlag _ _)
        (by simp [cyclesLeave_oracle]) (by simp)
    simp only [cyclesLeave_records, ← cyclesLeave_append, withRecords_withRecords, withRecords_trace,
      withRecords_params, withRecords_ctrl, withRecords_oracle, cyclesLeave_params, cyclesLeave_ctrl,
      sectorModeSequence_cons, sectorModeEvents, List.append_assoc, List.cons_append, List.nil_append, hl, hf,
      Nat.add_assoc, Nat.add_comm 1]

end Sys2Proof.Machine
end

