-- ==== Sys2Proof/Laws/Observer.lean ====
section
/-! SUPPORT. What an observer reads from the events of the loops: windows, polls, counts and edges. -/

namespace Sys2Proof.Machine

/-- The event is a control write or a delay. -/
def isLineEvent : Event → Bool
  | .wrCtrl _ | .delay _ => true
  | .wrData _ | .rdStatus _ | .portFail _ | .pollCancel _ | .progress _ => false

theorem frameEvents_line (p : Params) (c : Byte) (a n : Nat) : ∀ e ∈ frameEvents p c a n, isLineEvent e = true := by
  intro e he
  obtain ⟨b, -, hb⟩ := List.mem_flatMap.mp he
  simp [slotEvents] at hb
  rcases hb with rfl | rfl | rfl | rfl | rfl | rfl <;> rfl

theorem handshakeEvents_line (p : Params) (c : Byte) : ∀ e ∈ handshakeEvents p c, isLineEvent e = true := by
  intro e he
  simp [handshakeEvents, handshakeStepEvents] at he
  rcases he with rfl | rfl | rfl | rfl | rfl | rfl <;> rfl

theorem windowDelays_line {xs : List Event} (h : ∀ e ∈ xs, isLineEvent e = true) (es : List Event) :
    windowDelays (xs ++ es) = windowDelays es := by
  induction xs with
  | nil => rfl
  | cons x xs ih =>
    have hx := h x (by simp)
    have := ih fun e he => h e (by simp [he])
    cases x <;> simp [isLineEvent] at hx <;> simpa [windowDelays] using this

theorem windowDelays_write (p : Params) (c : Byte) (a : Nat) (v : Byte) (d : Nat) (es : List Event) :
    windowDelays (writeEvents p c a v d ++ es) = d :: windowDelays es := by
  rw [writeEvents, List.append_assoc, windowDelays_line (frameEvents_line p c a 24)]
  simp [windowDelays]

theorem windowDelays_sent (p : Params) (c : Byte) (cs : List TimedCycle) (es : List Event) :
    windowDelays (sentEvents p c cs ++ es) = cs.map Prod.snd ++ windowDelays es := by
  induction cs generalizing c with
  | nil => rfl
  | cons x xs ih =>
    rw [sentEvents, List.append_assoc, windowDelays_write, ih]
    rfl

theorem pollsOf_append (xs ys : List Event) : pollsOf (xs ++ ys) = pollsOf xs ++ pollsOf ys := by simp [pollsOf]
theorem samplesOf_append (xs ys : List Event) : samplesOf (xs ++ ys) = samplesOf xs ++ samplesOf ys := by
  simp [samplesOf]

/-- The event is no poll and no report. -/
def isTransportEvent : Event → Bool
  | .wrCtrl _ | .wrData _ | .rdStatus _ | .delay _ => true
  | .portFail _ | .pollCancel _ | .progress _ => false

theorem isTransportEvent_of_line {e : Event} (h : isLineEvent e = true) : isTransportEvent e = true := by
  cases e <;> simp_all [isLineEvent, isTransportEvent]

theorem pollsOf_transport {es : List Event} (h : ∀ e ∈ es, isTransportEvent e = true) : pollsOf es = [] := by
  refine List.filterMap_eq_nil_iff.mpr fun e he => ?_
  have := h e he
  cases e <;> simp_all [isTransportEvent]

theorem sentEvents_transport (p : Params) (c : Byte) (cs : List TimedCycle) :
    ∀ e ∈ sentEvents p c cs, isTransportEvent e = true := by
  induction cs generalizing c with
  | nil => simp [sentEvents]
  | cons x xs ih =>
    intro e he
    rcases List.mem_append.mp he with h | h
    · rw [writeEvents] at h
      rcases List.mem_append.mp h with h | h
      · exact isTransportEvent_of_line (frameEvents_line _ _ _ _ e h)
      · simp at h
        rcases h with rfl | rfl | rfl | rfl | rfl <;> rfl
    · exact ih _ e h

theorem burstEvents_transport (p : Params) (c : Byte) (cs : List TimedCycle) (us : Nat) :
    ∀ e ∈ burstEvents p c cs us, isTransportEvent e = true := by
  unfold burstEvents
  split
  · simp
  · intro e he
    rcases List.mem_append.mp he with h | h
    · exact sentEvents_transport p c cs e h
    · rw [List.mem_singleton.mp h]
      rfl

theorem readTrace_transport (a : Nat) (s : State) : ∀ e ∈ readTrace a s, isTransportEvent e = true := by
  intro e he
  rw [readTrace, List.append_assoc] at he
  rcases List.mem_append.mp he with h | h
  · exact isTransportEvent_of_line (frameEvents_line _ _ _ _ e h)
  rcases List.mem_append.mp h with h | h
  · exact isTransportEvent_of_line (handshakeEvents_line _ _ e h)
  · obtain ⟨b, -, hb⟩ := List.mem_flatMap.mp h
    unfold sampleEvents at hb
    split at hb <;> simp [pulseEvents] at hb <;> rcases hb with rfl | rfl | rfl | rfl | rfl <;> rfl

theorem countEvents_readTrace (a : Nat) (s : State) : countEvents (readTrace a s) = ⟨91, 0, 8, 0, 91, 0, 0⟩ := by
  have h8 : ∀ (bs : List Byte) (c : Byte), countEvents (bs.flatMap fun b => sampleEvents s.params c b)
      = ⟨2 * bs.length, 0, bs.length, 0, 2 * bs.length, 0, 0⟩ := by
    intro bs c
    induction bs with
    | nil => rfl
    | cons b bs ih =>
      rw [List.flatMap_cons, countEvents_append, ih, countEvents_sample]
      simp [addCounts]
      omega
  rw [readTrace, countEvents_append, countEvents_append, countEvents_frame, countEvents_handshake, h8]
  simp [sampleList, addCounts]

/-- READ_BYTE on the wire: its address, high bit first, and the eight read pulses. -/
theorem sdaAtEdges_readTrace {s : State} (h : rolesOk s.params = true) (a : Nat) (w : WireView) :
    ∃ bs, bs.length = 8 ∧ sdaAtEdges s.params w (readTrace a s) = bitsMsbFirst a 24 ++ bs := by
  have hd := (rolesOk_distinct h).1
  obtain ⟨-, -, -, -, -, -, -, k1, k2, -, -⟩ := rolesOk_distinct h
  have n1 : lineBit s.params .sck ≠ lineBit s.params .hsa := k1
  have n2 : lineBit s.params .sck ≠ lineBit s.params .hsb := k2
  have hh : ∀ c, getLine s.params .sck c = false → ∀ x, getLine s.params .sck (handshakeCtrl s.params x c) = false := by
    intro c hc x
    simp [handshakeCtrl, getLine_setLine, n1, n2, hc]
  have e3 : ∀ w : WireView, w.sck = false → ∀ c, getLine s.params .sck c = false →
      sdaAtEdges s.params w (handshakeEvents s.params c) = []
        ∧ (viewAll s.params w (handshakeEvents s.params c)).sck = false := by
    intro w hw c hc
    have a1 := hh c hc s.params.hs0
    have a2 := hh _ a1 s.params.hs1
    have a3 := hh _ a2 s.params.hs2
    simp [handshakeEvents, handshakeStepEvents, sdaAtEdges, viewAll, viewAfter, a1, a2, a3]
  have e4 : ∀ (bs : List Byte) (c : Byte) (w : WireView), w.sck = false →
      (sdaAtEdges s.params w (bs.flatMap fun b => sampleEvents s.params c b)).length = bs.length := by
    intro bs c
    induction bs with
    | nil => intro w _; rfl
    | cons b bs ih =>
      intro w hw
      rw [List.flatMap_cons, sdaAtEdges_append, List.length_append, ih]
      · unfold sampleEvents
        split <;> simp [pulseEvents, sdaAtEdges, viewAfter, hw] <;> omega
      · unfold sampleEvents
        split <;> simp [pulseEvents, viewAll, viewAfter, hw]
  rw [readTrace, sdaAtEdges_append, sdaAtEdges_append, viewAll_append, viewAll_frame hd, sdaAtEdges_frame hd]
  obtain ⟨x1, x2⟩ := e3 ⟨false, shiftFrame a 24 w.sr⟩ rfl _ (getLine_sck_slotCtrl _ (a.testBit 0) s.ctrl)
  rw [x1, List.append_nil]
  exact ⟨_, by rw [e4 _ _ _ x2]; simp [sampleList], rfl⟩

/-- BLANK_CHECK on the wire: 32 rising edges for each byte. -/
theorem sdaAtEdges_blank_length (offset n i : Nat) {s : State} (h : rolesOk s.params = true) (w : WireView) :
    (sdaAtEdges s.params w (blankEvents offset n i s)).length = 32 * n := by
  induction n generalizing i s w with
  | zero => rfl
  | succ n ih =>
    have hl : ∀ es : List Event, (∀ e ∈ es, ∃ k, e = .progress k) → ∀ w, sdaAtEdges s.params w es = [] := by
      intro es he
      induction es with
      | nil => intro w; rfl
      | cons e es ih =>
        intro w
        obtain ⟨k, rfl⟩ := he e (by simp)
        exact ih (fun x hx => he x (by simp [hx])) w
    have hr : ∀ w, (sdaAtEdges s.params w (readTrace (offset + i) s)).length = 32 := by
      intro w
      obtain ⟨bs, h8, e⟩ := sdaAtEdges_readTrace h (offset + i) w
      rw [e, List.length_append, h8, bitsMsbFirst_eq]
      simp
    have hi := fun w => ih (i + 1) (s := readLeave (offset + i) s) h w
    simp only [readLeave_params] at hi
    have hrep : ∀ w, sdaAtEdges s.params w (if (i + 1) % progressStep = 0 then [.progress (i + 1)] else []) = [] :=
      hl _ (by intro e he; split at he <;> simp at he; exact ⟨_, he⟩)
    have hpoll : sdaAtEdges s.params w (.pollCancel false :: readTrace (offset + i) s)
      = sdaAtEdges s.params w (readTrace (offset + i) s) := rfl
    rw [blankEvents, sdaAtEdges_append, sdaAtEdges_append, List.length_append, List.length_append, hi, hrep, hpoll, hr]
    simp
    omega

theorem countEvents_burst (p : Params) (c : Byte) (cs : List TimedCycle) (us : Nat) :
    countEvents (burstEvents p c cs us) =
      ⟨75 * cs.length, cs.length, 0, 0, 73 * cs.length + (if cs = [] then 0 else 1), 0, 0⟩ := by
  unfold burstEvents
  by_cases h : cs = []
  · subst h
    rfl
  · rw [if_neg h, if_neg h, countEvents_append, countEvents_sent]
    simp [countEvents_cons, addCounts, countEvent, noEvents]

/-- A burst shows its cycles, and leaves SCK low and some address in the register. -/
theorem busCycles_burst {p : Params} (h : rolesOk p = true) (w : WireView) (c : Byte) {cs : List TimedCycle}
    (ha : AddrsOk cs) (us : Nat) (es : List Event) :
    ∃ w', busCycles p w (burstEvents p c cs us ++ es) = cs.map Prod.fst ++ busCycles p w' es := by
  refine ⟨viewAll p w (burstEvents p c cs us), ?_⟩
  rw [busCycles_append]
  congr 1
  unfold burstEvents
  by_cases hc : cs = []
  · subst hc
    rfl
  · rw [if_neg hc, busCycles_append, busCycles_sent h w c cs ha]
    simp [busCycles]

theorem windowDelays_burst (p : Params) (c : Byte) (cs : List TimedCycle) (us : Nat) (es : List Event) :
    windowDelays (burstEvents p c cs us ++ es) = cs.map Prod.snd ++ windowDelays es := by
  unfold burstEvents
  by_cases hc : cs = []
  · subst hc
    rfl
  · rw [if_neg hc, List.append_assoc, windowDelays_sent]
    rfl

/-! ### Byte mode and sector mode -/

theorem addrsOk_byte (p : Params) (cfg : ChipConfig) {a : Nat} (b : Byte) (ha : a < addrSpace) :
    AddrsOk (byteCycles p cfg a b) := by
  unfold byteCycles
  split
  · intro c hc; cases hc
  · exact addrsOk_program p cfg b ha

theorem addrsOk_chunk (p : Params) (cfg : ChipConfig) {a : Nat} {x : List Byte} (ha : a + x.length ≤ addrSpace) :
    AddrsOk (chunkCycles p cfg a x) := by
  unfold chunkCycles
  split
  · intro c hc; cases hc
  · exact addrsOk_range p cfg ha

section ByteMode

variable (p : Params) (cfg : ChipConfig) (offset n : Nat)

theorem busCycles_byteMode (h : rolesOk p = true) (bs : List Byte) (t : Nat) (c : Byte) (w : WireView)
    (es : List Event) (ha : offset + t + bs.length ≤ addrSpace) :
    ∃ w', busCycles p w (byteModeEvents p cfg offset n c bs t ++ es)
      = (byteModeSequence p cfg (offset + t) bs).map Prod.fst ++ busCycles p w' es := by
  induction bs generalizing t c w with
  | nil => exact ⟨w, rfl⟩
  | cons b bs ih =>
    have hl : (b :: bs).length = bs.length + 1 := rfl
    simp only [byteModeEvents, List.append_assoc, List.cons_append]
    obtain ⟨w1, h1⟩ := busCycles_burst h w c (addrsOk_byte p cfg b (by omega : offset + t < addrSpace))
      cfg.maxWriteUsec.toNat ((if (t + 1) % byteModeChunk = 0 ∨ t + 1 = n then [Event.progress (t + 1)] else [])
        ++ (byteModeEvents p cfg offset n (sentCtrl p c (byteCycles p cfg (offset + t) b)) bs (t + 1) ++ es))
    obtain ⟨w2, h2⟩ := ih (t + 1) (sentCtrl p c (byteCycles p cfg (offset + t) b)) w1 (by omega)
    refine ⟨w2, ?_⟩
    simp only [busCycles, viewAfter, h1, byteModeSequence_cons, List.map_append, List.append_assoc]
    congr 1
    rw [show offset + (t + 1) = offset + t + 1 by omega] at h2
    rw [← h2]
    split <;> rfl

theorem windowDelays_byteMode (bs : List Byte) (t : Nat) (c : Byte) (es : List Event) :
    windowDelays (byteModeEvents p cfg offset n c bs t ++ es)
      = (byteModeSequence p cfg (offset + t) bs).map Prod.snd ++ windowDelays es := by
  induction bs generalizing t c with
  | nil => rfl
  | cons b bs ih =>
    simp only [byteModeEvents, List.append_assoc, List.cons_append, windowDelays, windowDelays_burst,
      byteModeSequence_cons, List.map_append]
    congr 1
    rw [show offset + t + 1 = offset + (t + 1) by omega, ← ih]
    split <;> rfl

theorem pollsOf_byteMode (bs : List Byte) (t : Nat) (c : Byte) :
    pollsOf (byteModeEvents p cfg offset n c bs t) = List.replicate bs.length false := by
  induction bs generalizing t c with
  | nil => rfl
  | cons b bs ih =>
    rw [byteModeEvents, pollsOf_append, ih]
    have : ∀ (q : Prop) [Decidable q], pollsOf (if q then [Event.progress (t + 1)] else []) = [] := by
      intro q _; split <;> rfl
    rw [List.cons_append, ← List.singleton_append, pollsOf_append, pollsOf_append,
      pollsOf_transport (burstEvents_transport _ _ _ _), this]
    rfl

theorem countEvents_byteMode_wrCtrl (bs : List Byte) (t : Nat) (c : Byte) :
    (countEvents (byteModeEvents p cfg offset n c bs t)).wrCtrl
      = 75 * (byteModeSequence p cfg (offset + t) bs).length := by
  induction bs generalizing t c with
  | nil => rfl
  | cons b bs ih =>
    rw [byteModeEvents, countEvents_append, byteModeSequence_cons, List.length_append]
    have : ∀ (q : Prop) [Decidable q],
        (countEvents (if q then [Event.progress (t + 1)] else [])).wrCtrl = 0 := by
      intro q _; split <;> rfl
    rw [List.cons_append, countEvents_cons, countEvents_append, countEvents_burst]
    simp only [addCounts, ih, this, countEvent, noEvents, Nat.add_assoc]
    omega

end ByteMode

section SectorMode

variable (p : Params) (cfg : ChipConfig) (offset : Nat)

theorem busCycles_sectorMode (h : rolesOk p = true) (xs : List (List Byte)) (t : Nat) (c : Byte) (w : WireView)
    (es : List Event) (ha : offset + t + xs.flatten.length ≤ addrSpace) :
    ∃ w', busCycles p w (sectorModeEvents p cfg offset c xs t ++ es)
      = (sectorModeSequence p cfg (offset + t) xs).map Prod.fst ++ busCycles p w' es := by
  induction xs generalizing t c w with
  | nil => exact ⟨w, rfl⟩
  | cons x xs ih =>
    have hf : (x :: xs).flatten.length = x.length + xs.flatten.length := by simp
    simp only [sectorModeEvents, List.append_assoc, List.cons_append]
    obtain ⟨w1, h1⟩ := busCycles_burst h w c
      (addrsOk_chunk p cfg (by omega : offset + t + x.length ≤ addrSpace)) cfg.maxWriteUsec.toNat
      (.progress (t + x.length)
        :: (sectorModeEvents p cfg offset (sentCtrl p c (chunkCycles p cfg (offset + t) x)) xs (t + x.length) ++ es))
    obtain ⟨w2, h2⟩ := ih (t + x.length) (sentCtrl p c (chunkCycles p cfg (offset + t) x)) w1 (by omega)
    refine ⟨w2, ?_⟩
    simp only [busCycles, viewAfter, h1, sectorModeSequence_cons, List.map_append, List.append_assoc, h2,
      Nat.add_assoc]

theorem windowDelays_sectorMode (xs : List (List Byte)) (t : Nat) (c : Byte) (es : List Event) :
    windowDelays (sectorModeEvents p cfg offset c xs t ++ es)
      = (sectorModeSequence p cfg (offset + t) xs).map Prod.snd ++ windowDelays es := by
  induction xs generalizing t c with
  | nil => rfl
  | cons x xs ih =>
    simp only [sectorModeEvents, List.append_assoc, List.cons_append, windowDelays, windowDelays_burst,
      sectorModeSequence_cons, List.map_append, ih, Nat.add_assoc]

theorem pollsOf_sectorMode (xs : List (List Byte)) (t : Nat) (c : Byte) :
    pollsOf (sectorModeEvents p cfg offset c xs t) = List.replicate xs.length false := by
  induction xs generalizing t c with
  | nil => rfl
  | cons x xs ih =>
    rw [sectorModeEvents, pollsOf_append, ← List.singleton_append, pollsOf_append,
      pollsOf_transport (burstEvents_transport _ _ _ _)]
    change false :: pollsOf (sectorModeEvents p cfg offset _ xs _) = _
    rw [ih]
    rfl

theorem countEvents_sectorMode_wrCtrl (xs : List (List Byte)) (t : Nat) (c : Byte) :
    (countEvents (sectorModeEvents p cfg offset c xs t)).wrCtrl
      = 75 * (sectorModeSequence p cfg (offset + t) xs).length := by
  induction xs generalizing t c with
  | nil => rfl
  | cons x xs ih =>
    rw [sectorModeEvents, sectorModeSequence_cons, List.length_append, List.cons_append, countEvents_cons,
      countEvents_append, countEvents_burst, countEvents_cons]
    simp only [addCounts, ih, countEvent, noEvents, Nat.add_assoc]
    omega

end SectorMode

end Sys2Proof.Machine
end

