-- ==== Sys2Proof/Laws/Sequences.lean ====
section
/-! SUPPORT. The operations that issue nothing but bus cycles, all at once (rules R98, R102). -/

namespace Sys2Proof.Machine

/-- The body of an operation that issues nothing but bus cycles. -/
theorem bodyOf_sequence {i : Instr} {cs : List TimedCycle} {s : State} (ho : operationSequence s.params i = some cs)
    (hw : WellFormed i = true) (h : CanSend (76 * cs.length) s) : bodyOf i s = .ok (.done .none) (allSent cs s) := by
  cases i <;> simp only [operationSequence, reduceCtorEq, Option.some.injEq] at ho <;> subst ho <;> simp only [WellFormed, addrOk, rangeOk, Bool.and_eq_true, decide_eq_true_eq] at hw <;> refine done_ok ?_
  case writeByte a v d => exact writeByte_sent hw h
  case unlock => exact unlock_ok h
  case command c => exact command_ok hw h
  case eraseChip => exact eraseChip_ok h
  case programByte a v cfg => exact programByte_ok hw.1 h
  case programRange a vs cfg => exact programRange_ok hw.1 (h.le (by rw [rangeSequence_length]; omega))
  all_goals exact command_ok (by decide) h

theorem sequence_own {i : Instr} {cs : List TimedCycle} {p : Params} (ho : operationSequence p i = some cs)
    (hw : WellFormed i = true) : ownProblem i = none := by
  cases i <;> simp_all [operationSequence, WellFormed, ownProblem, chipProblem]

theorem sequence_addrs {i : Instr} {cs : List TimedCycle} {p : Params} (ho : operationSequence p i = some cs)
    (hw : WellFormed i = true) : AddrsOk cs := by
  cases i <;> simp only [operationSequence, reduceCtorEq, Option.some.injEq] at ho <;> subst ho <;> simp only [WellFormed, addrOk, rangeOk, Bool.and_eq_true, decide_eq_true_eq] at hw
  case writeByte a v d => intro c hc; rw [List.mem_singleton.mp hc]; exact hw
  case unlock =>
    intro c hc
    simp [timed, unlockCycles] at hc
    rcases hc with rfl | rfl
    · exact (by decide : unlockAddr1 < addrSpace)
    · exact (by decide : unlockAddr2 < addrSpace)
  case eraseChip =>
    have := addrsOk_append (addrsOk_command p cmdEraseSetupByte) (addrsOk_command p cmdChipEraseByte)
    simpa [commandSequence, timed, eraseCycles] using this
  case programByte a v cfg => exact addrsOk_program _ _ _ hw.1
  case programRange a vs cfg => exact addrsOk_range _ _ hw.1
  all_goals exact addrsOk_command _ _

/-- Every operation that issues nothing but bus cycles sends its sequence (rules R98, R102). -/
theorem exec_sequence {i : Instr} {cs : List TimedCycle} {s : State} (ho : operationSequence s.params i = some cs)
    (hs : CanStart s) (hw : WellFormed i = true) (hp : PortsOk (76 * cs.length) s) :
    exec i s = .next { cyclesLeave s cs with
      trace := s.trace ++ sentEvents s.params s.ctrl cs, outcomes := s.outcomes ++ [.ok .none], active := none } := by
  rw [exec_ok hs (sequence_own ho hw) (bodyOf_sequence ho hw (canSend_of_canStart hs hp)), allSent_eq (sequence_addrs ho hw)]
  simp only [withRecords_outcomes, cyclesLeave_outcomes]
  congr 1
  unfold withRecords
  simp [cyclesLeave_oracle]

theorem samplesOf_samples (p : Params) (c : Byte) (bs : List Byte) : samplesOf (bs.flatMap fun b => sampleEvents p c b) = bs := by
  induction bs with
  | nil => rfl
  | cons b bs ih => rw [List.flatMap_cons, samplesOf_append, ih]; unfold sampleEvents; split <;> rfl

/-- WRITE_BYTE's rising edges are those of its frame (rule R120). -/
theorem sdaAtEdges_write {p : Params} (h : rolesOk p = true) (c : Byte) (w : WireView) (a : Nat) (v : Byte) (d : Nat) :
    sdaAtEdges p w (writeEvents p c a v d) = bitsMsbFirst a 24 := by
  rw [writeEvents, sdaAtEdges_append, viewAll_frame (rolesOk_distinct h).1, sdaAtEdges_frame (rolesOk_distinct h).1]
  generalize a.testBit 0 = b'
  obtain ⟨h1, h2, h3⟩ := getLine_sck_written h b' c
  simp [sdaAtEdges, viewAfter, h1, h2, h3]

theorem bitsMsbFirst_length (a n : Nat) : (bitsMsbFirst a n).length = n := by
  rw [bitsMsbFirst_eq]; simp

/-- A read is no bus write cycle. -/
theorem busCycles_readTrace (p : Params) (a : Nat) (s : State) (w : WireView) :
    busCycles p w (readTrace a s) = [] := by
  refine busCycles_noData (fun v hv => ?_) w
  unfold readTrace at hv
  simp only [List.mem_append, List.mem_flatMap] at hv
  rcases hv with (h | h) | ⟨b, -, h⟩
  · exact absurd (frameEvents_line _ _ _ _ _ h) (by simp [isLineEvent])
  · exact absurd (handshakeEvents_line _ _ _ h) (by simp [isLineEvent])
  · unfold sampleEvents at h; split at h <;> simp [pulseEvents] at h

theorem samplesOf_line {es : List Event} (h : ∀ e ∈ es, isLineEvent e = true) : samplesOf es = [] := by
  refine List.filterMap_eq_nil_iff.mpr fun e he => ?_
  have := h e he
  cases e <;> simp_all [isLineEvent]

theorem samplesOf_sent (p : Params) (c : Byte) (cs : List TimedCycle) : samplesOf (sentEvents p c cs) = [] := by
  induction cs generalizing c with
  | nil => rfl
  | cons x xs ih =>
    rw [sentEvents, samplesOf_append, ih, writeEvents, samplesOf_append, samplesOf_line (frameEvents_line _ _ _ _)]; rfl

theorem samplesOf_readTrace (a : Nat) (s : State) : (samplesOf (readTrace a s)).length = 8 := by
  rw [readTrace, samplesOf_append, samplesOf_append, samplesOf_line (frameEvents_line _ _ _ _), samplesOf_line (handshakeEvents_line _ _), samplesOf_samples]
  rfl

end Sys2Proof.Machine
end

