-- ==== Sys2Proof/Laws/Stops.lean ====
section
/-! SUPPORT. How an operation can end, said once: it runs to its end, or it takes a fault, or a poll ends it, and the events
and marks say which (rules R24, R210 to R219). -/

namespace Sys2Proof.Machine

/-- Events among which there is no port failure, and no poll but (if `polls`) ones that answered false. -/
def Quiet (polls : Bool) (es : List Event) : Prop :=
  ∀ e ∈ es, match e with
    | .portFail _ => False
    | .pollCancel c => polls = true ∧ c = false
    | .wrCtrl _ | .wrData _ | .rdStatus _ | .delay _ | .progress _ => True

theorem quiet_nil (p : Bool) : Quiet p [] := fun _ he => nomatch he

theorem quiet_append {p : Bool} {xs ys : List Event} (hx : Quiet p xs) (hy : Quiet p ys) : Quiet p (xs ++ ys) :=
  fun e he => (List.mem_append.mp he).elim (hx e) (hy e)

theorem Quiet.left {p : Bool} {xs ys : List Event} (h : Quiet p (xs ++ ys)) : Quiet p xs :=
  fun e he => h e (List.mem_append_left _ he)

theorem quiet_mono {xs : List Event} (h : Quiet false xs) (p : Bool) : Quiet p xs := by
  intro e he
  have := h e he
  cases e <;> simp_all

theorem Quiet.no_fail {p : Bool} {xs : List Event} (h : Quiet p xs) (k : Access) : .portFail k ∉ xs :=
  fun he => h _ he

theorem Quiet.no_cancel {p : Bool} {xs : List Event} (h : Quiet p xs) : .pollCancel true ∉ xs :=
  fun he => by simpa using h _ he

theorem Quiet.no_poll {xs : List Event} (h : Quiet false xs) : pollsOf xs = [] := by
  refine List.filterMap_eq_nil_iff.mpr fun e he => ?_
  have := h e he
  cases e <;> simp_all

/-- What does not change while an operation goes on: the handle, the scripts and, if it does not poll, the flag; the
port accesses that have been answered all succeeded. -/
structure GoesOn (polls : Bool) (s t : State) : Prop where
  handle : t.handle = s.handle
  portScript : t.oracle.portScript = s.oracle.portScript
  attached : attached t.fixture = attached s.fixture
  flag : polls = false → t.cancelFlag = s.cancelFlag ∧ t.oracle.pollIdx = s.oracle.pollIdx

/-- How a part of an operation ended, from `s` on. -/
def Rightly {α : Type} (polls : Bool) (s : State) : EStateM.Result Stop State α → Prop
  | .ok _ t =>
    GoesOn polls s t ∧ t.faulted = s.faulted ∧ t.refused = s.refused
      ∧ (∃ es, t.trace = s.trace ++ es ∧ Quiet polls es)
      ∧ ∃ n, t.oracle.portIdx = s.oracle.portIdx + n ∧ PortsOk n s
  | .error (.fault f) t =>
    GoesOn polls s t ∧ t.faulted = s.faulted.or (some f) ∧ t.refused = s.refused
      ∧ match f with
        | .portIo kind =>
          (∃ es, t.trace = s.trace ++ (es ++ [.portFail kind]) ∧ Quiet polls es)
            ∧ ∃ n reached, t.oracle.portIdx = s.oracle.portIdx + n + 1 ∧ PortsOk n s
                ∧ portDrawAt s (s.oracle.portIdx + n) = .fail reached
        | .unsupportedChip _ => ∃ es, t.trace = s.trace ++ es ∧ Quiet polls es
        | .blankCheckMismatch _ _ => ∃ es, t.trace = s.trace ++ es ∧ Quiet polls es
  | .error (.cancelled _ _) t =>
    polls = true ∧ GoesOn polls s t ∧ t.faulted = s.faulted ∧ t.refused = s.refused ∧ t.cancelFlag = true
      ∧ ∃ es, t.trace = s.trace ++ (es ++ [.pollCancel true]) ∧ Quiet polls es
  | .error (.refused r) t =>
    s.handle = .closed ∧ r = .handleClosed ∧ GoesOn polls s t ∧ t.faulted = s.faulted
      ∧ t.refused = s.refused.or (some r) ∧ ∃ es, t.trace = s.trace ++ es ∧ Quiet polls es

/-- A part of an operation ends rightly from every state. -/
def Right {α : Type} (polls : Bool) (m : Op α) : Prop := ∀ s, Rightly polls s (m s)

theorem right_pure {α : Type} (p : Bool) (a : α) : Right p (pure a : Op α) := fun _ =>
  ⟨⟨rfl, rfl, rfl, fun _ => ⟨rfl, rfl⟩⟩, rfl, rfl, ⟨[], by simp, quiet_nil p⟩, 0, rfl, fun k hk => absurd hk (by omega)⟩

theorem GoesOn.trans {p : Bool} {s t u : State} (h1 : GoesOn p s t) (h2 : GoesOn p t u) : GoesOn p s u :=
  ⟨h2.handle.trans h1.handle, h2.portScript.trans h1.portScript, h2.attached.trans h1.attached, fun hp =>
    ⟨(h2.flag hp).1.trans (h1.flag hp).1, (h2.flag hp).2.trans (h1.flag hp).2⟩⟩

theorem portsOk_join {m n : Nat} {s t : State} (hs : PortsOk m s) (ht : PortsOk n t)
    (hsc : t.oracle.portScript = s.oracle.portScript) (ha : attached t.fixture = attached s.fixture) (hi : t.oracle.portIdx = s.oracle.portIdx + m) :
    PortsOk (m + n) s := by
  intro k hk
  by_cases h : k < m
  · exact hs k h
  · have := ht (k - m) (by omega)
    rw [hi, show s.oracle.portIdx + m + (k - m) = s.oracle.portIdx + k by omega] at this
    rwa [portDrawAt_congr hsc ha] at this

theorem rightly_bind {α β : Type} {p : Bool} {s t : State} {a : α} {r : EStateM.Result Stop State β}
    (h1 : Rightly p s (.ok a t : EStateM.Result Stop State α)) (h2 : Rightly p t r) : Rightly p s r := by
  obtain ⟨g1, f1, r1, ⟨es1, t1, q1⟩, n1, i1, o1⟩ := h1
  cases r with
  | ok b u =>
    obtain ⟨g2, f2, r2, ⟨es2, t2, q2⟩, n2, i2, o2⟩ := h2
    exact ⟨g1.trans g2, f2.trans f1, r2.trans r1, ⟨es1 ++ es2, by rw [t2, t1, List.append_assoc], quiet_append q1 q2⟩,
      n1 + n2, by rw [i2, i1, Nat.add_assoc], portsOk_join o1 o2 g1.portScript g1.attached i1⟩
  | error e u =>
    cases e with
    | fault f =>
      obtain ⟨g2, f2, r2, x⟩ := h2
      refine ⟨g1.trans g2, by rw [f2, f1], r2.trans r1, ?_⟩
      cases f with
      | portIo kind =>
        obtain ⟨⟨es2, t2, q2⟩, n2, reached, i2, o2, d2⟩ := x
        refine ⟨⟨es1 ++ es2, by rw [t2, t1]; simp [List.append_assoc], quiet_append q1 q2⟩, n1 + n2, reached,
          by rw [i2, i1]; omega, portsOk_join o1 o2 g1.portScript g1.attached i1, ?_⟩
        rw [i1, portDrawAt_congr g1.portScript g1.attached] at d2
        rwa [← Nat.add_assoc]
      | unsupportedChip id =>
        obtain ⟨es2, t2, q2⟩ := x
        exact ⟨es1 ++ es2, by rw [t2, t1, List.append_assoc], quiet_append q1 q2⟩
      | blankCheckMismatch a v =>
        obtain ⟨es2, t2, q2⟩ := x
        exact ⟨es1 ++ es2, by rw [t2, t1, List.append_assoc], quiet_append q1 q2⟩
    | cancelled op n =>
      obtain ⟨hp, g2, f2, r2, c2, es2, t2, q2⟩ := h2
      exact ⟨hp, g1.trans g2, f2.trans f1, r2.trans r1, c2, es1 ++ es2, by rw [t2, t1]; simp [List.append_assoc],
        quiet_append q1 q2⟩
    | refused r =>
      obtain ⟨hc, hr, g2, f2, r2, es2, t2, q2⟩ := h2
      exact ⟨g1.handle ▸ hc, hr, g1.trans g2, f2.trans f1, by rw [r2, r1], es1 ++ es2,
        by rw [t2, t1, List.append_assoc], quiet_append q1 q2⟩

theorem rightly_error {α β : Type} {p : Bool} {s t : State} {e : Stop}
    (h : Rightly p s (.error e t : EStateM.Result Stop State α)) :
    Rightly p s (.error e t : EStateM.Result Stop State β) := by
  cases e with
  | fault f => exact h
  | cancelled op n => exact h
  | refused r => exact h

theorem right_bind {α β : Type} {p : Bool} {m : Op α} {k : α → Op β} (hm : Right p m) (hk : ∀ a, Right p (k a)) :
    Right p (m >>= k) := by
  intro s
  have h1 := hm s
  cases hr : m s with
  | ok a t =>
    rw [hr] at h1
    rw [bind_ok hr]
    exact rightly_bind h1 (hk a t)
  | error e t =>
    rw [hr] at h1
    rw [bind_error hr]
    exact rightly_error h1

/-- A part that makes no access and no event, and ends well. -/
theorem right_of_ok {α : Type} {p : Bool} {m : Op α} (h : ∀ s, ∃ a t, m s = .ok a t ∧ GoesOn p s t
    ∧ t.faulted = s.faulted ∧ t.refused = s.refused ∧ t.oracle.portIdx = s.oracle.portIdx
    ∧ ∃ es, t.trace = s.trace ++ es ∧ Quiet p es) : Right p m := by
  intro s
  obtain ⟨a, t, e, g, f, r, i, x⟩ := h s
  rw [e]
  exact ⟨g, f, r, x, 0, i, fun k hk => absurd hk (by omega)⟩

/-- The events of a successful access. -/
theorem quiet_single {p : Bool} {e : Event} (h : isLineEvent e = true ∨ (∃ v, e = .wrData v) ∨ (∃ v, e = .rdStatus v)
    ∨ ∃ n, e = .progress n) : Quiet p [e] := by
  intro x hx
  rw [List.mem_singleton.mp hx]
  rcases h with h | ⟨v, rfl⟩ | ⟨v, rfl⟩ | ⟨n, rfl⟩
  · cases e <;> simp_all [isLineEvent]
  all_goals trivial

theorem portsOk_one {s : State} (h : portDrawAt s s.oracle.portIdx = .ok) : PortsOk 1 s := by
  intro k hk
  rw [show k = 0 by omega]
  exact h

theorem right_portWrCtrl (p : Bool) (b : Byte) : Right p (portWrCtrl b) := by
  intro s
  rcases portWrCtrl_cases b s with ⟨hc, e⟩ | ⟨-, hd, e⟩ | ⟨reached, -, hd, e⟩
  · rw [e]
    exact ⟨hc, rfl, ⟨rfl, rfl, rfl, fun _ => ⟨rfl, rfl⟩⟩, rfl, rfl, [], by simp, quiet_nil p⟩
  · rw [e]
    exact ⟨⟨rfl, rfl, rfl, fun _ => ⟨rfl, rfl⟩⟩, rfl, rfl, ⟨[.wrCtrl b], rfl, quiet_single (.inl rfl)⟩, 1, rfl,
      portsOk_one hd⟩
  · rw [e]
    exact ⟨⟨rfl, rfl, rfl, fun _ => ⟨rfl, rfl⟩⟩, rfl, rfl, ⟨[], rfl, quiet_nil p⟩, 0, reached, rfl,
      fun k hk => absurd hk (by omega), hd⟩

theorem right_portWrData (p : Bool) (v : Byte) : Right p (portWrData v) := by
  intro s
  rcases portWrData_cases v s with ⟨hc, e⟩ | ⟨-, hd, e⟩ | ⟨reached, -, hd, e⟩
  · rw [e]
    exact ⟨hc, rfl, ⟨rfl, rfl, rfl, fun _ => ⟨rfl, rfl⟩⟩, rfl, rfl, [], by simp, quiet_nil p⟩
  · rw [e]
    exact ⟨⟨rfl, rfl, rfl, fun _ => ⟨rfl, rfl⟩⟩, rfl, rfl, ⟨[.wrData v], rfl, quiet_single (.inr (.inl ⟨v, rfl⟩))⟩, 1, rfl,
      portsOk_one hd⟩
  · rw [e]
    exact ⟨⟨rfl, rfl, rfl, fun _ => ⟨rfl, rfl⟩⟩, rfl, rfl, ⟨[], rfl, quiet_nil p⟩, 0, reached, rfl,
      fun k hk => absurd hk (by omega), hd⟩

theorem right_portRdStatus (p : Bool) (fixed : Option Byte) : Right p (portRdStatus fixed) := by
  intro s
  rcases portRdStatus_cases fixed s with ⟨hc, e⟩ | ⟨-, hd, e⟩ | ⟨reached, -, hd, e⟩
  · rw [e]
    exact ⟨hc, rfl, ⟨rfl, rfl, rfl, fun _ => ⟨rfl, rfl⟩⟩, rfl, rfl, [], by simp, quiet_nil p⟩
  · rw [e]
    exact ⟨⟨rfl, rfl, rfl, fun _ => ⟨rfl, rfl⟩⟩, rfl, rfl,
      ⟨[.rdStatus (statusByte fixed s)], rfl, quiet_single (.inr (.inr (.inl ⟨_, rfl⟩)))⟩, 1, rfl, portsOk_one hd⟩
  · rw [e]
    exact ⟨⟨rfl, rfl, rfl, fun _ => ⟨rfl, rfl⟩⟩, rfl, rfl, ⟨[], rfl, quiet_nil p⟩, 0, reached, rfl,
      fun k hk => absurd hk (by omega), hd⟩

theorem right_delay (p : Bool) (us : Nat) : Right p (delay us) :=
  right_of_ok fun _ => ⟨(), _, rfl, ⟨rfl, rfl, rfl, fun _ => ⟨rfl, rfl⟩⟩, rfl, rfl, rfl, [.delay us], rfl,
    quiet_single (.inl rfl)⟩

theorem right_progress (p : Bool) (n : Nat) : Right p (progress n) :=
  right_of_ok fun _ => ⟨(), _, rfl, ⟨rfl, rfl, rfl, fun _ => ⟨rfl, rfl⟩⟩, rfl, rfl, rfl, [.progress n], rfl,
    quiet_single (.inr (.inr (.inr ⟨n, rfl⟩)))⟩

theorem right_stepDelay (p : Bool) : Right p stepDelay := fun s => right_delay p s.params.tStepUs s

/-- A part that starts from an update of the lines or of the target alone. -/
theorem rightly_of_same {α : Type} {p : Bool} {s t : State} {r : EStateM.Result Stop State α} (h : Rightly p t r)
    (hh : t.handle = s.handle) (ho : t.oracle = s.oracle) (ha : t.fixture = s.fixture) (ht : t.trace = s.trace) (hc : t.cancelFlag = s.cancelFlag)
    (hf : t.faulted = s.faulted) (hr : t.refused = s.refused) : Rightly p s r :=
  rightly_bind (a := ()) ⟨⟨hh, by rw [ho], by rw [ha], fun _ => ⟨hc, by rw [ho]⟩⟩, hf, hr, ⟨[], by simp [ht], quiet_nil p⟩, 0,
    by rw [ho]; rfl, fun k hk => absurd hk (by omega)⟩ h

theorem right_setLines (p : Bool) (levels : List (Role × Bool)) : Right p (setLines levels) := fun s =>
  rightly_of_same (right_portWrCtrl p _ { s with ctrl := setLineList s.params levels s.ctrl }) rfl rfl rfl rfl rfl rfl rfl

theorem right_setLinesAndWait (p : Bool) (levels : List (Role × Bool)) : Right p (setLinesAndWait levels) :=
  right_bind (right_setLines p _) fun _ => right_stepDelay p

theorem right_latchSda (p : Bool) : Right p latchSda :=
  right_of_ok fun _ => ⟨(), _, rfl, ⟨rfl, rfl, rfl, fun _ => ⟨rfl, rfl⟩⟩, rfl, rfl, rfl, [], by simp, quiet_nil p⟩

theorem right_addressSlots (p : Bool) (a n : Nat) : Right p (addressSlots a n) := by
  induction n with
  | zero => exact right_pure p _
  | succ n ih =>
    exact right_bind (right_bind (right_setLinesAndWait p _) fun _ => right_bind (right_setLines p _) fun _ =>
      right_bind (right_latchSda p) fun _ => right_bind (right_stepDelay p) fun _ => right_setLinesAndWait p _)
      fun _ => ih

theorem right_check {α : Type} {p : Bool} {m : Op Unit} {k : Unit → Op α} (h : ∀ s, m s = .ok () s)
    (hk : Right p (k ())) : Right p (m >>= k) := by
  intro s
  rw [bind_ok (h s)]
  exact hk s

theorem right_writeAddress (p : Bool) {a : Nat} (ha : a < addrSpace) : Right p (writeAddress a) :=
  right_check (fun _ => checkAddr_ok ha) (right_addressSlots p a 24)

theorem busWritten_oracle' (v : Byte) (s : State) :
    (busWritten v s).cancelFlag = s.cancelFlag ∧ (busWritten v s).faulted = s.faulted
      ∧ (busWritten v s).refused = s.refused := by
  unfold busWritten; split <;> exact ⟨rfl, rfl, rfl⟩

theorem right_busWrite (p : Bool) (v : Byte) : Right p (busWrite v) := by
  refine right_of_ok fun s => ⟨(), busWritten v s, busWrite_eq v s, ?_⟩
  obtain ⟨h1, h2, h3⟩ := busWritten_oracle' v s
  exact ⟨⟨busWritten_handle v s, by rw [busWritten_oracle], busWritten_attached v s, fun _ => ⟨h1, by rw [busWritten_oracle]⟩⟩, h2, h3,
    by rw [busWritten_oracle], [], by simp, quiet_nil p⟩

theorem right_busRead (p : Bool) : Right p busRead := by
  refine right_of_ok fun s => ⟨_, busReadState s, busRead_eq s, ?_⟩
  unfold busReadState
  split <;> exact ⟨⟨rfl, rfl, by simp_all [attached], fun _ => ⟨rfl, rfl⟩⟩, rfl, rfl, rfl, [], by simp, quiet_nil p⟩

theorem right_writeByte (p : Bool) {a : Nat} (v : Byte) (d : Nat) (ha : a < addrSpace) : Right p (writeByte a v d) :=
  right_bind (right_writeAddress p ha) fun _ => right_bind (right_portWrData p v) fun _ =>
    right_bind (right_setLines p _) fun _ => right_bind (right_setLines p _) fun _ =>
      right_bind (right_delay p d) fun _ => right_bind (right_setLines p _) fun _ => right_busWrite p v

theorem right_handshake (p : Bool) : Right p handshake := fun s =>
  (right_bind (right_setLinesAndWait p _) fun _ => right_bind (right_setLinesAndWait p _) fun _ =>
    right_setLinesAndWait p _ : Right p _) s

theorem right_readPulse (p : Bool) : Right p readPulse :=
  right_bind (right_setLinesAndWait p _) fun _ => right_setLinesAndWait p _

theorem right_sampleStatus (p : Bool) (fixed : Option Byte) (i : Nat) : Right p (sampleStatus fixed i) := fun s =>
  (right_bind (right_portRdStatus p _) fun _ => right_pure p _ : Right p _) s

theorem right_readBits (p : Bool) (fixed : Option Byte) (n : Nat) (acc : Byte) : Right p (readBits fixed n acc) := by
  induction n generalizing acc with
  | zero => exact right_pure p _
  | succ n ih =>
    refine right_bind (fun s => ?_) fun _ => ih _
    unfold sampleAndPulse
    split
    · exact (right_bind (right_sampleStatus p fixed n) fun _ => right_bind (right_readPulse p) fun _ => right_pure p _ :
        Right p _) s
    · exact (right_bind (right_readPulse p) fun _ => right_sampleStatus p fixed n : Right p _) s

theorem right_readByte (p : Bool) {a : Nat} (ha : a < addrSpace) : Right p (readByte a) :=
  right_bind (right_writeAddress p ha) fun _ => right_bind (right_handshake p) fun _ =>
    right_bind (right_busRead p) fun _ => right_readBits p _ _ _

theorem right_unlock (p : Bool) : Right p unlock :=
  right_bind (fun s => right_writeByte p _ _ (by decide) s) fun _ =>
    fun s => right_writeByte p _ _ (by decide) s

theorem right_command (p : Bool) {c : Byte} (hc : isCommandByte c = true) : Right p (command c) :=
  right_check (fun _ => by rw [checkCommand, if_pos hc]; rfl) <| right_bind (right_unlock p) fun _ =>
    fun s => right_writeByte p _ _ s.params.cmdAddr.isLt s

theorem right_readSoftwareId (p : Bool) : Right p readSoftwareId :=
  right_bind (right_command p (by decide)) fun _ => right_bind (right_delay p _) fun _ =>
    right_bind (right_readByte p (by decide)) fun _ => right_bind (right_readByte p (by decide)) fun _ =>
      right_bind (right_command p (by decide)) fun _ => right_pure p _

theorem right_eraseChip (p : Bool) : Right p eraseChip :=
  right_bind (right_command p (by decide)) fun _ => right_command p (by decide)

theorem right_programByte (p : Bool) {a : Nat} (v : Byte) (cfg : ChipConfig) (ha : a < addrSpace) :
    Right p (programByte a v cfg) :=
  right_check (fun _ => checkAddr_ok ha) <| right_bind (right_command p (by decide)) fun _ =>
    right_writeByte p _ _ ha

theorem right_programRange (p : Bool) {a : Nat} {vs : List Byte} (cfg : ChipConfig) (ha : a + vs.length ≤ addrSpace) :
    Right p (programRange a vs cfg) := by
  refine right_check (fun _ => checkRange_ok ha) ?_
  induction vs generalizing a with
  | nil => exact right_pure p _
  | cons v vs ih =>
    have hl : (v :: vs).length = vs.length + 1 := rfl
    exact right_bind (right_programByte p v cfg (by omega)) fun _ => ih (by omega)

theorem right_identify (p : Bool) (table : List ChipConfig) : Right p (identify table) := by
  refine right_bind (right_readSoftwareId p) fun id => ?_
  unfold matchChip
  split
  · refine right_bind (right_of_ok fun _ => ⟨(), _, rfl, ⟨rfl, rfl, rfl, fun _ => ⟨rfl, rfl⟩⟩, rfl, rfl, rfl, [], by simp,
      quiet_nil p⟩) fun _ => right_pure p _
  · intro s
    exact ⟨⟨rfl, rfl, rfl, fun _ => ⟨rfl, rfl⟩⟩, rfl, rfl, [], by simp [markFault], quiet_nil p⟩

theorem right_pollOrCancel (op : LoopOp) (n : Nat) : Right true (pollOrCancel op n) := by
  intro s
  rw [pollOrCancel_eq]
  by_cases h : flagAtPoll s = true
  · rw [if_pos h]
    exact ⟨rfl, ⟨rfl, rfl, rfl, fun x => nomatch x⟩, rfl, rfl, h, [], by simp [polled, addEvent, h], quiet_nil _⟩
  · rw [if_neg h]
    refine ⟨⟨rfl, rfl, rfl, fun x => nomatch x⟩, rfl, rfl, ⟨[.pollCancel false], ?_, ?_⟩, 0, rfl,
      fun k hk => absurd hk (by omega)⟩
    · simp [polled, addEvent, h]
    · intro e he
      rw [List.mem_singleton.mp he]
      exact ⟨rfl, rfl⟩

theorem right_eraseWaitIteration (k : Nat) : Right true (eraseWaitIteration k) :=
  right_bind (right_pollOrCancel _ _) fun _ => right_bind (right_delay _ _) fun _ =>
    right_bind (right_readByte _ (by decide)) fun _ => right_bind (right_readByte _ (by decide)) fun _ =>
      right_pure _ _

theorem right_eraseStart : Right true eraseStart :=
  right_bind (right_eraseChip _) fun _ => right_eraseWaitIteration 0

theorem right_reportIf (p : Bool) (due : Bool) (n : Nat) : Right p (reportIf due n) := by
  unfold reportIf
  split
  · exact right_progress p n
  · exact right_pure p _

theorem right_blankBytes {offset n i : Nat} (ha : offset + i + n ≤ addrSpace) : Right true (blankBytes offset n i) := by
  induction n generalizing i with
  | zero => exact right_pure _ _
  | succ n ih =>
    refine right_bind (right_pollOrCancel _ _) fun _ => right_bind (right_readByte _ (by omega)) fun v =>
      right_bind ?_ fun _ => right_bind (right_reportIf _ _ _) fun _ => ih (by omega)
    unfold expectErased
    split
    · exact right_pure _ _
    · intro s
      exact ⟨⟨rfl, rfl, rfl, fun x => nomatch x⟩, rfl, rfl, [], by simp [markFault], quiet_nil _⟩

theorem right_writeSectors {offset : Nat} {cfg : ChipConfig} {xs : List (List Byte)} {t : Nat}
    (ha : offset + t + xs.flatten.length ≤ addrSpace) : Right true (writeSectors offset cfg xs t) := by
  induction xs generalizing t with
  | nil => exact right_pure _ _
  | cons x xs ih =>
    have hf : (x :: xs).flatten.length = x.length + xs.flatten.length := by simp
    refine right_bind (right_pollOrCancel _ _) fun _ => right_bind ?_ fun _ => right_bind (right_progress _ _) fun _ =>
      ih (by omega)
    unfold programChunk
    split
    · exact right_bind (right_programRange _ _ (by omega)) fun _ => right_delay _ _
    · exact right_pure _ _

theorem right_writeBytes {offset n : Nat} {cfg : ChipConfig} {bs : List Byte} {t : Nat}
    (ha : offset + t + bs.length ≤ addrSpace) : Right true (writeBytes offset n cfg bs t) := by
  induction bs generalizing t with
  | nil => exact right_pure _ _
  | cons b bs ih =>
    have hl : (b :: bs).length = bs.length + 1 := rfl
    refine right_bind (right_pollOrCancel _ _) fun _ => right_bind ?_ fun _ =>
      right_bind (right_reportIf _ _ _) fun _ => ih (by omega)
    unfold programUnlessErased
    split
    · exact right_pure _ _
    · exact right_bind (right_programByte _ _ _ (by omega)) fun _ => right_delay _ _

/-- The chunks of sector mode are the source (rule R175). -/
theorem chunksOf_flatten {size : Nat} (hs : 0 < size) (fuel : Nat) (src : List Byte) (hf : src.length ≤ fuel) :
    (chunksOf size fuel src).flatten = src := by
  induction fuel generalizing src with
  | zero => cases src with
    | nil => rfl
    | cons b bs => simp at hf
  | succ fuel ih =>
    cases src with
    | nil => rfl
    | cons b bs =>
      rw [chunksOf, List.flatten_cons, ih _ (by simp at hf ⊢; omega), List.take_append_drop]

/-- The bound on the number of chunks does not matter once it is the source's length or more. -/
theorem chunksOf_fuel {size : Nat} (hs : 0 < size) (f g : Nat) (src : List Byte) (hf : src.length ≤ f)
    (hg : src.length ≤ g) : chunksOf size f src = chunksOf size g src := by
  induction f generalizing g src with
  | zero =>
    cases src with
    | nil => cases g <;> rfl
    | cons b bs => simp at hf
  | succ f ih =>
    cases src with
    | nil => cases g <;> rfl
    | cons b bs =>
      cases g with
      | zero => simp at hg
      | succ g =>
        have hd : ((b :: bs).drop size).length ≤ bs.length := by simp; omega
        simp at hf hg
        rw [chunksOf, chunksOf, ih g _ (by omega) (by omega)]

/-- The chunks of a source that begins with `k` whole chunks, of which there are more. -/
theorem chunksOf_split {size : Nat} (hs : 0 < size) (k : Nat) (src : List Byte) (hk : k * size < src.length) :
    ∃ c cs, chunksOf size src.length src = chunksOf size (k * size) (src.take (k * size)) ++ c :: cs
      ∧ (chunksOf size (k * size) (src.take (k * size))).length = k := by
  induction k generalizing src with
  | zero =>
    cases src with
    | nil => simp at hk
    | cons b bs =>
      refine ⟨(b :: bs).take size, chunksOf size bs.length ((b :: bs).drop size), ?_, ?_⟩
      · rw [Nat.zero_mul, List.take_zero]
        rfl
      · rw [Nat.zero_mul]
        rfl
  | succ k ih =>
    have hmul : (k + 1) * size = k * size + size := by ring
    cases src with
    | nil => simp at hk
    | cons b bs =>
      have hl : ((b :: bs).drop size).length = (b :: bs).length - size := List.length_drop
      obtain ⟨c, cs, h1, h2⟩ := ih ((b :: bs).drop size) (by omega)
      obtain ⟨m, hm⟩ : ∃ m, (k + 1) * size = m + 1 := ⟨(k + 1) * size - 1, by omega⟩
      have ht : chunksOf size ((k + 1) * size) ((b :: bs).take ((k + 1) * size))
          = (b :: bs).take size :: chunksOf size (k * size) (((b :: bs).drop size).take (k * size)) := by
        have e : (b :: bs).take ((k + 1) * size) = b :: bs.take m := by rw [hm, List.take_succ_cons]
        rw [e, hm, chunksOf, ← e]
        congr 1
        · rw [List.take_take, Nat.min_eq_left (by omega)]
        · rw [List.drop_take, show (k + 1) * size - size = k * size by omega]
          exact chunksOf_fuel hs _ _ _ (by rw [List.length_take]; omega) (by rw [List.length_take]; omega)
      refine ⟨c, cs, ?_, ?_⟩
      · rw [ht, List.cons_append, ← h1, show (b :: bs).length = bs.length + 1 from rfl, chunksOf]
        congr 1
        exact chunksOf_fuel hs _ _ _ (by simp; omega) le_rfl
      · rw [ht, List.length_cons, h2]

/-- The operations whose bodies poll. -/
def pollsInBody : Instr → Bool
  | .eraseWait | .erase | .blankCheck _ _ | .writeImage _ _ _ | .writeImageSector _ _ _ | .writeImageByte _ _ _ => true
  | .writeAddress _ | .writeByte _ _ _ | .readByte _ | .unlock | .command _ | .cmdIdEntry | .cmdIdExit
  | .cmdEraseSetup | .cmdChipErase | .cmdProgram | .readSoftwareId | .identify _ | .eraseChip
  | .programByte _ _ _ | .programRange _ _ _ => false

theorem operandRefusal_addr {i : Instr} {a n : Nat} (h : operandRefusal i = none) (ha : addrOperand i = some (a, n)) :
    a + n ≤ addrSpace := by
  cases i <;> simp only [addrOperand, reduceCtorEq, Option.some.injEq, Prod.mk.injEq] at ha <;>
    obtain ⟨rfl, rfl⟩ := ha <;> simp only [operandRefusal, addrOperand] at h <;> by_contra hc <;>
    rw [if_neg hc] at h <;> cases h

/-- The body of an operation whose operands pass ends rightly. -/
theorem right_bodyOf {i : Instr} (h : operandRefusal i = none) : Right (pollsInBody i) (bodyOf i) := by
  have hr := fun a n => operandRefusal_addr (a := a) (n := n) h
  cases i with
  | writeAddress a => exact right_bind (right_writeAddress _ (hr _ _ rfl)) fun _ => right_pure _ _
  | writeByte a v d => exact right_bind (right_writeByte _ _ _ (hr _ _ rfl)) fun _ => right_pure _ _
  | readByte a => exact right_bind (right_readByte _ (hr _ _ rfl)) fun _ => right_pure _ _
  | unlock => exact right_bind (right_unlock _) fun _ => right_pure _ _
  | command c =>
    refine right_bind (right_command _ ?_) fun _ => right_pure _ _
    by_contra hc
    simp [operandRefusal, hc] at h
  | cmdIdEntry => exact right_bind (right_command _ (by decide)) fun _ => right_pure _ _
  | cmdIdExit => exact right_bind (right_command _ (by decide)) fun _ => right_pure _ _
  | cmdEraseSetup => exact right_bind (right_command _ (by decide)) fun _ => right_pure _ _
  | cmdChipErase => exact right_bind (right_command _ (by decide)) fun _ => right_pure _ _
  | cmdProgram => exact right_bind (right_command _ (by decide)) fun _ => right_pure _ _
  | readSoftwareId => exact right_bind (right_readSoftwareId _) fun _ => right_pure _ _
  | identify table => exact right_bind (right_identify _ _) fun _ => right_pure _ _
  | eraseChip => exact right_bind (right_eraseChip _) fun _ => right_pure _ _
  | programByte a v cfg => exact right_bind (right_programByte _ _ _ (hr _ _ rfl)) fun _ => right_pure _ _
  | programRange start bytes cfg => exact right_bind (right_programRange _ _ (hr _ _ rfl)) fun _ => right_pure _ _
  | eraseWait => exact right_eraseWaitIteration 0
  | erase => exact right_eraseStart
  | blankCheck offset size =>
    exact right_bind (right_check (fun _ => checkRange_ok (hr _ _ rfl)) (right_blankBytes (hr _ _ rfl)))
      fun _ => right_pure _ _
  | writeImage offset src cfg =>
    refine right_bind (right_check (fun _ => checkRange_ok (hr _ _ rfl)) ?_) fun _ => right_pure _ _
    unfold writeSelectedMode
    split
    · exact right_writeBytes (hr _ _ rfl)
    · exact right_writeSectors (by rw [chunksOf_flatten (by omega) _ _ le_rfl]; exact hr _ _ rfl)
  | writeImageSector offset src cfg =>
    have hs : ¬cfg.sectorSize.toNat = 0 := by
      intro h0
      simp [operandRefusal, addrOperand, hr _ _ rfl, h0] at h
    refine right_bind (right_check (fun _ => checkRange_ok (hr _ _ rfl)) (right_check (fun _ => ?_) ?_))
      fun _ => right_pure _ _
    · simp [checkRow, hs]
    · exact right_writeSectors (by rw [chunksOf_flatten (by omega) _ _ le_rfl]; exact hr _ _ rfl)
  | writeImageByte offset src cfg =>
    have hs : cfg.sectorSize.toNat = 0 := by
      by_contra h0
      simp [operandRefusal, addrOperand, hr _ _ rfl, h0] at h
    refine right_bind (right_check (fun _ => checkRange_ok (hr _ _ rfl)) (right_check (fun _ => ?_) ?_))
      fun _ => right_pure _ _
    · simp [checkRow, hs]
    · exact right_writeBytes (hr _ _ rfl)

theorem checkAddr_refused {a : Nat} (h : ¬a + 1 ≤ addrSpace) (s : State) :
    checkAddr a s = .error (.refused (.addrRange a 1)) (markRefused (.addrRange a 1) s) := by
  rw [checkAddr_eq, if_neg (by omega)]

theorem checkRange_refused {a n : Nat} (h : ¬a + n ≤ addrSpace) (s : State) :
    checkRange a n s = .error (.refused (.addrRange a n)) (markRefused (.addrRange a n) s) := by
  rw [checkRange_eq, if_neg h]

/-- The body of an operation whose operands are refused does nothing else. -/
theorem bodyOf_refused {i : Instr} {r : Refusal} (h : operandRefusal i = some r) (s : State) :
    bodyOf i s = .error (.refused r) (markRefused r s) := by
  have key : ∀ a n, addrOperand i = some (a, n) → ¬a + n ≤ addrSpace → r = .addrRange a n := by
    intro a n ha hn
    cases i <;> simp only [addrOperand, reduceCtorEq, Option.some.injEq, Prod.mk.injEq] at ha <;>
      obtain ⟨rfl, rfl⟩ := ha <;> simp only [operandRefusal, addrOperand] at h <;> rw [if_neg hn] at h <;>
      exact (Option.some.inj h).symm
  have hle : ∀ a n, addrOperand i = some (a, n) → i.mnemonic ∉ [.writeImageSector, .writeImageByte] →
      ¬a + n ≤ addrSpace := by
    intro a n ha hm hn
    cases i <;> simp only [addrOperand, reduceCtorEq, Option.some.injEq, Prod.mk.injEq] at ha <;>
      obtain ⟨rfl, rfl⟩ := ha <;> simp only [operandRefusal, addrOperand] at h <;> rw [if_pos hn] at h <;>
      first
      | cases h
      | exact absurd (by simp [Instr.mnemonic]) hm
  cases i with
  | writeAddress a =>
    have hn := hle _ _ rfl (by simp [Instr.mnemonic])
    rw [key _ _ rfl hn]
    exact bind_error (bind_error (checkAddr_refused hn s))
  | writeByte a v d =>
    have hn := hle _ _ rfl (by simp [Instr.mnemonic])
    rw [key _ _ rfl hn]
    exact bind_error (bind_error (bind_error (checkAddr_refused hn s)))
  | readByte a =>
    have hn := hle _ _ rfl (by simp [Instr.mnemonic])
    rw [key _ _ rfl hn]
    exact bind_error (bind_error (bind_error (checkAddr_refused hn s)))
  | command c =>
    simp only [operandRefusal] at h
    split at h
    · cases h
    · next hc =>
      cases h
      exact bind_error (bind_error (by rw [checkCommand, if_neg hc]; rfl))
  | programByte a v cfg =>
    have hn := hle _ _ rfl (by simp [Instr.mnemonic])
    rw [key _ _ rfl hn]
    exact bind_error (bind_error (checkAddr_refused hn s))
  | programRange start bytes cfg =>
    have hn := hle _ _ rfl (by simp [Instr.mnemonic])
    rw [key _ _ rfl hn]
    exact bind_error (bind_error (checkRange_refused hn s))
  | blankCheck offset size =>
    have hn := hle _ _ rfl (by simp [Instr.mnemonic])
    rw [key _ _ rfl hn]
    exact bind_error (bind_error (checkRange_refused hn s))
  | writeImage offset src cfg =>
    have hn := hle _ _ rfl (by simp [Instr.mnemonic])
    rw [key _ _ rfl hn]
    exact bind_error (bind_error (checkRange_refused hn s))
  | writeImageSector offset src cfg =>
    by_cases hn : offset + src.length ≤ addrSpace
    · simp only [operandRefusal, addrOperand, if_pos hn] at h
      split at h
      · next h0 =>
        cases h
        exact bind_error (seq_ok (checkRange_ok hn) (bind_error (by simp [checkRow, h0, refuse])))
      · cases h
    · rw [key _ _ rfl hn]
      exact bind_error (bind_error (checkRange_refused hn s))
  | writeImageByte offset src cfg =>
    by_cases hn : offset + src.length ≤ addrSpace
    · simp only [operandRefusal, addrOperand, if_pos hn] at h
      split at h
      · cases h
      · next h0 =>
        cases h
        exact bind_error (seq_ok (checkRange_ok hn) (bind_error (by simp [checkRow, h0, refuse])))
    · rw [key _ _ rfl hn]
      exact bind_error (bind_error (checkRange_refused hn s))
  | unlock | cmdIdEntry | cmdIdExit | cmdEraseSetup | cmdChipErase | cmdProgram | readSoftwareId | identify _
  | eraseChip | eraseWait | erase => simp [operandRefusal, addrOperand] at h

/-- The records of an operation are not those of its parts. -/
theorem admitsAll_records : AdmitsAll fun s t => t.outcomes = s.outcomes ∧ t.active = s.active where
  refl _ := ⟨rfl, rfl⟩
  trans h1 h2 := ⟨h2.1.trans h1.1, h2.2.trans h1.2⟩
  fault _ _ := ⟨rfl, rfl⟩
  refusal _ _ := ⟨rfl, rfl⟩
  lines _ _ := ⟨rfl, rfl⟩
  wrCtrl _ _ := ⟨rfl, rfl⟩
  wrData _ _ := ⟨rfl, rfl⟩
  rdStatus _ _ := ⟨rfl, rfl⟩
  failCtrl _ _ := ⟨rfl, rfl⟩
  failData _ _ := ⟨rfl, rfl⟩
  failStatus _ := ⟨rfl, rfl⟩
  delay _ _ := ⟨rfl, rfl⟩
  shift _ _ := ⟨rfl, rfl⟩
  busWrite v s := by unfold busWritten; split <;> exact ⟨rfl, rfl⟩
  busRead s := by unfold busReadState; split <;> exact ⟨rfl, rfl⟩
  poll _ := ⟨rfl, rfl⟩
  progress _ _ := ⟨rfl, rfl⟩
  identified _ _ := ⟨rfl, rfl⟩

theorem bodyOf_records (i : Instr) (s : State) :
    (endState (bodyOf i s)).outcomes = s.outcomes ∧ (endState (bodyOf i s)).active = s.active :=
  keeps_bodyOf admitsAll_records i s

/-- The events of an operation are those of its body. -/
theorem newEvents_ok {s u : State} {es : List Event} {v : Verdict} (h : u.trace = s.trace ++ es) :
    newEvents s (conclude (.ok v u)) = es := newEvents_append (by cases v <;> exact h)

theorem newEvents_error {s u : State} {es : List Event} {e : Stop} (h : u.trace = s.trace ++ es) :
    newEvents s (conclude (.error e u)) = es := newEvents_append h

theorem conclude_refused {s : State} (h : Running s) (r : Refusal) :
    conclude (.error (.refused r) (markRefused r s)) = refusedState r s := by
  simp [conclude, stopOutcome, markRefused, h.2, refusedState]

theorem exec_running {i : Instr} {s t : State} (h : exec i s = .next t) : Running s := by
  rw [exec_eq_perform] at h
  exact (perform_next h).1

/-- Everything an operation can do: it is refused at its start and has touched nothing, or its body runs and ends
rightly (rules R210, R215, R219). -/
theorem exec_cases (i : Instr) {s : State} (h : Running s) :
    (∃ r, refusalOf s i = some r ∧ exec i s = .next (refusedState r s))
    ∨ (refusalOf s i = none ∧ CanStart s ∧ ownProblem i = none ∧ operandRefusal i = none
        ∧ exec i s = .next (conclude (bodyOf i s)) ∧ Rightly (pollsInBody i) s (bodyOf i s)) := by
  rw [exec_eq_perform, perform_running h]
  unfold refusalOf
  rcases checkCall_cases (ownProblem i) s with ⟨reason, h1, e⟩ | ⟨h1, h2, e⟩ | ⟨h1, h2, e⟩
  · refine .inl ⟨_, by rw [h1], ?_⟩
    rw [bind_error e, conclude_refused h]
  · refine .inl ⟨.handleClosed, by rw [h1, h2]; rfl, ?_⟩
    rw [bind_error e, conclude_refused h]
  · rw [bind_ok e, h1, h2]
    rw [Option.or_eq_none_iff] at h1
    cases ho : operandRefusal i with
    | some r => exact .inl ⟨r, rfl, by rw [bodyOf_refused ho, conclude_refused h]⟩
    | none =>
      exact .inr ⟨rfl, ⟨h, h1.1, h2⟩, h1.2, rfl, rfl, right_bodyOf ho s⟩

end Sys2Proof.Machine
end

