-- ==== Sys2Proof/Laws/Parts.lean ====
section
/-! SUPPORT. No operation reads the outcome records or the loop position, so an operation that runs as a part of another
does what it does on its own (rule R102). -/

namespace Sys2Proof.Machine

/-- `s` with other outcome records and another loop position. -/
def withOutcomes (os : List OpOutcome) (k : Option Nat) (s : State) : State := { s with outcomes := os, active := k }

/-- A result whose state is changed. -/
def mapState {α : Type} (f : State → State) : EStateM.Result Stop State α → EStateM.Result Stop State α
  | .ok a t => .ok a (f t)
  | .error e t => .error e (f t)

/-- The operation does the same whatever the records. -/
def Indifferent {α : Type} (m : Op α) : Prop :=
  ∀ s os k, m (withOutcomes os k s) = mapState (withOutcomes os k) (m s)

theorem indifferent_pure {α : Type} (a : α) : Indifferent (pure a : Op α) := fun _ _ _ => rfl

theorem indifferent_bind {α β : Type} {m : Op α} {k : α → Op β} (hm : Indifferent m) (hk : ∀ a, Indifferent (k a)) :
    Indifferent (m >>= k) := by
  intro s os j
  have h := hm s os j
  cases hr : m s with
  | ok a t =>
    rw [hr] at h
    rw [bind_ok hr, bind_ok h]
    exact hk a t os j
  | error e t =>
    rw [hr] at h
    rw [bind_error hr, bind_error h]
    rfl

theorem indifferent_raise {α : Type} (f : Fault) : Indifferent (raise f : Op α) := fun _ _ _ => rfl

theorem indifferent_refuse {α : Type} (r : Refusal) : Indifferent (refuse r : Op α) := fun _ _ _ => rfl

theorem indifferent_portWrCtrl (b : Byte) : Indifferent (portWrCtrl b) := by
  intro s os k
  have hh : (withOutcomes os k s).handle = s.handle := rfl
  have ho : (withOutcomes os k s).oracle = s.oracle := rfl
  have hq : ∀ n, portDrawAt (withOutcomes os k s) n = portDrawAt s n := fun _ => rfl
  rcases portWrCtrl_cases b s with ⟨h, e⟩ | ⟨h, d, e⟩ | ⟨reached, h, d, e⟩
  · rw [e]
    simp only [portWrCtrl, hh, h]
    rfl
  · rw [e]
    simp only [portWrCtrl, hh, ho, hq, h, d]
    rfl
  · rw [e]
    simp only [portWrCtrl, hh, ho, hq, h, d]
    rfl

theorem indifferent_portWrData (v : Byte) : Indifferent (portWrData v) := by
  intro s os k
  have hh : (withOutcomes os k s).handle = s.handle := rfl
  have ho : (withOutcomes os k s).oracle = s.oracle := rfl
  have hq : ∀ n, portDrawAt (withOutcomes os k s) n = portDrawAt s n := fun _ => rfl
  rcases portWrData_cases v s with ⟨h, e⟩ | ⟨h, d, e⟩ | ⟨reached, h, d, e⟩
  · rw [e]
    simp only [portWrData, hh, h]
    rfl
  · rw [e]
    simp only [portWrData, hh, ho, hq, h, d]
    rfl
  · rw [e]
    simp only [portWrData, hh, ho, hq, h, d]
    rfl

theorem indifferent_portRdStatus (fixed : Option Byte) : Indifferent (portRdStatus fixed) := by
  intro s os k
  have hh : (withOutcomes os k s).handle = s.handle := rfl
  have ho : (withOutcomes os k s).oracle = s.oracle := rfl
  have hq : ∀ n, portDrawAt (withOutcomes os k s) n = portDrawAt s n := fun _ => rfl
  rcases portRdStatus_cases fixed s with ⟨h, e⟩ | ⟨h, d, e⟩ | ⟨reached, h, d, e⟩
  · rw [e]
    simp only [portRdStatus, hh, h]
    rfl
  · rw [e]
    simp only [portRdStatus, hh, ho, hq, h, d]
    cases fixed <;> rfl
  · rw [e]
    simp only [portRdStatus, hh, ho, hq, h, d]
    rfl

theorem indifferent_delay (us : Nat) : Indifferent (delay us) := fun _ _ _ => rfl

theorem indifferent_progress (n : Nat) : Indifferent (progress n) := fun _ _ _ => rfl

theorem indifferent_stepDelay : Indifferent stepDelay := fun _ _ _ => rfl

theorem indifferent_setLines (levels : List (Role × Bool)) : Indifferent (setLines levels) := fun s os k =>
  indifferent_portWrCtrl (maskCtrl s.params (setLineList s.params levels s.ctrl))
    { s with ctrl := setLineList s.params levels s.ctrl } os k

theorem indifferent_setLinesAndWait (levels : List (Role × Bool)) : Indifferent (setLinesAndWait levels) :=
  indifferent_bind (indifferent_setLines _) fun _ => indifferent_stepDelay

theorem indifferent_checkAddr (a : Nat) : Indifferent (checkAddr a) := by
  unfold checkAddr; split
  · exact indifferent_pure _
  · exact indifferent_refuse _

theorem indifferent_checkRange (a n : Nat) : Indifferent (checkRange a n) := by
  unfold checkRange; split
  · exact indifferent_pure _
  · exact indifferent_refuse _

theorem indifferent_addressSlots (a n : Nat) : Indifferent (addressSlots a n) := by
  induction n with
  | zero => exact indifferent_pure _
  | succ n ih =>
    exact indifferent_bind (indifferent_bind (indifferent_setLinesAndWait _) fun _ =>
      indifferent_bind (indifferent_setLines _) fun _ => indifferent_bind (fun _ _ _ => rfl) fun _ =>
        indifferent_bind indifferent_stepDelay fun _ => indifferent_setLinesAndWait _) fun _ => ih

theorem indifferent_writeAddress (a : Nat) : Indifferent (writeAddress a) :=
  indifferent_bind (indifferent_checkAddr a) fun _ => indifferent_addressSlots a 24

theorem indifferent_busWrite (v : Byte) : Indifferent (busWrite v) := by
  intro s os k
  rw [busWrite_eq, busWrite_eq]
  have hf : (withOutcomes os k s).fixture = s.fixture := rfl
  cases h : s.fixture <;> simp only [busWritten, hf, h] <;> rfl

theorem indifferent_busRead : Indifferent busRead := by
  intro s os k
  rw [busRead_eq, busRead_eq]
  have hf : (withOutcomes os k s).fixture = s.fixture := rfl
  cases h : s.fixture <;> simp only [busReadByte, busReadState, hf, h] <;> rfl

theorem indifferent_writeByte (a : Nat) (v : Byte) (d : Nat) : Indifferent (writeByte a v d) :=
  indifferent_bind (indifferent_writeAddress a) fun _ => indifferent_bind (indifferent_portWrData v) fun _ =>
    indifferent_bind (indifferent_setLines _) fun _ => indifferent_bind (indifferent_setLines _) fun _ =>
      indifferent_bind (indifferent_delay d) fun _ => indifferent_bind (indifferent_setLines _) fun _ =>
        indifferent_busWrite v

theorem indifferent_handshake : Indifferent handshake := fun s os k =>
  (indifferent_bind (indifferent_setLinesAndWait _) fun _ => indifferent_bind (indifferent_setLinesAndWait _) fun _ =>
    indifferent_setLinesAndWait _ : Indifferent (do
      handshakeStep s.params.hs0
      handshakeStep s.params.hs1
      handshakeStep s.params.hs2 : Op Unit)) s os k

theorem indifferent_readPulse : Indifferent readPulse :=
  indifferent_bind (indifferent_setLinesAndWait _) fun _ => indifferent_setLinesAndWait _

theorem indifferent_sampleStatus (fixed : Option Byte) (i : Nat) : Indifferent (sampleStatus fixed i) := fun s os k =>
  (indifferent_bind (indifferent_portRdStatus (fixed.map fun u => fixtureStatus s.params u i)) fun b =>
    indifferent_pure (sampleBit s.params b)) s os k

theorem indifferent_sampleAndPulse (fixed : Option Byte) (i : Nat) : Indifferent (sampleAndPulse fixed i) := by
  intro s os k
  unfold sampleAndPulse
  cases hr : s.params.readOrder with
  | sampleThenPulse =>
    rw [show (withOutcomes os k s).params.readOrder = _ from hr]
    exact (indifferent_bind (indifferent_sampleStatus fixed i) fun _ => indifferent_bind indifferent_readPulse fun _ =>
      indifferent_pure _) s os k
  | pulseThenSample =>
    rw [show (withOutcomes os k s).params.readOrder = _ from hr]
    exact (indifferent_bind indifferent_readPulse fun _ => indifferent_sampleStatus fixed i) s os k

theorem indifferent_readBits (fixed : Option Byte) (n : Nat) (acc : Byte) : Indifferent (readBits fixed n acc) := by
  induction n generalizing acc with
  | zero => exact indifferent_pure _
  | succ n ih => exact indifferent_bind (indifferent_sampleAndPulse fixed n) fun _ => ih _

theorem indifferent_readByte (a : Nat) : Indifferent (readByte a) :=
  indifferent_bind (indifferent_writeAddress a) fun _ => indifferent_bind indifferent_handshake fun _ =>
    indifferent_bind indifferent_busRead fun _ => indifferent_readBits _ _ _

theorem indifferent_commandCycle (a : Nat) (v : Byte) : Indifferent (commandCycle a v) := fun s os k =>
  indifferent_writeByte a v s.params.cmdSettleUs s os k

theorem indifferent_unlock : Indifferent unlock :=
  indifferent_bind (indifferent_commandCycle _ _) fun _ => indifferent_commandCycle _ _

theorem indifferent_command (c : Byte) : Indifferent (command c) := by
  refine indifferent_bind ?_ fun _ => indifferent_bind indifferent_unlock fun _ =>
    fun s os k => indifferent_commandCycle s.params.cmdAddr.toNat c s os k
  unfold checkCommand; split
  · exact indifferent_pure _
  · exact indifferent_refuse _

theorem indifferent_readSoftwareId : Indifferent readSoftwareId :=
  indifferent_bind (indifferent_command _) fun _ => indifferent_bind (indifferent_delay _) fun _ =>
    indifferent_bind (indifferent_readByte _) fun _ => indifferent_bind (indifferent_readByte _) fun _ =>
      indifferent_bind (indifferent_command _) fun _ => indifferent_pure _

theorem indifferent_eraseChip : Indifferent eraseChip :=
  indifferent_bind (indifferent_command _) fun _ => indifferent_command _

theorem indifferent_programByte (a : Nat) (v : Byte) (cfg : ChipConfig) : Indifferent (programByte a v cfg) :=
  indifferent_bind (indifferent_checkAddr a) fun _ => indifferent_bind (indifferent_command _) fun _ =>
    indifferent_writeByte _ _ _

theorem indifferent_pollOrCancel (op : LoopOp) (n : Nat) : Indifferent (pollOrCancel op n) := by
  intro s os k
  rw [pollOrCancel_eq, pollOrCancel_eq]
  rw [show flagAtPoll (withOutcomes os k s) = flagAtPoll s from rfl]
  split <;> rfl

theorem indifferent_eraseWaitIteration (polls : Nat) : Indifferent (eraseWaitIteration polls) :=
  indifferent_bind (indifferent_pollOrCancel _ _) fun _ => indifferent_bind (indifferent_delay _) fun _ =>
    indifferent_bind (indifferent_readByte _) fun _ => indifferent_bind (indifferent_readByte _) fun _ =>
      indifferent_pure _

theorem indifferent_done {m : Op Unit} (h : Indifferent m) : Indifferent (done m) :=
  indifferent_bind h fun _ => indifferent_pure _

theorem readLeave_withOutcomes (a : Nat) (os : List OpOutcome) (k : Option Nat) (s : State) :
    readLeave a (withOutcomes os k s) = withOutcomes os k (readLeave a s) := rfl

theorem answerAt_withOutcomes (a j : Nat) (os : List OpOutcome) (k : Option Nat) (s : State) :
    answerAt (withOutcomes os k s) a j = answerAt s a j := rfl

theorem readsLeave_withOutcomes (as : List Nat) (os : List OpOutcome) (k : Option Nat) (s : State) :
    readsLeave as (withOutcomes os k s) = withOutcomes os k (readsLeave as s) := by
  induction as generalizing s with
  | nil => rfl
  | cons a as ih => exact ih (readLeave a s)

theorem readsTrace_withOutcomes (as : List Nat) (os : List OpOutcome) (k : Option Nat) (s : State) :
    readsTrace as (withOutcomes os k s) = readsTrace as s := by
  induction as generalizing s with
  | nil => rfl
  | cons a as ih =>
    rw [readsTrace, readsTrace, readLeave_withOutcomes, ih]
    rfl

/-- How an operation ends does not depend on the loop position before it. -/
theorem conclude_mapState {r : EStateM.Result Stop State Verdict} {os : List OpOutcome} (h : (endState r).outcomes = os)
    (k : Option Nat) : conclude (mapState (withOutcomes os k) r) = conclude r := by
  rcases r with ⟨v | n, t⟩ | ⟨e, t⟩ <;> simp only [endState] at h <;> subst h <;> rfl

/-- An operation that may start, and whose operands are not refused, may start again after a part that ended well. -/
theorem canStart_after {α : Type} {p : Bool} {m : Op α} {s t : State} {a : α} (hm : Right p m)
    (hk : Keeps (fun s t => t.params = s.params) m) (h : CanStart s) (e : m s = .ok a t) (os : List OpOutcome)
    (k : Option Nat) : CanStart (withOutcomes os k t) := by
  have h1 := hm s
  have h2 := hk s
  rw [e] at h1 h2
  exact ⟨⟨h1.2.1.trans h.1.1, h1.2.2.1.trans h.1.2⟩, by show paramsProblem t.params = none; rw [show t.params = s.params from h2]; exact h.2.1,
    h1.1.handle.trans h.2.2⟩

theorem admitsAll_params : AdmitsAll fun s t => t.params = s.params where
  refl _ := rfl
  trans h1 h2 := h2.trans h1
  fault _ _ := rfl
  refusal _ _ := rfl
  lines _ _ := rfl
  wrCtrl _ _ := rfl
  wrData _ _ := rfl
  rdStatus _ _ := rfl
  failCtrl _ _ := rfl
  failData _ _ := rfl
  failStatus _ := rfl
  delay _ _ := rfl
  shift _ _ := rfl
  busWrite v s := by unfold busWritten; split <;> rfl
  busRead s := by unfold busReadState; split <;> rfl
  poll _ := rfl
  progress _ _ := rfl
  identified _ _ := rfl

/-- Two parts, of which the first gives no value: together they are one body. -/
theorem runParts_cons {i : Instr} {rest : List Instr} {m : Op Unit} {s : State} (hs : CanStart s)
    (hi : ownProblem i = none) (hb : bodyOf i = done m) (hr : rest ≠ []) :
    runParts (i :: rest) s =
      match m s with
      | .ok _ t => runParts rest (withOutcomes s.outcomes none t)
      | .error e t => .next (conclude (.error e t)) := by
  obtain ⟨j, js, rfl⟩ := List.exists_cons_of_ne_nil hr
  have he : exec i s = .next (conclude (bodyOf i s)) := by rw [exec_eq_perform, perform_ok hs hi]
  have ho := (bodyOf_records i s).1
  rw [runParts]
  · rw [he]
    rw [hb] at ho ⊢
    cases hx : m s with
    | ok a t =>
      rw [done_ok hx] at ho ⊢
      simp only [endState] at ho
      simp [conclude, ho, withOutcomes]
    | error e t =>
      rw [done_error hx] at ho ⊢
      simp only [endState] at ho
      have hne : stopOutcome e ≠ .ok .none := by cases e <;> simp [stopOutcome]
      simp [conclude, ho, hne]
  · simp

end Sys2Proof.Machine
end

