-- ==== Sys2Proof/Laws/Identify.lean ====
section
/-! SUPPORT. READ_SOFTWARE_ID and IDENTIFY when the environment lets their port accesses succeed (rules R142, R143). -/

namespace Sys2Proof.Machine

/-- The state after the ID entry command, apart from the trace. -/
def idEntered (s : State) : State := cyclesLeave s (commandSequence s.params cmdIdEntryByte)

/-- The state that READ_SOFTWARE_ID leaves, apart from the trace. -/
def idLeave (s : State) : State :=
  cyclesLeave (readLeave 1 (readLeave 0 (idEntered s))) (commandSequence s.params cmdIdExitByte)

/-- The events of READ_SOFTWARE_ID. -/
def idEvents (s : State) : List Event :=
  sentEvents s.params s.ctrl (commandSequence s.params cmdIdEntryByte) ++ .delay swidSettleUs ::
    (readTrace 0 (idEntered s) ++ readTrace 1 (readLeave 0 (idEntered s))
      ++ sentEvents s.params (readLeave 1 (readLeave 0 (idEntered s))).ctrl (commandSequence s.params cmdIdExitByte))

/-- The id that READ_SOFTWARE_ID reads. -/
def idRead (s : State) : Id16 := joinId (answerAt (idEntered s) 0 0) (answerAt (idEntered s) 1 1)

/-- The id is its two bytes, the high one first (rule R56). -/
theorem joinId_eq (hi lo : Byte) : joinId hi lo = hi ++ lo := by
  apply BitVec.eq_of_getLsbD_eq
  intro i h16
  refine Eq.trans ?_ (BitVec.getLsbD_append (x := hi) (y := lo) (i := i)).symm
  unfold joinId
  by_cases h : i < 8
  · simp [h]
    exact fun _ => h16
  · simp [h, h16, BitVec.getLsbD_of_ge lo i (by omega)]

theorem command_leave {c : Byte} {s : State} (hc : isCommandByte c = true) (h : CanSend 228 s) :
    command c s = .ok () (withRecords (s.trace ++ sentEvents s.params s.ctrl (commandSequence s.params c))
      s.oracle.pollIdx (cyclesLeave s (commandSequence s.params c))) := by
  rw [command_ok hc h, allSent_eq (addrsOk_command _ _)]

theorem idEntered_params (s : State) : (idEntered s).params = s.params := cyclesLeave_params _ _

theorem readSoftwareId_ok {s : State} (h : CanSend 654 s) :
    readSoftwareId s = .ok (idRead s) (withRecords (s.trace ++ idEvents s) s.oracle.pollIdx (idLeave s)) := by
  have hs : CanSend 426 (idEntered s) := CanSend.leave _ h
  have h0 : CanSend 327 (readLeave 0 (idEntered s)) := CanSend.read 0 hs
  have h1 : CanSend 228 (readLeave 1 (readLeave 0 (idEntered s))) := CanSend.read 1 h0
  unfold readSoftwareId
  refine seq_ok (command_leave (by decide) (h.le (by omega))) ?_
  refine seq_ok (show delay swidSettleUs _ = .ok () (withRecords
    (s.trace ++ sentEvents s.params s.ctrl (commandSequence s.params cmdIdEntryByte) ++ [.delay swidSettleUs])
    s.oracle.pollIdx (idEntered s)) by
      simp [delay, emit, addEvent, withRecords, idEntered]) ?_
  refine seq_ok (readByte_leave (by decide) ((hs.le (by omega)).records _ _)) ?_
  refine seq_ok (readByte_leave (by decide) (((h0.le (by omega)).records _ _).records _ _)) ?_
  simp only [answerAt_records, readTrace_records, readLeave_records, answerAt_readLeave, withRecords_withRecords,
    withRecords_trace, withRecords_oracle]
  refine seq_ok (command_leave (by decide) (h1.records _ _)) ?_
  simp only [cyclesLeave_records, withRecords_withRecords, withRecords_trace, withRecords_params, withRecords_ctrl,
    withRecords_oracle, readLeave_params, idEntered_params]
  unfold idRead idEvents idLeave
  simp only [List.append_assoc, List.cons_append, List.nil_append]
  rfl

theorem exec_readSoftwareId {s : State} (hs : CanStart s) (hp : PortsOk 654 s) :
    exec .readSoftwareId s = .next { idLeave s with
      trace := s.trace ++ idEvents s, outcomes := s.outcomes ++ [.ok (.id (idRead s))], active := none } := by
  have hb : bodyOf .readSoftwareId s = .ok (.done (.id (idRead s)))
      (withRecords (s.trace ++ idEvents s) s.oracle.pollIdx (idLeave s)) := by
    show (do let v ← readSoftwareId; pure (.done (.id v)) : Op Verdict) s = _
    rw [bind_ok (readSoftwareId_ok (canSend_of_canStart hs hp))]
    rfl
  have ho : (idLeave s).outcomes = s.outcomes := by simp [idLeave, cyclesLeave_outcomes, idEntered]
  have hi : (idLeave s).oracle.pollIdx = s.oracle.pollIdx := by simp [idLeave, cyclesLeave_oracle, idEntered]
  rw [exec_ok hs rfl hb]
  unfold withRecords
  simp [ho, ← hi]

end Sys2Proof.Machine
end

