-- ==== Sys2Proof/Laws/Run.lean ====
section
/-! SUPPORT. Steps of the machine one after the other. -/

namespace Sys2Proof.Machine

/-- The first of several steps. -/
theorem runSteps_succ {s t : State} (h : step s = .next t) (n : Nat) : runSteps (n + 1) s = runSteps n t := by
  rw [runSteps, h]

/-- A loop in progress goes on. -/
theorem step_active {s : State} {k : Nat} (h : Running s) (ha : s.active = some k) :
    step s = .next (conclude (eraseWaitIteration k s)) := by
  simp [step, ha, resumeEraseWait, ifRunning_running h]

/-- The host's next call runs, if the host may call it. -/
theorem step_call {s : State} {c : Call} {rest : List Call} {i : Instr} (ha : s.active = none)
    (hc : s.calls = c :: rest) (hd : decode c = .ok i) (hm : mayCall s i = true) :
    step s = exec i { s with calls := rest } := by
  simp [step, ha, fetchCall, hc, hd, hm]

/-- A call that the host may not make is refused by name. -/
theorem step_internal {s : State} {c : Call} {rest : List Call} {i : Instr} (ha : s.active = none)
    (hc : s.calls = c :: rest) (hd : decode c = .ok i) (hm : mayCall s i = false) (hr : Running s) :
    step s = .refused (.internalOperation i.mnemonic) := by
  simp [step, ha, fetchCall, hc, hd, hm, ifRunning_running hr]

/-- Everything a step can do that ends in a next state. -/
theorem step_eq_next {s t : State} (h : step s = .next t) :
    Running s ∧ ((∃ k, s.active = some k ∧ t = conclude (eraseWaitIteration k s))
      ∨ (s.active = none ∧ s.calls = [] ∧ t = s)
      ∨ ∃ c rest i, s.active = none ∧ s.calls = c :: rest ∧ decode c = .ok i ∧ mayCall s i = true
          ∧ exec i { s with calls := rest } = .next t) := by
  have hi : ∀ {k}, ifRunning s k = .next t → Running s ∧ k = .next t := by
    intro k hk
    unfold ifRunning at hk
    split at hk
    · cases hk
    · next hf =>
      split at hk
      · cases hk
      · next hr => exact ⟨⟨hf, hr⟩, hk⟩
  unfold step at h
  split at h
  · next k ha =>
    obtain ⟨hr, h⟩ := hi h
    cases h
    exact ⟨hr, .inl ⟨k, ha, rfl⟩⟩
  next ha =>
  unfold fetchCall at h
  cases hc : s.calls with
  | nil =>
    rw [hc] at h
    obtain ⟨hr, h⟩ := hi h
    cases h
    exact ⟨hr, .inr (.inl ⟨ha, rfl, rfl⟩)⟩
  | cons c rest =>
    rw [hc] at h
    cases hd : decode c with
    | error e =>
      simp only [hd] at h
      cases (hi h).2
    | ok i =>
      simp only [hd] at h
      split at h
      · next hm =>
        have hr := exec_running h
        exact ⟨hr, .inr (.inr ⟨c, rest, i, ha, rfl, hd, hm, h⟩)⟩
      · cases (hi h).2

/-- An operation or a later iteration of a loop, and nothing else, advances the machine. -/
theorem advances_cases {s t : State} (h : Advances s t) :
    Running s ∧ ((∃ i, exec i s = .next t) ∨ ∃ k, s.active = some k ∧ t = conclude (eraseWaitIteration k s)) := by
  rcases h with ⟨i, he⟩ | ⟨ha, hs⟩
  · exact ⟨exec_running he, .inl ⟨i, he⟩⟩
  · obtain ⟨hr, x | ⟨hn, -⟩ | ⟨c, rest, i, hn, -⟩⟩ := step_eq_next hs
    · exact ⟨hr, .inr x⟩
    · exact absurd hn ha
    · exact absurd hn ha

end Sys2Proof.Machine
end

