-- ==== Sys2Proof/Laws/Lines.lean ====
section
/-! SUPPORT. What every operation keeps: the shadows follow the registers and SCK is low between operations (rules R25, R29,
R116 to R118), and the target's memory keeps its canonical form (rule R70). -/

namespace Sys2Proof.Machine

/-- The registers hold what the shadows say, the roles are valid and the handle is open. -/
structure Sound (s : State) : Prop where
  opened : s.handle = .opened
  roles : rolesOk s.params = true
  lines : s.physCtrl = maskCtrl s.params s.ctrl
  bytes : s.physData = s.data

/-- And SCK is low. -/
structure Resting (s : State) : Prop extends Sound s where
  low : getLine s.params .sck s.ctrl = false

/-- From `P`, a part that ends well leaves `Q`; a poll that ends it leaves the lines at rest; it is not refused. -/
def Leads {α : Type} (P Q : State → Prop) (m : Op α) : Prop :=
  ∀ s, P s → match m s with
    | .ok _ t => Q t
    | .error (.cancelled _ _) t => Resting t
    | .error (.fault _) _ => True
    | .error (.refused _) _ => False

theorem leads_bind {α β : Type} {P Q R : State → Prop} {m : Op α} {k : α → Op β} (hm : Leads P Q m)
    (hk : ∀ a, Leads Q R (k a)) : Leads P R (m >>= k) := by
  intro s hs
  have h1 := hm s hs
  cases hr : m s with
  | ok a t =>
    rw [hr] at h1
    rw [bind_ok hr]
    exact hk a t h1
  | error e t =>
    rw [hr] at h1
    rw [bind_error hr]
    cases e <;> exact h1

theorem leads_pure {α : Type} {P : State → Prop} (a : α) : Leads P P (pure a : Op α) := fun _ h => h

theorem leads_of_ok {α : Type} {P Q : State → Prop} {m : Op α} (h : ∀ s, P s → ∃ a t, m s = .ok a t ∧ Q t) :
    Leads P Q m := by
  intro s hs
  obtain ⟨a, t, e, q⟩ := h s hs
  rw [e]
  exact q

theorem leads_check {α : Type} {P Q : State → Prop} {m : Op Unit} {k : Unit → Op α} (h : ∀ s, m s = .ok () s)
    (hk : Leads P Q (k ())) : Leads P Q (m >>= k) := by
  intro s hs
  rw [bind_ok (h s)]
  exact hk s hs

/-- SetLines leaves the lines at the levels it is given. -/
theorem leads_setLines {P Q : State → Prop} {levels : List (Role × Bool)} (hP : ∀ s, P s → Sound s)
    (hQ : ∀ s t : State, P s → Sound t → t.params = s.params → t.ctrl = setLineList s.params levels s.ctrl → Q t) :
    Leads P Q (setLines levels) := by
  intro s hs
  have h := hP s hs
  unfold setLines
  rcases portWrCtrl_cases (maskCtrl s.params (setLineList s.params levels s.ctrl))
    { s with ctrl := setLineList s.params levels s.ctrl } with ⟨hc, e⟩ | ⟨-, hd, e⟩ | ⟨reached, -, hd, e⟩
  · have := h.opened.symm.trans hc
    cases this
  · rw [e]
    exact hQ s _ hs ⟨h.opened, h.roles, rfl, h.bytes⟩ rfl rfl
  · rw [e]
    trivial

theorem leads_stepDelay {P : State → Prop} (hP : ∀ (e : Event) s, P s → P (addEvent e s)) : Leads P P stepDelay :=
  leads_of_ok fun _ hs => ⟨(), _, rfl, hP _ _ hs⟩

theorem sound_addEvent (e : Event) {s : State} (h : Sound s) : Sound (addEvent e s) := ⟨h.opened, h.roles, h.lines, h.bytes⟩

theorem resting_addEvent (e : Event) {s : State} (h : Resting s) : Resting (addEvent e s) :=
  ⟨sound_addEvent e h.toSound, h.low⟩

theorem leads_sound_setLines (levels : List (Role × Bool)) : Leads Sound Sound (setLines levels) :=
  leads_setLines (fun _ h => h) fun _ _ _ ht _ _ => ht

/-- Driving SCK low last brings the lines to rest. -/
theorem leads_low_setLines : Leads Sound Resting (setLines [(.sck, false)]) :=
  leads_setLines (fun _ h => h) fun s t _ ht hp hc =>
    ⟨ht, by rw [hp, hc]; exact getLine_setLine_same s.params .sck false s.ctrl⟩

/-- Driving lines other than SCK leaves it low. -/
theorem leads_rest_setLines {levels : List (Role × Bool)} (h : ∀ l ∈ levels, l.1 ∈ [Role.pgm, .wr, .hsa, .hsb]) :
    Leads Resting Resting (setLines levels) :=
  leads_setLines (fun _ h => h.toSound) fun s t hs ht hp hc => by
    refine ⟨ht, ?_⟩
    rw [hp, hc]
    obtain ⟨-, -, -, -, -, h1, h2, h3, h4, -, -⟩ := rolesOk_distinct hs.roles
    have hl := hs.low
    generalize s.ctrl = c at hl
    clear hc
    induction levels generalizing c with
    | nil => exact hl
    | cons l ls ih =>
      refine ih (fun x hx => h x (by simp [hx])) (setLine s.params l.1 l.2 c) ?_
      rw [getLine_setLine, if_neg, hl]
      have := h l (by simp)
      simp at this
      rcases this with e | e | e | e <;> rw [e] <;> assumption

theorem leads_rest_wait {levels : List (Role × Bool)} (h : ∀ l ∈ levels, l.1 ∈ [Role.pgm, .wr, .hsa, .hsb]) :
    Leads Resting Resting (setLinesAndWait levels) :=
  leads_bind (leads_rest_setLines h) fun _ => leads_stepDelay fun e _ hs => resting_addEvent e hs

theorem leads_sound_wait (levels : List (Role × Bool)) : Leads Sound Sound (setLinesAndWait levels) :=
  leads_bind (leads_sound_setLines _) fun _ => leads_stepDelay fun e _ hs => sound_addEvent e hs

theorem leads_low_wait : Leads Sound Resting (setLinesAndWait [(.sck, false)]) :=
  leads_bind leads_low_setLines fun _ => leads_stepDelay fun e _ hs => resting_addEvent e hs

theorem leads_weaken {α : Type} {Q : State → Prop} {m : Op α} (h : Leads Sound Q m) : Leads Resting Q m :=
  fun s hs => h s hs.toSound

theorem leads_addressSlots (a n : Nat) : Leads Resting Resting (addressSlots a n) := by
  induction n with
  | zero => exact leads_pure _
  | succ n ih =>
    exact leads_bind (leads_weaken (leads_bind (leads_sound_wait _) fun _ => leads_bind (leads_sound_setLines _) fun _ =>
      leads_bind (leads_of_ok fun s h => ⟨(), _, rfl, Sound.mk h.opened h.roles h.lines h.bytes⟩) fun _ =>
        leads_bind (leads_stepDelay fun e _ hs => sound_addEvent e hs) fun _ => leads_low_wait)) fun _ => ih

theorem leads_writeAddress {a : Nat} (ha : a < addrSpace) : Leads Resting Resting (writeAddress a) :=
  leads_check (fun _ => checkAddr_ok ha) (leads_addressSlots a 24)

theorem leads_portWrData (v : Byte) : Leads Resting Resting (portWrData v) := by
  intro s h
  rcases portWrData_cases v s with ⟨hc, e⟩ | ⟨-, hd, e⟩ | ⟨reached, -, hd, e⟩
  · have := h.opened.symm.trans hc
    cases this
  · rw [e]
    exact ⟨⟨h.opened, h.roles, h.lines, rfl⟩, h.low⟩
  · rw [e]
    trivial

theorem leads_portRdStatus (fixed : Option Byte) : Leads Resting Resting (portRdStatus fixed) := by
  intro s h
  rcases portRdStatus_cases fixed s with ⟨hc, e⟩ | ⟨-, hd, e⟩ | ⟨reached, -, hd, e⟩
  · have := h.opened.symm.trans hc
    cases this
  · rw [e]
    exact ⟨⟨h.opened, h.roles, h.lines, h.bytes⟩, h.low⟩
  · rw [e]
    trivial

theorem leads_delay (us : Nat) : Leads Resting Resting (delay us) :=
  leads_of_ok fun _ h => ⟨(), _, rfl, resting_addEvent _ h⟩

theorem leads_progress (n : Nat) : Leads Resting Resting (progress n) :=
  leads_of_ok fun _ h => ⟨(), _, rfl, resting_addEvent _ h⟩

theorem leads_busWrite (v : Byte) : Leads Resting Resting (busWrite v) :=
  leads_of_ok fun s h => ⟨(), _, busWrite_eq v s, by
    unfold busWritten
    split <;> exact ⟨⟨h.opened, h.roles, h.lines, h.bytes⟩, h.low⟩⟩

theorem leads_busRead : Leads Resting Resting busRead :=
  leads_of_ok fun s h => ⟨_, _, busRead_eq s, by
    unfold busReadState
    split <;> exact ⟨⟨h.opened, h.roles, h.lines, h.bytes⟩, h.low⟩⟩

theorem leads_writeByte {a : Nat} (v : Byte) (d : Nat) (ha : a < addrSpace) : Leads Resting Resting (writeByte a v d) :=
  leads_bind (leads_writeAddress ha) fun _ => leads_bind (leads_portWrData v) fun _ =>
    leads_bind (leads_rest_setLines (by simp)) fun _ => leads_bind (leads_rest_setLines (by simp)) fun _ =>
      leads_bind (leads_delay d) fun _ => leads_bind (leads_rest_setLines (by simp)) fun _ => leads_busWrite v

theorem leads_handshake : Leads Resting Resting handshake := fun s hs =>
  (leads_bind (leads_rest_wait (by simp)) fun _ => leads_bind (leads_rest_wait (by simp)) fun _ =>
    leads_rest_wait (by simp) : Leads Resting Resting (do
      handshakeStep s.params.hs0
      handshakeStep s.params.hs1
      handshakeStep s.params.hs2 : Op Unit)) s hs

theorem leads_readPulse : Leads Resting Resting readPulse :=
  leads_weaken (leads_bind (leads_sound_wait _) fun _ => leads_low_wait)

theorem leads_sampleStatus (fixed : Option Byte) (i : Nat) : Leads Resting Resting (sampleStatus fixed i) := fun s hs =>
  (leads_bind (leads_portRdStatus (fixed.map fun u => fixtureStatus s.params u i)) fun b =>
    leads_pure (sampleBit s.params b)) s hs

theorem leads_readBits (fixed : Option Byte) (n : Nat) (acc : Byte) : Leads Resting Resting (readBits fixed n acc) := by
  induction n generalizing acc with
  | zero => exact leads_pure _
  | succ n ih =>
    refine leads_bind (fun s hs => ?_) fun _ => ih _
    unfold sampleAndPulse
    cases hr : s.params.readOrder with
    | sampleThenPulse =>
      exact (leads_bind (leads_sampleStatus fixed n) fun _ => leads_bind leads_readPulse fun _ => leads_pure _) s hs
    | pulseThenSample => exact (leads_bind leads_readPulse fun _ => leads_sampleStatus fixed n) s hs

theorem leads_readByte {a : Nat} (ha : a < addrSpace) : Leads Resting Resting (readByte a) :=
  leads_bind (leads_writeAddress ha) fun _ => leads_bind leads_handshake fun _ => leads_bind leads_busRead fun _ =>
    leads_readBits _ _ _

theorem leads_unlock : Leads Resting Resting unlock :=
  leads_bind (fun s hs => leads_writeByte _ _ (by decide) s hs) fun _ =>
    fun s hs => leads_writeByte _ _ (by decide) s hs

theorem leads_command {c : Byte} (hc : isCommandByte c = true) : Leads Resting Resting (command c) :=
  leads_check (fun _ => by rw [checkCommand, if_pos hc]; rfl) <| leads_bind leads_unlock fun _ =>
    fun s hs => leads_writeByte _ _ s.params.cmdAddr.isLt s hs

theorem leads_readSoftwareId : Leads Resting Resting readSoftwareId :=
  leads_bind (leads_command (by decide)) fun _ => leads_bind (leads_delay _) fun _ =>
    leads_bind (leads_readByte (by decide)) fun _ => leads_bind (leads_readByte (by decide)) fun _ =>
      leads_bind (leads_command (by decide)) fun _ => leads_pure _

theorem leads_eraseChip : Leads Resting Resting eraseChip :=
  leads_bind (leads_command (by decide)) fun _ => leads_command (by decide)

theorem leads_programByte {a : Nat} (v : Byte) (cfg : ChipConfig) (ha : a < addrSpace) :
    Leads Resting Resting (programByte a v cfg) :=
  leads_check (fun _ => checkAddr_ok ha) <| leads_bind (leads_command (by decide)) fun _ => leads_writeByte _ _ ha

theorem leads_programRange {a : Nat} {vs : List Byte} (cfg : ChipConfig) (ha : a + vs.length ≤ addrSpace) :
    Leads Resting Resting (programRange a vs cfg) := by
  refine leads_check (fun _ => checkRange_ok ha) ?_
  induction vs generalizing a with
  | nil => exact leads_pure _
  | cons v vs ih =>
    have hl : (v :: vs).length = vs.length + 1 := rfl
    exact leads_bind (leads_programByte v cfg (by omega)) fun _ => ih (by omega)

theorem leads_identify (table : List ChipConfig) : Leads Resting Resting (identify table) := by
  refine leads_bind leads_readSoftwareId fun id => ?_
  unfold matchChip
  split
  · exact leads_bind (leads_of_ok fun s h => ⟨(), _, rfl,
      Resting.mk (Sound.mk h.opened h.roles h.lines h.bytes) h.low⟩) fun _ => leads_pure _
  · exact fun _ _ => trivial

theorem leads_pollOrCancel (op : LoopOp) (n : Nat) : Leads Resting Resting (pollOrCancel op n) := by
  intro s h
  have : Resting (polled s) := ⟨⟨h.opened, h.roles, h.lines, h.bytes⟩, h.low⟩
  rw [pollOrCancel_eq]
  by_cases hf : flagAtPoll s = true
  · rw [if_pos hf]
    exact this
  · rw [if_neg hf]
    exact this

theorem leads_eraseWaitIteration (k : Nat) : Leads Resting Resting (eraseWaitIteration k) :=
  leads_bind (leads_pollOrCancel _ _) fun _ => leads_bind (leads_delay _) fun _ =>
    leads_bind (leads_readByte (by decide)) fun _ => leads_bind (leads_readByte (by decide)) fun _ => leads_pure _

theorem leads_reportIf (due : Bool) (n : Nat) : Leads Resting Resting (reportIf due n) := by
  unfold reportIf
  split
  · exact leads_progress n
  · exact leads_pure _

theorem leads_blankBytes {offset n i : Nat} (ha : offset + i + n ≤ addrSpace) :
    Leads Resting Resting (blankBytes offset n i) := by
  induction n generalizing i with
  | zero => exact leads_pure _
  | succ n ih =>
    refine leads_bind (leads_pollOrCancel _ _) fun _ => leads_bind (leads_readByte (by omega)) fun v =>
      leads_bind ?_ fun _ => leads_bind (leads_reportIf _ _) fun _ => ih (by omega)
    unfold expectErased
    split
    · exact leads_pure _
    · exact fun _ _ => trivial

theorem leads_writeSectors {offset : Nat} {cfg : ChipConfig} {xs : List (List Byte)} {t : Nat}
    (ha : offset + t + xs.flatten.length ≤ addrSpace) : Leads Resting Resting (writeSectors offset cfg xs t) := by
  induction xs generalizing t with
  | nil => exact leads_pure _
  | cons x xs ih =>
    have hf : (x :: xs).flatten.length = x.length + xs.flatten.length := by simp
    refine leads_bind (leads_pollOrCancel _ _) fun _ => leads_bind ?_ fun _ => leads_bind (leads_progress _) fun _ =>
      ih (by omega)
    unfold programChunk
    split
    · exact leads_bind (leads_programRange _ (by omega)) fun _ => leads_delay _
    · exact leads_pure _

theorem leads_writeBytes {offset n : Nat} {cfg : ChipConfig} {bs : List Byte} {t : Nat}
    (ha : offset + t + bs.length ≤ addrSpace) : Leads Resting Resting (writeBytes offset n cfg bs t) := by
  induction bs generalizing t with
  | nil => exact leads_pure _
  | cons b bs ih =>
    have hl : (b :: bs).length = bs.length + 1 := rfl
    refine leads_bind (leads_pollOrCancel _ _) fun _ => leads_bind ?_ fun _ =>
      leads_bind (leads_reportIf _ _) fun _ => ih (by omega)
    unfold programUnlessErased
    split
    · exact leads_pure _
    · exact leads_bind (leads_programByte _ _ (by omega)) fun _ => leads_delay _

/-- Every operation whose operands pass leaves the lines at rest, unless it takes a fault. -/
theorem leads_bodyOf {i : Instr} (h : operandRefusal i = none) : Leads Resting Resting (bodyOf i) := by
  have hr := fun a n => operandRefusal_addr (a := a) (n := n) h
  cases i with
  | writeAddress a => exact leads_bind (leads_writeAddress (hr _ _ rfl)) fun _ => leads_pure _
  | writeByte a v d => exact leads_bind (leads_writeByte _ _ (hr _ _ rfl)) fun _ => leads_pure _
  | readByte a => exact leads_bind (leads_readByte (hr _ _ rfl)) fun _ => leads_pure _
  | unlock => exact leads_bind leads_unlock fun _ => leads_pure _
  | command c =>
    refine leads_bind (leads_command ?_) fun _ => leads_pure _
    by_contra hc
    simp [operandRefusal, hc] at h
  | cmdIdEntry => exact leads_bind (leads_command (by decide)) fun _ => leads_pure _
  | cmdIdExit => exact leads_bind (leads_command (by decide)) fun _ => leads_pure _
  | cmdEraseSetup => exact leads_bind (leads_command (by decide)) fun _ => leads_pure _
  | cmdChipErase => exact leads_bind (leads_command (by decide)) fun _ => leads_pure _
  | cmdProgram => exact leads_bind (leads_command (by decide)) fun _ => leads_pure _
  | readSoftwareId => exact leads_bind leads_readSoftwareId fun _ => leads_pure _
  | identify table => exact leads_bind (leads_identify _) fun _ => leads_pure _
  | eraseChip => exact leads_bind leads_eraseChip fun _ => leads_pure _
  | programByte a v cfg => exact leads_bind (leads_programByte _ _ (hr _ _ rfl)) fun _ => leads_pure _
  | programRange start bytes cfg => exact leads_bind (leads_programRange _ (hr _ _ rfl)) fun _ => leads_pure _
  | eraseWait => exact leads_eraseWaitIteration 0
  | erase => exact leads_bind leads_eraseChip fun _ => leads_eraseWaitIteration 0
  | blankCheck offset size =>
    exact leads_bind (leads_check (fun _ => checkRange_ok (hr _ _ rfl)) (leads_blankBytes (hr _ _ rfl)))
      fun _ => leads_pure _
  | writeImage offset src cfg =>
    refine leads_bind (leads_check (fun _ => checkRange_ok (hr _ _ rfl)) ?_) fun _ => leads_pure _
    unfold writeSelectedMode
    split
    · exact leads_writeBytes (hr _ _ rfl)
    · exact leads_writeSectors (by rw [chunksOf_flatten (by omega) _ _ le_rfl]; exact hr _ _ rfl)
  | writeImageSector offset src cfg =>
    have hs : ¬cfg.sectorSize.toNat = 0 := by
      intro h0
      simp [operandRefusal, addrOperand, hr _ _ rfl, h0] at h
    refine leads_bind (leads_check (fun _ => checkRange_ok (hr _ _ rfl)) (leads_check (fun _ => ?_) ?_))
      fun _ => leads_pure _
    · simp [checkRow, hs]
    · exact leads_writeSectors (by rw [chunksOf_flatten (by omega) _ _ le_rfl]; exact hr _ _ rfl)
  | writeImageByte offset src cfg =>
    have hs : cfg.sectorSize.toNat = 0 := by
      by_contra h0
      simp [operandRefusal, addrOperand, hr _ _ rfl, h0] at h
    refine leads_bind (leads_check (fun _ => checkRange_ok (hr _ _ rfl)) (leads_check (fun _ => ?_) ?_))
      fun _ => leads_pure _
    · simp [checkRow, hs]
    · exact leads_writeBytes (hr _ _ rfl)

/-- The JEDEC fixture's memory keeps its canonical form. -/
theorem wf_jedecWrite {m : List Host.Cell} {a : Nat} (chip : JedecChip) (v : Byte) (h : Memory.wf m = true)
    (ha : a < addrSpace) : Memory.wf (jedecWrite m chip a v).1 = true := by
  unfold jedecWrite
  split
  · exact h
  split
  · exact wf_memWrite v h ha
  simp only
  split
  · exact h
  split
  · exact h
  split
  · exact h
  split
  · exact h
  split
  · exact wf_memErased
  · exact h

/-- The memory's canonical form, and the bits of the control byte that no role names (rule R26). -/
theorem admitsAll_memWf : AdmitsAll fun s t =>
    t.params = s.params ∧ (Memory.wf s.mem = true → Memory.wf t.mem = true)
      ∧ ∀ j : Fin 8, j ∉ roleBitList s.params → t.ctrl.getLsbD j = s.ctrl.getLsbD j where
  refl _ := ⟨rfl, id, fun _ _ => rfl⟩
  trans h1 h2 := ⟨h2.1.trans h1.1, fun h => h2.2.1 (h1.2.1 h), fun j hj =>
    (h2.2.2 j (by rw [h1.1]; exact hj)).trans (h1.2.2 j hj)⟩
  fault _ _ := ⟨rfl, id, fun _ _ => rfl⟩
  refusal _ _ := ⟨rfl, id, fun _ _ => rfl⟩
  lines levels s := by
    refine ⟨rfl, id, fun j hj => ?_⟩
    have : ∀ (ls : List (Role × Bool)) (c : Byte), (setLineList s.params ls c).getLsbD j = c.getLsbD j := by
      intro ls
      induction ls with
      | nil => intro c; rfl
      | cons l ls ih =>
        intro c
        have hne : ¬(j : Nat) = (lineBit s.params l.1 : Nat) := fun h => hj (by
          rw [Fin.ext h]
          cases l.1 <;> simp [roleBitList, lineBit])
        exact (ih (setLine s.params l.1 l.2 c)).trans (by rw [setLine_getLsbD, if_neg hne])
    exact this _ _
  wrCtrl _ _ := ⟨rfl, id, fun _ _ => rfl⟩
  wrData _ _ := ⟨rfl, id, fun _ _ => rfl⟩
  rdStatus _ _ := ⟨rfl, id, fun _ _ => rfl⟩
  failCtrl _ _ := ⟨rfl, id, fun _ _ => rfl⟩
  failData _ _ := ⟨rfl, id, fun _ _ => rfl⟩
  failStatus _ := ⟨rfl, id, fun _ _ => rfl⟩
  delay _ _ := ⟨rfl, id, fun _ _ => rfl⟩
  shift _ _ := ⟨rfl, id, fun _ _ => rfl⟩
  busWrite v s := by
    unfold busWritten
    split
    · exact ⟨rfl, id, fun _ _ => rfl⟩
    · exact ⟨rfl, fun h => wf_memWrite v h s.frameReg.isLt, fun _ _ => rfl⟩
    · exact ⟨rfl, fun h => wf_jedecWrite _ v h s.frameReg.isLt, fun _ _ => rfl⟩
  busRead s := by unfold busReadState; split <;> exact ⟨rfl, id, fun _ _ => rfl⟩
  poll _ := ⟨rfl, id, fun _ _ => rfl⟩
  progress _ _ := ⟨rfl, id, fun _ _ => rfl⟩
  identified _ _ := ⟨rfl, id, fun _ _ => rfl⟩

end Sys2Proof.Machine
end

