-- ==== Sys2Proof/Laws/Fixture.lean ====
section
/-! SUPPORT. What the command sequences do to the JEDEC fixture (rule R71). -/

namespace Sys2Proof.Machine

theorem kept_unlock1 : isKeptPrefix [(0x5555, 0xAA#8)] = true := by decide +kernel
theorem kept_unlock2 : isKeptPrefix [(0x5555, 0xAA#8), (0x2AAA, 0x55#8)] = true := by decide +kernel
theorem kept_setup : isKeptPrefix [(0x5555, 0xAA#8), (0x2AAA, 0x55#8), (0x5555, 0x80#8)] = true := by decide +kernel
theorem kept_setup1 :
    isKeptPrefix [(0x5555, 0xAA#8), (0x2AAA, 0x55#8), (0x5555, 0x80#8), (0x5555, 0xAA#8)] = true := by decide +kernel
theorem kept_setup2 :
    isKeptPrefix [(0x5555, 0xAA#8), (0x2AAA, 0x55#8), (0x5555, 0x80#8), (0x5555, 0xAA#8), (0x2AAA, 0x55#8)] = true := by
  decide +kernel
theorem kept_erase : isKeptPrefix fixtureErase = false := by decide +kernel

theorem fixtureErase_eq : fixtureErase =
    [(0x5555, 0xAA#8), (0x2AAA, 0x55#8), (0x5555, 0x80#8), (0x5555, 0xAA#8), (0x2AAA, 0x55#8), (0x5555, 0x10#8)] := by
  decide +kernel

/-- The erase sequence makes the chip busy and its memory erased. -/
theorem erase_target (chip : JedecChip) (m : List Host.Cell) (hq : chip.seq = []) (ha : chip.armed = false)
    (hb : chip.busy = 0) : (eraseCycles 0x5555).foldl targetWrite (m, .jedec chip)
      = (memErased, .jedec { chip with busy := chip.eraseBusyLoads }) := by
  obtain ⟨mode, seq, armed, busy, loads, mfr, dev⟩ := chip
  simp only at hq ha hb
  subst hq ha hb
  have k := kept_erase
  rw [fixtureErase_eq] at k
  rw [show eraseCycles 0x5555 = fixtureErase from rfl, fixtureErase_eq]
  simp only [List.foldl_cons, List.foldl_nil, targetWrite, jedecWrite, Nat.lt_irrefl, gt_iff_lt, if_false,
    Bool.false_eq_true, List.nil_append, List.cons_append, kept_unlock1, kept_unlock2, kept_setup, kept_setup1,
    kept_setup2, k, if_true, fixtureErase_eq]
  rfl

/-- The memory and the fixture after bus cycles. -/
theorem cyclesLeave_target (s : State) (cs : List TimedCycle) :
    ((cyclesLeave s cs).mem, (cyclesLeave s cs).fixture) = (cs.map Prod.fst).foldl targetWrite (s.mem, s.fixture) := by
  unfold cyclesLeave
  cases h : cs.getLast? with
  | none =>
    rw [List.getLast?_eq_none_iff] at h
    subst h
    rfl
  | some x => rfl

theorem cyclesLeave_running (s : State) (cs : List TimedCycle) :
    (cyclesLeave s cs).faulted = s.faulted ∧ (cyclesLeave s cs).refused = s.refused
      ∧ (cyclesLeave s cs).handle = s.handle := by
  unfold cyclesLeave
  cases cs.getLast? <;> exact ⟨rfl, rfl, rfl⟩

/-- A command's cycles at the decided address. -/
theorem commandSequence_cycles {p : Params} (h : p.cmdAddr = decidedCmdAddr) (c : Byte) :
    (commandSequence p c).map Prod.fst = [(0x5555, 0xAA#8), (0x2AAA, 0x55#8), (0x5555, c)] := by
  simp [commandSequence, timed, jedec3Cycles, unlockCycles, unlockAddr1, unlockAddr2, unlockData1, unlockData2, h,
    decidedCmdAddr]

end Sys2Proof.Machine
end

