-- ==== Sys2Proof/Laws/Marks.lean ====
section
/-! SUPPORT. What an observer notes of the transport operations and of the loops, in order: bus cycles with their windows
and sleeps, samples, polls and reports. -/

namespace Sys2Proof.Machine

/-- What the observer remembers after a list of events. -/
def observeAll (p : Params) (o : Observer) (es : List Event) : Observer := es.foldl (observe p) o

theorem observeAll_view (p : Params) (o : Observer) (es : List Event) :
    (observeAll p o es).view = viewAll p o.view es := by
  induction es generalizing o with
  | nil => rfl
  | cons e es ih => exact ih (observe p o e)

theorem observeAll_append (p : Params) (o : Observer) (xs ys : List Event) :
    observeAll p o (xs ++ ys) = observeAll p (observeAll p o xs) ys := List.foldl_append

theorem marksOf_append (p : Params) (o : Observer) (xs ys : List Event) :
    marksOf p o (xs ++ ys) = marksOf p o xs ++ marksOf p (observeAll p o xs) ys := by
  induction xs generalizing o with
  | nil => rfl
  | cons e es ih => simp [marksOf, ih, observeAll, List.append_assoc]

/-- No bus cycle is in progress that a control write would carry on. -/
def BetweenCycles (o : Observer) : Prop := o.phase = 0 ∨ o.phase = 5

/-- Control writes and delays outside of a bus cycle show nothing. -/
theorem marksOf_line (p : Params) {es : List Event} (h : ∀ e ∈ es, isLineEvent e = true) {o : Observer}
    (ho : o.phase = 0) : marksOf p o es = [] ∧ (observeAll p o es).phase = 0 := by
  induction es generalizing o with
  | nil => exact ⟨rfl, ho⟩
  | cons e es ih =>
    have hp : (observe p o e).phase = 0 ∧ markOf o e = [] := by
      have := h e (by simp)
      cases e <;> simp_all [isLineEvent, observe, phaseAfter, markOf]
    obtain ⟨h1, h2⟩ := ih (fun x hx => h x (by simp [hx])) hp.1
    exact ⟨by rw [marksOf, hp.2, h1]; rfl, h2⟩

/-- Lines driven after a control write show nothing, even right after a bus cycle. -/
theorem marksOf_driven (p : Params) (b : Byte) {es : List Event} (h : ∀ e ∈ es, isLineEvent e = true) {o : Observer}
    (ho : BetweenCycles o) :
    marksOf p o (.wrCtrl b :: es) = [] ∧ (observeAll p o (.wrCtrl b :: es)).phase = 0 := by
  have hp : (observe p o (.wrCtrl b)).phase = 0 := by
    rcases ho with ho | ho <;> simp [observe, phaseAfter, ho]
  obtain ⟨h1, h2⟩ := marksOf_line p h hp
  exact ⟨by rw [marksOf, h1]; rfl, h2⟩

theorem frameEvents_head (p : Params) (c : Byte) (a n : Nat) :
    ∃ b es, frameEvents p c a (n + 1) = .wrCtrl b :: es := by
  rw [frameEvents_succ, slotEvents]
  exact ⟨_, _, rfl⟩

/-- An address frame shows nothing, and leaves its address in the register. -/
theorem marksOf_frame {p : Params} (h : p.sdaBit ≠ p.sckBit) (c : Byte) (a : Nat) {o : Observer} (ho : BetweenCycles o) :
    marksOf p o (frameEvents p c a 24) = []
      ∧ observeAll p o (frameEvents p c a 24) = { view := ⟨false, BitVec.ofNat 24 a⟩, phase := 0 } := by
  obtain ⟨b, es, e⟩ := frameEvents_head p c a 23
  have hl : ∀ x ∈ es, isLineEvent x = true := fun x hx => frameEvents_line p c a 24 x (by rw [e]; simp [hx])
  obtain ⟨h1, h2⟩ := marksOf_driven p b hl ho
  rw [← e] at h1 h2
  refine ⟨h1, ?_⟩
  have hv := observeAll_view p o (frameEvents p c a 24)
  rw [viewAll_frame h, shiftFrame_full] at hv
  generalize observeAll p o (frameEvents p c a 24) = x at h2 hv
  cases x
  simp_all

/-- WRITE_BYTE shows its cycle and its window. -/
theorem marksOf_write {p : Params} (h : rolesOk p = true) (c : Byte) {a : Nat} (v : Byte) (d : Nat) {o : Observer}
    (ha : a < addrSpace) (ho : BetweenCycles o) :
    marksOf p o (writeEvents p c a v d) = [.cycle (a, v), .window d]
      ∧ observeAll p o (writeEvents p c a v d) = { view := ⟨false, BitVec.ofNat 24 a⟩, phase := 5 } := by
  have ha' : a < 2 ^ 24 := ha
  obtain ⟨h1, h2⟩ := marksOf_frame (rolesOk_distinct h).1 c a ho
  rw [writeEvents, marksOf_append, observeAll_append, h1, h2]
  generalize a.testBit 0 = b
  obtain ⟨g1, g2, g3⟩ := getLine_sck_written h b c
  constructor
  · simp [marksOf, markOf, observe, phaseAfter]
    omega
  · simp [observeAll, observe, phaseAfter, viewAfter, g1, g2, g3]

/-- Bus cycles one after the other show themselves. -/
theorem marksOf_sent {p : Params} (h : rolesOk p = true) (c : Byte) {cs : List TimedCycle} (ha : AddrsOk cs)
    {o : Observer} (ho : BetweenCycles o) :
    marksOf p o (sentEvents p c cs) = cycleMarks cs
      ∧ (observeAll p o (sentEvents p c cs)).phase = if cs = [] then o.phase else 5 := by
  induction cs generalizing c o with
  | nil => exact ⟨rfl, rfl⟩
  | cons x xs ih =>
    obtain ⟨h1, h2⟩ := marksOf_write h c x.1.2 x.2 (ha x (by simp)) ho
    obtain ⟨h3, h4⟩ := ih (writtenCtrl p (x.1.1.testBit 0) c) (fun y hy => ha y (by simp [hy]))
      (o := observeAll p o (writeEvents p c x.1.1 x.1.2 x.2)) (by rw [h2]; exact .inr rfl)
    refine ⟨?_, ?_⟩
    · rw [sentEvents, marksOf_append, h1, h3]
      rfl
    · rw [sentEvents, observeAll_append, h4, h2]
      by_cases hx : xs = [] <;> simp [hx]

/-- A burst shows its cycles and its sleep. -/
theorem marksOf_burst {p : Params} (h : rolesOk p = true) (c : Byte) {cs : List TimedCycle} (ha : AddrsOk cs) (us : Nat)
    {o : Observer} (ho : o.phase = 0) :
    marksOf p o (burstEvents p c cs us) = (if cs = [] then [] else cycleMarks cs ++ [.sleep us])
      ∧ (observeAll p o (burstEvents p c cs us)).phase = 0 := by
  unfold burstEvents
  by_cases hc : cs = []
  · rw [if_pos hc, if_pos hc]
    exact ⟨rfl, ho⟩
  · obtain ⟨h1, h2⟩ := marksOf_sent h c ha (.inl ho)
    rw [if_neg hc] at h2
    rw [if_neg hc, if_neg hc, marksOf_append, h1]
    constructor
    · simp [marksOf, markOf, h2]
    · rw [observeAll_append]
      show phaseAfter (observeAll p o (sentEvents p c cs)).phase (.delay us) = 0
      rw [h2]
      rfl

theorem marksOf_sample (p : Params) (c b : Byte) {o : Observer} (ho : o.phase = 0) :
    marksOf p o (sampleEvents p c b) = [.sample] ∧ (observeAll p o (sampleEvents p c b)).phase = 0 := by
  unfold sampleEvents
  split <;> simp [pulseEvents, marksOf, markOf, observe, phaseAfter, observeAll, ho]

/-- READ_BYTE shows its eight samples. -/
theorem marksOf_readTrace (a : Nat) (s : State) {o : Observer} (ho : o.phase = 0) :
    marksOf s.params o (readTrace a s) = List.replicate 8 .sample
      ∧ (observeAll s.params o (readTrace a s)).phase = 0 := by
  have h8 : ∀ (bs : List Byte) (c : Byte) (o : Observer), o.phase = 0 →
      marksOf s.params o (bs.flatMap fun b => sampleEvents s.params c b) = List.replicate bs.length .sample
        ∧ (observeAll s.params o (bs.flatMap fun b => sampleEvents s.params c b)).phase = 0 := by
    intro bs c
    induction bs with
    | nil => intro o ho; exact ⟨rfl, ho⟩
    | cons b bs ih =>
      intro o ho
      obtain ⟨h1, h2⟩ := marksOf_sample s.params c b ho
      obtain ⟨h3, h4⟩ := ih _ h2
      rw [List.flatMap_cons, marksOf_append, observeAll_append, h1, h3]
      exact ⟨by simp [List.replicate_succ], h4⟩
  have hl : ∀ e ∈ frameEvents s.params s.ctrl a 24
      ++ handshakeEvents s.params (slotCtrl s.params (a.testBit 0) s.ctrl), isLineEvent e = true := by
    intro e he
    rcases List.mem_append.mp he with h | h
    · exact frameEvents_line _ _ _ _ e h
    · exact handshakeEvents_line _ _ e h
  obtain ⟨h1, h2⟩ := marksOf_line s.params hl ho
  obtain ⟨h3, h4⟩ := h8 (sampleList s.params s.oracle (targetAnswer s a) s.oracle.statusIdx)
    (shakenCtrl s.params (slotCtrl s.params (a.testBit 0) s.ctrl)) _ h2
  exact ⟨by rw [readTrace, marksOf_append, h1, h3]; simp [sampleList],
    by rw [readTrace, observeAll_append]; exact h4⟩

theorem marksOf_poll (p : Params) (o : Observer) (c : Bool) (es : List Event) :
    marksOf p o (.pollCancel c :: es) = .poll c :: marksOf p (observe p o (.pollCancel c)) es := rfl

theorem marksOf_report (p : Params) (o : Observer) (n : Nat) (es : List Event) :
    marksOf p o (.progress n :: es) = .report n :: marksOf p (observe p o (.progress n)) es := rfl

/-- A report that is due shows itself. -/
theorem marksOf_reportIf (p : Params) (o : Observer) (ho : o.phase = 0) (due : Prop) [Decidable due] (n : Nat)
    (es : List Event) : ∃ o', o'.phase = 0 ∧ marksOf p o ((if due then [.progress n] else []) ++ es)
      = (if due then [.report n] else []) ++ marksOf p o' es := by
  by_cases h : due
  · refine ⟨observe p o (.progress n), rfl, ?_⟩
    rw [if_pos h, if_pos h]
    rfl
  · refine ⟨o, ho, ?_⟩
    rw [if_neg h, if_neg h]
    rfl

/-- Byte mode, byte by byte (rule R176). -/
theorem marksOf_byteMode {p : Params} (h : rolesOk p = true) (cfg : ChipConfig) (offset n : Nat) (bs : List Byte) (t : Nat)
    (c : Byte) (o : Observer) (ha : offset + t + bs.length ≤ addrSpace) :
    marksOf p o (byteModeEvents p cfg offset n c bs t)
      = (bs.zipIdx t).flatMap fun x => byteMarks p cfg offset n x.2 x.1 := by
  induction bs generalizing t c o with
  | nil => rfl
  | cons b bs ih =>
    have hl : (b :: bs).length = bs.length + 1 := rfl
    obtain ⟨h1, h2⟩ := marksOf_burst h c (addrsOk_byte p cfg b (by omega : offset + t < addrSpace)) cfg.maxWriteUsec.toNat
      (o := observe p o (.pollCancel false)) rfl
    obtain ⟨o', -, h3⟩ := marksOf_reportIf p _ h2 ((t + 1) % 1024 = 0 ∨ t + 1 = n) (t + 1)
      (byteModeEvents p cfg offset n (sentCtrl p c (byteCycles p cfg (offset + t) b)) bs (t + 1))
    rw [ih (t + 1) _ o' (by omega)] at h3
    rw [byteModeEvents, List.append_assoc, List.cons_append, marksOf_poll, marksOf_append, h1]
    erw [h3]
    rw [List.zipIdx_cons, List.flatMap_cons, byteMarks]
    by_cases hb : b = 0xFF#8
    · simp [hb, byteCycles, erasedByte]
    · have hn : byteCycles p cfg (offset + t) b = programSequence p cfg (offset + t) b := if_neg hb
      rw [hn, if_neg hb, if_neg (by simp [programSequence])]
      simp

/-- Sector mode, chunk by chunk (rule R175). -/
theorem marksOf_sectorMode {p : Params} (h : rolesOk p = true) (cfg : ChipConfig) (offset : Nat) (xs : List (List Byte))
    (t : Nat) (c : Byte) (o : Observer) (ha : offset + t + xs.flatten.length ≤ addrSpace) :
    marksOf p o (sectorModeEvents p cfg offset c xs t) = sectorMarks p cfg offset t xs := by
  induction xs generalizing t c o with
  | nil => rfl
  | cons x xs ih =>
    have hf : (x :: xs).flatten.length = x.length + xs.flatten.length := by simp
    obtain ⟨h1, h2⟩ := marksOf_burst h c (addrsOk_chunk p cfg (by omega : offset + t + x.length ≤ addrSpace))
      cfg.maxWriteUsec.toNat (o := observe p o (.pollCancel false)) rfl
    rw [sectorModeEvents, List.cons_append, marksOf_poll, marksOf_append, h1, marksOf_report,
      ih (t + x.length) _ _ (by omega), sectorMarks, chunkMarks]
    by_cases hb : ∀ b ∈ x, b = 0xFF#8
    · have hn : chunkCycles p cfg (offset + t) x = [] := if_pos hb
      rw [hn, if_pos hb, if_pos rfl]
      simp
    · have hn : chunkCycles p cfg (offset + t) x = rangeSequence p cfg (offset + t) x := if_neg hb
      rw [hn, if_neg hb, if_neg (rangeSequence_ne_nil hb)]
      simp

/-- BLANK_CHECK over erased bytes, byte by byte (rule R173). -/
theorem marksOf_blank (offset n i : Nat) (s : State) (o : Observer) :
    marksOf s.params o (blankEvents offset n i s) = (List.range' i n).flatMap blankMarks := by
  induction n generalizing i s o with
  | zero => rfl
  | succ n ih =>
    obtain ⟨h1, h2⟩ := marksOf_readTrace (offset + i) s (o := observe s.params o (.pollCancel false)) rfl
    obtain ⟨o', -, h3⟩ := marksOf_reportIf s.params _ h2 ((i + 1) % 1024 = 0) (i + 1)
      (blankEvents offset n (i + 1) (readLeave (offset + i) s))
    have hi := ih (i + 1) (readLeave (offset + i) s) o'
    rw [readLeave_params] at hi
    rw [hi] at h3
    rw [blankEvents, List.append_assoc, List.cons_append, marksOf_poll, marksOf_append, h1]
    erw [h3]
    rw [List.range'_succ, List.flatMap_cons, blankMarks]
    simp

end Sys2Proof.Machine
end

