-- ==== Sys2Proof/Laws/Stores.lean ====
section
/-! SUPPORT. What an operation stores, and where (rules R61, R70), whatever the environment does. -/

namespace Sys2Proof.Machine

/-- A SetLines that ends well. -/
theorem setLines_eq_ok {levels : List (Role × Bool)} {s u : State} (h : setLines levels s = .ok () u) :
    u = driven (setLineList s.params levels s.ctrl) [.wrCtrl (maskCtrl s.params (setLineList s.params levels s.ctrl))] 1 s := by
  unfold setLines at h
  rcases portWrCtrl_cases (maskCtrl s.params (setLineList s.params levels s.ctrl))
    { s with ctrl := setLineList s.params levels s.ctrl } with ⟨-, e⟩ | ⟨-, -, e⟩ | ⟨r, -, -, e⟩ <;> rw [e] at h
  · cases h
  · cases h; rfl
  · cases h

theorem setLinesAndWait_eq_ok {levels : List (Role × Bool)} {s u : State} (h : setLinesAndWait levels s = .ok () u) :
    u.params = s.params ∧ u.frameReg = s.frameReg ∧ u.ctrl = setLineList s.params levels s.ctrl := by
  obtain ⟨_, t, h1, h2⟩ := bind_eq_ok h
  rw [setLines_eq_ok h1] at h2
  cases h2
  exact ⟨rfl, rfl, rfl⟩

theorem addressSlot_reg {b : Bool} {s t : State} (hd : s.params.sdaBit ≠ s.params.sckBit) (h : addressSlot b s = .ok () t) :
    t.params = s.params ∧ t.frameReg = shiftIn s.frameReg b := by
  unfold addressSlot at h
  obtain ⟨_, s1, h1, h⟩ := bind_eq_ok h
  obtain ⟨_, s2, h2, h⟩ := bind_eq_ok h
  obtain ⟨_, s3, h3, h⟩ := bind_eq_ok h
  obtain ⟨_, s4, h4, h⟩ := bind_eq_ok h
  obtain ⟨p1, f1, c1⟩ := setLinesAndWait_eq_ok h1
  have e2 := setLines_eq_ok h2
  cases h3
  cases h4
  obtain ⟨p5, f5, -⟩ := setLinesAndWait_eq_ok h
  rw [p5, f5, e2]
  refine ⟨p1, ?_⟩
  show shiftIn s1.frameReg (getLine s1.params .sda (setLineList s1.params _ s1.ctrl)) = _
  rw [f1, p1, c1]
  congr 1
  have hne : lineBit s.params .sda ≠ lineBit s.params .sck := hd
  simp [setLineList, getLine_setLine, hne]

theorem addressSlots_reg {a n : Nat} {s t : State} (hd : s.params.sdaBit ≠ s.params.sckBit) (h : addressSlots a n s = .ok () t) :
    t.params = s.params ∧ t.frameReg = shiftFrame a n s.frameReg := by
  induction n generalizing s with
  | zero => cases h; exact ⟨rfl, rfl⟩
  | succ n ih =>
    obtain ⟨_, u, h1, h2⟩ := bind_eq_ok h
    obtain ⟨p, f⟩ := addressSlot_reg hd h1
    obtain ⟨p', f'⟩ := ih (by rw [p]; exact hd) h2
    exact ⟨p'.trans p, by rw [f', f]; rfl⟩

/-- After an address frame that ends well the shift register holds the address (rule R67). -/
theorem writeAddress_reg {a : Nat} {s t : State} (hd : s.params.sdaBit ≠ s.params.sckBit) (h : writeAddress a s = .ok () t) :
    t.params = s.params ∧ t.frameReg.toNat = a := by
  obtain ⟨_, u, h1, h2⟩ := bind_eq_ok h
  rw [checkAddr_eq] at h1
  split at h1
  · next ha =>
    cases h1
    obtain ⟨p, f⟩ := addressSlots_reg hd h2
    refine ⟨p, ?_⟩
    rw [f, shiftFrame_full, BitVec.toNat_ofNat]; exact Nat.mod_eq_of_lt ha
  · cases h1

/-- On the transparent memory only addresses of `A` have changed (rule R70). -/
def StoresIn (A : List Nat) (s t : State) : Prop :=
  t.params = s.params ∧ (s.fixture = .ram → t.fixture = .ram ∧ ∀ x, x ∉ A → memRead t.mem x = memRead s.mem x)

theorem storesIn_refl (A : List Nat) (s : State) : StoresIn A s s := ⟨rfl, fun h => ⟨h, fun _ _ => rfl⟩⟩

theorem storesIn_same {A : List Nat} {s t : State} (hp : t.params = s.params) (hf : t.fixture = s.fixture) (hm : t.mem = s.mem) :
    StoresIn A s t := ⟨hp, fun h => ⟨hf.trans h, fun _ _ => by rw [hm]⟩⟩

theorem storesIn_trans {A : List Nat} {s t u : State} (h1 : StoresIn A s t) (h2 : StoresIn A t u) : StoresIn A s u :=
  ⟨h2.1.trans h1.1, fun h => ⟨(h2.2 (h1.2 h).1).1, fun x hx => ((h2.2 (h1.2 h).1).2 x hx).trans ((h1.2 h).2 x hx)⟩⟩

theorem storesIn_read (A : List Nat) : AdmitsRead (StoresIn A) where
  refl := storesIn_refl A
  trans := storesIn_trans
  fault _ _ := storesIn_same rfl rfl rfl
  refusal _ _ := storesIn_same rfl rfl rfl
  lines _ _ := storesIn_same rfl rfl rfl
  wrCtrl _ _ := storesIn_same rfl rfl rfl
  rdStatus _ _ := storesIn_same rfl rfl rfl
  failCtrl _ _ := storesIn_same rfl rfl rfl
  failStatus _ := storesIn_same rfl rfl rfl
  delay _ _ := storesIn_same rfl rfl rfl
  shift _ _ := storesIn_same rfl rfl rfl
  busRead s := by
    unfold busReadState
    split
    · next chip h => exact ⟨rfl, fun hr => by rw [h] at hr; cases hr⟩
    · exact storesIn_refl A s

/-- An operation stores to addresses of `A` only. -/
def Stores {α : Type} (A : List Nat) (m : Op α) : Prop :=
  ∀ s, s.params.sdaBit ≠ s.params.sckBit → StoresIn A s (endState (m s))

theorem stores_keeps {α : Type} {A : List Nat} {m : Op α} (h : Keeps (StoresIn A) m) : Stores A m := fun s _ => h s

theorem stores_bind {α β : Type} {A : List Nat} {m : Op α} {k : α → Op β} (hm : Stores A m) (hk : ∀ a, Stores A (k a)) : Stores A (m >>= k) := by
  intro s hd
  have h1 := hm s hd
  cases hs : m s with
  | ok a t =>
    rw [hs] at h1
    rw [bind_ok hs]
    exact storesIn_trans h1 (hk a t (by rw [show t.params = s.params from h1.1]; exact hd))
  | error e t =>
    rw [hs] at h1
    rw [bind_error hs]
    exact h1

theorem stores_pure {α : Type} (A : List Nat) (a : α) : Stores A (pure a : Op α) := fun s _ => storesIn_refl A s

/-- The target has seen nothing. -/
def SameTarget (s t : State) : Prop := t.params = s.params ∧ t.fixture = s.fixture ∧ t.mem = s.mem ∧ t.frameReg = s.frameReg

theorem sameTarget_chains : Chains SameTarget := ⟨fun _ => ⟨rfl, rfl, rfl, rfl⟩, fun h1 h2 => ⟨h2.1.trans h1.1, h2.2.1.trans h1.2.1, h2.2.2.1.trans h1.2.2.1, h2.2.2.2.trans h1.2.2.2⟩⟩

theorem sameTarget_setLines (ls : List (Role × Bool)) : Keeps SameTarget (setLines ls) := by
  intro s
  unfold setLines
  rcases portWrCtrl_cases (maskCtrl s.params (setLineList s.params ls s.ctrl))
    { s with ctrl := setLineList s.params ls s.ctrl } with ⟨-, e⟩ | ⟨-, -, e⟩ | ⟨r, -, -, e⟩ <;> rw [e] <;> exact ⟨rfl, rfl, rfl, rfl⟩

theorem sameTarget_data (v : Byte) : Keeps SameTarget (portWrData v) := by
  intro s
  rcases portWrData_cases v s with ⟨-, e⟩ | ⟨-, -, e⟩ | ⟨r, -, -, e⟩ <;> rw [e] <;> exact ⟨rfl, rfl, rfl, rfl⟩

/-- WRITE_BYTE after its address and before the bus write (rule R117). -/
def dataWindow (v : Byte) (d : Nat) : Op Unit := do
  portWrData v
  setLines [(.pgm, true)]
  setLines [(.wr, false)]
  delay d
  setLines [(.wr, true)]

theorem sameTarget_dataWindow (v : Byte) (d : Nat) : Keeps SameTarget (dataWindow v d) :=
  keeps_bind sameTarget_chains (sameTarget_data v) fun _ => keeps_bind sameTarget_chains (sameTarget_setLines _) fun _ =>
    keeps_bind sameTarget_chains (sameTarget_setLines _) fun _ => keeps_bind sameTarget_chains (fun _ => ⟨rfl, rfl, rfl, rfl⟩) fun _ => sameTarget_setLines _

theorem writeByte_eq (a : Nat) (v : Byte) (d : Nat) (s : State) :
    writeByte a v d s = (writeAddress a >>= fun _ => dataWindow v d >>= fun _ => busWrite v : Op Unit) s := by
  unfold writeByte dataWindow
  simp only [bind_assoc]

theorem stores_writeByte {A : List Nat} {a : Nat} (v : Byte) (d : Nat) (ha : a ∈ A) : Stores A (writeByte a v d) := by
  intro s hd
  rw [writeByte_eq]
  have h1 := keeps_writeAddress (storesIn_read A) a s
  cases hs : writeAddress a s with
  | error e t => rw [bind_error hs]; rw [hs] at h1; exact h1
  | ok x t =>
    rw [hs] at h1
    rw [bind_ok hs]
    obtain ⟨hp, hr⟩ := writeAddress_reg hd hs
    have h2 := sameTarget_dataWindow v d t
    cases hw : dataWindow v d t with
    | error e u =>
      rw [bind_error hw]; rw [hw] at h2
      exact storesIn_trans h1 (storesIn_same h2.1 h2.2.1 h2.2.2.1)
    | ok y u =>
      rw [hw] at h2
      rw [bind_ok hw, busWrite_eq]
      obtain ⟨p, f, m, r⟩ := h2
      simp only [endState] at p f m r
      refine storesIn_trans h1 (storesIn_trans (storesIn_same (t := u) p f m) ?_)
      show StoresIn A u (busWritten v u)
      unfold busWritten
      split
      · exact storesIn_refl _ _
      · next hf =>
        refine ⟨rfl, fun _ => ⟨hf, fun x hx => ?_⟩⟩
        show memRead (memWrite u.mem u.frameReg.toNat v) x = _
        rw [memRead_memWrite, if_neg]
        rintro rfl
        rw [r, hr] at hx
        exact hx ha
      · next chip hf => exact ⟨rfl, fun h => by rw [hf] at h; cases h⟩

theorem stores_unlock {A : List Nat} (h1 : unlockAddr1 ∈ A) (h2 : unlockAddr2 ∈ A) : Stores A unlock :=
  stores_bind (fun s hd => stores_writeByte _ _ h1 s hd) fun _ => fun s hd => stores_writeByte _ _ h2 s hd

/-- The addresses of a JEDEC3 command. -/
def commandAddrs (p : Params) : List Nat := [unlockAddr1, unlockAddr2, p.cmdAddr.toNat]

/-- The same, from states with given parameters: CMD_ADDR is one of them. -/
def StoresFrom {α : Type} (p : Params) (A : List Nat) (m : Op α) : Prop :=
  ∀ s, s.params = p → s.params.sdaBit ≠ s.params.sckBit → StoresIn A s (endState (m s))

theorem storesFrom_bind {α β : Type} {p : Params} {A : List Nat} {m : Op α} {k : α → Op β} (hm : StoresFrom p A m) (hk : ∀ a, StoresFrom p A (k a)) : StoresFrom p A (m >>= k) := by
  intro s hp hd
  have h1 := hm s hp hd
  cases hs : m s with
  | ok a t =>
    rw [hs] at h1
    rw [bind_ok hs]
    have e : t.params = s.params := h1.1
    exact storesIn_trans h1 (hk a t (e.trans hp) (by rw [e]; exact hd))
  | error e t =>
    rw [hs] at h1
    rw [bind_error hs]
    exact h1

theorem Stores.p {α : Type} {p : Params} {A : List Nat} {m : Op α} (h : Stores A m) : StoresFrom p A m := fun s _ hd => h s hd

theorem storesFrom_command {p : Params} {A : List Nat} (c : Byte) (h : ∀ x ∈ commandAddrs p, x ∈ A) : StoresFrom p A (command c) := by
  refine storesFrom_bind (Stores.p (stores_keeps ?_)) fun _ => storesFrom_bind (Stores.p (stores_unlock (h _ (by simp [commandAddrs])) (h _ (by simp [commandAddrs])))) fun _ =>
    fun s hp hd => stores_writeByte _ _ (h _ (by simp [commandAddrs, hp])) s hd
  unfold checkCommand; split
  · exact keeps_pure (storesIn_read A).toChains _
  · exact keeps_refuse (storesIn_read A) _

theorem storesFrom_read {p : Params} {A : List Nat} (a : Nat) : StoresFrom p A (readByte a) := Stores.p (stores_keeps (keeps_readByte (storesIn_read A) a))
theorem storesFrom_pure {α : Type} {p : Params} {A : List Nat} (a : α) : StoresFrom p A (pure a : Op α) := Stores.p (stores_pure A a)
theorem storesFrom_delay {p : Params} {A : List Nat} (d : Nat) : StoresFrom p A (delay d) := Stores.p (stores_keeps (keeps_delay (storesIn_read A) d))

theorem storesFrom_readId {p : Params} {A : List Nat} (h : ∀ x ∈ commandAddrs p, x ∈ A) : StoresFrom p A readSoftwareId :=
  storesFrom_bind (storesFrom_command _ h) fun _ => storesFrom_bind (storesFrom_delay _) fun _ => storesFrom_bind (storesFrom_read _) fun _ => storesFrom_bind (storesFrom_read _) fun _ =>
    storesFrom_bind (storesFrom_command _ h) fun _ => storesFrom_pure _

theorem storesFrom_eraseChip {p : Params} {A : List Nat} (h : ∀ x ∈ commandAddrs p, x ∈ A) : StoresFrom p A eraseChip :=
  storesFrom_bind (storesFrom_command _ h) fun _ => storesFrom_command _ h

theorem storesFrom_programByte {p : Params} {A : List Nat} {a : Nat} (v : Byte) (cfg : ChipConfig) (h : ∀ x ∈ commandAddrs p, x ∈ A) (ha : a ∈ A) :
    StoresFrom p A (programByte a v cfg) :=
  storesFrom_bind (Stores.p (stores_keeps (keeps_checkAddr (storesIn_read A) a))) fun _ => storesFrom_bind (storesFrom_command _ h) fun _ => Stores.p (stores_writeByte _ _ ha)

theorem storesFrom_programRange {p : Params} {A : List Nat} {a : Nat} {vs : List Byte} (cfg : ChipConfig) (h : ∀ x ∈ commandAddrs p, x ∈ A)
    (ha : ∀ j, j < vs.length → a + j ∈ A) : StoresFrom p A (programRange a vs cfg) := by
  refine storesFrom_bind (Stores.p (stores_keeps (keeps_checkRange (storesIn_read A) _ _))) fun _ => ?_
  induction vs generalizing a with
  | nil => exact storesFrom_pure _
  | cons v vs ih =>
    exact storesFrom_bind (storesFrom_programByte v cfg h (ha 0 (by simp))) fun _ => ih fun j hj => by
      have := ha (j + 1) (by simpa using hj)
      rwa [show a + (j + 1) = a + 1 + j by omega] at this

theorem storesFrom_poll {p : Params} {A : List Nat} (op : LoopOp) (n : Nat) : StoresFrom p A (pollOrCancel op n) := fun s _ _ => by
  rw [pollOrCancel_eq]; split <;> exact storesIn_same rfl rfl rfl

theorem storesFrom_progress {p : Params} {A : List Nat} (n : Nat) : StoresFrom p A (progress n) := fun _ _ _ => storesIn_same rfl rfl rfl

theorem storesFrom_report {p : Params} {A : List Nat} (b : Bool) (n : Nat) : StoresFrom p A (reportIf b n) := by
  unfold reportIf; split
  · exact storesFrom_progress n
  · exact storesFrom_pure _

theorem storesFrom_wait {p : Params} {A : List Nat} (k : Nat) : StoresFrom p A (eraseWaitIteration k) :=
  storesFrom_bind (storesFrom_poll _ _) fun _ => storesFrom_bind (storesFrom_delay _) fun _ => storesFrom_bind (storesFrom_read _) fun _ => storesFrom_bind (storesFrom_read _) fun _ => storesFrom_pure _

theorem storesFrom_blank {p : Params} {A : List Nat} (o n i : Nat) : StoresFrom p A (blankBytes o n i) := by
  induction n generalizing i with
  | zero => exact storesFrom_pure _
  | succ n ih =>
    exact storesFrom_bind (storesFrom_poll _ _) fun _ => storesFrom_bind (storesFrom_read _) fun _ =>
      storesFrom_bind (Stores.p (stores_keeps (by unfold expectErased; split; exact keeps_pure (storesIn_read A).toChains _; exact keeps_raise (storesIn_read A) _))) fun _ =>
        storesFrom_bind (storesFrom_report _ _) fun _ => ih _

theorem storesFrom_bytes {p : Params} {A : List Nat} {o n : Nat} {cfg : ChipConfig} {bs : List Byte} {t : Nat} (h : ∀ x ∈ commandAddrs p, x ∈ A)
    (ha : ∀ j, j < bs.length → o + t + j ∈ A) : StoresFrom p A (writeBytes o n cfg bs t) := by
  induction bs generalizing t with
  | nil => exact storesFrom_pure _
  | cons b bs ih =>
    refine storesFrom_bind (storesFrom_poll _ _) fun _ => storesFrom_bind ?_ fun _ => storesFrom_bind (storesFrom_report _ _) fun _ => ih fun j hj => by
      have := ha (j + 1) (by simpa using hj)
      rwa [show o + t + (j + 1) = o + (t + 1) + j by omega] at this
    unfold programUnlessErased; split
    · exact storesFrom_pure _
    · exact storesFrom_bind (storesFrom_programByte _ _ h (ha 0 (by simp))) fun _ => storesFrom_delay _

theorem storesFrom_sectors {p : Params} {A : List Nat} {o : Nat} {cfg : ChipConfig} {xs : List (List Byte)} {t : Nat} (h : ∀ x ∈ commandAddrs p, x ∈ A)
    (ha : ∀ j, j < xs.flatten.length → o + t + j ∈ A) : StoresFrom p A (writeSectors o cfg xs t) := by
  induction xs generalizing t with
  | nil => exact storesFrom_pure _
  | cons x xs ih =>
    have hl : (x :: xs).flatten.length = x.length + xs.flatten.length := by simp
    refine storesFrom_bind (storesFrom_poll _ _) fun _ => storesFrom_bind ?_ fun _ => storesFrom_bind (storesFrom_progress _) fun _ => ih fun j hj => by
      have := ha (x.length + j) (by omega)
      rwa [show o + t + (x.length + j) = o + (t + x.length) + j by omega] at this
    unfold programChunk; split
    · exact storesFrom_bind (storesFrom_programRange _ h fun j hj => ha j (by omega)) fun _ => storesFrom_delay _
    · exact storesFrom_pure _

theorem chunksOf_length_le (size : Nat) (fuel : Nat) (src : List Byte) : (chunksOf size fuel src).flatten.length ≤ src.length := by
  induction fuel generalizing src with
  | zero => simp [chunksOf]
  | succ f ih =>
    cases src with
    | nil => simp [chunksOf]
    | cons b bs =>
      have := ih ((b :: bs).drop size)
      simp only [chunksOf, List.flatten_cons, List.length_append, List.length_take, List.length_drop] at this ⊢
      omega

theorem storesFrom_done {p : Params} {A : List Nat} {m : Op Unit} (h : StoresFrom p A m) : StoresFrom p A (done m) := storesFrom_bind h fun _ => storesFrom_pure _

theorem mem_of_range {A : List Nat} {o n : Nat} (h : ∀ x ∈ List.range' o n, x ∈ A) (j : Nat) (hj : j < n) : o + j ∈ A :=
  h _ (by rw [List.mem_range'_1]; omega)

/-- Every operation stores to the addresses of its own cycles only (rules R70, R98). -/
theorem storesFrom_body (p : Params) (i : Instr) : StoresFrom p (cycleAddrs p i) (bodyOf i) := by
  have hr : ∀ {A : List Nat} {o n : Nat}, StoresFrom p A (checkRange o n) := fun {A o n} => Stores.p (stores_keeps (keeps_checkRange (storesIn_read A) o n))
  have hk : ∀ {A : List Nat} {m b}, StoresFrom p A (checkRow m b) := fun {A m b} => Stores.p (stores_keeps (by
    unfold checkRow; split
    · exact keeps_pure (storesIn_read A).toChains _
    · exact keeps_refuse (storesIn_read A) _))
  cases i with
  | writeAddress a => exact storesFrom_done (Stores.p (stores_keeps (keeps_writeAddress (storesIn_read _) a)))
  | writeByte a v d => exact storesFrom_done (Stores.p (stores_writeByte _ _ (by simp [cycleAddrs])))
  | readByte a => exact storesFrom_bind (storesFrom_read _) fun _ => storesFrom_pure _
  | unlock => exact storesFrom_done (Stores.p (stores_unlock (by simp [cycleAddrs]) (by simp [cycleAddrs])))
  | command c => exact storesFrom_done (storesFrom_command _ fun _ h => h)
  | cmdIdEntry => exact storesFrom_done (storesFrom_command _ fun _ h => h)
  | cmdIdExit => exact storesFrom_done (storesFrom_command _ fun _ h => h)
  | cmdEraseSetup => exact storesFrom_done (storesFrom_command _ fun _ h => h)
  | cmdChipErase => exact storesFrom_done (storesFrom_command _ fun _ h => h)
  | cmdProgram => exact storesFrom_done (storesFrom_command _ fun _ h => h)
  | readSoftwareId => exact storesFrom_bind (storesFrom_readId fun _ h => h) fun _ => storesFrom_pure _
  | identify table =>
    refine storesFrom_bind (storesFrom_bind (storesFrom_readId fun _ h => h) fun id => ?_) fun _ => storesFrom_pure _
    unfold matchChip; split
    · exact storesFrom_bind (fun s _ _ => storesIn_same rfl rfl rfl) fun _ => storesFrom_pure _
    · exact fun s _ _ => storesIn_same rfl rfl rfl
  | eraseChip => exact storesFrom_done (storesFrom_eraseChip fun _ h => h)
  | programByte a v cfg => exact storesFrom_done (storesFrom_programByte _ _ (fun x h => by simp [commandAddrs] at h; simp [cycleAddrs]; tauto) (by simp [cycleAddrs]))
  | programRange start bytes cfg =>
    exact storesFrom_done (storesFrom_programRange _ (fun x h => List.mem_append_left _ h) (mem_of_range fun x h => List.mem_append_right _ h))
  | eraseWait => exact storesFrom_wait 0
  | erase => exact storesFrom_bind (storesFrom_eraseChip fun _ h => h) fun _ => storesFrom_wait 0
  | blankCheck o n => exact storesFrom_done (storesFrom_bind hr fun _ => storesFrom_blank _ _ _)
  | writeImage o src cfg =>
    refine storesFrom_bind (storesFrom_bind hr fun _ => ?_) fun _ => storesFrom_pure _
    unfold writeSelectedMode; split
    · exact storesFrom_bytes (fun x h => List.mem_append_left _ h) (mem_of_range fun x h => List.mem_append_right _ h)
    · exact storesFrom_sectors (fun x h => List.mem_append_left _ h) fun j hj => mem_of_range (fun x h => List.mem_append_right _ h) j (lt_of_lt_of_le hj (chunksOf_length_le _ _ _))
  | writeImageSector o src cfg =>
    refine storesFrom_bind (storesFrom_bind hr fun _ => storesFrom_bind hk fun _ => ?_) fun _ => storesFrom_pure _
    exact storesFrom_sectors (fun x h => List.mem_append_left _ h) fun j hj => mem_of_range (fun x h => List.mem_append_right _ h) j (lt_of_lt_of_le hj (chunksOf_length_le _ _ _))
  | writeImageByte o src cfg =>
    refine storesFrom_bind (storesFrom_bind hr fun _ => storesFrom_bind hk fun _ => ?_) fun _ => storesFrom_pure _
    exact storesFrom_bytes (fun x h => List.mem_append_left _ h) (mem_of_range fun x h => List.mem_append_right _ h)

theorem conclude_target (r : EStateM.Result Stop State Verdict) : (conclude r).mem = (endState r).mem ∧ (conclude r).fixture = (endState r).fixture
    ∧ (conclude r).data = (endState r).data ∧ (conclude r).physData = (endState r).physData := by
  rcases r with ⟨v | n, t⟩ | ⟨e, t⟩ <;> exact ⟨rfl, rfl, rfl, rfl⟩

/-- The memory and the data register are as before. -/
def KeepsData (s t : State) : Prop := t.mem = s.mem ∧ t.data = s.data ∧ t.physData = s.physData

theorem keepsData_read : AdmitsRead KeepsData where
  refl _ := ⟨rfl, rfl, rfl⟩
  trans h1 h2 := ⟨h2.1.trans h1.1, h2.2.1.trans h1.2.1, h2.2.2.trans h1.2.2⟩
  fault _ _ := ⟨rfl, rfl, rfl⟩
  refusal _ _ := ⟨rfl, rfl, rfl⟩
  lines _ _ := ⟨rfl, rfl, rfl⟩
  wrCtrl _ _ := ⟨rfl, rfl, rfl⟩
  rdStatus _ _ := ⟨rfl, rfl, rfl⟩
  failCtrl _ _ := ⟨rfl, rfl, rfl⟩
  failStatus _ := ⟨rfl, rfl, rfl⟩
  delay _ _ := ⟨rfl, rfl, rfl⟩
  shift _ _ := ⟨rfl, rfl, rfl⟩
  busRead s := by unfold busReadState; split <;> exact ⟨rfl, rfl, rfl⟩

theorem keepsData_poll (op : LoopOp) (n : Nat) : Keeps KeepsData (pollOrCancel op n) := fun s => by
  rw [pollOrCancel_eq]; split <;> exact ⟨rfl, rfl, rfl⟩

/-- An operation without a bus cycle stores nothing. -/
theorem keepsData_body {p : Params} {i : Instr} (h : cycleAddrs p i = []) : Keeps KeepsData (bodyOf i) := by
  have hc := keepsData_read.toChains
  cases i with
  | writeAddress a => exact keeps_done hc (keeps_writeAddress keepsData_read a)
  | readByte a => exact keeps_bind hc (keeps_readByte keepsData_read a) fun _ => keeps_pure hc _
  | eraseWait =>
    exact keeps_bind hc (keepsData_poll _ _) fun _ => keeps_bind hc (keeps_delay keepsData_read _) fun _ =>
      keeps_bind hc (keeps_readByte keepsData_read _) fun _ => keeps_bind hc (keeps_readByte keepsData_read _) fun _ => keeps_pure hc _
  | blankCheck o n =>
    refine keeps_done hc (keeps_bind hc (keeps_checkRange keepsData_read _ _) fun _ => ?_)
    generalize 0 = i
    induction n generalizing i with
    | zero => exact keeps_pure hc _
    | succ n ih =>
      refine keeps_bind hc (keepsData_poll _ _) fun _ => keeps_bind hc (keeps_readByte keepsData_read _) fun _ =>
        keeps_bind hc ?_ fun _ => keeps_bind hc ?_ fun _ => ih (by simp [cycleAddrs]) _
      · unfold expectErased; split
        · exact keeps_pure hc _
        · exact keeps_raise keepsData_read _
      · unfold reportIf; split
        · exact fun _ => ⟨rfl, rfl, rfl⟩
        · exact keeps_pure hc _
  | _ => simp [cycleAddrs] at h

/-- With nothing attached there is no memory to change. -/
theorem admitsAll_detached : AdmitsAll fun s t => s.fixture = .none → t.fixture = .none ∧ t.mem = s.mem where
  refl _ h := ⟨h, rfl⟩
  trans h1 h2 h := ⟨(h2 (h1 h).1).1, (h2 (h1 h).1).2.trans (h1 h).2⟩
  fault _ _ h := ⟨h, rfl⟩
  refusal _ _ h := ⟨h, rfl⟩
  lines _ _ h := ⟨h, rfl⟩
  wrCtrl _ _ h := ⟨h, rfl⟩
  wrData _ _ h := ⟨h, rfl⟩
  rdStatus _ _ h := ⟨h, rfl⟩
  failCtrl _ _ h := ⟨h, rfl⟩
  failData _ _ h := ⟨h, rfl⟩
  failStatus _ h := ⟨h, rfl⟩
  delay _ _ h := ⟨h, rfl⟩
  shift _ _ h := ⟨h, rfl⟩
  busWrite v s h := by simp [busWritten, h]
  busRead s h := by simp [busReadState, h]
  poll _ h := ⟨h, rfl⟩
  progress _ _ h := ⟨h, rfl⟩
  identified _ _ h := ⟨h, rfl⟩

end Sys2Proof.Machine
end

