-- ==== Sys2Proof/Laws/Integrity.lean ====
section
/-! SUPPORT. Command integrity (rules R66, R147, R244), whatever the environment does: how each operation moves an
observer of commands. -/

namespace Sys2Proof.Machine

theorem commandPlace_append (c : Nat) (xs ys : List Mark) (pl : CommandPlace) :
    commandPlace c (xs ++ ys) pl = (commandPlace c xs pl).bind (commandPlace c ys) := by
  induction xs generalizing pl with
  | nil => rfl
  | cons m ms ih =>
    simp only [List.cons_append, commandPlace]
    cases followCommand c pl m with
    | none => rfl
    | some q => exact ih q

/-- Where an observer of commands is after some events. -/
def placeAfter (p : Params) (w : WireView) (es : List Event) (pl : CommandPlace) : Option CommandPlace :=
  commandPlace p.cmdAddr.toNat (marksOf p { view := w, phase := 0 } es) pl

/-- The place does not depend on what the observer makes of a delay. -/
theorem commandPlace_phase (p : Params) (w : WireView) (n k : Nat) (es : List Event) (pl : CommandPlace) :
    commandPlace p.cmdAddr.toNat (marksOf p { view := w, phase := n } es) pl
      = commandPlace p.cmdAddr.toNat (marksOf p { view := w, phase := k } es) pl := by
  induction es generalizing w n k pl with
  | nil => rfl
  | cons e es ih =>
    rw [marksOf, marksOf, commandPlace_append, commandPlace_append]
    have h : commandPlace p.cmdAddr.toNat (markOf { view := w, phase := n } e) pl
        = commandPlace p.cmdAddr.toNat (markOf { view := w, phase := k } e) pl := by
      have hd : ∀ j us, commandPlace p.cmdAddr.toNat (markOf { view := w, phase := j } (.delay us)) pl = some pl := by
        intro j us
        show commandPlace _ (if j = 3 then [.window us] else if j = 5 then [.sleep us] else []) pl = _
        split
        · rfl
        · split <;> rfl
      cases e with
      | delay us => rw [hd, hd]
      | _ => rfl
    rw [h]
    congr 1
    funext q
    exact ih _ _ _ q

theorem placeAfter_append (p : Params) (w : WireView) (xs ys : List Event) (pl : CommandPlace) :
    placeAfter p w (xs ++ ys) pl = (placeAfter p w xs pl).bind (placeAfter p (viewAll p w xs) ys) := by
  unfold placeAfter
  rw [marksOf_append, commandPlace_append]
  congr 1
  funext q
  have hv := observeAll_view p { view := w, phase := 0 } xs
  generalize observeAll p { view := w, phase := 0 } xs = o at hv ⊢
  obtain ⟨v, n⟩ := o
  subst hv
  exact commandPlace_phase p _ n 0 ys q

/-- The level of SCK that an observer sees is that of the shadow. -/
def SeesClock (w : WireView) (s : State) : Prop := w.sck = getLine s.params .sck s.ctrl

/-- What a part of an operation shows an observer of commands who is at `pl`: if it ends well, it moves him to `pl'`; if it
stops, it leaves him outside of any command, or a port access failed, or it was refused. -/
def Shows {α : Type} (s : State) (pl pl' : CommandPlace) : EStateM.Result Stop State α → Prop
  | .ok _ t => t.params = s.params ∧ ∃ es, t.trace = s.trace ++ es ∧ ∀ w, SeesClock w s →
      placeAfter s.params w es pl = some pl' ∧ SeesClock (viewAll s.params w es) t
  | .error e t => ∃ es, t.trace = s.trace ++ es ∧ ∀ w, SeesClock w s →
      ∃ q, placeAfter s.params w es pl = some q
        ∧ (q = .outside ∨ (∃ kind, e = .fault (.portIo kind)) ∨ ∃ r, e = .refused r)

/-- A part of an operation moves an observer of commands from `pl` to `pl'`, in every state with parameters `p`. -/
def Moves {α : Type} (p : Params) (pl pl' : CommandPlace) (m : Op α) : Prop :=
  ∀ s, s.params = p → Shows s pl pl' (m s)

theorem moves_bind {α β : Type} {p : Params} {a b c : CommandPlace} {m : Op α} {k : α → Op β} (hm : Moves p a b m)
    (hk : ∀ x, Moves p b c (k x)) : Moves p a c (m >>= k) := by
  intro s hp
  have h1 := hm s hp
  cases hs : m s with
  | error e t =>
    rw [hs] at h1
    rw [bind_error hs]
    exact h1
  | ok x t =>
    rw [hs] at h1
    rw [bind_ok hs]
    obtain ⟨hpt, es, ht, hw⟩ := h1
    have h2 := hk x t (hpt.trans hp)
    cases hr : k x t with
    | ok y u =>
      rw [hr] at h2
      obtain ⟨hpu, fs, hu, hv⟩ := h2
      refine ⟨hpu.trans hpt, es ++ fs, by rw [hu, ht, List.append_assoc], fun w hc => ?_⟩
      obtain ⟨w1, w2⟩ := hw w hc
      obtain ⟨v1, v2⟩ := hv _ w2
      rw [hpt] at v1 v2
      refine ⟨by rw [placeAfter_append, w1]; exact v1, by rw [viewAll_append]; exact v2⟩
    | error e u =>
      rw [hr] at h2
      obtain ⟨fs, hu, hv⟩ := h2
      refine ⟨es ++ fs, by rw [hu, ht, List.append_assoc], fun w hc => ?_⟩
      obtain ⟨w1, w2⟩ := hw w hc
      obtain ⟨q, v1, v2⟩ := hv _ w2
      rw [hpt] at v1
      exact ⟨q, by rw [placeAfter_append, w1]; exact v1, v2⟩

/-- A part that ends well, changes no line and emits nothing but events that show nothing at this place. -/
theorem moves_of_ok {α : Type} {p : Params} {pl pl' : CommandPlace} {m : Op α}
    (h : ∀ s, s.params = p → ∃ a t es, m s = .ok a t ∧ t.params = s.params ∧ t.ctrl = s.ctrl ∧ t.trace = s.trace ++ es
      ∧ ∀ w, placeAfter p w es pl = some pl' ∧ viewAll p w es = w) : Moves p pl pl' m := by
  intro s hp
  obtain ⟨a, t, es, e, h1, h2, h3, h4⟩ := h s hp
  rw [e]
  refine ⟨h1, es, h3, fun w hc => ?_⟩
  rw [hp, (h4 w).2]
  exact ⟨(h4 w).1, by unfold SeesClock at *; rw [h1, h2]; exact hc⟩

theorem moves_pure {α : Type} (p : Params) (pl : CommandPlace) (a : α) : Moves p pl pl (pure a : Op α) :=
  moves_of_ok fun s _ => ⟨a, s, [], rfl, rfl, rfl, by simp, fun _ => ⟨rfl, rfl⟩⟩

theorem moves_delay (p : Params) (pl : CommandPlace) (us : Nat) : Moves p pl pl (delay us) :=
  moves_of_ok fun s _ => ⟨(), addEvent (.delay us) s, [.delay us], rfl, rfl, rfl, rfl, fun _ => ⟨rfl, rfl⟩⟩

theorem moves_stepDelay (p : Params) (pl : CommandPlace) : Moves p pl pl stepDelay :=
  fun s hp => moves_delay p pl s.params.tStepUs s hp

theorem moves_progress (p : Params) (n : Nat) : Moves p .outside .outside (progress n) :=
  moves_of_ok fun s _ => ⟨(), addEvent (.progress n) s, [.progress n], rfl, rfl, rfl, rfl, fun _ => ⟨rfl, rfl⟩⟩

theorem moves_refuse {α : Type} (p : Params) (pl : CommandPlace) (r : Refusal) : Moves p pl pl (refuse r : Op α) :=
  fun s _ => ⟨[], by simp, fun _ _ => ⟨pl, rfl, .inr (.inr ⟨r, rfl⟩)⟩⟩

theorem moves_raise {α : Type} (p : Params) (f : Fault) : Moves p .outside .outside (raise f : Op α) :=
  fun s _ => ⟨[], by simp, fun _ _ => ⟨.outside, rfl, .inl rfl⟩⟩

theorem moves_checkAddr (p : Params) (pl : CommandPlace) (a : Nat) : Moves p pl pl (checkAddr a) := by
  unfold checkAddr
  split
  · exact moves_pure p pl _
  · exact moves_refuse p pl _

theorem moves_checkRange (p : Params) (pl : CommandPlace) (a n : Nat) : Moves p pl pl (checkRange a n) := by
  unfold checkRange
  split
  · exact moves_pure p pl _
  · exact moves_refuse p pl _

theorem moves_latchSda (p : Params) (pl : CommandPlace) : Moves p pl pl latchSda :=
  moves_of_ok fun s _ => ⟨(), _, [], rfl, rfl, rfl, by simp, fun _ => ⟨rfl, rfl⟩⟩

theorem moves_setLines (p : Params) (pl : CommandPlace) (levels : List (Role × Bool)) : Moves p pl pl (setLines levels) := by
  intro s hp
  unfold setLines
  generalize setLineList s.params levels s.ctrl = c
  rcases portWrCtrl_cases (maskCtrl s.params c) { s with ctrl := c } with ⟨-, e⟩ | ⟨-, -, e⟩ | ⟨r, -, -, e⟩ <;> rw [e]
  · exact ⟨[], by simp, fun _ _ => ⟨pl, rfl, .inr (.inr ⟨_, rfl⟩)⟩⟩
  · refine ⟨rfl, [.wrCtrl (maskCtrl s.params c)], rfl, fun w _ => ⟨rfl, ?_⟩⟩
    show (viewAfter s.params w (.wrCtrl (maskCtrl s.params c))).sck = getLine s.params .sck c
    unfold viewAfter
    simp only [maskCtrl_maskCtrl]
    split <;> rfl
  · exact ⟨[.portFail .wrCtrl], rfl, fun _ _ => ⟨pl, rfl, .inr (.inl ⟨_, rfl⟩)⟩⟩

theorem moves_wait (p : Params) (pl : CommandPlace) (levels : List (Role × Bool)) :
    Moves p pl pl (setLinesAndWait levels) :=
  moves_bind (moves_setLines p pl levels) fun _ => moves_stepDelay p pl

theorem moves_addressSlots (p : Params) (pl : CommandPlace) (a n : Nat) : Moves p pl pl (addressSlots a n) := by
  induction n with
  | zero => exact moves_pure p pl _
  | succ n ih =>
    exact moves_bind (moves_bind (moves_wait p pl _) fun _ => moves_bind (moves_setLines p pl _) fun _ =>
      moves_bind (moves_latchSda p pl) fun _ => moves_bind (moves_stepDelay p pl) fun _ => moves_wait p pl _) fun _ => ih

theorem moves_writeAddress (p : Params) (pl : CommandPlace) (a : Nat) : Moves p pl pl (writeAddress a) :=
  moves_bind (moves_checkAddr p pl a) fun _ => moves_addressSlots p pl a 24

/-- The samples, outside of any command. -/
theorem moves_portRdStatus (p : Params) (fixed : Option Byte) : Moves p .outside .outside (portRdStatus fixed) := by
  intro s _
  rcases portRdStatus_cases fixed s with ⟨-, e⟩ | ⟨-, -, e⟩ | ⟨r, -, -, e⟩ <;> rw [e]
  · exact ⟨[], by simp, fun _ _ => ⟨.outside, rfl, .inl rfl⟩⟩
  · exact ⟨rfl, [.rdStatus (statusByte fixed s)], rfl, fun w hc => ⟨rfl, hc⟩⟩
  · exact ⟨[.portFail .rdStatus], rfl, fun _ _ => ⟨.outside, rfl, .inl rfl⟩⟩

theorem moves_poll (p : Params) (op : LoopOp) (n : Nat) : Moves p .outside .outside (pollOrCancel op n) := by
  intro s _
  rw [pollOrCancel_eq]
  split
  · exact ⟨[.pollCancel (flagAtPoll s)], rfl, fun _ _ => ⟨.outside, rfl, .inl rfl⟩⟩
  · exact ⟨rfl, [.pollCancel (flagAtPoll s)], rfl, fun w hc => ⟨rfl, hc⟩⟩

theorem moves_readPulse (p : Params) (pl : CommandPlace) : Moves p pl pl readPulse :=
  moves_bind (moves_wait p pl _) fun _ => moves_wait p pl _

theorem moves_sampleStatus (p : Params) (fixed : Option Byte) (i : Nat) :
    Moves p .outside .outside (sampleStatus fixed i) := fun s hp =>
  moves_bind (moves_portRdStatus p _) (fun _ => moves_pure p _ _) s hp

theorem moves_readBits (p : Params) (fixed : Option Byte) (n : Nat) (acc : Byte) :
    Moves p .outside .outside (readBits fixed n acc) := by
  induction n generalizing acc with
  | zero => exact moves_pure p _ _
  | succ n ih =>
    refine moves_bind ?_ fun _ => ih _
    intro s hp
    unfold sampleAndPulse
    split
    · exact moves_bind (moves_sampleStatus p fixed n)
        (fun _ => moves_bind (moves_readPulse p _) fun _ => moves_pure p _ _) s hp
    · exact moves_bind (moves_readPulse p _) (fun _ => moves_sampleStatus p fixed n) s hp

theorem moves_readByte (p : Params) (a : Nat) : Moves p .outside .outside (readByte a) := by
  refine moves_bind (moves_writeAddress p .outside a) fun _ => moves_bind (b := .outside) ?_ fun _ =>
    moves_bind (b := .outside) ?_ fun _ => moves_readBits p _ _ _
  · exact fun s hp => moves_bind (moves_wait p _ _) (fun _ => moves_bind (moves_wait p _ _) fun _ => moves_wait p _ _) s hp
  · refine moves_of_ok fun s _ => ⟨_, _, [], busRead_eq s, busReadState_params s, ?_, ?_, fun _ => ⟨rfl, rfl⟩⟩
    · unfold busReadState; split <;> rfl
    · unfold busReadState; split <;> simp

/-- An address slot that ends well has emitted its events. -/
theorem addressSlot_events {b : Bool} {s t : State} (h : addressSlot b s = .ok () t) :
    t.params = s.params ∧ t.ctrl = slotCtrl s.params b s.ctrl ∧ t.trace = s.trace ++ slotEvents s.params s.ctrl b := by
  unfold addressSlot at h
  obtain ⟨_, s1, h1, h⟩ := bind_eq_ok h
  obtain ⟨_, s2, h2, h⟩ := bind_eq_ok h
  obtain ⟨_, s3, h3, h⟩ := bind_eq_ok h
  obtain ⟨_, s4, h4, h⟩ := bind_eq_ok h
  obtain ⟨_, r1, g1, g2⟩ := bind_eq_ok h1
  obtain ⟨_, r2, k1, k2⟩ := bind_eq_ok h
  have e1 := setLines_eq_ok g1
  cases g2
  have e2 := setLines_eq_ok h2
  cases h3
  cases h4
  have e3 := setLines_eq_ok k1
  cases k2
  subst e1 e2 e3
  refine ⟨rfl, ?_, ?_⟩
  · simp [setLineList, slotCtrl, setLine_setLine_same]
  · simp [setLineList, slotCtrl, slotEvents, setLine_setLine_same]

/-- An address frame that ends well has emitted its events. -/
theorem writeAddress_events {a : Nat} {s t : State} (hd : s.params.sdaBit ≠ s.params.sckBit) (h : writeAddress a s = .ok () t) :
    a < addrSpace ∧ t.params = s.params ∧ t.trace = s.trace ++ frameEvents s.params s.ctrl a 24 := by
  have key : ∀ (n : Nat) (s t : State), s.params.sdaBit ≠ s.params.sckBit → addressSlots a n s = .ok () t →
      t.params = s.params ∧ t.trace = s.trace ++ frameEvents s.params s.ctrl a n := by
    intro n
    induction n with
    | zero => intro s t _ h; cases h; exact ⟨rfl, by simp [frameEvents, bitsMsbFirst]⟩
    | succ n ih =>
      intro s t hd h
      obtain ⟨_, u, h1, h2⟩ := bind_eq_ok h
      obtain ⟨p1, c1, t1⟩ := addressSlot_events h1
      obtain ⟨p2, t2⟩ := ih u t (by rw [p1]; exact hd) h2
      refine ⟨p2.trans p1, ?_⟩
      rw [t2, t1, p1, c1, frameEvents_slotCtrl hd, frameEvents_succ, List.append_assoc]
  obtain ⟨_, u, h1, h2⟩ := bind_eq_ok h
  rw [checkAddr_eq] at h1
  split at h1
  · next ha =>
    cases h1
    exact ⟨ha, key 24 s t hd h2⟩
  · cases h1

/-- A bus write cycle moves an observer as command integrity has it. -/
theorem moves_writeByte {p : Params} (hd : p.sdaBit ≠ p.sckBit) {a : Nat} {v : Byte} {pl pl' : CommandPlace}
    (hf : followCommand p.cmdAddr.toNat pl (.cycle (a, v)) = some pl') (d : Nat) :
    Moves p pl pl' (writeByte a v d) := by
  intro s hp
  subst hp
  rw [writeByte_eq]
  have h1 := moves_writeAddress s.params pl a s rfl
  cases hs : writeAddress a s with
  | error e t => rw [bind_error hs]; rw [hs] at h1; exact h1
  | ok x t =>
    rw [hs] at h1
    rw [bind_ok hs]
    obtain ⟨hpt, es, ht, hw⟩ := h1
    obtain ⟨ha, -, ht'⟩ := writeAddress_events hd hs
    obtain rfl : es = frameEvents s.params s.ctrl a 24 := List.append_cancel_left (ht.symm.trans ht')
    have ha' : a < 2 ^ 24 := ha
    have hrest : Moves s.params pl' pl' (do
        setLines [(.pgm, true)]
        setLines [(.wr, false)]
        delay d
        setLines [(.wr, true)]
        busWrite v) :=
      moves_bind (moves_setLines _ _ _) fun _ => moves_bind (moves_setLines _ _ _) fun _ =>
        moves_bind (moves_delay _ _ _) fun _ => moves_bind (moves_setLines _ _ _) fun _ =>
          moves_of_ok fun u _ => ⟨(), busWritten v u, [], busWrite_eq v u, busWritten_params v u,
            by unfold busWritten; split <;> rfl, by unfold busWritten; split <;> simp, fun _ => ⟨rfl, rfl⟩⟩
    have hview : ∀ w, viewAll s.params w (frameEvents s.params s.ctrl a 24) = ⟨false, BitVec.ofNat 24 a⟩ := by
      intro w
      rw [viewAll_frame hd, shiftFrame_full]
    have hcyc : ∀ w es', placeAfter s.params w (frameEvents s.params s.ctrl a 24 ++ (.wrData v :: es')) pl
        = placeAfter s.params ⟨false, BitVec.ofNat 24 a⟩ es' pl' := by
      intro w es'
      have hany : placeAfter s.params w (frameEvents s.params s.ctrl a 24) pl = some pl := by
        unfold placeAfter
        rw [(marksOf_frame hd s.ctrl a (o := { view := w, phase := 0 }) (.inl rfl)).1]
        rfl
      have hone : placeAfter s.params ⟨false, BitVec.ofNat 24 a⟩ [.wrData v] pl = some pl' := by
        show (followCommand s.params.cmdAddr.toNat pl (.cycle ((BitVec.ofNat 24 a).toNat, v))).bind _ = _
        rw [BitVec.toNat_ofNat, Nat.mod_eq_of_lt ha', hf]
        rfl
      rw [placeAfter_append, hview, hany, Option.bind_some,
        show (.wrData v :: es' : List Event) = [.wrData v] ++ es' from rfl, placeAfter_append, hone]
      rfl
    have hw2 : ∀ w, SeesClock w s → SeesClock ⟨false, BitVec.ofNat 24 a⟩ t := by
      intro w hc
      have := (hw w hc).2
      rwa [hview] at this
    have hsplit : (dataWindow v d >>= fun _ => busWrite v : Op Unit)
        = (portWrData v >>= fun _ => (do
            setLines [(.pgm, true)]
            setLines [(.wr, false)]
            delay d
            setLines [(.wr, true)]
            busWrite v) : Op Unit) := by
      unfold dataWindow
      simp only [bind_assoc]
    have hsp : (dataWindow v d >>= fun _ => busWrite v : Op Unit) t = (portWrData v >>= fun _ => (do
            setLines [(.pgm, true)]
            setLines [(.wr, false)]
            delay d
            setLines [(.wr, true)]
            busWrite v) : Op Unit) t := congrFun hsplit t
    show Shows s pl pl' ((dataWindow v d >>= fun _ => busWrite v : Op Unit) t)
    rw [hsp]
    have hfail : ∀ w, SeesClock w s →
        placeAfter s.params w (frameEvents s.params s.ctrl a 24 ++ [.portFail .wrData]) pl = some pl := by
      intro w hc
      rw [placeAfter_append, (hw w hc).1]
      rfl
    rcases portWrData_cases v t with ⟨-, e⟩ | ⟨-, -, e⟩ | ⟨r, -, -, e⟩
    · rw [bind_error e]
      exact ⟨_, ht, fun w hc => ⟨pl, (hw w hc).1, .inr (.inr ⟨_, rfl⟩)⟩⟩
    · rw [bind_ok e]
      have h2 := hrest (addEvent (.wrData v) { countAccess t with physData := v, data := v }) hpt
      generalize hr : (do
        setLines [(.pgm, true)]
        setLines [(.wr, false)]
        delay d
        setLines [(.wr, true)]
        busWrite v : Op Unit) (addEvent (.wrData v) { countAccess t with physData := v, data := v }) = r at h2 ⊢
      have htr : (addEvent (.wrData v) { countAccess t with physData := v, data := v }).trace
          = s.trace ++ (frameEvents s.params s.ctrl a 24 ++ [.wrData v]) := by
        show t.trace ++ [.wrData v] = _
        rw [ht, List.append_assoc]
      have hpp : (addEvent (.wrData v) { countAccess t with physData := v, data := v }).params = s.params := hpt
      cases r with
      | ok y u =>
        obtain ⟨hpu, fs, hu, hv⟩ := h2
        refine ⟨hpu.trans hpp, frameEvents s.params s.ctrl a 24 ++ (.wrData v :: fs), by rw [hu, htr]; simp, fun w hc => ?_⟩
        obtain ⟨v1, v2⟩ := hv _ (hw2 w hc)
        rw [hpp] at v1 v2
        refine ⟨by rw [hcyc]; exact v1, ?_⟩
        rw [viewAll_append, hview]
        exact v2
      | error e' u =>
        obtain ⟨fs, hu, hv⟩ := h2
        refine ⟨frameEvents s.params s.ctrl a 24 ++ (.wrData v :: fs), by rw [hu, htr]; simp, fun w hc => ?_⟩
        obtain ⟨q, v1, v2⟩ := hv _ (hw2 w hc)
        rw [hpp] at v1
        exact ⟨q, by rw [hcyc]; exact v1, v2⟩
    · rw [bind_error e]
      refine ⟨frameEvents s.params s.ctrl a 24 ++ [.portFail .wrData], ?_, fun w hc => ⟨pl, ?_, .inr (.inl ⟨_, rfl⟩)⟩⟩
      · show t.trace ++ [.portFail .wrData] = _
        rw [ht, List.append_assoc]
      · exact hfail w hc

section Commands

variable {p : Params} (hd : p.sdaBit ≠ p.sckBit)
include hd

theorem moves_unlock : Moves p .outside .twoUnlocks unlock :=
  moves_bind (b := .oneUnlock) (fun s hp => moves_writeByte hd rfl s.params.cmdSettleUs s hp) fun _ =>
    fun s hp => moves_writeByte hd rfl s.params.cmdSettleUs s hp

/-- A command whose byte is not 0xA0 is whole. -/
theorem moves_command {c : Byte} (hc : c ∈ [0x90#8, 0xF0#8, 0x80#8, 0x10#8]) : Moves p .outside .outside (command c) := by
  refine moves_bind ?_ fun _ => moves_bind (moves_unlock hd) fun _ => fun s hp => ?_
  · unfold checkCommand
    split
    · exact moves_pure p _ _
    · exact moves_refuse p _ _
  · have hn : c ≠ 0xA0#8 := by rintro rfl; simp at hc
    refine moves_writeByte hd (a := s.params.cmdAddr.toNat) ?_ s.params.cmdSettleUs s hp
    rw [hp]
    simp only [followCommand, Prod.mk.injEq, true_and, if_neg hn]
    rw [if_pos hc]

theorem moves_programByte (a : Nat) (v : Byte) (cfg : ChipConfig) : Moves p .outside .outside (programByte a v cfg) := by
  refine moves_bind (moves_checkAddr p _ a) fun _ => moves_bind (b := .dataDue) ?_ fun _ => moves_writeByte hd rfl _
  refine moves_bind ?_ fun _ => moves_bind (moves_unlock hd) fun _ => fun s hp => ?_
  · exact moves_pure p _ _
  · refine moves_writeByte hd (a := s.params.cmdAddr.toNat) ?_ s.params.cmdSettleUs s hp
    rw [hp]
    simp [followCommand, cmdProgramByte]

theorem moves_programRange (a : Nat) (vs : List Byte) (cfg : ChipConfig) :
    Moves p .outside .outside (programRange a vs cfg) := by
  refine moves_bind (moves_checkRange p _ _ _) fun _ => ?_
  induction vs generalizing a with
  | nil => exact moves_pure p _ _
  | cons v vs ih => exact moves_bind (moves_programByte hd a v cfg) fun _ => ih _

theorem moves_readSoftwareId : Moves p .outside .outside readSoftwareId :=
  moves_bind (moves_command hd (by simp [cmdIdEntryByte])) fun _ => moves_bind (moves_delay p _ _) fun _ =>
    moves_bind (moves_readByte p _) fun _ => moves_bind (moves_readByte p _) fun _ =>
      moves_bind (moves_command hd (by simp [cmdIdExitByte])) fun _ => moves_pure p _ _

theorem moves_eraseChip : Moves p .outside .outside eraseChip :=
  moves_bind (moves_command hd (by simp [cmdEraseSetupByte])) fun _ => moves_command hd (by simp [cmdChipEraseByte])

omit hd in
theorem moves_eraseWaitIteration (k : Nat) : Moves p .outside .outside (eraseWaitIteration k) :=
  moves_bind (moves_poll p _ _) fun _ => moves_bind (moves_delay p _ _) fun _ =>
    moves_bind (moves_readByte p _) fun _ => moves_bind (moves_readByte p _) fun _ => moves_pure p _ _

omit hd in
theorem moves_reportIf (due : Bool) (n : Nat) : Moves p .outside .outside (reportIf due n) := by
  unfold reportIf
  split
  · exact moves_progress p n
  · exact moves_pure p _ _

omit hd in
theorem moves_blankBytes (offset n i : Nat) : Moves p .outside .outside (blankBytes offset n i) := by
  induction n generalizing i with
  | zero => exact moves_pure p _ _
  | succ n ih =>
    refine moves_bind (moves_poll p _ _) fun _ => moves_bind (moves_readByte p _) fun _ => moves_bind ?_ fun _ =>
      moves_bind (moves_reportIf _ _) fun _ => ih _
    unfold expectErased
    split
    · exact moves_pure p _ _
    · exact moves_raise p _

theorem moves_writeSectors (offset : Nat) (cfg : ChipConfig) (xs : List (List Byte)) (t : Nat) :
    Moves p .outside .outside (writeSectors offset cfg xs t) := by
  induction xs generalizing t with
  | nil => exact moves_pure p _ _
  | cons x xs ih =>
    refine moves_bind (moves_poll p _ _) fun _ => moves_bind ?_ fun _ => moves_bind (moves_progress p _) fun _ => ih _
    unfold programChunk
    split
    · exact moves_bind (moves_programRange hd _ _ _) fun _ => moves_delay p _ _
    · exact moves_pure p _ _

theorem moves_writeBytes (offset n : Nat) (cfg : ChipConfig) (bs : List Byte) (t : Nat) :
    Moves p .outside .outside (writeBytes offset n cfg bs t) := by
  induction bs generalizing t with
  | nil => exact moves_pure p _ _
  | cons b bs ih =>
    refine moves_bind (moves_poll p _ _) fun _ => moves_bind ?_ fun _ => moves_bind (moves_reportIf _ _) fun _ => ih _
    unfold programUnlessErased
    split
    · exact moves_pure p _ _
    · exact moves_bind (moves_programByte hd _ _ _) fun _ => moves_delay p _ _

/-- Every operation that the host may call, but WRITE_BYTE, leaves an observer outside of any command. -/
theorem moves_bodyOf {i : Instr} (h : hostMayCall i = true) (hw : i.mnemonic ≠ .writeByte) :
    Moves p .outside .outside (bodyOf i) := by
  have hrow : ∀ m b, Moves p .outside .outside (checkRow m b) := by
    intro m b
    unfold checkRow
    split
    · exact moves_pure p _ _
    · exact moves_refuse p _ _
  cases i with
  | readByte a => exact moves_bind (moves_readByte p a) fun _ => moves_pure p _ _
  | readSoftwareId => exact moves_bind (moves_readSoftwareId hd) fun _ => moves_pure p _ _
  | identify table =>
    refine moves_bind (moves_bind (moves_readSoftwareId hd) fun id => ?_) fun _ => moves_pure p _ _
    unfold matchChip
    split
    · exact moves_bind (moves_of_ok fun s _ => ⟨(), _, [], rfl, rfl, rfl, by simp, fun _ => ⟨rfl, rfl⟩⟩)
        fun _ => moves_pure p _ _
    · exact moves_raise p _
  | eraseChip => exact moves_bind (moves_eraseChip hd) fun _ => moves_pure p _ _
  | programRange a vs cfg => exact moves_bind (moves_programRange hd a vs cfg) fun _ => moves_pure p _ _
  | eraseWait => exact moves_eraseWaitIteration 0
  | erase => exact moves_bind (moves_eraseChip hd) fun _ => moves_eraseWaitIteration 0
  | blankCheck o n =>
    exact moves_bind (moves_bind (moves_checkRange p _ _ _) fun _ => moves_blankBytes _ _ _) fun _ => moves_pure p _ _
  | writeImage o src cfg =>
    refine moves_bind (moves_bind (moves_checkRange p _ _ _) fun _ => ?_) fun _ => moves_pure p _ _
    unfold writeSelectedMode
    split
    · exact moves_writeBytes hd _ _ _ _ _
    · exact moves_writeSectors hd _ _ _ _
  | writeImageSector o src cfg =>
    exact moves_bind (moves_bind (moves_checkRange p _ _ _) fun _ => moves_bind (hrow _ _) fun _ =>
      moves_writeSectors hd _ _ _ _) fun _ => moves_pure p _ _
  | writeImageByte o src cfg =>
    exact moves_bind (moves_bind (moves_checkRange p _ _ _) fun _ => moves_bind (hrow _ _) fun _ =>
      moves_writeBytes hd _ _ _ _ _) fun _ => moves_pure p _ _
  | _ => simp_all [hostMayCall, visibility, Instr.mnemonic]

end Commands

end Sys2Proof.Machine
end

