-- ==== Sys2Proof/Laws/PerInstr.lean ====
section
/-! SUPPORT. One lemma per operation about its encoding: the opcode table's row gives its length. -/

namespace Sys2Proof.Laws.FrameLength

open Sys2Proof

/-- The bits of the rows of spec/opcode_table.json that encode nothing but bus cycles or an address. -/
def tableBits : Mnemonic → Option Nat
  | .writeAddress => some 24
  | .writeByte => some 32
  | .unlock => some 64
  | .command | .cmdIdEntry | .cmdIdExit | .cmdEraseSetup | .cmdChipErase | .cmdProgram => some 96
  | .programByte => some 128
  | .eraseChip => some 192
  | .readByte | .readSoftwareId | .identify | .programRange | .eraseWait | .erase | .blankCheck
  | .writeImage | .writeImageSector | .writeImageByte => none

/-- The frame of an operation has as many bits as its row of the opcode table, whatever its operands; a row of
reads, of a loop or of a variable length has no frame. -/
def Statement (i : Instr) : Prop := (encodeWire i).map (fun f => 8 * f.length) = tableBits i.mnemonic

theorem writeAddress (a : Nat) : Statement (.writeAddress a) := rfl

theorem writeByte (a : Nat) (v : Byte) (d : Nat) : Statement (.writeByte a v d) := rfl

theorem readByte (a : Nat) : Statement (.readByte a) := rfl

theorem unlock : Statement .unlock := rfl

theorem command (c : Byte) : Statement (.command c) := rfl

theorem cmdIdEntry : Statement .cmdIdEntry := rfl

theorem cmdIdExit : Statement .cmdIdExit := rfl

theorem cmdEraseSetup : Statement .cmdEraseSetup := rfl

theorem cmdChipErase : Statement .cmdChipErase := rfl

theorem cmdProgram : Statement .cmdProgram := rfl

theorem readSoftwareId : Statement .readSoftwareId := rfl

theorem identify (t : List ChipConfig) : Statement (.identify t) := rfl

theorem eraseChip : Statement .eraseChip := rfl

theorem programByte (a : Nat) (v : Byte) (cfg : ChipConfig) : Statement (.programByte a v cfg) := rfl

theorem programRange (start : Nat) (bytes : List Byte) (cfg : ChipConfig) : Statement (.programRange start bytes cfg) := rfl

theorem eraseWait : Statement .eraseWait := rfl

theorem erase : Statement .erase := rfl

theorem blankCheck (offset : Nat) (size : Nat) : Statement (.blankCheck offset size) := rfl

theorem writeImage (offset : Nat) (src : List Byte) (cfg : ChipConfig) : Statement (.writeImage offset src cfg) := rfl

theorem writeImageSector (offset : Nat) (src : List Byte) (cfg : ChipConfig) : Statement (.writeImageSector offset src cfg) := rfl

theorem writeImageByte (offset : Nat) (src : List Byte) (cfg : ChipConfig) : Statement (.writeImageByte offset src cfg) := rfl

end Sys2Proof.Laws.FrameLength
end

