-- ==== Sys2Proof/Laws/Times.lean ====
section
/-! SUPPORT. The step and settle times change the delays and nothing else (rules R251, R252). -/

namespace Sys2Proof.Machine

/-- Parameters with other step and settle times (rule R251). -/
def retimedParams (τ σ : Nat) (p : Params) : Params := { p with tStepUs := τ, cmdSettleUs := σ }
/-- A state with other times, and another trace. -/
def retimed (τ σ : Nat) (tr : List Event) (s : State) : State := { s with params := retimedParams τ σ s.params, trace := tr }

theorem lineBit_retimed (τ σ : Nat) (p : Params) (r : Role) : lineBit (retimedParams τ σ p) r = lineBit p r := by cases r <;> rfl

theorem setLine_retimed (τ σ : Nat) (p : Params) (r : Role) (b : Bool) (c : Byte) : setLine (retimedParams τ σ p) r b c = setLine p r b c := by
  unfold setLine; rw [lineBit_retimed]

theorem setLineList_retimed (τ σ : Nat) (p : Params) (ls : List (Role × Bool)) (c : Byte) : setLineList (retimedParams τ σ p) ls c = setLineList p ls c := by
  unfold setLineList; simp only [setLine_retimed]

theorem getLine_retimed (τ σ : Nat) (p : Params) (r : Role) (c : Byte) : getLine (retimedParams τ σ p) r c = getLine p r c := by
  unfold getLine; rw [lineBit_retimed]

variable {τ σ : Nat}

/-- With other times `m'` does what `m` does, delays apart. -/
def RetimesAt {α : Type} (τ σ : Nat) (m m' : Op α) (s : State) : Prop :=
  ∀ tr, ∃ es es', (endState (m s)).trace = s.trace ++ es ∧ withoutDelays es' = withoutDelays es
    ∧ m' (retimed τ σ tr s) = mapState (retimed τ σ (tr ++ es')) (m s)

/-- The same in every state. -/
def Retimes {α : Type} (τ σ : Nat) (m m' : Op α) : Prop := ∀ s, RetimesAt τ σ m m' s

theorem withoutDelays_append (a b : List Event) : withoutDelays (a ++ b) = withoutDelays a ++ withoutDelays b := by
  simp [withoutDelays]

theorem retimes_pure {α : Type} (a : α) : Retimes τ σ (pure a : Op α) (pure a) := fun s tr =>
  ⟨[], [], by simp [endState], rfl, by simp [mapState]⟩

theorem retimes_bind {α β : Type} {m m' : Op α} {k k' : α → Op β} (hm : Retimes τ σ m m') (hk : ∀ a, Retimes τ σ (k a) (k' a)) :
    Retimes τ σ (m >>= k) (m' >>= k') := by
  intro s tr
  obtain ⟨es, es', h1, h2, h3⟩ := hm s tr
  cases hs : m s with
  | error e t =>
    rw [hs] at h1 h3
    exact ⟨es, es', by rw [bind_error hs]; exact h1, h2, by rw [bind_error hs, bind_error h3]; rfl⟩
  | ok a t =>
    rw [hs] at h1 h3
    obtain ⟨fs, fs', g1, g2, g3⟩ := hk a t (tr ++ es')
    refine ⟨es ++ fs, es' ++ fs', ?_, by rw [withoutDelays_append, withoutDelays_append, h2, g2], ?_⟩
    · rw [bind_ok hs, g1, show t.trace = _ from h1, List.append_assoc]
    · rw [bind_ok hs, bind_ok h3, ← List.append_assoc]; exact g3

theorem retimes_raise {α : Type} (f : Fault) : Retimes τ σ (raise f : Op α) (raise f) := fun s tr =>
  ⟨[], [], by simp [raise, endState, markFault], rfl, by simp [raise, mapState, retimed, markFault]⟩

theorem retimes_refuse {α : Type} (r : Refusal) : Retimes τ σ (refuse r : Op α) (refuse r) := fun s tr =>
  ⟨[], [], by simp [refuse, endState, markRefused], rfl, by simp [refuse, mapState, retimed, markRefused]⟩

theorem retimes_portWrCtrl (b : Byte) : Retimes τ σ (portWrCtrl b) (portWrCtrl b) := by
  intro s tr
  rcases portWrCtrl_cases b s with ⟨h, e⟩ | ⟨h, d, e⟩ | ⟨r, h, d, e⟩
  · exact ⟨[], [], by rw [e]; simp [endState], rfl, by rw [e]; simp [portWrCtrl, retimed, h, refuse, mapState, markRefused]⟩
  · exact ⟨[.wrCtrl b], [.wrCtrl b], by rw [e]; simp [endState, addEvent], rfl, by
      rw [e]; unfold portDrawAt at d; simp [portWrCtrl, portDrawAt, retimed, h, d, mapState, addEvent, countAccess]⟩
  · exact ⟨[.portFail .wrCtrl], [.portFail .wrCtrl], by rw [e]; simp [endState, addEvent], rfl, by
      rw [e]; unfold portDrawAt at d; simp [portWrCtrl, portDrawAt, retimed, h, d, mapState, addEvent, countAccess, raise, markFault]⟩

theorem retimes_portWrData (b : Byte) : Retimes τ σ (portWrData b) (portWrData b) := by
  intro s tr
  rcases portWrData_cases b s with ⟨h, e⟩ | ⟨h, d, e⟩ | ⟨r, h, d, e⟩
  · exact ⟨[], [], by rw [e]; simp [endState], rfl, by rw [e]; simp [portWrData, retimed, h, refuse, mapState, markRefused]⟩
  · exact ⟨[.wrData b], [.wrData b], by rw [e]; simp [endState, addEvent], rfl, by
      rw [e]; unfold portDrawAt at d; simp [portWrData, portDrawAt, retimed, h, d, mapState, addEvent, countAccess]⟩
  · exact ⟨[.portFail .wrData], [.portFail .wrData], by rw [e]; simp [endState, addEvent], rfl, by
      rw [e]; unfold portDrawAt at d; simp [portWrData, portDrawAt, retimed, h, d, mapState, addEvent, countAccess, raise, markFault]⟩

theorem retimes_portRdStatus (x : Option Byte) : Retimes τ σ (portRdStatus x) (portRdStatus x) := by
  intro s tr
  rcases portRdStatus_cases x s with ⟨h, e⟩ | ⟨h, d, e⟩ | ⟨r, h, d, e⟩
  · exact ⟨[], [], by rw [e]; simp [endState], rfl, by rw [e]; simp [portRdStatus, retimed, h, refuse, mapState, markRefused]⟩
  · exact ⟨[.rdStatus (statusByte x s)], [.rdStatus (statusByte x s)], by rw [e]; simp [endState, statusRead], rfl, by
      rw [e]; unfold portDrawAt at d; cases x <;> simp [portRdStatus, portDrawAt, retimed, h, d, mapState, addEvent, countAccess, statusRead, statusByte]⟩
  · exact ⟨[.portFail .rdStatus], [.portFail .rdStatus], by rw [e]; simp [endState, addEvent], rfl, by
      rw [e]; unfold portDrawAt at d; simp [portRdStatus, portDrawAt, retimed, h, d, mapState, addEvent, countAccess, raise, markFault]⟩

theorem retimes_delay (d d' : Nat) : Retimes τ σ (delay d) (delay d') := fun _ _ =>
  ⟨[.delay d], [.delay d'], rfl, rfl, rfl⟩

theorem retimes_progress (n : Nat) : Retimes τ σ (progress n) (progress n) := fun _ _ => ⟨[.progress n], [.progress n], rfl, rfl, rfl⟩

theorem retimes_stepDelay : Retimes τ σ stepDelay stepDelay := fun s _ =>
  ⟨[.delay s.params.tStepUs], [.delay τ], rfl, rfl, rfl⟩

theorem retimes_setLines (ls : List (Role × Bool)) : Retimes τ σ (setLines ls) (setLines ls) := by
  intro s tr
  obtain ⟨es, es', h1, h2, h3⟩ := retimes_portWrCtrl (τ := τ) (σ := σ) (maskCtrl s.params (setLineList s.params ls s.ctrl)) { s with ctrl := setLineList s.params ls s.ctrl } tr
  refine ⟨es, es', h1, h2, ?_⟩
  unfold setLines
  rw [← h3]
  show portWrCtrl (maskCtrl (retimedParams τ σ s.params) (setLineList (retimedParams τ σ s.params) ls s.ctrl)) { retimed τ σ tr s with ctrl := setLineList (retimedParams τ σ s.params) ls s.ctrl } = _
  rw [setLineList_retimed]
  rfl

theorem retimes_setLinesAndWait (ls : List (Role × Bool)) : Retimes τ σ (setLinesAndWait ls) (setLinesAndWait ls) :=
  retimes_bind (retimes_setLines ls) fun _ => retimes_stepDelay

theorem retimes_checkAddr (a : Nat) : Retimes τ σ (checkAddr a) (checkAddr a) := by
  unfold checkAddr; split
  · exact retimes_pure _
  · exact retimes_refuse _

theorem retimes_checkRange (a n : Nat) : Retimes τ σ (checkRange a n) (checkRange a n) := by
  unfold checkRange; split
  · exact retimes_pure _
  · exact retimes_refuse _

theorem retimes_latchSda : Retimes τ σ latchSda latchSda := fun s tr =>
  ⟨[], [], by simp [latchSda, endState], rfl, by
    show EStateM.Result.ok () { retimed τ σ tr s with frameReg := shiftIn s.frameReg (getLine (retimedParams τ σ s.params) .sda s.ctrl) } = _
    rw [getLine_retimed]; simp [latchSda, mapState, retimed]⟩

theorem retimes_addressSlots (a n : Nat) : Retimes τ σ (addressSlots a n) (addressSlots a n) := by
  induction n with
  | zero => exact retimes_pure _
  | succ n ih =>
    exact retimes_bind (retimes_bind (retimes_setLinesAndWait _) fun _ => retimes_bind (retimes_setLines _) fun _ => retimes_bind retimes_latchSda fun _ =>
      retimes_bind retimes_stepDelay fun _ => retimes_setLinesAndWait _) fun _ => ih

theorem retimes_writeAddress (a : Nat) : Retimes τ σ (writeAddress a) (writeAddress a) :=
  retimes_bind (retimes_checkAddr a) fun _ => retimes_addressSlots a 24

theorem retimes_busWrite (v : Byte) : Retimes τ σ (busWrite v) (busWrite v) := by
  intro s tr
  refine ⟨[], [], ?_, rfl, ?_⟩
  · rw [busWrite_eq]; cases h : s.fixture <;> simp [endState, busWritten, h]
  · rw [busWrite_eq, busWrite_eq]
    have hf : (retimed τ σ tr s).fixture = s.fixture := rfl
    cases h : s.fixture <;> simp only [busWritten, hf, h] <;> simp [mapState, retimed]

theorem retimes_busRead : Retimes τ σ busRead busRead := by
  intro s tr
  refine ⟨[], [], ?_, rfl, ?_⟩
  · rw [busRead_eq]; cases h : s.fixture <;> simp [endState, busReadState, h]
  · rw [busRead_eq, busRead_eq]
    have hf : (retimed τ σ tr s).fixture = s.fixture := rfl
    cases h : s.fixture <;> simp only [busReadByte, busReadState, hf, h] <;> simp [mapState, retimed]

theorem retimes_writeByte (a : Nat) (v : Byte) (d d' : Nat) : Retimes τ σ (writeByte a v d) (writeByte a v d') :=
  retimes_bind (retimes_writeAddress a) fun _ => retimes_bind (retimes_portWrData v) fun _ => retimes_bind (retimes_setLines _) fun _ =>
    retimes_bind (retimes_setLines _) fun _ => retimes_bind (retimes_delay d d') fun _ => retimes_bind (retimes_setLines _) fun _ => retimes_busWrite v

theorem retimes_handshake : Retimes τ σ handshake handshake := fun s tr =>
  (retimes_bind (retimes_setLinesAndWait _) fun _ => retimes_bind (retimes_setLinesAndWait _) fun _ => retimes_setLinesAndWait _ : Retimes τ σ (do
      handshakeStep s.params.hs0
      handshakeStep s.params.hs1
      handshakeStep s.params.hs2 : Op Unit) (do
      handshakeStep s.params.hs0
      handshakeStep s.params.hs1
      handshakeStep s.params.hs2 : Op Unit)) s tr

theorem retimes_readPulse : Retimes τ σ readPulse readPulse := retimes_bind (retimes_setLinesAndWait _) fun _ => retimes_setLinesAndWait _

theorem retimes_sampleStatus (x : Option Byte) (i : Nat) : Retimes τ σ (sampleStatus x i) (sampleStatus x i) := fun s tr =>
  (retimes_bind (retimes_portRdStatus (x.map fun u => fixtureStatus s.params u i)) fun b => retimes_pure (sampleBit s.params b)) s tr

theorem retimes_sampleAndPulse (x : Option Byte) (i : Nat) : Retimes τ σ (sampleAndPulse x i) (sampleAndPulse x i) := by
  intro s tr
  have hr' : (retimed τ σ tr s).params.readOrder = s.params.readOrder := rfl
  cases hr : s.params.readOrder with
  | sampleThenPulse =>
    obtain ⟨es, es', h1, h2, h3⟩ := (retimes_bind (retimes_sampleStatus (τ := τ) (σ := σ) x i) fun b => retimes_bind retimes_readPulse fun _ => retimes_pure b) s tr
    exact ⟨es, es', by unfold sampleAndPulse; rw [hr]; exact h1, h2, by unfold sampleAndPulse; rw [hr', hr]; exact h3⟩
  | pulseThenSample =>
    obtain ⟨es, es', h1, h2, h3⟩ := (retimes_bind retimes_readPulse fun _ => retimes_sampleStatus (τ := τ) (σ := σ) x i) s tr
    exact ⟨es, es', by unfold sampleAndPulse; rw [hr]; exact h1, h2, by unfold sampleAndPulse; rw [hr', hr]; exact h3⟩

theorem retimes_readBits (x : Option Byte) (n : Nat) (acc : Byte) : Retimes τ σ (readBits x n acc) (readBits x n acc) := by
  induction n generalizing acc with
  | zero => exact retimes_pure _
  | succ n ih => exact retimes_bind (retimes_sampleAndPulse x n) fun _ => ih _

theorem retimes_readByte (a : Nat) : Retimes τ σ (readByte a) (readByte a) :=
  retimes_bind (retimes_writeAddress a) fun _ => retimes_bind retimes_handshake fun _ => retimes_bind retimes_busRead fun _ => retimes_readBits _ _ _

theorem retimes_commandCycle (a : Nat) (v : Byte) : Retimes τ σ (commandCycle a v) (commandCycle a v) := fun s tr =>
  retimes_writeByte a v s.params.cmdSettleUs σ s tr

theorem retimes_unlock : Retimes τ σ unlock unlock := retimes_bind (retimes_commandCycle _ _) fun _ => retimes_commandCycle _ _

theorem retimes_command (c : Byte) : Retimes τ σ (command c) (command c) := by
  refine retimes_bind ?_ fun _ => retimes_bind retimes_unlock fun _ => fun s tr => retimes_commandCycle s.params.cmdAddr.toNat c s tr
  unfold checkCommand; split
  · exact retimes_pure _
  · exact retimes_refuse _

theorem retimes_readSoftwareId : Retimes τ σ readSoftwareId readSoftwareId :=
  retimes_bind (retimes_command _) fun _ => retimes_bind (retimes_delay _ _) fun _ => retimes_bind (retimes_readByte _) fun _ =>
    retimes_bind (retimes_readByte _) fun _ => retimes_bind (retimes_command _) fun _ => retimes_pure _

theorem retimes_eraseChip : Retimes τ σ eraseChip eraseChip := retimes_bind (retimes_command _) fun _ => retimes_command _

theorem retimes_programByte (a : Nat) (v : Byte) (cfg : ChipConfig) : Retimes τ σ (programByte a v cfg) (programByte a v cfg) :=
  retimes_bind (retimes_checkAddr a) fun _ => retimes_bind (retimes_command _) fun _ => retimes_writeByte _ _ _ _

theorem retimes_programRange (a : Nat) (vs : List Byte) (cfg : ChipConfig) : Retimes τ σ (programRange a vs cfg) (programRange a vs cfg) := by
  refine retimes_bind (retimes_checkRange _ _) fun _ => ?_
  induction vs generalizing a with
  | nil => exact retimes_pure _
  | cons v vs ih => exact retimes_bind (retimes_programByte _ _ _) fun _ => ih _

theorem retimes_pollOrCancel (op : LoopOp) (n : Nat) : Retimes τ σ (pollOrCancel op n) (pollOrCancel op n) := by
  intro s tr
  refine ⟨[.pollCancel (flagAtPoll s)], [.pollCancel (flagAtPoll s)], ?_, rfl, ?_⟩
  · rw [pollOrCancel_eq]; split <;> rfl
  · rw [pollOrCancel_eq, pollOrCancel_eq]
    rw [show flagAtPoll (retimed τ σ tr s) = flagAtPoll s from rfl]
    split <;> rfl

theorem retimes_reportIf (b : Bool) (n : Nat) : Retimes τ σ (reportIf b n) (reportIf b n) := by
  unfold reportIf; split
  · exact retimes_progress n
  · exact retimes_pure _

theorem retimes_eraseWaitIteration (k : Nat) : Retimes τ σ (eraseWaitIteration k) (eraseWaitIteration k) :=
  retimes_bind (retimes_pollOrCancel _ _) fun _ => retimes_bind (retimes_delay _ _) fun _ => retimes_bind (retimes_readByte _) fun _ =>
    retimes_bind (retimes_readByte _) fun _ => retimes_pure _

theorem retimes_blankBytes (o n i : Nat) : Retimes τ σ (blankBytes o n i) (blankBytes o n i) := by
  induction n generalizing i with
  | zero => exact retimes_pure _
  | succ n ih =>
    refine retimes_bind (retimes_pollOrCancel _ _) fun _ => retimes_bind (retimes_readByte _) fun _ => retimes_bind ?_ fun _ => retimes_bind (retimes_reportIf _ _) fun _ => ih _
    unfold expectErased; split
    · exact retimes_pure _
    · exact retimes_raise _

theorem retimes_writeSectors (o : Nat) (cfg : ChipConfig) (xs : List (List Byte)) (t : Nat) : Retimes τ σ (writeSectors o cfg xs t) (writeSectors o cfg xs t) := by
  induction xs generalizing t with
  | nil => exact retimes_pure _
  | cons x xs ih =>
    refine retimes_bind (retimes_pollOrCancel _ _) fun _ => retimes_bind ?_ fun _ => retimes_bind (retimes_progress _) fun _ => ih _
    unfold programChunk; split
    · exact retimes_bind (retimes_programRange _ _ _) fun _ => retimes_delay _ _
    · exact retimes_pure _

theorem retimes_writeBytes (o n : Nat) (cfg : ChipConfig) (bs : List Byte) (t : Nat) : Retimes τ σ (writeBytes o n cfg bs t) (writeBytes o n cfg bs t) := by
  induction bs generalizing t with
  | nil => exact retimes_pure _
  | cons x xs ih =>
    refine retimes_bind (retimes_pollOrCancel _ _) fun _ => retimes_bind ?_ fun _ => retimes_bind (retimes_reportIf _ _) fun _ => ih _
    unfold programUnlessErased; split
    · exact retimes_pure _
    · exact retimes_bind (retimes_programByte _ _ _) fun _ => retimes_delay _ _

theorem retimes_checkRow (m : Mnemonic) (b : Bool) : Retimes τ σ (checkRow m b) (checkRow m b) := by
  unfold checkRow; split
  · exact retimes_pure _
  · exact retimes_refuse _

theorem retimes_done {m : Op Unit} (h : Retimes τ σ m m) : Retimes τ σ (done m) (done m) := retimes_bind h fun _ => retimes_pure _

/-- No operation depends on the two times (rules R251, R252). -/
theorem retimes_bodyOf (i : Instr) : Retimes τ σ (bodyOf i) (bodyOf i) := by
  cases i with
  | writeAddress a => exact retimes_done (retimes_writeAddress a)
  | writeByte a v d => exact retimes_done (retimes_writeByte a v d d)
  | readByte a => exact retimes_bind (retimes_readByte a) fun _ => retimes_pure _
  | unlock => exact retimes_done retimes_unlock
  | command c => exact retimes_done (retimes_command c)
  | cmdIdEntry => exact retimes_done (retimes_command _)
  | cmdIdExit => exact retimes_done (retimes_command _)
  | cmdEraseSetup => exact retimes_done (retimes_command _)
  | cmdChipErase => exact retimes_done (retimes_command _)
  | cmdProgram => exact retimes_done (retimes_command _)
  | readSoftwareId => exact retimes_bind retimes_readSoftwareId fun _ => retimes_pure _
  | identify table =>
    refine retimes_bind (retimes_bind retimes_readSoftwareId fun id => ?_) fun _ => retimes_pure _
    unfold matchChip; split
    · exact retimes_bind (fun s tr => ⟨[], [], by simp [setIdentified, endState], rfl, by simp [setIdentified, mapState, retimed]⟩) fun _ => retimes_pure _
    · exact retimes_raise _
  | eraseChip => exact retimes_done retimes_eraseChip
  | programByte a v cfg => exact retimes_done (retimes_programByte _ _ _)
  | programRange a vs cfg => exact retimes_done (retimes_programRange _ _ _)
  | eraseWait => exact retimes_eraseWaitIteration 0
  | erase => exact retimes_bind retimes_eraseChip fun _ => retimes_eraseWaitIteration 0
  | blankCheck o n => exact retimes_done (retimes_bind (retimes_checkRange _ _) fun _ => retimes_blankBytes _ _ _)
  | writeImage o src cfg =>
    refine retimes_bind (retimes_bind (retimes_checkRange _ _) fun _ => ?_) fun _ => retimes_pure _
    unfold writeSelectedMode; split
    · exact retimes_writeBytes _ _ _ _ _
    · exact retimes_writeSectors _ _ _ _
  | writeImageSector o src cfg =>
    exact retimes_bind (retimes_bind (retimes_checkRange _ _) fun _ => retimes_bind (retimes_checkRow _ _) fun _ => retimes_writeSectors _ _ _ _) fun _ => retimes_pure _
  | writeImageByte o src cfg =>
    exact retimes_bind (retimes_bind (retimes_checkRange _ _) fun _ => retimes_bind (retimes_checkRow _ _) fun _ => retimes_writeBytes _ _ _ _ _) fun _ => retimes_pure _

theorem retimes_checkCall (own : Option ConfigReason) : Retimes τ σ (checkCall own) (checkCall own) := by
  intro s tr
  have hp : paramsProblem (retimedParams τ σ s.params) = paramsProblem s.params := rfl
  refine ⟨[], [], ?_, rfl, ?_⟩
  · rcases checkCall_cases own s with ⟨reason, -, e⟩ | ⟨-, -, e⟩ | ⟨-, -, e⟩ <;> rw [e] <;> simp [endState]
  · rcases checkCall_cases own s with ⟨reason, h, e⟩ | ⟨h, hh, e⟩ | ⟨h, hh, e⟩ <;> rw [e]
    · simp [checkCall, hp, h, refuse, mapState, retimed, markRefused]
    · simp [checkCall, hp, h, hh, refuse, mapState, retimed, markRefused]
    · simp [checkCall, hp, h, hh, mapState, retimed]

end Sys2Proof.Machine
end

