-- ==== Sys2Proof/Tests/Slice0.lean ====
section
/-! SUPPORT. The model's own tests: ill-formed operands, decoding of words written out from the opcode table, one step of
each operation against spec/95_test_vectors.md, and for every obligation with hypotheses a witness that meets them. -/

namespace Sys2Proof.Tests

set_option Elab.async false

open Sys2Proof Sys2Proof.Machine

/-! ### A machine for tests -/

/-- The example configuration EX (40_transport.md). -/
def exParams : Params where
  sdaBit := 0
  sckBit := 1
  pgmBit := 2
  wrBit := 3
  hsaBit := 2
  hsbBit := 3
  ctrlXorMask := 0x00#8
  sinBit := 7
  hs0 := { hsa := false, hsb := true }
  hs1 := { hsa := false, hsb := false }
  hs2 := { hsa := false, hsb := true }
  readOrder := .sampleThenPulse
  tStepUs := 1
  cmdSettleUs := 1
  ctrlIdle := 0x08#8
  chipTable := []
  cmdAddr := 0x5555#24

/-- The entry state under EX, with a port that never fails and a host that never cancels. -/
def ex : State where
  params := exParams
  ctrl := 0x08#8
  data := 0x00#8
  physCtrl := 0x08#8
  physData := 0x00#8
  handle := .opened
  cancelFlag := false
  faulted := none
  refused := none
  trace := []
  outcomes := []
  active := none
  calls := []
  internalsExposed := false
  identified := none
  supplySettled := true
  frameReg := 0x000000#24
  mem := []
  fixture := .none
  oracle :=
    { portScript := [(1000000, .ok)], statusScript := [], hostScript := [(1000000, false)], portIdx := 0,
      statusIdx := 0, pollIdx := 0 }

/-- The chip of the L3 programs. -/
def exChip : JedecChip :=
  { mode := .array, seq := [], armed := false, busy := 0, eraseBusyLoads := 4, mfr := 0x12#8, dev := 0x34#8 }

/-- EX with the transparent memory. -/
def exRam : State := { ex with fixture := .ram, mem := [(0x102, 0x7E#8)] }

/-- EX with the JEDEC chip. -/
def exJedec : State := { ex with fixture := .jedec exChip }

/-- EX with status bytes for the reads. -/
def exReads (script : List (Nat × Byte)) : State := { ex with oracle := { ex.oracle with statusScript := script } }

/-- EX with a port that fails at one access. -/
def exFails (n : Nat) (reached : Bool) : State :=
  { ex with oracle := { ex.oracle with portScript := [(n, .ok), (1, .fail reached), (1000000, .ok)] } }

/-- EX with a host that cancels after `n` polls. -/
def exCancels (n : Nat) : State :=
  { ex with oracle := { ex.oracle with hostScript := [(n, false), (1000000, true)] } }

/-- EX with the handle closed. -/
def exClosed : State := { ex with handle := .closed }

/-- The byte-programmable chip of the vectors. -/
def cfgA : ChipConfig :=
  { id := 0x1234#16, size := 0x20000#32, sectorSize := 0#32, name := "A", maxWriteUsec := 20#32,
    maxChipEraseSec := 10#32 }

/-- The sector-programmed chip of the vectors. -/
def cfgS : ChipConfig :=
  { id := 0xABCD#16, size := 0x40000#32, sectorSize := 4#32, name := "S", maxWriteUsec := 7#32,
    maxChipEraseSec := 10#32 }

/-- A record with a bad sector size. -/
def cfgBad : ChipConfig := { cfgA with sectorSize := 3#32 }

/-- A property of the next state. -/
def after (o : Host.Outcome State Fault Refusal) (k : State → Bool) : Bool :=
  match o with
  | .next t => k t
  | .fault _ => false
  | .refused _ => false

theorem next_of_after {o : Host.Outcome State Fault Refusal} {k : State → Bool} (h : after o k = true) :
    ∃ t, o = .next t ∧ k t = true := by
  cases o with
  | next t => exact ⟨t, rfl, h⟩
  | fault f => cases h
  | refused r => cases h

/-! ### Well-formedness: an ill-formed operand for each check -/

theorem test_wf_refuses_address_write_address : WellFormed (.writeAddress 0x1000000) = false := by decide
theorem test_wf_refuses_address_write_byte : WellFormed (.writeByte 0x1000000 0x00#8 0) = false := by decide
theorem test_wf_refuses_address_read_byte : WellFormed (.readByte 0x1000000) = false := by decide
theorem test_wf_refuses_command_byte : WellFormed (.command 0x00#8) = false := by decide
theorem test_wf_refuses_duplicate_id : WellFormed (.identify [cfgA, cfgS, cfgA]) = false := by decide
theorem test_wf_refuses_table_sector_size : WellFormed (.identify [cfgS, cfgBad]) = false := by decide
theorem test_wf_refuses_address_program : WellFormed (.programByte 0x1000000 0x00#8 cfgA) = false := by decide
theorem test_wf_refuses_sector_size_program : WellFormed (.programByte 0 0x00#8 cfgBad) = false := by decide
theorem test_wf_refuses_range_program : WellFormed (.programRange 0xFFFFFF [0x01#8, 0x02#8] cfgA) = false := by decide
theorem test_wf_refuses_sector_size_range : WellFormed (.programRange 0 [] cfgBad) = false := by decide
theorem test_wf_refuses_range_blank : WellFormed (.blankCheck 0xFFFFFF 2) = false := by decide
theorem test_wf_refuses_range_image : WellFormed (.writeImage 0x1000000 [0x00#8] cfgA) = false := by decide
theorem test_wf_refuses_sector_size_image : WellFormed (.writeImage 0 [] cfgBad) = false := by decide
theorem test_wf_refuses_range_sector : WellFormed (.writeImageSector 0x1000000 [0x00#8] cfgS) = false := by decide
theorem test_wf_refuses_sector_size_sector : WellFormed (.writeImageSector 0 [] cfgBad) = false := by decide
theorem test_wf_refuses_byte_chip_in_sector_mode : WellFormed (.writeImageSector 0 [] cfgA) = false := by decide
theorem test_wf_refuses_range_byte : WellFormed (.writeImageByte 0x1000000 [0x00#8] cfgA) = false := by decide
theorem test_wf_refuses_sector_chip_in_byte_mode : WellFormed (.writeImageByte 0 [] cfgS) = false := by decide
theorem test_wf_takes_the_empty_range_at_the_end : WellFormed (.blankCheck 0x1000000 0) = true := by decide

/-! ### Decoding: words written out from the encodings of opcode_table.json -/

theorem test_decode_write_address :
    decodeTableWord 24 0b000100100011010001010110 = some (.writeAddress 0x123456) := by decide
theorem test_decode_write_byte :
    decodeTableWord 32 0b00000000001010101010101001010101 = some (.writeByte 0x2AAA 0x55#8 0) := by decide
theorem test_decode_unlock :
    decodeTableWord 64 0b0000000001010101010101011010101000000000001010101010101001010101 = some .unlock := by decide
theorem test_decode_command_bytes_have_rows :
    (decodeTableWord 96 0x005555AA002AAA5500555590, decodeTableWord 96 0x005555AA002AAA55005555F0,
      decodeTableWord 96 0x005555AA002AAA5500555580, decodeTableWord 96 0x005555AA002AAA5500555510,
      decodeTableWord 96 0x005555AA002AAA55005555A0)
    = (some .cmdIdEntry, some .cmdIdExit, some .cmdEraseSetup, some .cmdChipErase, some .cmdProgram) := by decide
theorem test_decode_other_command_byte :
    decodeTableWord 96 0x005555AA002AAA5500555533 = some (.command 0x33#8) := by decide
theorem test_decode_program_byte :
    decodeTableWord 128 0x005555AA002AAA55005555A00001235A = some (.programByte 0x123 0x5A#8 zeroChip) := by decide
theorem test_decode_erase_chip :
    decodeTableWord 192 0x005555AA002AAA5500555580005555AA002AAA5500555510 = some .eraseChip := by decide
theorem test_decode_refuses_bad_unlock : decodeTableWord 64 0x005555AA002AAA54 = none := by decide
theorem test_decode_refuses_bad_prefix : decodeTableWord 96 0x005555AA002AAA5500555490 = none := by decide
theorem test_decode_refuses_bad_erase :
    decodeTableWord 192 0x005555AA002AAA5500555580005555AA002AAA5500555511 = none := by decide
theorem test_decode_refuses_other_length : decodeTableWord 40 0 = none := by decide

/-- The names that the L3 programs use. -/
def exNames : List (List Char × ChipConfig) := [("cfgA".toList, cfgA), ("cfgS".toList, cfgS)]

/-- The operation of a line, if it is one. -/
def ofLine (line : String) : Option Instr :=
  match (parseLine exNames line.toList).map decode with
  | some (.ok i) => some i
  | _ => none

theorem test_line_identify :
    ofLine "p1:  IDENTIFY [cfgA, cfgS]          ; table in declaration order" = some (.identify [cfgA, cfgS]) := by
  decide +kernel
theorem test_line_write_image :
    ofLine "p3a: WRITE_IMAGE 0x000010, [0xFF, 0x00, 0xA5, 0xFF], cfgA   ; byte mode"
      = some (.writeImage 0x10 [0xFF#8, 0x00#8, 0xA5#8, 0xFF#8] cfgA) := by
  decide +kernel
theorem test_line_blank_check : ofLine "p2b: BLANK_CHECK 0x000000, 4" = some (.blankCheck 0 4) := by decide +kernel
theorem test_line_erase_has_no_operand : ofLine "p2a: ERASE 1" = none := by decide +kernel
theorem test_line_byte_operand_is_exact : ofLine "WRITE_BYTE 0, 256, 0" = none := by decide +kernel
theorem test_line_unknown_mnemonic : ofLine "ERASE_ALL" = none := by decide +kernel

theorem test_named_operands_decode :
    decode (.named .programRange [.num 4, .bytes [0x01#8], .cfg cfgA]) = .ok (.programRange 4 [0x01#8] cfgA)
      ∧ decode (.named .readSoftwareId []) = .ok .readSoftwareId ∧ decode (.named .eraseWait []) = .ok .eraseWait
      ∧ decode (.named .erase []) = .ok .erase ∧ decode (.named .readByte [.num 7]) = .ok (.readByte 7)
      ∧ decode (.named .writeImageSector [.num 0, .bytes [], .cfg cfgS]) = .ok (.writeImageSector 0 [] cfgS) :=
  ⟨rfl, rfl, rfl, rfl, rfl, rfl⟩

/-! ### One step of each operation; the vector of spec/95_test_vectors.md is named -/

/-- T3: the frame of 0x800001. -/
theorem test_write_address_frame :
    after (exec (.writeAddress 0x800001) ex) (fun t =>
      t.ctrl == 0x09#8 && t.frameReg == 0x800001#24 && t.trace.take 8 == [.wrCtrl 0x09#8, .delay 1, .wrCtrl 0x0B#8,
        .delay 1, .wrCtrl 0x09#8, .delay 1, .wrCtrl 0x08#8, .delay 1] && t.trace.length == 144) = true := by
  decide +kernel

/-- T4. -/
theorem test_write_address_out_of_range :
    after (exec (.writeAddress 0x1000000) ex) (fun t =>
      t.refused == some (.addrRange 0x1000000 1) && t.trace == []) = true := by decide +kernel

/-- T5: the window. -/
theorem test_write_byte_window :
    after (exec (.writeByte 0x2AAA 0x55#8 1) ex) (fun t =>
      (newEvents ex t).drop 144 == [.wrData 0x55#8, .wrCtrl 0x0C#8, .wrCtrl 0x04#8, .delay 1, .wrCtrl 0x0C#8]
        && t.ctrl == 0x0C#8 && t.data == 0x55#8) = true := by decide +kernel

/-- T14: the data write fails. -/
theorem test_write_byte_fails_at_the_data :
    after (exec (.writeByte 0 0x11#8 1) (exFails 72 true)) (fun t =>
      t.faulted == some (.portIo .wrData) && t.data == 0x00#8 && t.physData == 0x11#8
        && t.trace.drop 144 == [.portFail .wrData]) = true := by decide +kernel

/-- T8: the inverted samples. -/
theorem test_read_byte_samples :
    after (exec (.readByte 0) (exReads [(1, 0x00#8), (1, 0x80#8), (1, 0x00#8), (2, 0x80#8), (1, 0x00#8), (1, 0x80#8),
      (1, 0x00#8)])) (fun t =>
      t.outcomes == [.ok (.byte 0xA5#8)] && (t.trace.drop 144).take 7 == [.wrCtrl 0x08#8, .delay 1, .wrCtrl 0x00#8,
        .delay 1, .wrCtrl 0x08#8, .delay 1, .rdStatus 0x00#8] && t.trace.length == 190) = true := by decide +kernel

/-- T15: the fourth status read fails. -/
theorem test_read_byte_fails_at_a_sample :
    after (exec (.readByte 0x40) { exFails 84 false with fixture := .ram }) (fun t =>
      t.faulted == some (.portIo .rdStatus) && t.oracle.portIdx == 85 && t.trace.length == 166) = true := by
  decide +kernel

/-- K1, on the transparent memory. -/
theorem test_unlock_cycles :
    after (exec .unlock exRam) (fun t =>
      t.mem == [(0x102, 0x7E#8), (0x2AAA, 0x55#8), (0x5555, 0xAA#8)] && t.data == 0x55#8
        && t.oracle.portIdx == 152) = true := by decide +kernel

/-- K3. -/
theorem test_command_refuses_other_bytes :
    after (exec (.command 0x00#8) ex) (fun t => t.refused == some (.badCommand 0x00#8) && t.trace == []) = true := by
  decide +kernel

/-- K2. -/
theorem test_command_enters_id_mode :
    after (exec (.command 0x90#8) exJedec) (fun t =>
      t.fixture == .jedec { exChip with mode := .id } && t.oracle.portIdx == 228) = true := by decide +kernel

/-- R96: each command row sends its own byte. -/
theorem test_command_rows_send_their_bytes :
    [Instr.cmdIdEntry, .cmdIdExit, .cmdEraseSetup, .cmdChipErase, .cmdProgram].map (fun i =>
      after (exec i exRam) fun t => t.frameReg == 0x5555#24 && t.data == (match i with
        | .cmdIdEntry => 0x90#8
        | .cmdIdExit => 0xF0#8
        | .cmdEraseSetup => 0x80#8
        | .cmdChipErase => 0x10#8
        | _ => 0xA0#8)) = [true, true, true, true, true] := by decide +kernel

/-- K4. -/
theorem test_read_software_id :
    after (exec .readSoftwareId exJedec) (fun t =>
      t.outcomes == [.ok (.id 0x1234#16)] && t.fixture == exJedec.fixture && t.ctrl == 0x0D#8 && t.data == 0xF0#8
        && t.oracle.portIdx == 654) = true := by decide +kernel

/-- K7. -/
theorem test_identify_finds :
    after (exec (.identify [cfgS, cfgA]) exJedec) (fun t =>
      t.outcomes == [.ok (.chip cfgA)] && t.identified == some cfgA) = true := by decide +kernel

/-- F4: the table is refused first. -/
theorem test_identify_refuses_duplicates :
    after (exec (.identify [cfgA, cfgA]) exClosed) (fun t =>
      t.refused == some (.configInvalid (.duplicateId 0x1234#16)) && t.trace == []) = true := by decide +kernel

/-- K10. -/
theorem test_erase_chip :
    after (exec .eraseChip { exJedec with mem := [(0x102, 0x7E#8)] }) (fun t =>
      t.mem == [] && t.fixture == .jedec { exChip with busy := 4 } && t.oracle.portIdx == 456) = true := by
  decide +kernel

/-- K11. -/
theorem test_program_byte :
    after (exec (.programByte 0x123 0x5A#8 cfgA) exJedec) (fun t =>
      t.mem == [(0x123, 0x5A#8)] && t.fixture == exJedec.fixture && t.oracle.portIdx == 304) = true := by decide +kernel

/-- K13, with a second byte that can be seen in an erased memory. -/
theorem test_program_range :
    after (exec (.programRange 4 [0x01#8, 0xFE#8] cfgA) exJedec) (fun t =>
      t.mem == [(4, 0x01#8), (5, 0xFE#8)] && t.fixture == exJedec.fixture && t.oracle.portIdx == 608) = true := by
  decide +kernel

/-- K14: the range is checked whole. -/
theorem test_program_range_out_of_range :
    after (exec (.programRange 0xFFFFFF [0x01#8, 0x02#8] cfgA) ex) (fun t =>
      t.refused == some (.addrRange 0xFFFFFF 2) && t.trace == []) = true := by decide +kernel

/-- S4, first pair: (FF, BF) does not end the loop. -/
theorem test_erase_wait_needs_two :
    after (exec .eraseWait (exReads [(9, 0x00#8), (1, 0x80#8), (100, 0x00#8)])) (fun t =>
      t.active == some 1 && t.outcomes == [] && t.trace.take 2 == [.pollCancel false, .delay 100000]
        && t.oracle.portIdx == 198) = true := by decide +kernel

/-- S3. -/
theorem test_erase_wait_ends :
    after (exec .eraseWait exJedec) (fun t => t.active == none && t.outcomes == [.ok .none]) = true := by decide +kernel

/-- S6. -/
theorem test_erase_cancelled_after_the_command :
    after (exec .erase { ex with cancelFlag := true }) (fun t =>
      t.outcomes == [.cancelled .eraseWait 0] && t.oracle.portIdx == 456 && t.oracle.pollIdx == 1) = true := by
  decide +kernel

/-- P2, the erase and the first pair: (BF, FF). -/
theorem test_erase_first_pair :
    after (exec .erase exJedec) (fun t => t.active == some 1 && t.fixture == .jedec { exChip with busy := 2 }) = true := by
  decide +kernel

/-- L1.5. -/
theorem test_blank_check_mismatch :
    after (exec (.blankCheck 0x100 8) exRam) (fun t =>
      t.outcomes == [.fault (.blankCheckMismatch 0x102 0x7E#8)] && t.oracle.portIdx == 297
        && t.oracle.pollIdx == 3) = true := by decide +kernel

/-- S10 and F6: the closed handle comes before the range. -/
theorem test_blank_check_closed_and_out_of_range :
    after (exec (.blankCheck 0xFFFFFF 2) exClosed) (fun t => t.refused == some .handleClosed && t.trace == []) = true := by
  decide +kernel

/-- P3, its first line. -/
theorem test_write_image_in_byte_mode :
    after (exec (.writeImage 0x10 [0xFF#8, 0x00#8, 0xA5#8, 0xFF#8] cfgA) exJedec) (fun t =>
      t.outcomes == [.ok (.count 4)] && t.mem == [(0x11, 0x00#8), (0x12, 0xA5#8)]
        && t.oracle.portIdx == 608 && t.oracle.pollIdx == 4) = true := by decide +kernel

/-- S16. -/
theorem test_write_image_sector_short_chunk :
    after (exec (.writeImageSector 0x100 [0xFF#8, 0xFF#8, 0xFF#8, 0xFF#8, 0xFF#8, 0x42#8] cfgS) exJedec) (fun t =>
      t.outcomes == [.ok (.count 6)] && t.mem == [(0x105, 0x42#8)] && t.oracle.portIdx == 608) = true := by
  decide +kernel

/-- L1.7 in small: chunks of erased bytes issue nothing. -/
theorem test_write_image_skips_erased_chunks :
    after (exec (.writeImage 0 [0xFF#8, 0xFF#8, 0xFF#8, 0xFF#8, 0xFF#8, 0xFF#8] cfgS) ex) (fun t =>
      t.trace == [.pollCancel false, .progress 4, .pollCancel false, .progress 6]) = true := by decide +kernel

/-- The model's own refusal. -/
theorem test_write_image_sector_needs_a_sector_chip :
    after (exec (.writeImageSector 0 [] cfgA) ex) (fun t => t.refused == some (.rowNotSelected .writeImageSector)) = true := by
  decide +kernel

/-- S14. -/
theorem test_write_image_byte_cancelled :
    after (exec (.writeImageByte 0 [0x01#8, 0xFF#8, 0x02#8, 0x03#8] cfgA) { exCancels 2 with fixture := exJedec.fixture })
      (fun t => t.outcomes == [.cancelled .writeImage 2] && t.mem == [(0, 0x01#8)]
        && t.oracle.portIdx == 304 && t.oracle.pollIdx == 3) = true := by decide +kernel

/-- The model's own refusal. -/
theorem test_write_image_byte_needs_a_byte_chip :
    after (exec (.writeImageByte 0 [] cfgS) ex) (fun t => t.refused == some (.rowNotSelected .writeImageByte)) = true := by
  decide +kernel

/-- K11's data cycle with its window (R117, R246), the sleep after it (R245), and the marks of the loops. -/
theorem test_marks_of_a_cycle :
    marksOf exParams { view := { sck := false, sr := 0x123#24 }, phase := 0 } [.wrData 0x5A#8, .wrCtrl 0x0C#8,
      .wrCtrl 0x04#8, .delay 20, .wrCtrl 0x0C#8, .delay 7, .progress 3, .delay 1, .rdStatus 0x00#8, .pollCancel true]
    = [.cycle (0x123, 0x5A#8), .window 20, .sleep 7, .report 3, .sample, .poll true] := by decide

/-- R98: the cycles of 0xA0 wait for their data cycle; a read between them breaks command integrity (R244). -/
theorem test_command_places :
    commandPlace 0x5555 [.cycle (0x5555, 0xAA#8), .window 1, .cycle (0x2AAA, 0x55#8), .cycle (0x5555, 0xA0#8)] .outside
        = some .dataDue
      ∧ commandPlace 0x5555 [.cycle (0x5555, 0xAA#8), .sample] .outside = none
      ∧ commandPlace 0x5555 [.cycle (0x5555, 0x55#8)] .outside = none := by decide

/-- I1 and R90: the host may not call UNLOCK or COMMAND; nothing runs. -/
theorem test_internal_calls_are_refused :
    step { ex with calls := [.named .unlock []] } = .refused (.internalOperation .unlock)
      ∧ step { ex with calls := [.named .command [.num 0xA0]] } = .refused (.internalOperation .command) := ⟨rfl, rfl⟩

/-- R68: past the script no access fails under a fixture. -/
theorem test_fixture_port_never_fails :
    portDrawAt { exRam with oracle := { exRam.oracle with portScript := [] } } 7 = .ok := rfl

/-! ### Witnesses: for each obligation with hypotheses, states and operands that meet them -/

theorem ports_ok {s : State} {n : Nat} (h : s.oracle.portScript = [(1000000, .ok)])
    (hn : s.oracle.portIdx + n ≤ 1000000) : PortsOk n s := by
  intro k hk
  have hlt : s.oracle.portIdx + k < 1000000 := by omega
  simp [portDrawAt, h, scriptAt, hlt]

theorem not_cancelled {s : State} {m n : Nat} {rest : List (Nat × Bool)} (hc : s.cancelFlag = false)
    (h : s.oracle.hostScript = (m, false) :: rest) (hn : s.oracle.pollIdx + n ≤ m) : NotCancelled n s := by
  refine ⟨hc, fun k hk => ?_⟩
  have hlt : s.oracle.pollIdx + k < m := by omega
  simp [hostSets, h, scriptAt, hlt]

theorem can_start {s : State} (hf : s.faulted = none) (hr : s.refused = none) (hp : s.params = exParams)
    (hh : s.handle = .opened) : CanStart s := ⟨⟨hf, hr⟩, hp ▸ by decide, hh⟩

theorem ex_starts : CanStart ex := can_start rfl rfl rfl rfl

theorem exJedec_starts : CanStart exJedec := can_start rfl rfl rfl rfl

theorem exRam_starts : CanStart exRam := can_start rfl rfl rfl rfl

theorem ex_ports {n : Nat} (h : n ≤ 1000000) : PortsOk n ex := ports_ok rfl (by simp [ex]; exact h)

theorem exJedec_ports {n : Nat} (h : n ≤ 1000000) : PortsOk n exJedec := ports_ok rfl (by simp [exJedec, ex]; exact h)

theorem exRam_ports {n : Nat} (h : n ≤ 1000000) : PortsOk n exRam := ports_ok rfl (by simp [exRam, ex]; exact h)

theorem witness_frame_decodes_to_its_operation :
    encodeWire (.writeAddress 0xFFFFFF) = some [0xFF#8, 0xFF#8, 0xFF#8]
      ∧ ∀ r, addrOperand (.writeAddress 0xFFFFFF) = some r → r.1 + r.2 ≤ addrSpace :=
  ⟨by decide, fun r h => by cases h; decide⟩

theorem witness_decoded_frame_is_the_encoding :
    decodeWire [0x00#8, 0x55#8, 0x55#8, 0xAA#8] = .ok (.writeByte 0x5555 0xAA#8 0) := rfl

theorem witness_wire_shows_the_encoding :
    encodeWire .unlock = some [0x00#8, 0x55#8, 0x55#8, 0xAA#8, 0x00#8, 0x2A#8, 0xAA#8, 0x55#8]
      ∧ Instr.unlock.mnemonic ≠ .writeAddress ∧ CanStart ex ∧ WellFormed .unlock = true
      ∧ ex.params.cmdAddr = decidedCmdAddr ∧ PortsOk (19 * 8) ex :=
  ⟨by decide, by decide, ex_starts, rfl, rfl, ex_ports (by decide)⟩

/-- The host asks for a chip erase. -/
def exHost : State := { ex with calls := [.named .eraseChip []] }

/-- The host asks for an internal operation. -/
def exInner : State := { ex with calls := [.named .unlock []] }

theorem witness_step_runs_the_next_call :
    (exHost.active = none ∧ exHost.calls = .named .eraseChip [] :: [] ∧ decode (.named .eraseChip []) = .ok .eraseChip
        ∧ Instr.eraseChip.mnemonic ∉ [Mnemonic.writeAddress, .unlock, .command, .cmdIdEntry, .cmdIdExit,
          .cmdEraseSetup, .cmdChipErase, .cmdProgram, .programByte])
      ∧ ({ exInner with internalsExposed := true } : State).internalsExposed = true
      ∧ (exInner.active = none ∧ exInner.calls = .named .unlock [] :: [] ∧ decode (.named .unlock []) = .ok .unlock
        ∧ exInner.internalsExposed = false ∧ Running exInner
        ∧ Instr.unlock.mnemonic ∈ [Mnemonic.writeAddress, .unlock, .command, .cmdIdEntry, .cmdIdExit,
          .cmdEraseSetup, .cmdChipErase, .cmdProgram, .programByte]) :=
  ⟨⟨rfl, rfl, rfl, by decide⟩, rfl, rfl, rfl, rfl, rfl, ⟨rfl, rfl⟩, by decide⟩

theorem witness_step_runs_the_placed_word :
    decodeTableWord 64 0x005555AA002AAA55 = some .unlock
      ∧ (ex.withFetchWord 64 0x005555AA002AAA55).internalsExposed = true
      ∧ decodeTableWord 32 0x002AAA55 = some (.writeByte 0x2AAA 0x55#8 0)
      ∧ (ex.withFetchWord 32 0x002AAA55).internalsExposed = false := by decide

theorem witness_step_without_an_operation :
    Running ex ∧ ex.active = none ∧ ex.calls = []
      ∧ ({ ex with calls := [.wire []] } : State).calls = .wire [] :: [] ∧ decode (.wire []) = .error (.frameLength 0) :=
  ⟨⟨rfl, rfl⟩, rfl, rfl, rfl, rfl⟩

theorem witness_ended_run_goes_no_further :
    ({ ex with faulted := some (.portIo .wrCtrl) } : State).faulted = some (.portIo .wrCtrl)
      ∧ ({ ex with refused := some .handleClosed } : State).faulted = none
      ∧ ({ ex with refused := some .handleClosed } : State).refused = some .handleClosed := ⟨rfl, rfl, rfl⟩

theorem witness_mark_is_set_by_its_outcome :
    Running (exFails 0 true) ∧ Running exClosed
      ∧ (∃ t, exec .unlock (exFails 0 true) = .next t ∧ decide (t.faulted = some (.portIo .wrCtrl)) = true)
      ∧ ∃ t, exec .unlock exClosed = .next t ∧ decide (t.refused = some .handleClosed) = true :=
  ⟨⟨rfl, rfl⟩, ⟨rfl, rfl⟩, next_of_after (by decide +kernel), next_of_after (by decide +kernel)⟩

theorem witness_ports :
    exClosed.handle = .closed
      ∧ (ex.handle = .opened ∧ portDrawAt ex ex.oracle.portIdx = .ok)
      ∧ ((exFails 0 true).handle = .opened
        ∧ portDrawAt (exFails 0 true) (exFails 0 true).oracle.portIdx = .fail true)
      ∧ portDrawAt (exFails 0 false) (exFails 0 false).oracle.portIdx = .fail false :=
  ⟨rfl, ⟨rfl, rfl⟩, ⟨rfl, rfl⟩, rfl⟩

theorem witness_set_lines_is_one_write : lineBit ex.params .sda ≠ lineBit ex.params .sck := by decide

theorem witness_poll_reads_the_sticky_flag :
    (ex.cancelFlag || hostSets (exCancels 0).oracle (exCancels 0).oracle.pollIdx) = true
      ∧ ({ ex with cancelFlag := true } : State).cancelFlag = true := ⟨rfl, rfl⟩

theorem witness_write_address : CanStart ex ∧ 0xFFFFFF < addrSpace ∧ PortsOk 72 ex :=
  ⟨ex_starts, by decide, ex_ports (by decide)⟩

theorem witness_write_byte : CanStart ex ∧ 0xFFFFFF < addrSpace ∧ PortsOk 76 ex :=
  ⟨ex_starts, by decide, ex_ports (by decide)⟩

theorem witness_read_byte :
    (CanStart ex ∧ 0xFFFFFF < addrSpace ∧ PortsOk 99 ex ∧ targetAnswer ex 0xFFFFFF = none)
      ∧ CanStart exRam ∧ PortsOk 99 exRam ∧ targetAnswer exRam 0x102 = some 0x7E#8 :=
  ⟨⟨ex_starts, by decide, ex_ports (by decide), rfl⟩, exRam_starts, exRam_ports (by decide), rfl⟩

/-- R27, in the words of the rule: four bits, SDA and SCK apart, the handshake on the bits of PGM and WR. -/
theorem witness_roles : rolesOk exParams = true ∧ RolesMeet exParams :=
  ⟨by decide, fun r => by cases r <;> decide, fun r => by cases r <;> decide, by decide, by decide, [0, 1, 2, 3],
    by decide, fun r => by cases r <;> decide⟩

/-- R27: each of (a) to (d) alone can fail: SCK on the bit of HSA, PGM on that of WR, HSA on that of HSB, and five
bits. -/
theorem test_role_constraints :
    [rolesOk { exParams with sckBit := 2 }, rolesOk { exParams with pgmBit := 3 }, rolesOk { exParams with hsaBit := 3 },
      rolesOk { exParams with hsbBit := 4 }] = [false, false, false, false] := by decide

/-- R8: the ends of the range of `sector_size`, and beside a power of two. -/
theorem test_sector_sizes :
    [0#32, 1#32, 0x80000000#32, 3#32, 0x80000001#32, 0xFFFFFFFF#32].map (fun n => sectorSizeOk { cfgA with sectorSize := n })
      = [true, true, true, false, false, false] := by decide +kernel

/-- An ERASE_WAIT that has polled once, and the chip is still busy. -/
def exWaiting : State := { exJedec with fixture := .jedec { exChip with busy := 4 }, active := some 1 }

/-- A later iteration of it that a port failure ends. -/
def exWaitingFails : State :=
  { exWaiting with oracle := { ex.oracle with portScript := [(72, .ok), (1, .fail true)] } }

/-- A later iteration of it that the host ends. -/
def exWaitingCancels : State := { exWaiting with oracle := (exCancels 0).oracle }

theorem advances_step {s : State} {k : State → Bool} (h : after (step s) k = true) (ha : s.active ≠ none) :
    ∃ t, Advances s t ∧ k t = true := by
  obtain ⟨t, e, hk⟩ := next_of_after h
  exact ⟨t, .inr ⟨ha, e⟩, hk⟩

theorem advances_exec {s : State} {i : Instr} {k : State → Bool} (h : after (exec i s) k = true) :
    ∃ t, Advances s t ∧ k t = true := by
  obtain ⟨t, e, hk⟩ := next_of_after h
  exact ⟨t, .inl ⟨i, e⟩, hk⟩

theorem witness_port_failure_ends_the_operation :
    (∃ t, Advances (exFails 72 true) t ∧ decide (t.faulted = some (.portIo .wrData)) = true)
      ∧ exWaitingFails.fixture ≠ .none
      ∧ ∃ t, Advances exWaitingFails t ∧ decide (t.faulted = some (.portIo .wrCtrl)) = true :=
  ⟨advances_exec (i := .writeByte 0 0x11#8 1) (by decide +kernel), by decide, advances_step (by decide +kernel) (by decide)⟩

theorem witness_refusal_is_decided_first :
    Running exClosed ∧ refusalOf exClosed (.command 0x00#8) = some .handleClosed
      ∧ Running ex ∧ refusalOf ex (.command 0x00#8) = some (.badCommand 0x00#8)
      ∧ refusalOf ex (.command 0x90#8) = none :=
  ⟨⟨rfl, rfl⟩, by decide +kernel, ⟨rfl, rfl⟩, by decide +kernel, by decide +kernel⟩

/-- A machine whose SDA and SCK share a bit. -/
def exBadRoles : State := { ex with params := { exParams with sckBit := 0 } }

/-- R8, R27, R32: each reason of CONFIG_INVALID stands in a running state, and is what is reported. -/
theorem witness_configuration_is_refused :
    (Running exBadRoles ∧ ConfigError exBadRoles.params .unlock .roleBits
        ∧ ∃ t, exec .unlock exBadRoles = .next t ∧ decide (t.refused = some (.configInvalid .roleBits)) = true)
      ∧ (ConfigError ex.params (.identify [cfgA, cfgS, cfgA]) (.duplicateId 0x1234#16)
        ∧ ∃ t, exec (.identify [cfgA, cfgS, cfgA]) ex = .next t
            ∧ decide (t.refused = some (.configInvalid (.duplicateId 0x1234#16))) = true)
      ∧ ConfigError ex.params (.programByte 0 0x11#8 cfgBad) (.badSectorSize 3)
      ∧ ∃ t, exec (.programByte 0 0x11#8 cfgBad) ex = .next t
          ∧ decide (t.refused = some (.configInvalid (.badSectorSize 3))) = true :=
  ⟨⟨⟨rfl, rfl⟩, fun h => h.sdaDedicated .sck (by decide) rfl, next_of_after (by decide +kernel)⟩,
    ⟨⟨_, .inr rfl, 0, 2, cfgA, cfgA, by decide, rfl, rfl, rfl, rfl⟩, next_of_after (by decide +kernel)⟩,
    ⟨fun h => absurd ((sectorSizeOk_iff cfgBad).mpr h) (by decide +kernel), cfgBad, .inr rfl, rfl⟩,
    next_of_after (by decide +kernel)⟩

theorem witness_address_range_is_checked :
    CanStart ex
      ∧ (addrOperand (.writeAddress 0x1000000) = some (0x1000000, 1) ∧ ownProblem (.writeAddress 0x1000000) = none
        ∧ ¬0x1000000 + 1 ≤ 16777216)
      ∧ (addrOperand (.writeAddress 0xFFFFFF) = some (0xFFFFFF, 1) ∧ ownProblem (.writeAddress 0xFFFFFF) = none
        ∧ 0xFFFFFF + 1 ≤ 16777216)
      ∧ addrOperand (.blankCheck 0x1000000 0) = some (0x1000000, 0) ∧ ownProblem (.blankCheck 0x1000000 0) = none
      ∧ 0x1000000 + 0 ≤ 16777216 := ⟨ex_starts, by decide, by decide, by decide⟩

theorem witness_closed_handle_is_refused :
    Running exClosed ∧ paramsProblem exClosed.params = none ∧ ownProblem .unlock = none ∧ exClosed.handle = .closed :=
  ⟨⟨rfl, rfl⟩, by decide, rfl, rfl⟩

theorem witness_bad_command_byte_is_refused :
    CanStart ex ∧ PortsOk 228 ex ∧ 0x90#8 ∈ [0x90#8, 0xF0#8, 0x80#8, 0x10#8, 0xA0#8]
      ∧ 0x00#8 ∉ [0x90#8, 0xF0#8, 0x80#8, 0x10#8, 0xA0#8] := ⟨ex_starts, ex_ports (by decide), by decide, by decide⟩

theorem witness_well_formed_is_never_refused :
    CanStart ex ∧ WellFormed (.writeAddress 0xFFFFFF) = true ∧ WellFormed (.writeAddress 0x1000000) = false
      ∧ WellFormed (.identify [cfgA, cfgA]) = false ∧ WellFormed (.writeImage 0 [] cfgBad) = false
      ∧ (∃ t, exec (.writeAddress 0xFFFFFF) ex = .next t ∧ decide (t.refused = none) = true)
      ∧ ∃ t, exec (.writeAddress 0x1000000) ex = .next t ∧ decide (t.refused = some (.addrRange 0x1000000 1)) = true :=
  ⟨ex_starts, by decide, by decide, by decide, by decide, next_of_after (by decide +kernel),
    next_of_after (by decide +kernel)⟩

theorem witness_commands_are_their_bus_cycles :
    (∃ cs, operationSequence ex.params (.programRange 0xFFFFFF [0x5A#8] cfgA) = some cs ∧ cs.length = 4)
      ∧ CanStart ex ∧ WellFormed (.programRange 0xFFFFFF [0x5A#8] cfgA) = true ∧ PortsOk (76 * 4) ex :=
  ⟨⟨_, rfl, rfl⟩, ex_starts, by decide, ex_ports (by decide)⟩

theorem witness_expansions_are_exact :
    WellFormed .erase = true ∧ expansion ex.params .erase = some [.eraseChip, .eraseWait] := ⟨rfl, rfl⟩

theorem witness_command_event_counts :
    ruleCounts (.programRange 0 [] cfgA) = some ⟨0, 0, 0, 0, 0, 0, 0⟩
      ∧ ruleCounts .readSoftwareId = some ⟨632, 6, 16, 0, 621, 0, 0⟩ ∧ CanStart ex
      ∧ WellFormed .readSoftwareId = true ∧ PortsOk (632 + 6 + 16) ex :=
  ⟨rfl, rfl, ex_starts, rfl, ex_ports (by decide)⟩

theorem witness_read_software_id : CanStart ex ∧ PortsOk 654 ex ∧ ex.fixture = .none :=
  ⟨ex_starts, ex_ports (by decide), rfl⟩

theorem witness_identify_looks_up_the_id :
    CanStart exJedec ∧ tableProblem [cfgS, cfgA] = none ∧ PortsOk 654 exJedec
      ∧ (∃ u, exec .readSoftwareId exJedec = .next u ∧ decide (u.outcomes = [.ok (.id 0x1234#16)]) = true)
      ∧ (∀ c ∈ [cfgS], c.id ≠ 0x1234#16) ∧ cfgA.id = 0x1234#16 :=
  ⟨exJedec_starts, by decide, exJedec_ports (by decide), next_of_after (by decide +kernel), by decide, rfl⟩

theorem witness_erase_wait_iteration :
    (CanStart ex ∧ PortsOk 198 ex ∧ NotCancelled 1 ex)
      ∧ CanStart { ex with active := some 1 } ∧ ({ ex with active := some 1 } : State).active = some 1 :=
  ⟨⟨ex_starts, ex_ports (by decide), not_cancelled rfl rfl (by decide)⟩, can_start rfl rfl rfl rfl, rfl⟩

/-- The chip of the vectors while it erases, and the host waits. -/
def exErasing : State :=
  { exJedec with fixture := .jedec { exChip with busy := 4 }, calls := [.named .eraseWait []] }

theorem witness_erase_wait_ends_at_the_first_erased_pair :
    CanStart exErasing ∧ exErasing.active = none ∧ exErasing.calls = .named .eraseWait [] :: []
      ∧ decode (.named .eraseWait []) = .ok .eraseWait ∧ PortsOk (198 * 3) exErasing ∧ NotCancelled 3 exErasing
      ∧ (∀ k, k < 2 → pairErased exErasing k = false) ∧ pairErased exErasing 2 = true :=
  ⟨can_start rfl rfl rfl rfl, rfl, rfl, rfl, ports_ok rfl (by decide), not_cancelled rfl rfl (by decide),
    by decide +kernel, by decide +kernel⟩

theorem witness_erase_issues_the_command_first :
    CanStart ex ∧ PortsOk 654 ex ∧ NotCancelled 1 ex
      ∧ CanStart (exCancels 0) ∧ PortsOk 654 (exCancels 0)
      ∧ ((exCancels 0).cancelFlag || hostSets (exCancels 0).oracle (exCancels 0).oracle.pollIdx) = true :=
  ⟨ex_starts, ex_ports (by decide), not_cancelled rfl rfl (by decide), can_start rfl rfl rfl rfl,
    ports_ok rfl (by decide), rfl⟩

theorem witness_erase_wait_is_cancelled :
    CanStart { exCancels 0 with active := some 1 }
      ∧ (false || hostSets (exCancels 0).oracle (exCancels 0).oracle.pollIdx) = true :=
  ⟨can_start rfl rfl rfl rfl, rfl⟩

theorem witness_blank_check_passes :
    CanStart exRam ∧ 0x100 + 2 ≤ addrSpace ∧ PortsOk (99 * 2) exRam ∧ NotCancelled 2 exRam
      ∧ ∀ j, j < 2 → answerAt exRam (0x100 + j) j = 0xFF#8 :=
  ⟨exRam_starts, by decide, exRam_ports (by decide), not_cancelled rfl rfl (by decide), by decide +kernel⟩

theorem witness_blank_check_stops :
    CanStart exRam ∧ 0x100 + 8 ≤ addrSpace ∧ 2 < 8 ∧ PortsOk (99 * 3) exRam ∧ NotCancelled 3 exRam
      ∧ (∀ j, j < 2 → answerAt exRam (0x100 + j) j = 0xFF#8) ∧ answerAt exRam (0x100 + 2) 2 ≠ 0xFF#8 :=
  ⟨exRam_starts, by decide, by decide, exRam_ports (by decide), not_cancelled rfl rfl (by decide), by decide +kernel,
    by decide +kernel⟩

theorem witness_blank_check_is_cancelled :
    CanStart { exCancels 1 with fixture := .ram } ∧ 0x100 + 2 ≤ addrSpace ∧ 1 < 2
      ∧ PortsOk (99 * 1) { exCancels 1 with fixture := .ram } ∧ CancelledAfter 1 { exCancels 1 with fixture := .ram }
      ∧ ∀ j, j < 1 → answerAt { exCancels 1 with fixture := .ram } (0x100 + j) j = 0xFF#8 :=
  ⟨can_start rfl rfl rfl rfl, by decide, by decide, ports_ok rfl (by decide),
    ⟨not_cancelled rfl rfl (by decide), rfl⟩, by decide +kernel⟩

theorem witness_write_image_byte_mode :
    cfgA.sectorSize = 0#32 ∧ CanStart ex ∧ 0xFFFFFE + [0x01#8, 0xFF#8].length ≤ addrSpace
      ∧ PortsOk (76 * (byteModeSequence ex.params cfgA 0xFFFFFE [0x01#8, 0xFF#8]).length) ex
      ∧ NotCancelled [0x01#8, 0xFF#8].length ex :=
  ⟨rfl, ex_starts, by decide, ex_ports (by decide +kernel), not_cancelled rfl rfl (by decide)⟩

theorem witness_write_image_sector_mode :
    cfgS.sectorSize ≠ 0#32 ∧ sectorSizeOk cfgS = true
      ∧ [[0x01#8, 0xFF#8, 0xFF#8, 0xFF#8], [0xFF#8]] = chunksOf cfgS.sectorSize.toNat 5 [0x01#8, 0xFF#8, 0xFF#8, 0xFF#8, 0xFF#8]
      ∧ CanStart ex ∧ 0xFFFFFB + 5 ≤ addrSpace
      ∧ PortsOk (76 * (sectorModeSequence ex.params cfgS 0xFFFFFB [[0x01#8, 0xFF#8, 0xFF#8, 0xFF#8], [0xFF#8]]).length) ex
      ∧ NotCancelled 2 ex :=
  ⟨by decide, by decide, by decide, ex_starts, by decide, ex_ports (by decide +kernel), not_cancelled rfl rfl (by decide)⟩

theorem witness_chunks : 0 < cfgS.sectorSize.toNat := by decide

theorem witness_write_image_is_cancelled :
    4 = (if cfgS.sectorSize = 0#32 then 1 else 1 * cfgS.sectorSize.toNat)
      ∧ 4 < [0x01#8, 0x02#8, 0x03#8, 0x04#8, 0x05#8].length ∧ sectorSizeOk cfgS = true ∧ CanStart (exCancels 1)
      ∧ 0 + [0x01#8, 0x02#8, 0x03#8, 0x04#8, 0x05#8].length ≤ addrSpace
      ∧ PortsOk (76 * (imageSequence exParams 0 ([0x01#8, 0x02#8, 0x03#8, 0x04#8, 0x05#8].take 4) cfgS).length) (exCancels 1)
      ∧ CancelledAfter 1 (exCancels 1) :=
  ⟨by decide, by decide, by decide, can_start rfl rfl rfl rfl, by decide, ports_ok rfl (by decide +kernel),
    not_cancelled rfl rfl (by decide), rfl⟩

theorem witness_raised_flag_ends_every_loop :
    CanStart { ex with cancelFlag := true } ∧ 0x1000000 ≤ addrSpace
      ∧ refusalOf { ex with cancelFlag := true } .eraseWait = none
      ∧ refusalOf { ex with cancelFlag := true } (.blankCheck 0xFFFFFF 1) = none
      ∧ refusalOf { ex with cancelFlag := true } (.writeImageSector 0 [0x01#8] cfgS) = none
      ∧ sectorSizeOk cfgS = true :=
  ⟨can_start rfl rfl rfl rfl, by decide, by decide +kernel, by decide +kernel, by decide +kernel, by decide⟩

theorem ex_inv : Inv ex where
  memWf := rfl
  unnamedBits := by decide
  oneMark := .inl rfl
  loopCanGoOn h := absurd rfl h
  shadows _ := ⟨rfl, rfl⟩
  sckLow _ _ := rfl
  faultRecorded _ h := nomatch h
  refusalRecorded _ h := nomatch h

theorem witness_step_keeps_the_invariant : Inv ex ∧ step ex = .next ex := ⟨ex_inv, rfl⟩

theorem witness_launch :
    Launch ex ∧ Launch exJedec ∧ exJedec.fixture = .jedec exChip :=
  ⟨⟨rfl, rfl, rfl, rfl, rfl, rfl, rfl, rfl, rfl, rfl, rfl, rfl, rfl, rfl, rfl, trivial⟩,
    ⟨rfl, rfl, rfl, rfl, rfl, rfl, rfl, rfl, rfl, rfl, rfl, rfl, rfl, rfl, rfl, rfl⟩, rfl⟩

theorem witness_entry_state : rolesOk exParams = true := by decide

theorem witness_operations_leave_the_rest_alone :
    (∃ t, Advances { ex with cancelFlag := true } t ∧ true = true)
      ∧ (∃ t, exec .unlock ex = .next t ∧ true = true)
      ∧ (exWaiting.active ≠ none ∧ ∃ t, step exWaiting = .next t ∧ decide (t.active = some 2) = true)
      ∧ ∃ t, Advances exJedec t ∧ decide (t.outcomes = exJedec.outcomes ++ [.ok (.chip cfgA)]) = true :=
  ⟨advances_exec (i := .unlock) rfl, next_of_after rfl, ⟨by decide, next_of_after (by decide +kernel)⟩,
    advances_exec (i := .identify [cfgA]) (by decide +kernel)⟩

theorem witness_one_outcome_or_one_loop_position :
    (∃ t, exec .eraseWait exJedec = .next t ∧ decide (t.outcomes = [.ok .none]) = true)
      ∧ (∃ t, exec .erase exJedec = .next t ∧ decide (t.active = some 1) = true)
      ∧ exWaiting.active = some 1 ∧ (∃ t, step exWaiting = .next t ∧ decide (t.active = some 2) = true)
      ∧ ∃ t, step exWaitingCancels = .next t ∧ decide (t.outcomes = [.cancelled .eraseWait 1]) = true :=
  ⟨next_of_after (by decide +kernel), next_of_after (by decide +kernel), rfl, next_of_after (by decide +kernel),
    next_of_after (by decide +kernel)⟩

theorem witness_no_poll_inside_a_command :
    Instr.unlock.mnemonic ∉
        [Mnemonic.eraseWait, .erase, .blankCheck, .writeImage, .writeImageSector, .writeImageByte]
      ∧ ∃ t, exec .unlock ex = .next t ∧ true = true := ⟨by decide, next_of_after rfl⟩

theorem witness_cancelled_only_at_a_true_poll :
    (∃ t, Advances (exCancels 0) t ∧ decide (t.outcomes = (exCancels 0).outcomes ++ [.cancelled .eraseWait 0]) = true)
      ∧ (∃ t, Advances exWaitingCancels t
        ∧ decide (t.outcomes = exWaitingCancels.outcomes ++ [.cancelled .eraseWait 1]) = true)
      ∧ ∃ t, Advances (exCancels 0) t
        ∧ decide (.pollCancel true ∈ newEvents (exCancels 0) t ∧ newEvents (exCancels 0) t = [] ++ [.pollCancel true]) = true :=
  ⟨advances_exec (i := .eraseWait) (by decide +kernel), advances_step (by decide +kernel) (by decide),
    advances_exec (i := .eraseWait) (by decide +kernel)⟩

theorem witness_stores_only_at_its_cycles :
    (cycleAddrs exRam.params (.readByte 0) = [] ∧ ∃ t, exec (.readByte 0) exRam = .next t ∧ true = true)
      ∧ (exRam.fixture = .ram ∧ 0 ∉ cycleAddrs exRam.params (.writeByte 1 0x00#8 0))
      ∧ ex.fixture = .none
      ∧ (({ exRam with active := some 1 } : State).active ≠ none
        ∧ ∃ t, step { exRam with active := some 1 } = .next t ∧ true = true)
      ∧ ∃ t, step { ex with active := some 1 } = .next t ∧ true = true :=
  ⟨⟨rfl, next_of_after rfl⟩, ⟨rfl, by decide⟩, rfl, ⟨by decide, next_of_after rfl⟩, next_of_after rfl⟩

theorem witness_step_times :
    (∃ t, exec .erase exJedec = .next t ∧ decide (t.active = some 1) = true)
      ∧ exWaiting.active ≠ none ∧ ∃ t, step exWaiting = .next t ∧ decide (t.active = some 2) = true :=
  ⟨next_of_after (by decide +kernel), by decide, next_of_after (by decide +kernel)⟩

theorem exHost_calls_no_writeByte :
    ∀ c rest i, exHost.active = none → exHost.calls = c :: rest → decode c = .ok i → i.mnemonic ≠ .writeByte := by
  intro c rest i _ hc hd
  cases hc
  cases hd
  decide

theorem witness_host_cannot_split_a_command :
    exHost.internalsExposed = false
      ∧ (∀ c rest i, exHost.active = none → exHost.calls = c :: rest → decode c = .ok i → i.mnemonic ≠ .writeByte)
      ∧ ∃ t, step exHost = .next t ∧ decide (t.outcomes = [.ok .none]) = true :=
  ⟨rfl, exHost_calls_no_writeByte, next_of_after (by decide +kernel)⟩

theorem witness_ram : CanStart exRam ∧ 0xFFFFFF < addrSpace ∧ exRam.fixture = .ram ∧ PortsOk 175 exRam :=
  ⟨exRam_starts, by decide, rfl, exRam_ports (by decide)⟩

theorem witness_jedec :
    CanStart exJedec ∧ 0xFFFFFF < addrSpace ∧ sectorSizeOk cfgA = true ∧ exJedec.params.cmdAddr = decidedCmdAddr
      ∧ exJedec.fixture = .jedec exChip ∧ exChip.mode = .array ∧ exChip.seq = [] ∧ exChip.armed = false
      ∧ exChip.busy = 0 ∧ PortsOk 654 exJedec ∧ ((0xFFFFFF, 0x00#8) : BusCycle) ≠ (0x5555, 0xAA#8) :=
  ⟨exJedec_starts, by decide, by decide, rfl, rfl, rfl, rfl, rfl, rfl, exJedec_ports (by decide), by decide⟩

theorem witness_jedec_erase :
    CanStart { exJedec with calls := [.named .erase []] } ∧ decode (.named .erase []) = .ok .erase
      ∧ 3 = (exChip.eraseBusyLoads + 1) / 2 + 1
      ∧ PortsOk (456 + 198 * 3) { exJedec with calls := [.named .erase []] }
      ∧ NotCancelled 3 { exJedec with calls := [.named .erase []] } :=
  ⟨can_start rfl rfl rfl rfl, rfl, rfl, ports_ok rfl (by decide), not_cancelled rfl rfl (by decide)⟩

end Sys2Proof.Tests
end

section
/-! SUPPORT. Refusals at the start of an operation (rules R33, R215): the refusal that is due is the one taken. -/

namespace Sys2Proof.Machine

/-- With valid configurations the handle is what the checks look at next (rule R215). -/
theorem refusalOf_closed {i : Instr} {s : State} (hp : paramsProblem s.params = none) (ho : ownProblem i = none)
    (hh : s.handle = .closed) : refusalOf s i = some .handleClosed := by
  simp [refusalOf, hp, ho, hh]

/-- A refusal that is due at the start is taken, and nothing of the operation's body happens (rules R215, R219). -/
theorem exec_of_refusalOf {i : Instr} {s : State} {r : Refusal} (h : Running s) (hr : refusalOf s i = some r) :
    exec i s = .next (refusedState r s) := by
  rcases exec_cases i h with ⟨r', hr', he⟩ | ⟨hnone, -⟩
  · cases hr.symm.trans hr'
    exact he
  · cases hr.symm.trans hnone

/-- Settles O26: the closed handle is the refusal that is due, and a refusal that is due is taken. -/
theorem closedHandleIsRefused : Obligations.ClosedHandleIsRefused :=
  fun _ _ hrun hp ho hh => exec_of_refusalOf hrun (refusalOf_closed hp ho hh)

end Sys2Proof.Machine
end

section
/-! SUPPORT. The address family: the frame of WRITE_ADDRESS on the wire (rules R53, R91), and the address check of every
operation with an address operand (rule R52). -/

namespace Sys2Proof.Machine

/-! ### The address frame -/

/-- The events of WRITE_ADDRESS are those of its frame, and it answers a next state (rules R91, R116). -/
theorem exec_writeAddress_newEvents {a : Nat} {s : State} (h : CanStart s) (ha : a < addrSpace) (hp : PortsOk 72 s) :
    ∃ t, exec (.writeAddress a) s = .next t ∧ newEvents s t = frameEvents s.params s.ctrl a 24 :=
  ⟨_, exec_writeAddress h ha hp, newEvents_append rfl⟩

/-- Settles O17: the events are those of the frame, whose rising edges show the address bits from bit 23 down. -/
theorem addressFrameIsMsbFirst : Obligations.AddressFrameIsMsbFirst := by
  intro a s hs ha hp
  obtain ⟨t, hexec, hev⟩ := exec_writeAddress_newEvents hs ha hp
  exact ⟨t, hexec, by rw [hev, sdaAtEdges_frame (canStart_sda hs), bitsMsbFirst_eq]⟩

/-! ### The address check -/

/-- ADDR_RANGE is what the operands refuse exactly if they name a range that passes the address space (rule R52): it
comes before the mode rows' own refusal. -/
theorem operandRefusal_eq_addrRange_iff {i : Instr} {a n : Nat} :
    operandRefusal i = some (.addrRange a n) ↔ addrOperand i = some (a, n) ∧ ¬a + n ≤ addrSpace := by
  unfold operandRefusal
  split
  · split <;> simp [addrOperand]
  · split
    next hnone => simp [hnone]
    next b m hsome =>
      rw [hsome]
      split
      next hle =>
        have hfits : b = a → m = n → a + n ≤ addrSpace := by
          rintro rfl rfl
          exact hle
        split
        · split <;> simpa using hfits
        · split <;> simpa using hfits
        · simpa using hfits
      next hgt =>
        constructor
        · intro h
          cases h
          exact ⟨rfl, hgt⟩
        · rintro ⟨heq, -⟩
          cases heq
          rfl

/-- Where an operation can start and carries a valid configuration, only its operands can refuse it (rule R215). -/
theorem refusalOf_canStart {i : Instr} {s : State} (h : CanStart s) (ho : ownProblem i = none) :
    refusalOf s i = operandRefusal i := by
  obtain ⟨-, hparams, hopen⟩ := h
  simp [refusalOf, hparams, ho, hopen]

@[simp] theorem conclude_refused_mark (r : EStateM.Result Stop State Verdict) :
    (conclude r).refused = (endState r).refused := by
  rcases r with ⟨v | n, t⟩ | ⟨e, t⟩ <;> rfl

/-- With the handle open, what ends rightly sets no refusal mark: the only refusal inside a body is the port's, for a
closed handle. -/
theorem rightly_refused {α : Type} {p : Bool} {s : State} {r : EStateM.Result Stop State α} (hopen : s.handle = .opened)
    (h : Rightly p s r) : (endState r).refused = s.refused := by
  cases r with
  | ok a t =>
    obtain ⟨-, -, hr, -⟩ := h
    exact hr
  | error e t =>
    cases e with
    | fault f =>
      obtain ⟨-, -, hr, -⟩ := h
      exact hr
    | cancelled op k =>
      obtain ⟨-, -, -, hr, -⟩ := h
      exact hr
    | refused q =>
      obtain ⟨hclosed, -⟩ := h
      cases hopen.symm.trans hclosed

/-- An operation that nothing refuses at its start is refused by nothing later (rule R215). -/
theorem exec_of_refusalOf_none {i : Instr} {s : State} (h : Running s) (hr : refusalOf s i = none) :
    ∃ t, exec i s = .next t ∧ t.refused = none := by
  rcases exec_cases i h with ⟨r, hr', -⟩ | ⟨-, ⟨-, -, hopen⟩, -, -, he, hright⟩
  · cases hr.symm.trans hr'
  · exact ⟨_, he, by rw [conclude_refused_mark, rightly_refused hopen hright, h.2]⟩

/-- Settles O25: the refusal that is due is ADDR_RANGE exactly if the range passes the address space, and a refusal that
is due is the one taken. -/
theorem addressRangeIsChecked : Obligations.AddressRangeIsChecked := by
  intro i start n s ha hs ho
  have hdue : refusalOf s i = operandRefusal i := refusalOf_canStart hs ho
  constructor
  · intro hgt
    exact exec_of_refusalOf hs.1 (hdue.trans (operandRefusal_eq_addrRange_iff.mpr ⟨ha, hgt⟩))
  · intro hle
    cases hop : operandRefusal i with
    | none =>
      obtain ⟨t, hexec, hnone⟩ := exec_of_refusalOf_none hs.1 (hdue.trans hop)
      exact ⟨t, hexec, by simp [hnone]⟩
    | some r =>
      refine ⟨_, exec_of_refusalOf hs.1 (hdue.trans hop), fun st m hr => ?_⟩
      obtain ⟨hst, hgt⟩ := operandRefusal_eq_addrRange_iff.mp (hop.trans hr)
      cases ha.symm.trans hst
      exact hgt hle

end Sys2Proof.Machine
end

section
/-! SUPPORT. Expansions (rules R102, R146): a list of parts, run one after the other, is one body, and the body of an
operation that expands is the one its parts make. -/

namespace Sys2Proof.Machine

/-! ### Operations that may not start -/

/-- A run that has ended stops, whatever it is asked to do (rules R24, R220). -/
theorem ifRunning_not_running {s : State} (h : ¬ Running s) :
    ∃ o, (∀ k, ifRunning s k = o) ∧ ∀ t, o ≠ .next t := by
  cases hf : s.faulted with
  | some f => exact ⟨.fault f, fun k => by simp [ifRunning, hf], by simp⟩
  | none =>
    cases hr : s.refused with
    | some r => exact ⟨.refused r, fun k => by simp [ifRunning, hf, hr], by simp⟩
    | none => exact absurd ⟨hf, hr⟩ h

/-- A state in which no operation may start answers them all alike, and not with Ok (rules R24, R33, R215). -/
theorem exec_of_not_canStart {s : State} (h : ¬ CanStart s) :
    ∃ o, (∀ i, ownProblem i = none → exec i s = o) ∧ ∀ t, o = .next t → t.outcomes ≠ s.outcomes ++ [.ok .none] := by
  by_cases hrun : Running s
  · obtain ⟨r, hr⟩ : ∃ r, ∀ i, ownProblem i = none → refusalOf s i = some r := by
      cases hp : paramsProblem s.params with
      | some reason => exact ⟨.configInvalid reason, fun _ _ => by simp [refusalOf, hp]⟩
      | none =>
        cases hh : s.handle with
        | closed => exact ⟨.handleClosed, fun _ ho => refusalOf_closed hp ho hh⟩
        | opened => exact absurd ⟨hrun, hp, hh⟩ h
    refine ⟨.next (refusedState r s), fun i ho => exec_of_refusalOf hrun (hr i ho), fun t ht => ?_⟩
    cases ht
    simp [refusedState]
  · obtain ⟨o, ho, hstop⟩ := ifRunning_not_running hrun
    exact ⟨o, fun i _ => (exec_eq_perform i s).trans (ho _), fun t ht => absurd ht (hstop t)⟩

/-- If no operation may start, the outcome of the first part is that of the whole. -/
theorem runParts_of_not_canStart {s : State} (h : ¬ CanStart s) {i j : Instr} {rest : List Instr}
    (hi : ownProblem i = none) (hj : ownProblem j = none) : runParts (j :: rest) s = exec i s := by
  obtain ⟨o, ho, hne⟩ := exec_of_not_canStart h
  rw [ho i hi]
  cases rest with
  | nil => exact ho j hj
  | cons k ks =>
    simp only [runParts, ho j hj]
    cases o with
    | next t => exact if_neg (hne t rfl)
    | fault f => rfl
    | refused r => rfl

/-! ### Parts that may start -/

/-- An operation that can run as a part: nothing it carries is refused, and its body does not look at the records. -/
structure Partable (i : Instr) : Prop where
  own : ownProblem i = none
  operands : operandRefusal i = none
  indifferent : Indifferent (bodyOf i)

theorem partable_writeByte {a : Nat} (v : Byte) (d : Nat) (ha : a < addrSpace) : Partable (.writeByte a v d) :=
  ⟨rfl, if_pos ha, indifferent_done (indifferent_writeByte a v d)⟩

theorem partable_unlock : Partable .unlock := ⟨rfl, rfl, indifferent_done indifferent_unlock⟩

theorem partable_command {c : Byte} (hc : isCommandByte c = true) : Partable (.command c) :=
  ⟨rfl, if_pos hc, indifferent_done (indifferent_command c)⟩

theorem partable_eraseChip : Partable .eraseChip := ⟨rfl, rfl, indifferent_done indifferent_eraseChip⟩

theorem partable_programByte {a : Nat} (v : Byte) {cfg : ChipConfig} (ha : a < addrSpace)
    (hs : sectorSizeOk cfg = true) : Partable (.programByte a v cfg) :=
  ⟨if_pos hs, if_pos ha, indifferent_done (indifferent_programByte a v cfg)⟩

theorem partable_eraseWait : Partable .eraseWait := ⟨rfl, rfl, indifferent_eraseWaitIteration 0⟩

/-- The loop position that stands when a part begins is of no account to it. -/
theorem exec_withActive {i : Instr} {s : State} (hi : Partable i) (h : CanStart s) (k : Option Nat) :
    exec i { s with active := k } = exec i s := by
  have hmap : bodyOf i { s with active := k } = mapState (withOutcomes s.outcomes k) (bodyOf i s) :=
    hi.indifferent s s.outcomes k
  rw [exec_body h hi.own, exec_body (s := { s with active := k }) h hi.own, hmap,
    conclude_mapState (bodyOf_records i s).1]

theorem runParts_withActive {i : Instr} {rest : List Instr} {s : State} (hi : Partable i) (h : CanStart s)
    (k : Option Nat) : runParts (i :: rest) { s with active := k } = runParts (i :: rest) s := by
  cases rest with
  | nil => exact exec_withActive hi h k
  | cons j js => simp only [runParts, exec_withActive hi h k]

/-- A part that ends well leaves a state in which the next one may start, under the same parameters and with the records
as they were. -/
theorem canStart_after_part {i : Instr} {s t : State} {v : Verdict} (hi : Partable i) (h : CanStart s)
    (e : bodyOf i s = .ok v t) : CanStart t ∧ t.params = s.params ∧ t.outcomes = s.outcomes := by
  have hparams := keeps_bodyOf admitsAll_params i s
  have hrecords := (bodyOf_records i s).1
  rw [e] at hparams hrecords
  exact ⟨canStart_after (right_bodyOf hi.operands) (keeps_bodyOf admitsAll_params i) h e t.outcomes t.active,
    hparams, hrecords⟩

/-- Run in order where the parameters are `p`, the parts are one body (rule R102). -/
structure RunsAs (p : Params) (parts : List Instr) (body : Op Verdict) : Prop where
  head : ∃ i rest, parts = i :: rest ∧ Partable i
  runs : ∀ s, CanStart s → s.params = p → runParts parts s = .next (conclude (body s))

theorem runsAs_last {p : Params} {i : Instr} {body : Op Verdict} (hi : Partable i)
    (hb : ∀ s, s.params = p → bodyOf i s = body s) : RunsAs p [i] body where
  head := ⟨i, [], rfl, hi⟩
  runs s h hp := by rw [runParts, exec_body h hi.own, hb s hp]

/-- A part before others: its body comes first, and nothing falls between. -/
theorem runsAs_cons {p : Params} {i : Instr} {rest : List Instr} {m' m : Op Unit} {body : Op Verdict}
    (hi : Partable i) (hb : bodyOf i = done m') (hm : ∀ s, s.params = p → m' s = m s) (hr : RunsAs p rest body) :
    RunsAs p (i :: rest) (m >>= fun _ => body) where
  head := ⟨i, rest, rfl, hi⟩
  runs s h hp := by
    obtain ⟨j, js, rfl, hj⟩ := hr.head
    rw [runParts_cons h hi.own hb (List.cons_ne_nil j js)]
    cases hx : m' s with
    | ok a t =>
      obtain ⟨ht, htp, hto⟩ := canStart_after_part hi h (hb ▸ done_ok hx)
      rw [hm s hp] at hx
      rw [bind_ok hx, ← hto, ← hr.runs t ht (htp.trans hp)]
      exact runParts_withActive hj ht none
    | error e t =>
      rw [hm s hp] at hx
      rw [bind_error hx]

/-- An operation whose body is that of its parts answers what they answer. -/
theorem exec_eq_runParts {i : Instr} {parts : List Instr} {s : State} (hi : ownProblem i = none)
    (h : RunsAs s.params parts (bodyOf i)) : exec i s = runParts parts s := by
  by_cases hs : CanStart s
  · rw [exec_body hs hi, h.runs s hs rfl]
  · obtain ⟨j, rest, rfl, hj⟩ := h.head
    exact (runParts_of_not_canStart hs hi hj.own).symm

/-! ### The bodies of the operations that expand -/

theorem done_bind {α : Type} (m : Op α) (k : α → Op Unit) : done (m >>= k) = m >>= fun a => done (k a) :=
  bind_assoc m k _

theorem command_eq {c : Byte} (hc : isCommandByte c = true) : command c = unlock >>= fun _ => commandByteCycle c := by
  rw [command, checkCommand, if_pos hc, pure_bind]

theorem programByte_eq {a : Nat} {v : Byte} {cfg : ChipConfig} (ha : a < addrSpace) :
    programByte a v cfg = command cmdProgramByte >>= fun _ => writeByte a v cfg.maxWriteUsec.toNat := by
  have hok : addrOk a = true := decide_eq_true ha
  rw [programByte, checkAddr, if_pos hok, pure_bind]

theorem programRange_eq {a : Nat} {vs : List Byte} {cfg : ChipConfig} (ha : a + vs.length ≤ addrSpace) :
    programRange a vs cfg = programBytes cfg a vs := by
  have hok : rangeOk a vs.length = true := decide_eq_true ha
  rw [programRange, checkRange, if_pos hok, pure_bind]

theorem done_congr {m m' : Op Unit} {s : State} (h : m s = m' s) : done m s = done m' s := by
  cases hx : m s with
  | ok a t => rw [done_ok hx, done_ok (h ▸ hx)]
  | error e t => rw [done_error hx, done_error (h ▸ hx)]

/-- A cycle of a command sequence is a WRITE_BYTE with the command settle time of the parameters. -/
theorem writeByte_settle {p : Params} (a : Nat) (v : Byte) {s : State} (hp : s.params = p) :
    writeByte a v p.cmdSettleUs s = commandCycle a v s := by
  rw [commandCycle, hp]

theorem writeByte_cmdAddr {p : Params} (c : Byte) {s : State} (hp : s.params = p) :
    writeByte p.cmdAddr.toNat c p.cmdSettleUs s = commandByteCycle c s := by
  rw [commandByteCycle, writeByte_settle _ _ hp, hp]

theorem unlock_runsAs (p : Params) :
    RunsAs p [.writeByte unlockAddr1 unlockData1 p.cmdSettleUs, .writeByte unlockAddr2 unlockData2 p.cmdSettleUs]
      (done unlock) := by
  rw [unlock, done_bind]
  exact runsAs_cons (partable_writeByte _ _ (by decide)) rfl (fun _ => writeByte_settle _ _)
    (runsAs_last (partable_writeByte _ _ (by decide)) fun _ hp => done_congr (writeByte_settle _ _ hp))

theorem command_runsAs (p : Params) {c : Byte} (hc : isCommandByte c = true) :
    RunsAs p [.unlock, .writeByte p.cmdAddr.toNat c p.cmdSettleUs] (done (command c)) := by
  rw [command_eq hc, done_bind]
  exact runsAs_cons partable_unlock rfl (fun _ _ => rfl)
    (runsAs_last (partable_writeByte _ _ p.cmdAddr.isLt) fun _ hp => done_congr (writeByte_cmdAddr c hp))

theorem commandRow_runsAs (p : Params) {c : Byte} (hc : isCommandByte c = true) :
    RunsAs p [.command c] (done (command c)) :=
  runsAs_last (partable_command hc) fun _ _ => rfl

theorem eraseChip_runsAs (p : Params) :
    RunsAs p [.command cmdEraseSetupByte, .command cmdChipEraseByte] (done eraseChip) := by
  rw [eraseChip, done_bind]
  exact runsAs_cons (partable_command (by decide)) rfl (fun _ _ => rfl) (commandRow_runsAs p (by decide))

theorem erase_runsAs (p : Params) : RunsAs p [.eraseChip, .eraseWait] eraseStart :=
  runsAs_cons partable_eraseChip rfl (fun _ _ => rfl) (runsAs_last partable_eraseWait fun _ _ => rfl)

theorem programByte_runsAs (p : Params) {a : Nat} (v : Byte) (cfg : ChipConfig) (ha : a < addrSpace) :
    RunsAs p [.command cmdProgramByte, .writeByte a v cfg.maxWriteUsec.toNat] (done (programByte a v cfg)) := by
  rw [programByte_eq ha, done_bind]
  exact runsAs_cons (partable_command (by decide)) rfl (fun _ _ => rfl)
    (runsAs_last (partable_writeByte _ _ ha) fun _ _ => rfl)

/-- The bytes of a range, one after the other, are its PROGRAM_BYTEs (rule R146). -/
theorem programBytes_runsAs (p : Params) {cfg : ChipConfig} (hs : sectorSizeOk cfg = true) {a : Nat} {v : Byte}
    {vs : List Byte} (ha : a + (v :: vs).length ≤ addrSpace) :
    RunsAs p ((v :: vs).mapIdx fun i b => .programByte (a + i) b cfg) (done (programBytes cfg a (v :: vs))) := by
  induction vs generalizing a v with
  | nil =>
    have hone : programBytes cfg a [v] = programByte a v cfg := bind_pure_unit
    rw [hone]
    exact runsAs_last (partable_programByte v ha hs) fun _ _ => rfl
  | cons w ws ih =>
    rw [List.length_cons] at ha
    have hrest := ih (a := a + 1) (v := w) (by omega)
    rw [programBytes, done_bind, List.mapIdx_cons]
    refine runsAs_cons (partable_programByte v (by omega) hs) rfl (fun _ _ => rfl) ?_
    simpa only [Nat.add_assoc, Nat.add_comm 1] using hrest

/-- The body of an operation that expands is the one its parts make. -/
theorem expansion_runsAs {p : Params} {i : Instr} {parts : List Instr} (hw : WellFormed i = true)
    (he : expansion p i = some parts) : ownProblem i = none ∧ RunsAs p parts (bodyOf i) := by
  cases i with
  | unlock => cases he; exact ⟨rfl, unlock_runsAs p⟩
  | command c => cases he; exact ⟨rfl, command_runsAs p hw⟩
  | cmdIdEntry | cmdIdExit | cmdEraseSetup | cmdChipErase | cmdProgram =>
    cases he
    exact ⟨rfl, commandRow_runsAs p (by decide)⟩
  | eraseChip => cases he; exact ⟨rfl, eraseChip_runsAs p⟩
  | erase => cases he; exact ⟨rfl, erase_runsAs p⟩
  | programByte a v cfg =>
    cases he
    obtain ⟨ha, hs⟩ := Bool.and_eq_true_iff.mp hw
    exact ⟨if_pos hs, programByte_runsAs p v cfg (of_decide_eq_true ha)⟩
  | programRange start bytes cfg =>
    obtain ⟨ha, hs⟩ := Bool.and_eq_true_iff.mp hw
    have hfit : start + bytes.length ≤ addrSpace := of_decide_eq_true ha
    cases bytes with
    | nil => cases he
    | cons v vs =>
      cases he
      refine ⟨if_pos hs, ?_⟩
      rw [bodyOf, programRange_eq hfit]
      exact programBytes_runsAs p hs hfit
  | writeAddress _ | writeByte _ _ _ | readByte _ | readSoftwareId | identify _ | eraseWait | blankCheck _ _
  | writeImage _ _ _ | writeImageSector _ _ _ | writeImageByte _ _ _ => cases he

/-- Settles O30: the parts of an operation that expands make its body, and where no operation may start the first part
answers what the operation does. -/
theorem expansionsAreExact : Obligations.ExpansionsAreExact := by
  intro i parts s hw he
  obtain ⟨hown, hruns⟩ := expansion_runsAs hw he
  exact exec_eq_runParts hown hruns

end Sys2Proof.Machine
end

section
/-! SUPPORT. The event table of the transport (rule R120): the events that WRITE_BYTE and READ_BYTE append, and how many
rising SCK edges each operation shows. -/

namespace Sys2Proof.Machine

/-- The events of WRITE_BYTE are those of its rule, and it answers a next state (rule R117). -/
theorem exec_writeByte_newEvents {a : Nat} (v : Byte) (d : Nat) {s : State} (h : CanStart s) (ha : a < addrSpace)
    (hp : PortsOk 76 s) :
    ∃ t, exec (.writeByte a v d) s = .next t ∧ newEvents s t = writeEvents s.params s.ctrl a v d := by
  refine ⟨_, exec_writeByte h ha hp, newEvents_append ?_⟩
  rw [byteWritten_eq ha]

/-- The events of READ_BYTE are those of its rule, and it answers a next state (rule R118). -/
theorem exec_readByte_newEvents {a : Nat} {s : State} (h : CanStart s) (ha : a < addrSpace) (hp : PortsOk 99 s) :
    ∃ t, exec (.readByte a) s = .next t ∧ newEvents s t = readTrace a s := by
  refine ⟨_, exec_readByte h ha hp, newEvents_append ?_⟩
  rw [readDone_leave ha]
  rfl

/-- READ_BYTE shows a rising edge for each address bit and one for each read pulse: the handshake shows none. -/
theorem sdaAtEdges_readTrace_length {s : State} (h : rolesOk s.params = true) (a : Nat) (w : WireView) :
    (sdaAtEdges s.params w (readTrace a s)).length = 32 := by
  obtain ⟨bs, hlen, hedges⟩ := sdaAtEdges_readTrace h a w
  rw [hedges, List.length_append, bitsMsbFirst_length, hlen]

/-- Settles O21: each operation appends the events of its rule, and those have the counts and edges of the table. -/
theorem transportEventCounts : Obligations.TransportEventCounts := by
  intro s hs a ha
  have hroles := canStart_roles hs
  refine ⟨fun hp => ?_, fun v d hp => ?_, fun hp => ?_⟩
  · obtain ⟨t, hexec, hev⟩ := exec_writeAddress_newEvents hs ha hp
    refine ⟨t, hexec, ?_, ?_⟩ <;> rw [hev]
    · exact countEvents_frame s.params s.ctrl a 24
    · rw [sdaAtEdges_frame (canStart_sda hs), bitsMsbFirst_length]
  · obtain ⟨t, hexec, hev⟩ := exec_writeByte_newEvents v d hs ha hp
    refine ⟨t, hexec, ?_, ?_⟩ <;> rw [hev]
    · exact countEvents_write s.params s.ctrl a v d
    · rw [sdaAtEdges_write hroles, bitsMsbFirst_length]
  · obtain ⟨t, hexec, hev⟩ := exec_readByte_newEvents hs ha hp
    refine ⟨t, hexec, ?_, ?_⟩ <;> rw [hev]
    · exact countEvents_readTrace a s
    · exact sdaAtEdges_readTrace_length hroles a (wireView s)

end Sys2Proof.Machine
end

section
/-! SUPPORT. The event table of the command operations (rule R148): whatever the events, the observer sees a bus cycle
for each data write and a sample for each status read, so the counts of an operation say all of its row. -/

namespace Sys2Proof.Machine

/-- The observer sees one bus write cycle for each data write. -/
theorem busCycles_length (p : Params) (w : WireView) (es : List Event) :
    (busCycles p w es).length = (countEvents es).wrData := by
  induction es generalizing w with
  | nil => rfl
  | cons e es ih => cases e <;> simp [busCycles, countEvents_cons, addCounts, countEvent, noEvents, ih, Nat.add_comm]

/-- The samples are the status reads. -/
theorem samplesOf_length (es : List Event) : (samplesOf es).length = (countEvents es).rdStatus := by
  induction es with
  | nil => rfl
  | cons e es ih =>
    rw [← List.singleton_append, samplesOf_append, countEvents_append, List.length_append, ih]
    cases e <;> rfl

/-- For an operation that issues nothing but bus cycles, the table counts its cycles. -/
theorem ruleCounts_sequence {p : Params} {i : Instr} {cs : List TimedCycle} (ho : operationSequence p i = some cs) :
    ruleCounts i = some ⟨75 * cs.length, cs.length, 0, 0, 73 * cs.length, 0, 0⟩ := by
  cases i <;> simp only [operationSequence, reduceCtorEq, Option.some.injEq] at ho <;> subst ho
  case programRange start bytes cfg =>
    simp only [ruleCounts, rangeSequence_length]
    congr 2 <;> omega
  all_goals rfl

/-- The events of a sequence of bus cycles: 75 control writes, a data write and 73 delays for each cycle. -/
theorem exec_sequence_countEvents {i : Instr} {cs : List TimedCycle} {s : State}
    (ho : operationSequence s.params i = some cs) (hs : CanStart s) (hw : WellFormed i = true)
    (hp : PortsOk (76 * cs.length) s) :
    ∃ t, exec i s = .next t
      ∧ countEvents (newEvents s t) = ⟨75 * cs.length, cs.length, 0, 0, 73 * cs.length, 0, 0⟩ := by
  refine ⟨_, exec_sequence ho hs hw hp, ?_⟩
  rw [newEvents_append (es := sentEvents s.params s.ctrl cs) rfl, countEvents_sent]

/-- READ_SOFTWARE_ID: two commands of three cycles, two reads and the delay between (rule R142). -/
theorem countEvents_idEvents (s : State) : countEvents (idEvents s) = ⟨632, 6, 16, 0, 621, 0, 0⟩ := by
  simp only [idEvents, countEvents_append, countEvents_cons, countEvents_sent, countEvents_readTrace,
    commandSequence_length]
  rfl

/-- Every operation of the table appends as many events of each kind as its row says (rules R120, R148). -/
theorem exec_ruleCounts {i : Instr} {c : EventCounts} {s : State} (hc : ruleCounts i = some c) (hs : CanStart s)
    (hw : WellFormed i = true) (hp : PortsOk (c.wrCtrl + c.wrData + c.rdStatus) s) :
    ∃ t, exec i s = .next t ∧ countEvents (newEvents s t) = c := by
  cases ho : operationSequence s.params i with
  | some cs =>
    obtain rfl := Option.some.inj (hc.symm.trans (ruleCounts_sequence ho))
    exact exec_sequence_countEvents ho hs hw (portsOk_le hp (by simp only; omega))
  | none =>
    cases i <;> simp only [operationSequence, ruleCounts, reduceCtorEq, Option.some.injEq] at ho hc <;> subst hc
    case writeAddress a =>
      obtain ⟨t, hexec, hev⟩ := exec_writeAddress_newEvents hs (of_decide_eq_true hw) hp
      exact ⟨t, hexec, by rw [hev]; exact countEvents_frame s.params s.ctrl a 24⟩
    case readByte a =>
      obtain ⟨t, hexec, hev⟩ := exec_readByte_newEvents hs (of_decide_eq_true hw) hp
      exact ⟨t, hexec, by rw [hev]; exact countEvents_readTrace a s⟩
    case readSoftwareId =>
      refine ⟨_, exec_readSoftwareId hs hp, ?_⟩
      rw [newEvents_append (es := idEvents s) rfl]
      exact countEvents_idEvents s

/-- Settles O31: the counts are those of the table, and the observer's cycles and samples are counted by them. -/
theorem commandEventCounts : Obligations.CommandEventCounts := by
  intro i c s hc hs hw hp
  obtain ⟨t, hexec, hcount⟩ := exec_ruleCounts hc hs hw hp
  exact ⟨t, hexec, hcount, by rw [busCycles_length, hcount], by rw [samplesOf_length, hcount]⟩

end Sys2Proof.Machine
end

section
/-! SUPPORT. BLANK_CHECK up to its first byte that is not erased (rules R173, R214): the reads before it, the read that
stops it, and what an observer counts and sees on the wire. -/

namespace Sys2Proof.Machine

/-! ### Reads one after the other -/

/-- What a read leaves as it was, reads one after the other leave as it was. -/
theorem readsLeave_unchanged {β : Type} {f : State → β} (hf : ∀ a s, f (readLeave a s) = f s) (as : List Nat)
    (s : State) : f (readsLeave as s) = f s := by
  induction as generalizing s with
  | nil => rfl
  | cons a as ih => exact (ih (readLeave a s)).trans (hf a s)

@[simp] theorem readsLeave_params (as : List Nat) (s : State) : (readsLeave as s).params = s.params :=
  readsLeave_unchanged (f := State.params) (fun _ _ => rfl) as s

@[simp] theorem readsLeave_faulted (as : List Nat) (s : State) : (readsLeave as s).faulted = s.faulted :=
  readsLeave_unchanged (f := State.faulted) (fun _ _ => rfl) as s

@[simp] theorem readsLeave_outcomes (as : List Nat) (s : State) : (readsLeave as s).outcomes = s.outcomes :=
  readsLeave_unchanged (f := State.outcomes) (fun _ _ => rfl) as s

@[simp] theorem readsLeave_cancelFlag (as : List Nat) (s : State) : (readsLeave as s).cancelFlag = s.cancelFlag :=
  readsLeave_unchanged (f := State.cancelFlag) (fun _ _ => rfl) as s

@[simp] theorem readsLeave_hostScript (as : List Nat) (s : State) :
    (readsLeave as s).oracle.hostScript = s.oracle.hostScript :=
  readsLeave_unchanged (f := fun s => s.oracle.hostScript) (fun _ _ => rfl) as s

theorem CanSend.reads {n : Nat} {s : State} (as : List Nat) (h : CanSend (99 * as.length + n) s) :
    CanSend n (readsLeave as s) := by
  induction as generalizing s with
  | nil => simpa [readsLeave] using h
  | cons a as ih => exact ih (CanSend.read a (h.le (by simp; omega)))

/-- Reads use up one answer of the target each. -/
theorem answerAt_readsLeave (as : List Nat) (b j : Nat) (s : State) :
    answerAt (readsLeave as s) b j = answerAt s b (j + as.length) := by
  induction as generalizing s j with
  | nil => rfl
  | cons a as ih => exact (ih j (readLeave a s)).trans (answerAt_readLeave a b (j + as.length) s)

/-! ### Operations without a bus cycle -/

/-- An operation without a bus cycle leaves memory and data register as they were (rule R98). -/
theorem exec_keepsData {i : Instr} {s t : State} (hi : cycleAddrs s.params i = []) (h : exec i s = .next t) :
    t.mem = s.mem ∧ t.data = s.data := by
  rw [exec_eq_perform] at h
  obtain ⟨-, rfl⟩ := perform_next h
  have hkeeps : Keeps KeepsData (do checkCall (ownProblem i); bodyOf i : Op Verdict) :=
    keeps_bind keepsData_read.toChains (keeps_checkCall keepsData_read _) fun _ => keepsData_body hi
  obtain ⟨hmem, hdata, -⟩ := hkeeps s
  obtain ⟨hmem', -, hdata', -⟩ := conclude_target ((do checkCall (ownProblem i); bodyOf i : Op Verdict) s)
  exact ⟨hmem'.trans hmem, hdata'.trans hdata⟩

/-! ### The byte that stops the check -/

/-- The state after the first `k` reads of a BLANK_CHECK, apart from the records of the run. -/
def blankRead (offset k : Nat) (s : State) : State := readsLeave ((List.range' 0 k).map (offset + ·)) s

/-- The events of a BLANK_CHECK whose byte `k` is the first that is not erased: those of the bytes before it, then one poll
and one read with no report after them. -/
def mismatchEvents (offset k : Nat) (s : State) : List Event :=
  blankEvents offset k 0 s ++ .pollCancel false :: readTrace (offset + k) (blankRead offset k s)

/-- The fault of a byte that is not erased (rule R214). -/
theorem expectErased_mismatch {a : Nat} {v : Byte} (hv : v ≠ erasedByte) (s : State) :
    expectErased a v s = .error (.fault (.blankCheckMismatch a v)) (markFault (.blankCheckMismatch a v) s) := by
  rw [expectErased, if_neg hv]
  rfl

/-- The loop stops at a byte that is not erased, right after its read (rules R173, R214). -/
theorem blankBytes_mismatch {offset n i : Nat} {s : State} (h : CanSend 99 s) (hc : NotCancelled 1 s)
    (ha : offset + i < addrSpace) (hv : answerAt s (offset + i) 0 ≠ erasedByte) :
    blankBytes offset (n + 1) i s =
      .error (.fault (.blankCheckMismatch (offset + i) (answerAt s (offset + i) 0)))
        (markFault (.blankCheckMismatch (offset + i) (answerAt s (offset + i) 0))
          (withRecords (s.trace ++ .pollCancel false :: readTrace (offset + i) s) (s.oracle.pollIdx + 1)
            (readLeave (offset + i) s))) := by
  rw [blankBytes]
  refine seq_ok (pollOrCancel_ok hc) ?_
  refine seq_ok (readByte_leave ha (h.records _ _)) ?_
  refine (bind_error (expectErased_mismatch hv _)).trans ?_
  simp [readTrace_records, readLeave_records]

/-- BLANK_CHECK whose byte `k` is the first that is not erased: `k` reads that pass, and the one that stops it. -/
theorem blankCheck_mismatch {offset n k : Nat} {s : State} (h : CanSend (99 * (k + 1)) s) (hc : NotCancelled (k + 1) s)
    (ha : offset + n ≤ addrSpace) (hk : k < n) (he : ∀ j, j < k → answerAt s (offset + j) j = erasedByte)
    (hv : answerAt s (offset + k) k ≠ erasedByte) :
    blankCheck offset n s =
      .error (.fault (.blankCheckMismatch (offset + k) (answerAt s (offset + k) k)))
        (markFault (.blankCheckMismatch (offset + k) (answerAt s (offset + k) k))
          (withRecords (s.trace ++ mismatchEvents offset k s) (s.oracle.pollIdx + (k + 1))
            (readLeave (offset + k) (blankRead offset k s)))) := by
  obtain ⟨m, rfl⟩ : ∃ m, n = k + (m + 1) := ⟨n - k - 1, by omega⟩
  have hanswer : answerAt (blankRead offset k s) (offset + k) 0 = answerAt s (offset + k) k := by
    simp [blankRead, answerAt_readsLeave]
  have hsend : CanSend 99 (blankRead offset k s) := CanSend.reads _ (h.le (by simp; omega))
  have hpoll : NotCancelled 1 (withRecords (s.trace ++ blankEvents offset k 0 s) (s.oracle.pollIdx + k)
      (blankRead offset k s)) :=
    notCancelled_of (m := k) hc (by simp [blankRead]) (by simp [blankRead]) rfl
  refine seq_ok (checkRange_ok ha) ?_
  rw [blankBytes_ok (h.le (by omega)) (notCancelled_le hc (by omega)) (by omega) (by simpa using he), Nat.zero_add]
  refine (blankBytes_mismatch (hsend.records _ _) hpoll (by omega) ?_).trans ?_
  · rw [answerAt_records]
    exact hanswer ▸ hv
  · rw [answerAt_records, hanswer]
    simp [readTrace_records, readLeave_records, mismatchEvents, blankRead, Nat.add_assoc]

/-- The outcome, the mark and the events of a BLANK_CHECK whose byte `k` is the first that is not erased (rules R214,
R219). -/
theorem exec_blankCheck_mismatch {offset n k : Nat} {s : State} (hs : CanStart s) (hp : PortsOk (99 * (k + 1)) s)
    (hc : NotCancelled (k + 1) s) (ha : offset + n ≤ addrSpace) (hk : k < n)
    (he : ∀ j, j < k → answerAt s (offset + j) j = erasedByte) (hv : answerAt s (offset + k) k ≠ erasedByte) :
    ∃ t : State, exec (.blankCheck offset n) s = .next t
      ∧ t.outcomes = s.outcomes ++ [.fault (.blankCheckMismatch (offset + k) (answerAt s (offset + k) k))]
      ∧ t.faulted = some (.blankCheckMismatch (offset + k) (answerAt s (offset + k) k))
      ∧ newEvents s t = mismatchEvents offset k s := by
  refine ⟨_, exec_error hs rfl (done_error
    (blankCheck_mismatch (canSend_of_canStart hs hp) hc ha hk he hv)), ?_, ?_, newEvents_append rfl⟩
  · simp [blankRead, stopOutcome]
  · have hbefore : (readLeave (offset + k) (blankRead offset k s)).faulted = none :=
      (readsLeave_faulted _ _).trans hs.1.1
    simp [withRecords, hbefore]

/-! ### What an observer counts and sees -/

theorem countEvents_reportIf (i : Nat) :
    countEvents (if (i + 1) % progressStep = 0 then [.progress (i + 1)] else [])
      = ⟨0, 0, 0, 0, 0, 0, (i + 1) / 1024 - i / 1024⟩ := by
  rw [progressStep]
  split
  next h =>
    have hone : (i + 1) / 1024 - i / 1024 = 1 := by omega
    rw [hone]
    rfl
  next h =>
    have hzero : (i + 1) / 1024 - i / 1024 = 0 := by omega
    rw [hzero]
    rfl

/-- Each byte costs a poll and the events of one READ_BYTE (rules R120, R173). -/
theorem countEvents_pollAndRead (a : Nat) (s : State) :
    countEvents (.pollCancel false :: readTrace a s) = ⟨91, 0, 8, 0, 91, 1, 0⟩ := by
  rw [countEvents_cons, countEvents_readTrace]
  rfl

/-- BLANK_CHECK over erased bytes: a poll and a read for each byte, and a report for each multiple of 1024 passed. -/
theorem countEvents_blank (offset n i : Nat) (s : State) :
    countEvents (blankEvents offset n i s)
      = ⟨91 * n, 0, 8 * n, 0, 91 * n, n, (i + n) / 1024 - i / 1024⟩ := by
  induction n generalizing i s with
  | zero => simp [blankEvents, noEvents]
  | succ n ih =>
    have hreports : (i + 1) / 1024 - i / 1024 + ((i + 1 + n) / 1024 - (i + 1) / 1024)
        = (i + (n + 1)) / 1024 - i / 1024 := by omega
    rw [blankEvents, countEvents_append, countEvents_append, countEvents_pollAndRead, countEvents_reportIf, ih,
      ← hreports]
    simp [addCounts]
    omega

theorem countEvents_mismatch (offset k : Nat) (s : State) :
    countEvents (mismatchEvents offset k s)
      = ⟨91 * (k + 1), 0, 8 * (k + 1), 0, 91 * (k + 1), k + 1, k / 1024⟩ := by
  rw [mismatchEvents, countEvents_append, countEvents_blank, countEvents_pollAndRead]
  simp [addCounts, Nat.mul_add]

/-- On the wire: 32 edges for each byte before the mismatch, then the mismatch's address, high bit first, and the eight
pulses of its read. -/
theorem sdaAtEdges_mismatch {s : State} (h : rolesOk s.params = true) (offset k : Nat) (w : WireView) :
    ∃ before pulses, before.length = 32 * k ∧ pulses.length = 8
      ∧ sdaAtEdges s.params w (mismatchEvents offset k s) = before ++ (bitsMsbFirst (offset + k) 24 ++ pulses) := by
  have hparams : (blankRead offset k s).params = s.params := readsLeave_params _ _
  obtain ⟨pulses, hlen, hread⟩ := sdaAtEdges_readTrace (s := blankRead offset k s) (hparams ▸ h) (offset + k)
    (viewAll s.params w (blankEvents offset k 0 s))
  refine ⟨_, pulses, sdaAtEdges_blank_length offset k 0 h w, hlen, ?_⟩
  rw [mismatchEvents, sdaAtEdges_append, ← hread, hparams]
  rfl

/-- Settles O39: the bytes before byte `k` pass, its read is the last thing on the wire, and no read stores anything. -/
theorem blankCheckStopsAtTheFirstMismatch : Obligations.BlankCheckStopsAtTheFirstMismatch := by
  intro offset n k s hs ha hk hp hc he hv
  obtain ⟨t, hexec, hout, hfault, hev⟩ := exec_blankCheck_mismatch hs hp hc ha hk he hv
  obtain ⟨before, pulses, hbefore, hpulses, hedges⟩ := sdaAtEdges_mismatch (canStart_roles hs) offset k (wireView s)
  obtain ⟨hmem, hdata⟩ := exec_keepsData (i := .blankCheck offset n) rfl hexec
  refine ⟨t, hexec, hout, hfault, ?_, ?_, ?_, hmem, hdata⟩
  · rw [hev, countEvents_mismatch]
  · rw [hev, hedges, List.length_append, List.length_append, bitsMsbFirst_length, hbefore, hpulses]
    omega
  · rw [hev, hedges, List.drop_left' hbefore, List.take_left' (bitsMsbFirst_length _ _), bitsMsbFirst_eq]

end Sys2Proof.Machine
end

section
/-! SUPPORT. The bit encodings of the opcode table and the lines of a program (rules R90, R91, R94, R97, R98, R101): a frame
decodes to the operation it was made of, and nothing else decodes. -/

namespace Sys2Proof

open Sys2Proof.Machine

/-! ### From an operation to its frame and back -/

/-- The frame of one bus cycle: its address, then its byte (rule R94). -/
theorem cyclesFrame_single (a : Nat) (v : Byte) : cyclesFrame [(a, v)] = addrFrame a ++ [v] := by
  simp [cyclesFrame]

/-- The frame of the program-byte sequence: its command, then its data cycle (rule R98). -/
theorem cyclesFrame_program (a : Nat) (v : Byte) :
    cyclesFrame (programCycles decidedCmdAddr.toNat a v) = jedec3Prefix ++ [cmdProgramByte] ++ (addrFrame a ++ [v]) := by
  rw [programCycles, ← cyclesFrame_jedec3, ← cyclesFrame_single]
  exact List.flatMap_append

/-- The frame of a JEDEC3 sequence decodes to the row of its command byte (rules R96, R97). -/
theorem decodeWire_jedec3 (c : Byte) :
    decodeWire (cyclesFrame (jedec3Cycles decidedCmdAddr.toNat c)) = .ok (decodeCommandByte c) := by
  rw [cyclesFrame_jedec3, decodeWire_command]

/-- Settles O2, row by row of the opcode table: an address below 2^24 is read back from its frame, and the rest of a frame
is fixed bits and bytes. -/
theorem frameDecodesToItsOperation : Obligations.FrameDecodesToItsOperation := by
  intro i frame he hr
  have haddr : ∀ a, addrOperand i = some (a, 1) →
      frameAddr (BitVec.ofNat 8 (a / 65536)) (BitVec.ofNat 8 (a / 256)) (BitVec.ofNat 8 a) = a :=
    fun a ha => frameAddr_addrFrame (Nat.lt_of_succ_le (hr _ ha))
  cases i <;> simp only [encodeWire, reduceCtorEq, Option.some.injEq] at he <;> subst he
  case writeAddress a =>
    refine congrArg (fun x => Except.ok (Instr.writeAddress x)) (haddr a rfl)
  case writeByte a v d =>
    rw [cyclesFrame_single]
    exact congrArg (fun x => Except.ok (Instr.writeByte x v 0)) (haddr a rfl)
  case programByte a v cfg =>
    rw [cyclesFrame_program]
    refine (decodeWire_program _ _ _ v).trans ?_
    exact congrArg (fun x => Except.ok (Instr.programByte x v zeroChip)) (haddr a rfl)
  case unlock => decide +kernel
  case eraseChip => decide +kernel
  case command c => exact decodeWire_jedec3 c
  all_goals exact decodeWire_jedec3 _

/-! ### From a frame to its operation and back -/

/-- Every frame that decodes is that of a row of the opcode table (rules R91, R94, R97, R98). -/
inductive RowFrame : List Byte → Instr → Prop where
  | address (hi mid lo : Byte) : RowFrame [hi, mid, lo] (.writeAddress (frameAddr hi mid lo))
  | cycle (hi mid lo v : Byte) : RowFrame [hi, mid, lo, v] (.writeByte (frameAddr hi mid lo) v 0)
  | unlock : RowFrame (cyclesFrame unlockCycles) .unlock
  | command (c : Byte) : RowFrame (jedec3Prefix ++ [c]) (decodeCommandByte c)
  | program (hi mid lo v : Byte) :
      RowFrame (jedec3Prefix ++ [cmdProgramByte] ++ [hi, mid, lo, v]) (.programByte (frameAddr hi mid lo) v zeroChip)
  | erase : RowFrame (cyclesFrame (eraseCycles decidedCmdAddr.toNat)) .eraseChip

/-- Sixteen bytes that decode are the program command and a data cycle. -/
theorem rowFrame_of_decodeProgramFrame {frame : List Byte} {i : Instr} (h : decodeProgramFrame frame = .ok i) :
    RowFrame frame i := by
  unfold decodeProgramFrame at h
  split at h
  · next htake =>
    split at h
    · next hi mid lo v hdrop =>
      cases h
      have hframe := List.take_append_drop 12 frame
      rw [htake, hdrop] at hframe
      rw [← hframe]
      exact .program hi mid lo v
    · cases h
  · cases h

/-- Twelve bytes that begin like a JEDEC3 sequence are its fixed bytes and a command byte. -/
theorem eq_jedec3Prefix_append {frame : List Byte} (hlen : frame.length = 12) (htake : frame.take 11 = jedec3Prefix) :
    frame = jedec3Prefix ++ [frame.getD 11 0#8] := by
  have hdrop : frame.drop 11 = [frame.getD 11 0#8] := by
    rw [List.drop_eq_getElem_cons (by omega), List.drop_eq_nil_of_le (by omega), List.getD_eq_getElem _ _ (by omega)]
  rw [← htake, ← hdrop, List.take_append_drop]

theorem rowFrame_of_decodeWire {frame : List Byte} {i : Instr} (h : decodeWire frame = .ok i) : RowFrame frame i := by
  unfold decodeWire at h
  split at h
  · cases h
    exact .address _ _ _
  · cases h
    exact .cycle _ _ _ _
  split at h
  · split at h
    · next heq =>
      cases h
      rw [heq]
      exact .unlock
    · cases h
  split at h
  · next hlen =>
    split at h
    · next htake =>
      cases h
      rw [eq_jedec3Prefix_append hlen htake]
      exact .command _
    · cases h
  split at h
  · exact rowFrame_of_decodeProgramFrame h
  split at h
  · split at h
    · next heq =>
      cases h
      rw [heq]
      exact .erase
    · cases h
  · cases h

/-- Settles O3: a frame that decodes is that of a row, and each row encodes to the frame it was read from. -/
theorem decodedFrameIsTheEncoding : Obligations.DecodedFrameIsTheEncoding := by
  intro frame i h
  have hrange : ∀ (hi mid lo : Byte) (r : Nat × Nat), some (frameAddr hi mid lo, 1) = some r → r.1 + r.2 ≤ addrSpace := by
    rintro hi mid lo r ⟨⟩
    exact frameAddr_lt hi mid lo
  cases rowFrame_of_decodeWire h with
  | address hi mid lo => exact ⟨congrArg some (addrFrame_frameAddr hi mid lo), rfl, hrange hi mid lo⟩
  | cycle hi mid lo v =>
    refine ⟨?_, rfl, hrange hi mid lo⟩
    rw [encodeWire, cyclesFrame_single, addrFrame_frameAddr]
    rfl
  | unlock => exact ⟨rfl, rfl, nofun⟩
  | command c =>
    obtain ⟨hencode, hform, hno⟩ := decodeCommandByte_cases c
    exact ⟨hencode, hform, by simp [hno]⟩
  | program hi mid lo v =>
    refine ⟨?_, rfl, hrange hi mid lo⟩
    rw [encodeWire, cyclesFrame_program, addrFrame_frameAddr]
    rfl
  | erase => exact ⟨rfl, rfl, nofun⟩

/-! ### The lines of a program -/

/-- An 8-bit operand is read back from its number (rule R90). -/
@[simp] theorem decodeByte_toNat (m : Mnemonic) (v : Byte) (k : Byte → Instr) : decodeByte m v.toNat k = .ok (k v) := by
  rw [decodeByte, if_pos v.isLt, BitVec.ofNat_toNat, BitVec.setWidth_eq]

/-- Settles O1: each line carries the operands of its mnemonic in their order, and 8-bit ones fit. -/
theorem decodeEncodeGivesTheOperation : Obligations.DecodeEncodeGivesTheOperation := by
  intro i
  cases i with
  | writeByte a v d => exact decodeByte_toNat _ v fun b => .writeByte a b d
  | command c => exact decodeByte_toNat _ c .command
  | programByte a v cfg => exact decodeByte_toNat _ v fun b => .programByte a b cfg
  | _ => rfl

/-- Settles O4: the words are closed terms. -/
theorem tableWordsDecode : Obligations.TableWordsDecode := by
  refine ⟨?_, ?_, ?_, ?_, ?_, ?_, ?_, ?_⟩ <;> decide +kernel

end Sys2Proof
end

section
/-! SUPPORT. Operations of pure bus writes on the wire (rules R94, R98, R102, R117): what an observer reads from their events
is their sequence, and that is their frame in the opcode table. -/

namespace Sys2Proof.Machine

theorem cyclesFrame_cons (c : BusCycle) (cs : List BusCycle) : cyclesFrame (c :: cs) = addrFrame c.1 ++ [c.2] ++ cyclesFrame cs :=
  rfl

/-- A frame has four bytes for each bus cycle (rule R94). -/
theorem cyclesFrame_length (cs : List BusCycle) : (cyclesFrame cs).length = 4 * cs.length := by
  induction cs with
  | nil => rfl
  | cons c cs ih =>
    rw [cyclesFrame_cons, List.length_append, ih]
    simp [addrFrame]
    omega

theorem timed_cycles (d : Nat) (cs : List BusCycle) : (timed d cs).map Prod.fst = cs := by
  simp [timed, Function.comp_def]

/-- What the opcode table gives an operation that issues bus cycles is the frame of its sequence, with the command byte at
the decided address (rules R97, R98, decision D11). -/
theorem encodeWire_eq_sequence {p : Params} {i : Instr} {frame : List Byte} (hp : p.cmdAddr = decidedCmdAddr)
    (he : encodeWire i = some frame) (hn : i.mnemonic ≠ .writeAddress) :
    ∃ cs, operationSequence p i = some cs ∧ frame = cyclesFrame (cs.map Prod.fst) := by
  cases i <;> simp only [encodeWire, reduceCtorEq, Option.some.injEq] at he <;> subst he
  case writeAddress a => exact absurd rfl hn
  all_goals refine ⟨_, rfl, ?_⟩
  case writeByte a v d => rfl
  case programByte a v cfg =>
    rw [programSequence, List.map_append, commandSequence, timed_cycles, hp]
    rfl
  case unlock => rw [timed_cycles]
  case eraseChip => rw [timed_cycles, hp]
  all_goals rw [commandSequence, timed_cycles, hp]

/-- Every operation of pure bus writes shows its sequence: its events are those of the cycles (rules R98, R102). -/
theorem exec_sequence_newEvents {i : Instr} {cs : List TimedCycle} {s : State}
    (ho : operationSequence s.params i = some cs) (hs : CanStart s) (hw : WellFormed i = true)
    (hp : PortsOk (76 * cs.length) s) :
    ∃ t, exec i s = .next t ∧ newEvents s t = sentEvents s.params s.ctrl cs
      ∧ t = { cyclesLeave s cs with
          trace := s.trace ++ newEvents s t, outcomes := s.outcomes ++ [.ok .none], active := none } := by
  have hev := newEvents_append (s := s) (t := { cyclesLeave s cs with
    trace := s.trace ++ sentEvents s.params s.ctrl cs, outcomes := s.outcomes ++ [.ok .none], active := none }) rfl
  exact ⟨_, exec_sequence ho hs hw hp, hev, by rw [hev]⟩

/-- Settles O29: the events are those of the cycles, and an observer reads cycles, windows and counts from them. -/
theorem commandsAreTheirBusCycles : Obligations.CommandsAreTheirBusCycles := by
  intro i cs s ho hs hw hp
  obtain ⟨t, hexec, hev, ht⟩ := exec_sequence_newEvents ho hs hw hp
  refine ⟨t, hexec, ?_, ?_, ?_, ht⟩ <;> rw [hev]
  · exact busCycles_sent (canStart_roles hs) _ _ _ (sequence_addrs ho hw)
  · simpa [windowDelays] using windowDelays_sent s.params s.ctrl cs []
  · exact countEvents_sent _ _ _

/-- Settles O5: the wire shows the sequence, and the opcode table's frame is that of the sequence. -/
theorem wireShowsTheEncoding : Obligations.WireShowsTheEncoding := by
  intro i frame s he hn hs hw hcmd hp
  obtain ⟨cs, ho, rfl⟩ := encodeWire_eq_sequence hcmd he hn
  have hports : PortsOk (76 * cs.length) s := portsOk_le hp (by rw [cyclesFrame_length, List.length_map]; omega)
  obtain ⟨t, hexec, hev, -⟩ := exec_sequence_newEvents ho hs hw hports
  refine ⟨t, hexec, ?_⟩
  rw [hev, busCycles_sent (canStart_roles hs) _ _ _ (sequence_addrs ho hw)]

end Sys2Proof.Machine
end

section
/-! SUPPORT. ERASE_WAIT over its iterations, and ERASE before them (rules R171, R172, R178): the first iteration and a later
one answer alike, and iterations whose pair of reads is not erased only read. -/

namespace Sys2Proof.Machine

/-! ### How an operation ends -/

/-- A loop in progress: `k` iterations of it are completed. -/
def waiting (k : Nat) (s : State) : State := { s with active := some k }

@[simp] theorem withOutcomes_outcomes (os : List OpOutcome) (k : Option Nat) (s : State) :
    (withOutcomes os k s).outcomes = os := rfl
@[simp] theorem withOutcomes_active (os : List OpOutcome) (k : Option Nat) (s : State) :
    (withOutcomes os k s).active = k := rfl
@[simp] theorem waiting_outcomes (k : Nat) (s : State) : (waiting k s).outcomes = s.outcomes := rfl
@[simp] theorem waiting_active (k : Nat) (s : State) : (waiting k s).active = some k := rfl

theorem conclude_done (v : Value) (s : State) :
    conclude (.ok (.done v) s) = withOutcomes (s.outcomes ++ [.ok v]) none s := rfl

theorem conclude_again (k : Nat) (s : State) : conclude (.ok (.again k) s) = waiting k s := rfl

theorem conclude_error (e : Stop) (s : State) :
    conclude (.error e s) = withOutcomes (s.outcomes ++ [stopOutcome e]) none s := rfl

/-! ### One iteration -/

/-- The first iteration is the meaning of ERASE_WAIT, a later one is a step: both answer what the iteration leaves. -/
theorem eraseWait_answer {s : State} {k : Nat} {answer : Host.Outcome State Fault Refusal} (hs : CanStart s)
    (h : k = 0 ∧ answer = exec .eraseWait s ∨ s.active = some k ∧ answer = step s) :
    answer = .next (conclude (eraseWaitIteration k s)) := by
  rcases h with ⟨rfl, rfl⟩ | ⟨ha, rfl⟩
  · exact exec_body hs rfl
  · exact step_active hs.1 ha

/-- The state after `n` iterations of ERASE_WAIT that go on, apart from the loop position and the trace. -/
def pairsRead (n : Nat) (s : State) : State := readsLeave (List.replicate (2 * n) 0) s

/-- The events of `n` iterations of ERASE_WAIT: for each, a poll, the wait and two reads of address 0 (rule R171). -/
def waitEvents : Nat → State → List Event
  | 0, _ => []
  | n + 1, s =>
    [.pollCancel false, .delay erasePollUs] ++ readsTrace [0, 0] s ++ waitEvents n (readsLeave [0, 0] s)

/-- The state after `n` iterations of ERASE_WAIT, apart from the loop position. -/
def waited (n : Nat) (s : State) : State :=
  withRecords (s.trace ++ waitEvents n s) (s.oracle.pollIdx + n) (pairsRead n s)

theorem pairsRead_succ (n : Nat) (s : State) : pairsRead (n + 1) s = pairsRead n (readsLeave [0, 0] s) := by
  simp [pairsRead, readsLeave, Nat.mul_add, List.replicate_succ]

theorem readsTrace_records (as : List Nat) (tr : List Event) (k : Nat) (s : State) :
    readsTrace as (withRecords tr k s) = readsTrace as s := by
  induction as generalizing s with
  | nil => rfl
  | cons a as ih => rw [readsTrace, readsTrace, readTrace_records, readLeave_records, ih]

theorem waitEvents_records (n : Nat) (tr : List Event) (k : Nat) (s : State) :
    waitEvents n (withRecords tr k s) = waitEvents n s := by
  induction n generalizing s with
  | zero => rfl
  | succ n ih => rw [waitEvents, waitEvents, readsTrace_records, readsLeave_records, ih]

@[simp] theorem waited_outcomes (n : Nat) (s : State) : (waited n s).outcomes = s.outcomes := readsLeave_outcomes _ s

theorem waited_zero (s : State) : waited 0 s = s := by
  simp [waited, waitEvents, pairsRead, readsLeave, withRecords_self]

theorem waited_one (s : State) : waited 1 s = withRecords
    (s.trace ++ [.pollCancel false, .delay erasePollUs] ++ readsTrace [0, 0] s) (s.oracle.pollIdx + 1)
    (readsLeave [0, 0] s) := by
  simp [waited, waitEvents, pairsRead, List.replicate_succ]

/-- Iterations after one that went on. -/
theorem waited_waited_one (n : Nat) (s : State) : waited n (waited 1 s) = waited (n + 1) s := by
  rw [waited_one, waited, waited, waitEvents_records, pairsRead_succ, waitEvents]
  simp [pairsRead, readsLeave_records, Nat.add_assoc, Nat.add_comm 1]

theorem waited_waited (m n : Nat) (s : State) : waited m (waited n s) = waited (n + m) s := by
  induction n generalizing s with
  | zero => rw [waited_zero, Nat.zero_add]
  | succ n ih => rw [← waited_waited_one n s, ih, waited_waited_one, Nat.add_right_comm]

/-- One iteration, in the terms of claims. -/
theorem eraseWaitIteration_waited {k : Nat} {s : State} (h : CanSend 198 s) (hc : NotCancelled 1 s) :
    eraseWaitIteration k s = .ok (if pairErased s 0 = true then .done .none else .again (k + 1)) (waited 1 s) := by
  rw [eraseWaitIteration_ok h hc, waited_one]
  simp [pairErased]

/-- The two reads of an iteration, called by the host after the poll and the wait (rule R171). -/
theorem runAll_pair {s : State} (hs : CanStart s) (hp : PortsOk 198 s) :
    runAll [.readByte 0, .readByte 0] { s with
        active := none, trace := s.trace ++ [.pollCancel false, .delay 100000],
        oracle := { s.oracle with pollIdx := s.oracle.pollIdx + 1 } } =
      .next (withOutcomes (s.outcomes ++ [.ok (.byte (answerAt s 0 0)), .ok (.byte (answerAt s 0 1))]) none (waited 1 s)) := by
  have hreads := runAll_reads (as := [0, 0]) (s := withOutcomes s.outcomes none (withRecords
    (s.trace ++ [.pollCancel false, .delay 100000]) (s.oracle.pollIdx + 1) s)) (by decide) hs hp (by simp)
  rw [readsLeave_withOutcomes, readsTrace_withOutcomes, readsLeave_records, readsTrace_records] at hreads
  simp only [readsOutcomes, answerAt_withOutcomes, answerAt_records, List.map_cons, List.map_nil] at hreads
  simp only [withOutcomes, withRecords, waited_one, erasePollUs] at hreads ⊢
  exact hreads

/-- How an iteration ends whose reads gave `v1` and `v2`: the records are those of the run, not of the reads. -/
theorem conclude_pair {v1 v2 : Byte} {s w : State} (hout : w.outcomes = s.outcomes) (os : List OpOutcome) (k : Nat) :
    conclude (.ok (if v1 = erasedByte ∧ v2 = erasedByte then .done .none else .again (k + 1)) w) =
      if v1 = 0xFF#8 ∧ v2 = 0xFF#8 then { withOutcomes os none w with outcomes := s.outcomes ++ [.ok .none] }
      else { withOutcomes os none w with outcomes := s.outcomes, active := some (k + 1) } := by
  by_cases h : v1 = erasedByte ∧ v2 = erasedByte
  · rw [if_pos h, if_pos (show v1 = 0xFF#8 ∧ v2 = 0xFF#8 from h)]
    simp [conclude, withOutcomes, hout]
  · rw [if_neg h, if_neg (show ¬(v1 = 0xFF#8 ∧ v2 = 0xFF#8) from h)]
    simp [conclude, withOutcomes, ← hout]

/-- Settles O34: an iteration that is not cancelled polls, waits and reads twice, and its verdict is the two-read test. -/
theorem eraseWait_iteration : Obligations.EraseWaitIteration := by
  intro s k answer hs h hp hc
  obtain rfl := eraseWait_answer hs h
  rw [eraseWaitIteration_ok (canSend_of_canStart hs hp) hc, ← waited_one]
  exact ⟨_, answerAt s 0 0, answerAt s 0 1, runAll_pair hs hp, rfl, rfl, rfl,
    congrArg Host.Outcome.next (conclude_pair (waited_outcomes 1 s) _ k)⟩

/-! ### Iterations one after the other -/

/-- Steps after steps. -/
theorem runSteps_append {m : Nat} {s t : State} (h : runSteps m s = .next t) (n : Nat) :
    runSteps (m + n) s = runSteps n t := by
  induction m generalizing s with
  | zero =>
    cases h
    rw [Nat.zero_add]
  | succ m ih =>
    rw [runSteps] at h
    rw [Nat.add_right_comm, runSteps]
    cases hstep : step s with
    | next u =>
      rw [hstep] at h
      exact ih h
    | fault f =>
      rw [hstep] at h
      cases h
    | refused r =>
      rw [hstep] at h
      cases h

theorem canStart_waited {s : State} (h : CanStart s) (n : Nat) : CanStart (waited n s) := by
  obtain ⟨⟨hf, hr⟩, hp, hh⟩ := h
  exact ⟨⟨(readsLeave_faulted _ s).trans hf, (readsLeave_unchanged (f := State.refused) (fun _ _ => rfl) _ s).trans hr⟩,
    (congrArg paramsProblem (readsLeave_params _ s)).trans hp,
    (readsLeave_unchanged (f := State.handle) (fun _ _ => rfl) _ s).trans hh⟩

theorem canSend_waited {m n : Nat} {s : State} (h : CanSend (198 * m + n) s) : CanSend n (waited m s) :=
  (CanSend.reads (List.replicate (2 * m) 0) (h.le (by rw [List.length_replicate]; omega))).records _ _

theorem notCancelled_waited {m n : Nat} {s : State} (h : NotCancelled (m + n) s) : NotCancelled n (waited m s) :=
  notCancelled_of h (readsLeave_cancelFlag _ s) (readsLeave_hostScript _ s) rfl

theorem pairErased_waited (m k : Nat) (s : State) : pairErased (waited m s) k = pairErased s (m + k) := by
  have hanswer (j : Nat) : answerAt (waited m s) 0 j = answerAt s 0 (j + 2 * m) := by
    rw [waited, answerAt_records, pairsRead, answerAt_readsLeave, List.length_replicate]
  rw [pairErased, pairErased, hanswer, hanswer, show 2 * k + 2 * m = 2 * (m + k) by omega,
    show 2 * k + 1 + 2 * m = 2 * (m + k) + 1 by omega]

/-- A step of a loop in progress is its next iteration, wherever it was before. -/
theorem step_waiting {s : State} (h : Running s) (k : Nat) :
    step (waiting k s) = .next (conclude (eraseWaitIteration k s)) := by
  have hsame : eraseWaitIteration k (waiting k s) = mapState (withOutcomes s.outcomes (some k)) (eraseWaitIteration k s) :=
    indifferent_eraseWaitIteration k s s.outcomes (some k)
  rw [step_active (s := waiting k s) h rfl, hsame]
  exact congrArg _ (conclude_mapState (keeps_eraseWaitIteration admitsAll_records.toAdmitsLoops k s).1 _)

/-- An iteration whose pair is not erased goes on (rule R171). -/
theorem eraseWaitIteration_again {k : Nat} {s : State} (h : CanSend 198 s) (hc : NotCancelled 1 s)
    (hne : pairErased s 0 = false) : eraseWaitIteration k s = .ok (.again (k + 1)) (waited 1 s) := by
  rw [eraseWaitIteration_waited h hc, hne]
  rfl

/-- An iteration whose pair is erased ends the loop (rule R171). -/
theorem eraseWaitIteration_done {k : Nat} {s : State} (h : CanSend 198 s) (hc : NotCancelled 1 s)
    (he : pairErased s 0 = true) : eraseWaitIteration k s = .ok (.done .none) (waited 1 s) := by
  rw [eraseWaitIteration_waited h hc, he]
  rfl

theorem runSteps_waiting {n k : Nat} {s : State} (hs : CanStart s) (hp : PortsOk (198 * n) s) (hc : NotCancelled n s)
    (hne : ∀ j, j < n → pairErased s j = false) : runSteps n (waiting k s) = .next (waiting (k + n) (waited n s)) := by
  induction n generalizing k s with
  | zero => rw [waited_zero]; rfl
  | succ n ih =>
    have hsend : CanSend (198 * 1 + 198 * n) s := canSend_of_canStart hs (portsOk_le hp (by omega))
    have hpoll : NotCancelled (1 + n) s := notCancelled_le hc (by omega)
    rw [runSteps_succ (step_waiting hs.1 k), eraseWaitIteration_again (hsend.le (by omega)) (notCancelled_le hc (by omega))
      (hne 0 (by omega))]
    refine (ih (k := k + 1) (canStart_waited hs 1) (canSend_waited hsend).ports (notCancelled_waited hpoll)
      fun j hj => ?_).trans ?_
    · rw [pairErased_waited, hne _ (by omega)]
    · rw [waited_waited_one, Nat.add_right_comm, Nat.add_assoc]

/-- The state that an ERASE_WAIT leaves that ended after `n` iterations. -/
def waitDone (n : Nat) (s : State) : State :=
  withOutcomes (s.outcomes ++ [.ok .none]) none (waited n s)

theorem waitDone_calls (n : Nat) (s : State) : (waitDone n s).calls = s.calls :=
  readsLeave_unchanged (f := State.calls) (fun _ _ => rfl) _ s

theorem waitDone_mem (n : Nat) (s : State) : (waitDone n s).mem = s.mem :=
  readsLeave_unchanged (f := State.mem) (fun _ _ => rfl) _ s

theorem waitDone_trace (n : Nat) (s : State) : (waitDone n s).trace = s.trace ++ waitEvents n s := rfl

/-- The first pair of erased reads ends the loop (rules R171, R253). -/
theorem runSteps_waitDone {m k : Nat} {s : State} (hs : CanStart s) (hp : PortsOk (198 * (m + 1)) s)
    (hc : NotCancelled (m + 1) s) (hne : ∀ j, j < m → pairErased s j = false) (he : pairErased s m = true) :
    runSteps (m + 1) (waiting k s) = .next (waitDone (m + 1) s) := by
  have hsend : CanSend (198 * m + 198) s := canSend_of_canStart hs (portsOk_le hp (by omega))
  rw [runSteps_append (runSteps_waiting hs (portsOk_le hp (by omega)) (notCancelled_le hc (by omega)) hne) 1,
    runSteps_succ (step_waiting (canStart_waited hs m).1 _),
    eraseWaitIteration_done (canSend_waited hsend) (notCancelled_waited hc) (by rw [pairErased_waited]; exact he),
    waited_waited, runSteps, conclude_done, waited_outcomes]
  rfl

theorem countEvents_waitEvents (n : Nat) (s : State) :
    countEvents (waitEvents n s) = ⟨182 * n, 0, 16 * n, 0, 183 * n, n, 0⟩ := by
  induction n generalizing s with
  | zero => rfl
  | succ n ih =>
    simp only [waitEvents, readsTrace, countEvents_append, countEvents_cons, countEvents_readTrace, ih]
    simp [addCounts, countEvent, noEvents]
    omega

theorem pollsOf_waitEvents (n : Nat) (s : State) : pollsOf (waitEvents n s) = List.replicate n false := by
  induction n generalizing s with
  | zero => rfl
  | succ n ih =>
    simp only [waitEvents, readsTrace, pollsOf_append, pollsOf_transport (readTrace_transport _ _), ih]
    rfl

/-- A call of ERASE_WAIT is a loop in progress whose first iteration is to come. -/
theorem step_eraseWait_call {s : State} {c : Call} {rest : List Call} (hs : CanStart s) (ha : s.active = none)
    (hc : s.calls = c :: rest) (hd : decode c = .ok .eraseWait) :
    step s = step (waiting 0 { s with calls := rest }) := by
  rw [step_call ha hc hd (by simp [mayCall, hostMayCall, visibility, Instr.mnemonic]),
    step_waiting (s := { s with calls := rest }) hs.1]
  exact exec_body (s := { s with calls := rest }) hs rfl

/-- Settles O35: `m` iterations go on, the next one ends, and the target answers reads in the order of the iterations. -/
theorem eraseWaitEndsAtTheFirstErasedPair : Obligations.EraseWaitEndsAtTheFirstErasedPair := by
  intro s c rest m hs ha hcalls hd hp hc hne he
  have hcall := step_eraseWait_call hs ha hcalls hd
  have hrun (n : Nat) : runSteps (n + 1) s = runSteps (n + 1) (waiting 0 { s with calls := rest }) := by
    rw [runSteps, runSteps, hcall]
  have hstart : CanStart { s with calls := rest } := hs
  have hdone := (hrun m).trans (runSteps_waitDone hstart hp hc hne he)
  have hev : newEvents s (waitDone (m + 1) { s with calls := rest }) = waitEvents (m + 1) { s with calls := rest } :=
    newEvents_append (waitDone_trace (m + 1) { s with calls := rest })
  refine ⟨_, hdone, rfl, rfl, waitDone_calls _ _, waitDone_mem _ _, ?_, ?_, ?_⟩
  · rw [hev, countEvents_waitEvents]
  · rw [hev, pollsOf_waitEvents]
  · intro n t' hn ht'
    cases n with
    | zero =>
      cases ht'
      rfl
    | succ n =>
      have hgoes := (hrun n).trans (runSteps_waiting (k := 0) hstart (portsOk_le hp (by omega))
        (notCancelled_le hc (by omega)) fun j hj => hne j (by omega))
      cases ht'.symm.trans hgoes
      exact waited_outcomes (n + 1) { s with calls := rest }

/-! ### Cancellation -/

/-- The state after a poll of operation `op` that answered true with `k` completed (rules R178, R216). -/
def cancelledAt (op : LoopOp) (k : Nat) (s : State) : State :=
  { s with
    active := none, cancelFlag := true, trace := s.trace ++ [.pollCancel true],
    outcomes := s.outcomes ++ [.cancelled op k], oracle := { s.oracle with pollIdx := s.oracle.pollIdx + 1 } }

theorem pollOrCancel_raised {s : State} (h : flagAtPoll s = true) (op : LoopOp) (k : Nat) :
    pollOrCancel op k s = .error (.cancelled op k) (polled s) := by
  rw [pollOrCancel_eq, if_pos h]

/-- What a poll that answers true leaves of the operation: no event more, and the number of what is completed. -/
theorem conclude_cancelled {s : State} (h : flagAtPoll s = true) (op : LoopOp) (k : Nat) :
    conclude (.error (.cancelled op k) (polled s)) = cancelledAt op k s := by
  simp [conclude, polled, h, stopOutcome, cancelledAt, addEvent]

theorem eraseWaitIteration_raised {s : State} (h : flagAtPoll s = true) (k : Nat) :
    conclude (eraseWaitIteration k s) = cancelledAt .eraseWait k s := by
  rw [← conclude_cancelled h]
  exact congrArg _ (bind_error (pollOrCancel_raised h _ _))

/-- Settles O37: the poll comes first in the iteration. -/
theorem eraseWaitIsCancelledAtItsPoll : Obligations.EraseWaitIsCancelledAtItsPoll := by
  intro s k answer hs h hflag
  rw [eraseWait_answer hs h, eraseWaitIteration_raised hflag]
  rfl

/-! ### ERASE -/

/-- The state that the erase command leaves, as a part of ERASE (rule R144). -/
def eraseSent (s : State) : State := allSent (timed s.params.cmdSettleUs (eraseCycles s.params.cmdAddr.toNat)) s

theorem eraseSent_eq (s : State) :
    eraseSent s = withRecords
      (s.trace ++ sentEvents s.params s.ctrl (timed s.params.cmdSettleUs (eraseCycles s.params.cmdAddr.toNat)))
      s.oracle.pollIdx (cyclesLeave s (timed s.params.cmdSettleUs (eraseCycles s.params.cmdAddr.toNat))) :=
  allSent_eq (sequence_addrs (i := .eraseChip) rfl rfl)

theorem eraseSent_outcomes (s : State) : (eraseSent s).outcomes = s.outcomes := by
  rw [eraseSent_eq]
  exact cyclesLeave_outcomes s _

theorem canStart_cyclesLeave {s : State} (h : CanStart s) (cs : List TimedCycle) : CanStart (cyclesLeave s cs) := by
  obtain ⟨hf, hr, hh⟩ := cyclesLeave_running s cs
  obtain ⟨⟨hfault, hrefused⟩, hparams, hopen⟩ := h
  exact ⟨⟨hf.trans hfault, hr.trans hrefused⟩, (congrArg paramsProblem (cyclesLeave_params s cs)).trans hparams,
    hh.trans hopen⟩

theorem canStart_eraseSent {s : State} (h : CanStart s) : CanStart (eraseSent s) := by
  rw [eraseSent_eq]
  exact canStart_cyclesLeave h _

theorem notCancelled_eraseSent {n : Nat} {s : State} (h : NotCancelled n s) : NotCancelled n (eraseSent s) := by
  rw [eraseSent_eq]
  exact notCancelled_of (m := 0) (by rwa [Nat.zero_add]) (cyclesLeave_cancelFlag s _)
    (by simp [cyclesLeave_oracle]) rfl

theorem canSend_eraseSent {n : Nat} {s : State} (h : CanSend (456 + n) s) : CanSend n (eraseSent s) :=
  CanSend.sent _ h

theorem flagAtPoll_eraseSent (s : State) : flagAtPoll (eraseSent s) = flagAtPoll s := by
  rw [eraseSent_eq, flagAtPoll, flagAtPoll, withRecords_cancelFlag, cyclesLeave_cancelFlag, withRecords_oracle,
    cyclesLeave_oracle]
  rfl

/-- ERASE is the erase command and the first iteration of ERASE_WAIT (rule R172). -/
theorem exec_erase {s : State} (hs : CanStart s) (hp : PortsOk 456 s) :
    exec .erase s = .next (conclude (eraseWaitIteration 0 (eraseSent s))) := by
  rw [exec_body hs rfl, bodyOf, eraseStart, bind_ok (eraseChip_ok (canSend_of_canStart hs hp))]
  rfl

theorem exec_eraseChip {s : State} (hs : CanStart s) (hp : PortsOk 456 s) :
    exec .eraseChip s = .next (withOutcomes (s.outcomes ++ [.ok .none]) none (eraseSent s)) := by
  rw [exec_ok (i := .eraseChip) hs rfl (done_ok (eraseChip_ok (canSend_of_canStart hs hp))), ← eraseSent,
    eraseSent_outcomes]
  rfl

/-- ERASE_WAIT called after the erase command is ERASE's own wait: the records before it are of no account. -/
theorem exec_eraseWait_eraseSent {s : State} (hs : CanStart s) :
    exec .eraseWait (withOutcomes s.outcomes none (eraseSent s))
      = .next (conclude (eraseWaitIteration 0 (eraseSent s))) := by
  have hstart : CanStart (withOutcomes s.outcomes none (eraseSent s)) := canStart_eraseSent hs
  rw [exec_body hstart rfl, bodyOf, indifferent_eraseWaitIteration]
  refine congrArg _ (conclude_mapState ?_ _)
  exact (keeps_eraseWaitIteration admitsAll_records.toAdmitsLoops 0 _).1.trans (eraseSent_outcomes s)

/-- An iteration that is not cancelled has ended Ok, or the loop goes on. -/
theorem eraseWaitIteration_ends {k : Nat} {s t : State} (h : CanSend 198 s) (hc : NotCancelled 1 s)
    (ht : t = conclude (eraseWaitIteration k s)) :
    t.outcomes = s.outcomes ++ [.ok .none] ∧ t.active = none ∨ t.outcomes = s.outcomes ∧ t.active = some (k + 1) := by
  rw [ht]
  cases he : pairErased s 0 with
  | true =>
    rw [eraseWaitIteration_done h hc he, conclude_done, withOutcomes_outcomes, waited_outcomes, withOutcomes_active]
    exact .inl ⟨rfl, rfl⟩
  | false =>
    rw [eraseWaitIteration_again h hc he, conclude_again, waiting_outcomes, waited_outcomes, waiting_active]
    exact .inr ⟨rfl, rfl⟩

/-- Settles O36: no poll comes before the erase command has been sent, and then ERASE is ERASE_WAIT. -/
theorem eraseIssuesTheCommandFirst : Obligations.EraseIssuesTheCommandFirst := by
  intro s hs hp
  refine ⟨_, _, exec_eraseChip hs (portsOk_le hp (by omega)), exec_erase hs (portsOk_le hp (by omega)), ?_, ?_⟩
  · intro hflag
    rw [eraseWaitIteration_raised ((flagAtPoll_eraseSent s).trans hflag), cancelledAt, eraseSent_outcomes]
    rfl
  · intro hc
    refine ⟨exec_eraseWait_eraseSent hs, ?_⟩
    rw [← eraseSent_outcomes s]
    exact eraseWaitIteration_ends (canSend_eraseSent (canSend_of_canStart hs hp)) (notCancelled_eraseSent hc) rfl

end Sys2Proof.Machine
end

section
/-! SUPPORT. BLANK_CHECK over erased bytes, to its end or to the poll that cancels it (rules R173, R177, R178). -/

namespace Sys2Proof.Machine

/-! ### The bytes that pass -/

/-- The state after the first `k` bytes of a BLANK_CHECK have passed. -/
def blankPassed (offset k : Nat) (s : State) : State :=
  withRecords (s.trace ++ blankEvents offset k 0 s) (s.oracle.pollIdx + k) (blankRead offset k s)

theorem blankPassed_outcomes (offset k : Nat) (s : State) : (blankPassed offset k s).outcomes = s.outcomes :=
  readsLeave_outcomes _ s

theorem blankPassed_trace (offset k : Nat) (s : State) :
    (blankPassed offset k s).trace = s.trace ++ blankEvents offset k 0 s := rfl

/-- BLANK_CHECK past its first `k` bytes, which are erased. -/
theorem blankCheck_passed {offset k m : Nat} {s : State} (h : CanSend (99 * k) s) (hc : NotCancelled k s)
    (ha : offset + (k + m) ≤ addrSpace) (he : ∀ j, j < k → answerAt s (offset + j) j = erasedByte) :
    blankCheck offset (k + m) s = blankBytes offset m k (blankPassed offset k s) := by
  refine seq_ok (checkRange_ok ha) ?_
  rw [blankBytes_ok h hc (by omega) (by simpa using he), Nat.zero_add]
  rfl

/-- BLANK_CHECK over erased bytes alone. -/
theorem exec_blankCheck_passed {offset n : Nat} {s : State} (hs : CanStart s) (hp : PortsOk (99 * n) s)
    (hc : NotCancelled n s) (ha : offset + n ≤ addrSpace) (he : ∀ j, j < n → answerAt s (offset + j) j = erasedByte) :
    exec (.blankCheck offset n) s =
      .next (withOutcomes (s.outcomes ++ [.ok .none]) none (blankPassed offset n s)) := by
  have hbody : blankCheck offset n s = .ok () (blankPassed offset n s) :=
    blankCheck_passed (m := 0) (canSend_of_canStart hs hp) hc ha he
  rw [exec_body hs rfl, bodyOf, done_ok hbody, conclude_done, blankPassed_outcomes]

/-! ### What an observer notes -/

/-- What of an event a read alone would show: port accesses and delays. -/
def isReadEvent (e : Event) : Bool := isPortEvent e || !(delaysOf [e]).isEmpty

theorem isReadEvent_of_transport {e : Event} (h : isTransportEvent e = true) : isReadEvent e = true := by
  cases e <;> simp_all [isTransportEvent, isReadEvent, isPortEvent, delaysOf]

/-- Polls and reports apart, the events of BLANK_CHECK are those of its reads. -/
theorem filter_blankEvents (offset n i : Nat) (s : State) :
    (blankEvents offset n i s).filter isReadEvent = readsTrace ((List.range' i n).map (offset + ·)) s := by
  induction n generalizing i s with
  | zero => rfl
  | succ n ih =>
    have hread : (readTrace (offset + i) s).filter isReadEvent = readTrace (offset + i) s :=
      List.filter_eq_self.mpr fun e he => isReadEvent_of_transport (readTrace_transport _ _ e he)
    have hreport : (if (i + 1) % progressStep = 0 then [.progress (i + 1)] else []).filter isReadEvent = [] := by
      split <;> rfl
    rw [blankEvents, List.filter_append, List.filter_append, hreport, ih, List.append_nil, List.range'_succ,
      List.map_cons, readsTrace, List.filter_cons_of_neg (by decide), hread]

theorem readsLeave_pollIdx (as : List Nat) (s : State) : (readsLeave as s).oracle.pollIdx = s.oracle.pollIdx :=
  readsLeave_unchanged (f := fun s => s.oracle.pollIdx) (fun _ _ => rfl) as s

/-- Only the records of the run are changed. -/
theorem withRecords_withOutcomes (tr : List Event) (os : List OpOutcome) (k : Option Nat) (s : State) :
    withRecords tr s.oracle.pollIdx (withOutcomes os k s) = { s with trace := tr, outcomes := os, active := k } := rfl

/-- READ_BYTEs of consecutive addresses, called by the host: their state is the one BLANK_CHECK's reads leave. -/
theorem runAll_blankReads {offset n : Nat} {s : State} (hs : CanStart s) (hp : PortsOk (99 * n) s)
    (ha : offset + n ≤ addrSpace) :
    ∃ os k, runAll ((List.range n).map fun j => .readByte (offset + j)) s =
      .next (withRecords (s.trace ++ readsTrace ((List.range' 0 n).map (offset + ·)) s) s.oracle.pollIdx
        (withOutcomes os k (blankRead offset n s))) := by
  by_cases hn : n = 0
  · subst hn
    exact ⟨s.outcomes, s.active, by simp [runAll, readsTrace, blankRead, readsLeave, withRecords, withOutcomes]⟩
  · have hreads := runAll_reads (as := (List.range' 0 n).map (offset + ·)) (s := s)
      (by simp only [List.mem_map, List.mem_range'_1]; omega) hs (by simpa using hp) (by simpa using hn)
    refine ⟨s.outcomes ++ readsOutcomes ((List.range' 0 n).map (offset + ·)) 0 s, none, ?_⟩
    rw [← readsLeave_pollIdx ((List.range' 0 n).map (offset + ·)) s, blankRead, withRecords_withOutcomes, ← hreads,
      List.map_map, List.range_eq_range']
    rfl

/-- Settles O38: every byte passes, so the reads and the reports are those of all of them, and the verdict is Ok. -/
theorem blankCheckPasses : Obligations.BlankCheckPasses := by
  intro offset n s hs ha hp hc he
  obtain ⟨os, k, hreads⟩ := runAll_blankReads hs hp ha
  have hev : newEvents s (withOutcomes (s.outcomes ++ [.ok .none]) none (blankPassed offset n s))
      = blankEvents offset n 0 s := newEvents_append (blankPassed_trace offset n s)
  refine ⟨_, _, exec_blankCheck_passed hs hp hc ha he, hreads, ?_, ?_, ?_, ?_⟩
  · rw [hev, newEvents_append (withRecords_trace _ _ _)]
    exact filter_blankEvents offset n 0 s
  · rw [newMarks, hev, marksOf_blank, List.range_eq_range']
  · rw [hev, countEvents_blank, Nat.zero_add]
    rfl
  · rw [hev, blankPassed]
    have hpoll : (blankRead offset n s).oracle.pollIdx = s.oracle.pollIdx := readsLeave_pollIdx _ s
    generalize blankRead offset n s = w at hpoll
    simp [withOutcomes, withRecords]

/-! ### Cancellation -/

/-- The poll after `k` that were not cancelled sees the flag that the host has raised (rule R170). -/
theorem flagAtPoll_of_cancelledAfter {k : Nat} {s t : State} (h : CancelledAfter k s)
    (hs : t.oracle.hostScript = s.oracle.hostScript) (hi : t.oracle.pollIdx = s.oracle.pollIdx + k) :
    flagAtPoll t = true := by
  have hset : hostSets t.oracle t.oracle.pollIdx = true := by
    rw [hi, hostSets, hs]
    exact h.2
  rw [flagAtPoll, hset, Bool.or_true]

/-- Cancellation turns what an operation that ends Ok leaves into what it leaves at a further poll. -/
theorem cancelledAt_eq (op : LoopOp) (k : Nat) (os : List OpOutcome) (s : State) :
    cancelledAt op k s = { withOutcomes os none s with
      cancelFlag := true, trace := s.trace ++ [.pollCancel true], outcomes := s.outcomes ++ [.cancelled op k]
      oracle := { s.oracle with pollIdx := s.oracle.pollIdx + 1 } } := rfl

/-- BLANK_CHECK is cancelled at the poll after the bytes that have passed (rules R173, R178). -/
theorem exec_blankCheck_cancelled {offset n k : Nat} {s : State} (hs : CanStart s) (hp : PortsOk (99 * k) s)
    (hc : CancelledAfter k s) (ha : offset + n ≤ addrSpace) (hk : k < n)
    (he : ∀ j, j < k → answerAt s (offset + j) j = erasedByte) :
    exec (.blankCheck offset n) s = .next (cancelledAt .blankCheck k (blankPassed offset k s)) := by
  obtain ⟨m, rfl⟩ : ∃ m, n = k + (m + 1) := ⟨n - k - 1, by omega⟩
  have hflag : flagAtPoll (blankPassed offset k s) = true :=
    flagAtPoll_of_cancelledAfter hc (readsLeave_hostScript _ s) rfl
  have hbody : blankCheck offset (k + (m + 1)) s = .error (.cancelled .blankCheck k) (polled (blankPassed offset k s)) := by
    rw [blankCheck_passed (canSend_of_canStart hs hp) hc.1 ha he]
    exact bind_error (pollOrCancel_raised hflag _ _)
  rw [exec_body hs rfl, bodyOf, done_error hbody, conclude_cancelled hflag]

/-- Settles O40: before the poll that answers true, `k` bytes have passed as in a BLANK_CHECK of `k` bytes. -/
theorem blankCheckIsCancelledAtItsPoll : Obligations.BlankCheckIsCancelledAtItsPoll := by
  intro offset n k s hs ha hk hp hc he
  refine ⟨_, _, exec_blankCheck_cancelled hs hp hc ha hk he,
    exec_blankCheck_passed hs hp hc.1 (by omega) he, ?_⟩
  rw [cancelledAt_eq _ _ (s.outcomes ++ [.ok .none]), blankPassed_outcomes]
  rfl

end Sys2Proof.Machine
end

section
/-! SUPPORT. WRITE_IMAGE in its two modes, to its end or to the poll that cancels it (rules R174 to R179). -/

namespace Sys2Proof.Machine

/-! ### The mode -/

theorem sectorSize_toNat_eq_zero {cfg : ChipConfig} : cfg.sectorSize.toNat = 0 ↔ cfg.sectorSize = 0#32 := by
  rw [BitVec.toNat_eq]
  rfl

theorem checkRow_selected (m : Mnemonic) : checkRow m true = pure () := rfl

theorem writeImage_eq_byte {cfg : ChipConfig} (h : cfg.sectorSize.toNat = 0) (offset : Nat) (src : List Byte) :
    writeImage offset src cfg = writeImageByte offset src cfg := by
  rw [writeImage, writeImageByte, writeSelectedMode, if_pos h, decide_eq_true h, checkRow_selected, pure_bind]

theorem writeImage_eq_sector {cfg : ChipConfig} (h : cfg.sectorSize.toNat ≠ 0) (offset : Nat) (src : List Byte) :
    writeImage offset src cfg = writeImageSector offset src cfg := by
  rw [writeImage, writeImageSector, writeSelectedMode, if_neg h, decide_eq_true h, checkRow_selected, pure_bind]

/-- Settles O44: the body of WRITE_IMAGE is that of the row that `sector_size` selects. -/
theorem sectorSizeSelectsTheMode : Obligations.SectorSizeSelectsTheMode := by
  intro offset src cfg s
  split
  next h => simp only [exec_eq_perform, ownProblem, bodyOf, writeImage_eq_byte (sectorSize_toNat_eq_zero.mpr h)]
  next h => simp only [exec_eq_perform, ownProblem, bodyOf, writeImage_eq_sector (mt sectorSize_toNat_eq_zero.mp h)]

/-! ### The chunks -/

theorem chunksOf_length {size : Nat} (hs : 0 < size) (fuel : Nat) (src : List Byte) :
    ∀ c ∈ chunksOf size fuel src, 0 < c.length ∧ c.length ≤ size := by
  induction fuel generalizing src with
  | zero => simp [chunksOf]
  | succ fuel ih =>
    cases src with
    | nil => simp [chunksOf]
    | cons b bs =>
      refine List.forall_mem_cons.mpr ⟨?_, ih _⟩
      rw [List.length_take, List.length_cons]
      omega

theorem chunksOf_nil (size fuel : Nat) : chunksOf size fuel [] = [] := by
  cases fuel <;> rfl

/-- Only the last chunk can be short: one that is short has used up the source. -/
theorem chunksOf_dropLast_length {size : Nat} (fuel : Nat) (src : List Byte) :
    ∀ c ∈ (chunksOf size fuel src).dropLast, c.length = size := by
  induction fuel generalizing src with
  | zero => simp [chunksOf]
  | succ fuel ih =>
    cases src with
    | nil => simp [chunksOf]
    | cons b bs =>
      rw [chunksOf]
      by_cases hrest : chunksOf size fuel ((b :: bs).drop size) = []
      · simp [hrest]
      · have hlong : size ≤ (b :: bs).length := by
          by_contra hshort
          exact hrest (by rw [List.drop_eq_nil_of_le (by omega), chunksOf_nil])
        rw [List.dropLast_cons_of_ne_nil hrest]
        exact List.forall_mem_cons.mpr ⟨List.length_take_of_le hlong, ih _⟩

/-- Settles O43: cutting the source loses nothing, and only its last chunk can be short. -/
theorem chunksCoverTheSource : Obligations.ChunksCoverTheSource := fun _ src hs =>
  ⟨chunksOf_flatten hs _ src le_rfl, chunksOf_dropLast_length _ src, chunksOf_length hs _ src⟩

/-! ### The bytes and chunks that are written -/

/-- The state after a part of WRITE_IMAGE with the events `es`, `k` polls and the bus cycles `cs`. -/
def imageWritten (es : List Event) (k : Nat) (cs : List TimedCycle) (s : State) : State :=
  withRecords (s.trace ++ es) (s.oracle.pollIdx + k) (cyclesLeave s cs)

theorem imageWritten_outcomes (es : List Event) (k : Nat) (cs : List TimedCycle) (s : State) :
    (imageWritten es k cs s).outcomes = s.outcomes := cyclesLeave_outcomes s cs

theorem imageWritten_trace (es : List Event) (k : Nat) (cs : List TimedCycle) (s : State) :
    (imageWritten es k cs s).trace = s.trace ++ es := rfl

/-- Once ended Ok, it has changed its outcome, its events and its counts of accesses and polls, and else only what its
bus cycles leave. -/
theorem imageWritten_done (es : List Event) (k : Nat) (cs : List TimedCycle) (o : OpOutcome) (s : State) :
    withOutcomes (s.outcomes ++ [o]) none (imageWritten es k cs s) =
      { cyclesLeave s cs with
        trace := s.trace ++ es, outcomes := s.outcomes ++ [o], active := none
        oracle := { s.oracle with
          portIdx := s.oracle.portIdx + 76 * cs.length, pollIdx := s.oracle.pollIdx + k } } := by
  have horacle := cyclesLeave_oracle s cs
  generalize hw : cyclesLeave s cs = w at horacle
  simp [imageWritten, withOutcomes, withRecords, hw, horacle]

theorem newEvents_imageWritten (es : List Event) (k : Nat) (cs : List TimedCycle) (o : OpOutcome) (s : State) :
    newEvents s (withOutcomes (s.outcomes ++ [o]) none (imageWritten es k cs s)) = es :=
  newEvents_append (imageWritten_trace es k cs s)

theorem chipProblem_of_ok {cfg : ChipConfig} (h : sectorSizeOk cfg = true) : chipProblem cfg = none := if_pos h

/-- WRITE_IMAGE that comes to its end. -/
theorem exec_image_ok {i : Instr} {m : Op Nat} {es : List Event} {k n : Nat} {cs : List TimedCycle} {s : State}
    (hs : CanStart s) (ho : ownProblem i = none) (hb : bodyOf i = counted m)
    (hm : m s = .ok n (imageWritten es k cs s)) :
    exec i s = .next (withOutcomes (s.outcomes ++ [.ok (.count n)]) none (imageWritten es k cs s)) := by
  rw [exec_body hs ho, hb, counted_ok hm, conclude_done, imageWritten_outcomes]

theorem writeImageByte_eq {offset : Nat} {src : List Byte} {cfg : ChipConfig} {s : State}
    (hz : cfg.sectorSize.toNat = 0) (ha : offset + src.length ≤ addrSpace) :
    writeImageByte offset src cfg s = writeBytes offset src.length cfg src 0 s := by
  rw [writeImageByte, decide_eq_true hz, checkRow_selected, pure_bind]
  exact bind_ok (checkRange_ok ha)

theorem writeImageSector_eq {offset : Nat} {src : List Byte} {cfg : ChipConfig} {s : State}
    (hz : cfg.sectorSize.toNat ≠ 0) (ha : offset + src.length ≤ addrSpace) :
    writeImageSector offset src cfg s =
      writeSectors offset cfg (chunksOf cfg.sectorSize.toNat src.length src) 0 s := by
  rw [writeImageSector, decide_eq_true hz, checkRow_selected, pure_bind]
  exact bind_ok (checkRange_ok ha)

/-- Byte mode past the bytes `bs`. -/
theorem writeBytes_written {offset n : Nat} {cfg : ChipConfig} {bs : List Byte} {s : State}
    (ha : offset + bs.length ≤ addrSpace)
    (h : CanSend (76 * (byteModeSequence s.params cfg offset bs).length) s) (hc : NotCancelled bs.length s)
    (rest : List Byte) :
    writeBytes offset n cfg (bs ++ rest) 0 s = writeBytes offset n cfg rest bs.length
      (imageWritten (byteModeEvents s.params cfg offset n s.ctrl bs 0) bs.length
        (byteModeSequence s.params cfg offset bs) s) := by
  rw [writeBytes_ok (by omega) h hc, Nat.zero_add]
  rfl

/-- Sector mode past the chunks `xs`. -/
theorem writeSectors_written {offset : Nat} {cfg : ChipConfig} {xs : List (List Byte)} {s : State}
    (ha : offset + xs.flatten.length ≤ addrSpace)
    (h : CanSend (76 * (sectorModeSequence s.params cfg offset xs).length) s) (hc : NotCancelled xs.length s)
    (rest : List (List Byte)) :
    writeSectors offset cfg (xs ++ rest) 0 s = writeSectors offset cfg rest xs.flatten.length
      (imageWritten (sectorModeEvents s.params cfg offset s.ctrl xs 0) xs.length
        (sectorModeSequence s.params cfg offset xs) s) := by
  rw [writeSectors_ok (by omega) h hc, Nat.zero_add]
  rfl

/-- Settles O41: every byte is written or skipped, and the observer notes byte mode's marks of all of them. -/
theorem writeImageByteMode : Obligations.WriteImageByteMode := by
  intro i offset src cfg s hi hz hs ha hp hc
  have hz := sectorSize_toNat_eq_zero.mpr hz
  have hbody : bodyOf i = counted (writeImageByte offset src cfg) := by
    rcases hi with rfl | rfl
    · rw [bodyOf, writeImage_eq_byte hz]
    · rfl
  have hown : ownProblem i = none := by
    have hcfg : chipProblem cfg = none := chipProblem_of_ok (by simp [sectorSizeOk, hz])
    rcases hi with rfl | rfl <;> exact hcfg
  have hrun := writeBytes_written (n := src.length) ha (canSend_of_canStart hs hp) hc []
  rw [List.append_nil, ← writeImageByte_eq hz ha] at hrun
  refine ⟨_, exec_image_ok hs hown hbody hrun, ?_, ?_, ?_⟩
  · rw [newMarks, newEvents_imageWritten, marksOf_byteMode (canStart_roles hs) _ _ _ _ _ _ _ (by omega)]
  · rw [newEvents_imageWritten, countEvents_byteMode_wrCtrl]
    rfl
  · rw [newEvents_imageWritten, imageWritten_done]

/-- Settles O42: every chunk is written whole or skipped, and the observer notes sector mode's marks of all of them. -/
theorem writeImageSectorMode : Obligations.WriteImageSectorMode := by
  intro i offset src cfg s chunks hi hz hok hchunks hs ha hp hc
  have hz := mt sectorSize_toNat_eq_zero.mp hz
  have hflat : chunks.flatten = src := by
    rw [hchunks]
    exact chunksOf_flatten (Nat.pos_of_ne_zero hz) _ _ le_rfl
  have hbody : bodyOf i = counted (writeImageSector offset src cfg) := by
    rcases hi with rfl | rfl
    · rw [bodyOf, writeImage_eq_sector hz]
    · rfl
  have hown : ownProblem i = none := by
    have hcfg := chipProblem_of_ok hok
    rcases hi with rfl | rfl <;> exact hcfg
  have hrun := writeSectors_written (xs := chunks) (by rwa [hflat]) (canSend_of_canStart hs hp) hc []
  rw [List.append_nil, hflat, hchunks, ← writeImageSector_eq hz ha, ← hchunks] at hrun
  refine ⟨_, exec_image_ok hs hown hbody hrun, ?_, ?_, ?_⟩
  · rw [newMarks, newEvents_imageWritten,
      marksOf_sectorMode (canStart_roles hs) _ _ _ _ _ _ (by rw [hflat]; omega)]
  · rw [newEvents_imageWritten, countEvents_sectorMode_wrCtrl]
    rfl
  · rw [newEvents_imageWritten, imageWritten_done]

/-! ### Cancellation -/

/-- What WRITE_IMAGE has done when its poll after `k` others answers true: the cycles `cs` of `n` bytes, in some events
`es`. -/
structure ImageCancelled (offset : Nat) (src : List Byte) (cfg : ChipConfig) (s : State) (k n : Nat)
    (cs : List TimedCycle) (es : List Event) : Prop where
  run : writeImage offset src cfg s = .error (.cancelled .writeImage n) (polled (imageWritten es k cs s))
  cycles : busCycles s.params (wireView s) (es ++ [.pollCancel true]) = cs.map Prod.fst
  polls : pollsOf es = List.replicate k false

theorem flagAtPoll_imageWritten {es : List Event} {k : Nat} {cs : List TimedCycle} {s : State}
    (h : CancelledAfter k s) : flagAtPoll (imageWritten es k cs s) = true := by
  have hscript : (cyclesLeave s cs).oracle.hostScript = s.oracle.hostScript := by rw [cyclesLeave_oracle]
  exact flagAtPoll_of_cancelledAfter h hscript rfl

theorem byteMode_cancelled {offset k : Nat} {src : List Byte} {cfg : ChipConfig} {s : State}
    (hz : cfg.sectorSize.toNat = 0) (hk : k < src.length) (hs : CanStart s) (ha : offset + src.length ≤ addrSpace)
    (hp : PortsOk (76 * (byteModeSequence s.params cfg offset (src.take k)).length) s) (hc : CancelledAfter k s) :
    ∃ es, ImageCancelled offset src cfg s k k (byteModeSequence s.params cfg offset (src.take k)) es := by
  have hlen : (src.take k).length = k := List.length_take_of_le (by omega)
  have hsplit : src = src.take k ++ src[k] :: src.drop (k + 1) := by
    rw [List.getElem_cons_drop, List.take_append_drop]
  have hrun := writeBytes_written (n := src.length) (by omega) (canSend_of_canStart hs hp)
    (hlen.symm ▸ hc.1) (src[k] :: src.drop (k + 1))
  rw [← hsplit, hlen, ← writeImageByte_eq hz ha, ← writeImage_eq_byte hz] at hrun
  refine ⟨_, hrun.trans (bind_error (pollOrCancel_raised (flagAtPoll_imageWritten hc) _ _)), ?_, ?_⟩
  · obtain ⟨w, hbus⟩ := busCycles_byteMode s.params cfg offset src.length (canStart_roles hs) (src.take k) 0 s.ctrl
      (wireView s) [.pollCancel true] (by omega)
    exact hbus.trans (List.append_nil _)
  · rw [pollsOf_byteMode, hlen]

theorem sectorMode_cancelled {offset k : Nat} {src : List Byte} {cfg : ChipConfig} {s : State}
    (hz : cfg.sectorSize.toNat ≠ 0) (hk : k * cfg.sectorSize.toNat < src.length) (hs : CanStart s)
    (ha : offset + src.length ≤ addrSpace)
    (hp : PortsOk (76 * (imageSequence s.params offset (src.take (k * cfg.sectorSize.toNat)) cfg).length) s)
    (hc : CancelledAfter k s) :
    ∃ es, ImageCancelled offset src cfg s k (k * cfg.sectorSize.toNat)
      (imageSequence s.params offset (src.take (k * cfg.sectorSize.toNat)) cfg) es := by
  have hlen : (src.take (k * cfg.sectorSize.toNat)).length = k * cfg.sectorSize.toNat :=
    List.length_take_of_le (by omega)
  rw [imageSequence, if_neg hz, hlen] at hp ⊢
  obtain ⟨c, cs, hsplit, hcount⟩ := chunksOf_split (Nat.pos_of_ne_zero hz) k src hk
  have hflat := chunksOf_flatten (Nat.pos_of_ne_zero hz) (k * cfg.sectorSize.toNat)
    (src.take (k * cfg.sectorSize.toNat)) hlen.le
  generalize chunksOf cfg.sectorSize.toNat (k * cfg.sectorSize.toNat) (src.take (k * cfg.sectorSize.toNat)) = xs
    at hp hsplit hcount hflat ⊢
  rw [← hflat] at hlen
  have hrun := writeSectors_written (by omega) (canSend_of_canStart hs hp) (hcount.symm ▸ hc.1) (c :: cs)
  rw [← hsplit, hlen, hcount, ← writeImageSector_eq hz ha, ← writeImage_eq_sector hz] at hrun
  refine ⟨_, hrun.trans (bind_error (pollOrCancel_raised (flagAtPoll_imageWritten hc) _ _)), ?_, ?_⟩
  · obtain ⟨w, hbus⟩ := busCycles_sectorMode s.params cfg offset (canStart_roles hs) xs 0 s.ctrl (wireView s)
      [.pollCancel true] (by omega)
    exact hbus.trans (List.append_nil _)
  · rw [pollsOf_sectorMode, hcount]

/-- The state that a cancelled WRITE_IMAGE leaves. -/
theorem exec_image_cancelled {offset k n : Nat} {src : List Byte} {cfg : ChipConfig} {s : State}
    {cs : List TimedCycle} {es : List Event} (hs : CanStart s) (hok : sectorSizeOk cfg = true)
    (hc : CancelledAfter k s) (h : ImageCancelled offset src cfg s k n cs es) :
    exec (.writeImage offset src cfg) s = .next (cancelledAt .writeImage n (imageWritten es k cs s)) := by
  have hown : ownProblem (.writeImage offset src cfg) = none := chipProblem_of_ok hok
  rw [exec_body hs hown, bodyOf, counted_error h.run,
    conclude_cancelled (flagAtPoll_imageWritten hc)]

/-- Settles O45: in either mode the cycles are those of the bytes before the poll, and the poll is the last event. -/
theorem writeImageIsCancelledAtItsPoll : Obligations.WriteImageIsCancelledAtItsPoll := by
  intro offset src cfg s k consumed hcons hlt hok hs ha hp hc
  obtain ⟨es, himage⟩ : ∃ es, ImageCancelled offset src cfg s k consumed
      (imageSequence s.params offset (src.take consumed) cfg) es := by
    by_cases hz : cfg.sectorSize.toNat = 0
    · rw [if_pos (sectorSize_toNat_eq_zero.mp hz)] at hcons
      subst hcons
      rw [imageSequence, if_pos hz] at hp ⊢
      exact byteMode_cancelled hz hlt hs ha hp hc
    · rw [if_neg (mt sectorSize_toNat_eq_zero.mpr hz)] at hcons
      subst hcons
      exact sectorMode_cancelled hz hlt hs ha hp hc
  generalize imageSequence s.params offset (src.take consumed) cfg = cs at himage
  obtain ⟨hfault, hrefused, -⟩ := cyclesLeave_running s cs
  have hev : newEvents s (cancelledAt .writeImage consumed (imageWritten es k cs s)) = es ++ [.pollCancel true] :=
    newEvents_append (List.append_assoc _ _ _)
  refine ⟨_, exec_image_cancelled hs hok hc himage, ?_, ?_, ?_, ?_, ?_, ?_⟩
  · exact congrArg (· ++ _) (imageWritten_outcomes es k cs s)
  · rw [hev, himage.cycles]
  · rw [hev, pollsOf, List.filterMap_append, ← pollsOf, himage.polls]
    rfl
  · rw [hev, List.getLast?_concat]
  · exact hfault.trans hs.1.1
  · exact hrefused.trans hs.1.2

end Sys2Proof.Machine
end

section
/-! SUPPORT. The flag that is up when a loop starts (rules R173, R174, R178). -/

namespace Sys2Proof.Machine

/-- Of the rows of WRITE_IMAGE, the one that nothing refuses is the one that `sector_size` selects. -/
theorem bodyOf_image {i : Instr} {offset : Nat} {src : List Byte} {cfg : ChipConfig}
    (hi : i = .writeImage offset src cfg ∨ i = .writeImageSector offset src cfg ∨ i = .writeImageByte offset src cfg)
    (h : operandRefusal i = none) : bodyOf i = counted (writeImage offset src cfg) := by
  rcases hi with rfl | rfl | rfl
  · rfl
  · have hz : cfg.sectorSize.toNat ≠ 0 := by
      intro hz
      simp only [operandRefusal, addrOperand, hz, if_true] at h
      split at h <;> cases h
    rw [bodyOf, writeImage_eq_sector hz]
  · have hz : cfg.sectorSize.toNat = 0 := by
      by_contra hz
      simp only [operandRefusal, addrOperand, hz, if_false] at h
      split at h <;> cases h
    rw [bodyOf, writeImage_eq_byte hz]

theorem writeSelectedMode_raised {s : State} (h : flagAtPoll s = true) (offset : Nat) {src : List Byte}
    (cfg : ChipConfig) (hne : src ≠ []) :
    writeSelectedMode offset src cfg s = .error (.cancelled .writeImage 0) (polled s) := by
  obtain ⟨b, bs, rfl⟩ := List.exists_cons_of_ne_nil hne
  rw [writeSelectedMode]
  split <;> exact bind_error (pollOrCancel_raised h _ _)

theorem blankBytes_raised {s : State} (h : flagAtPoll s = true) (offset i : Nat) {n : Nat} (hn : 0 < n) :
    blankBytes offset n i s = .error (.cancelled .blankCheck i) (polled s) := by
  obtain ⟨m, rfl⟩ := Nat.exists_eq_succ_of_ne_zero hn.ne'
  exact bind_error (pollOrCancel_raised h _ _)

/-- A loop that takes at least one turn. -/
def HasTurn (i : Instr) (op : LoopOp) : Prop :=
  i = .eraseWait ∧ op = .eraseWait
    ∨ (∃ o n, 0 < n ∧ i = .blankCheck o n ∧ op = .blankCheck)
    ∨ ∃ o src cfg, src ≠ [] ∧ op = .writeImage
        ∧ (i = .writeImage o src cfg ∨ i = .writeImageSector o src cfg ∨ i = .writeImageByte o src cfg)

theorem bodyOf_raised {i : Instr} {op : LoopOp} {s : State} (hi : HasTurn i op) (h : operandRefusal i = none)
    (hf : flagAtPoll s = true) : bodyOf i s = .error (.cancelled op 0) (polled s) := by
  rcases hi with ⟨rfl, rfl⟩ | ⟨o, n, hn, rfl, rfl⟩ | ⟨o, src, cfg, hne, rfl, hi⟩
  · exact bind_error (pollOrCancel_raised hf _ _)
  · refine done_error (seq_ok (checkRange_ok (operandRefusal_addr h rfl)) ?_)
    exact blankBytes_raised hf o 0 hn
  · have ha : o + src.length ≤ addrSpace := by
      rcases hi with rfl | rfl | rfl <;> exact operandRefusal_addr h rfl
    rw [bodyOf_image hi h]
    exact counted_error (seq_ok (checkRange_ok ha) (writeSelectedMode_raised hf o cfg hne))

theorem flagAtPoll_of_flag {s : State} (h : s.cancelFlag = true) : flagAtPoll s = true := by
  rw [flagAtPoll, h, Bool.true_or]

/-- Where the flag is up already, only the poll and the outcome are new. -/
theorem cancelledAt_of_flag {s : State} (h : s.cancelFlag = true) (op : LoopOp) (k : Nat) :
    cancelledAt op k s = { s with
      active := none, trace := s.trace ++ [.pollCancel true], outcomes := s.outcomes ++ [.cancelled op k]
      oracle := { s.oracle with pollIdx := s.oracle.pollIdx + 1 } } := by
  simp [cancelledAt, h]

theorem exec_raised {i : Instr} {op : LoopOp} {s : State} (hs : CanStart s) (hf : s.cancelFlag = true)
    (hr : refusalOf s i = none) (hi : HasTurn i op) : exec i s = .next (cancelledAt op 0 s) := by
  rcases exec_cases i hs.1 with ⟨r, hr', -⟩ | ⟨-, -, -, ho, hexec, -⟩
  · rw [hr] at hr'
    cases hr'
  · rw [hexec, bodyOf_raised hi ho (flagAtPoll_of_flag hf), conclude_cancelled (flagAtPoll_of_flag hf)]

theorem writeSelectedMode_nil (offset : Nat) (cfg : ChipConfig) (s : State) :
    writeSelectedMode offset [] cfg s = .ok 0 s := by
  rw [writeSelectedMode]
  split <;> rfl

/-- Settles O46: the first poll of a loop that takes a turn comes before any access, and sees the flag. -/
theorem raisedFlagEndsEveryLoop : Obligations.RaisedFlagEndsEveryLoop := by
  intro s offset hs hf ha
  refine ⟨fun i op hr hi => ?_, ?_, fun cfg hok => ?_⟩
  · rw [exec_raised hs hf hr hi, cancelledAt_of_flag hf]
  · exact exec_ok hs rfl (done_ok (seq_ok (checkRange_ok ha) rfl))
  · have hown : ownProblem (.writeImage offset [] cfg) = none := chipProblem_of_ok hok
    exact exec_ok hs hown (counted_ok (seq_ok (checkRange_ok ha) (writeSelectedMode_nil offset cfg s)))

end Sys2Proof.Machine
end

section
/-! SUPPORT. The ends that an operation, or a later iteration of a loop, can come to, and what each does to marks, outcomes
and events (rules R13, R24, R210, R219). -/

namespace Sys2Proof.Machine

theorem goesOn_mono {s t : State} (h : GoesOn false s t) : GoesOn true s t :=
  ⟨h.handle, h.portScript, h.attached, nofun⟩

/-- What holds of an operation whether it may poll or not. -/
theorem rightly_true {α : Type} {p : Bool} {s : State} {r : EStateM.Result Stop State α} (h : Rightly p s r) :
    Rightly true s r := by
  cases p with
  | true => exact h
  | false =>
    rcases r with ⟨a, t⟩ | ⟨f | _ | _, t⟩
    · obtain ⟨hg, hf, hr, ⟨es, he, hq⟩, hports⟩ := h
      exact ⟨goesOn_mono hg, hf, hr, ⟨es, he, quiet_mono hq true⟩, hports⟩
    · obtain ⟨hg, hf, hr, hend⟩ := h
      refine ⟨goesOn_mono hg, hf, hr, ?_⟩
      cases f with
      | portIo kind =>
        obtain ⟨⟨es, he, hq⟩, hports⟩ := hend
        exact ⟨⟨es, he, quiet_mono hq true⟩, hports⟩
      | unsupportedChip id =>
        obtain ⟨es, he, hq⟩ := hend
        exact ⟨es, he, quiet_mono hq true⟩
      | blankCheckMismatch a v =>
        obtain ⟨es, he, hq⟩ := hend
        exact ⟨es, he, quiet_mono hq true⟩
    · cases h.1
    · obtain ⟨hc, hr, hg, hf, hm, es, he, hq⟩ := h
      exact ⟨hc, hr, goesOn_mono hg, hf, hm, es, he, quiet_mono hq true⟩

/-- The end of an operation or of an iteration that began in `s`. -/
inductive Ending (s t : State) : Prop where
  | done (v : Value) (run : Running t) (out : t.outcomes = s.outcomes ++ [.ok v])
      (quiet : Quiet true (newEvents s t))
  | again (run : Running t) (out : t.outcomes = s.outcomes) (quiet : Quiet true (newEvents s t))
  | refused (r : Refusal) (fault : t.faulted = none) (mark : t.refused = some r)
      (out : t.outcomes = s.outcomes ++ [.refused r]) (quiet : Quiet true (newEvents s t))
  | fault (f : Fault) (noPort : ∀ kind, f ≠ .portIo kind) (mark : t.faulted = some f) (refusal : t.refused = none)
      (out : t.outcomes = s.outcomes ++ [.fault f]) (quiet : Quiet true (newEvents s t))
  | portFail (kind : Access) (es : List Event) (n : Nat) (reached : Bool) (mark : t.faulted = some (.portIo kind))
      (refusal : t.refused = none) (out : t.outcomes = s.outcomes ++ [.fault (.portIo kind)])
      (events : newEvents s t = es ++ [.portFail kind]) (quiet : Quiet true es)
      (accesses : t.oracle.portIdx = s.oracle.portIdx + n + 1) (ports : PortsOk n s)
      (failed : portDrawAt s (s.oracle.portIdx + n) = .fail reached)
  | cancelled (op : LoopOp) (k : Nat) (es : List Event) (run : Running t)
      (out : t.outcomes = s.outcomes ++ [.cancelled op k]) (flag : t.cancelFlag = true)
      (events : newEvents s t = es ++ [.pollCancel true]) (quiet : Quiet true es)

theorem newEvents_refusedState (r : Refusal) (s : State) : newEvents s (refusedState r s) = [] :=
  newEvents_append (t := refusedState r s) (List.append_nil _).symm

theorem ending_refusedState {s : State} (h : Running s) (r : Refusal) : Ending s (refusedState r s) := by
  refine .refused r h.1 rfl rfl ?_
  rw [newEvents_refusedState]
  exact quiet_nil true

theorem ending_conclude {s : State} {r : EStateM.Result Stop State Verdict} (hs : Running s)
    (ho : (endState r).outcomes = s.outcomes) (h : Rightly true s r) : Ending s (conclude r) := by
  obtain ⟨hsf, hsr⟩ := hs
  rcases r with ⟨v, t⟩ | ⟨f | ⟨op, k⟩ | r, t⟩ <;> replace ho : t.outcomes = s.outcomes := ho
  · obtain ⟨-, hf, hr, ⟨es, he, hq⟩, -⟩ := h
    have hrun : Running t := ⟨hf.trans hsf, hr.trans hsr⟩
    rw [← newEvents_ok (v := v) he] at hq
    cases v with
    | done v => exact .done v hrun (congrArg (· ++ _) ho) hq
    | again k => exact .again hrun ho hq
  · obtain ⟨-, hf, hr, hend⟩ := h
    have hmark : t.faulted = some f := by rw [hf, hsf, Option.none_or]
    have hout : t.outcomes ++ [.fault f] = s.outcomes ++ [.fault f] := congrArg (· ++ _) ho
    cases f with
    | portIo kind =>
      obtain ⟨⟨es, he, hq⟩, n, reached, hidx, hports, hfail⟩ := hend
      exact .portFail kind es n reached hmark (hr.trans hsr) hout (newEvents_error he) hq hidx hports hfail
    | unsupportedChip id =>
      obtain ⟨es, he, hq⟩ := hend
      rw [← newEvents_error (e := .fault (.unsupportedChip id)) he] at hq
      exact .fault (.unsupportedChip id) nofun hmark (hr.trans hsr) hout hq
    | blankCheckMismatch a v =>
      obtain ⟨es, he, hq⟩ := hend
      rw [← newEvents_error (e := .fault (.blankCheckMismatch a v)) he] at hq
      exact .fault (.blankCheckMismatch a v) nofun hmark (hr.trans hsr) hout hq
  · obtain ⟨-, -, hf, hr, hflag, es, he, hq⟩ := h
    exact .cancelled op k es ⟨hf.trans hsf, hr.trans hsr⟩ (congrArg (· ++ _) ho) hflag (newEvents_error he) hq
  · obtain ⟨-, -, -, hf, hr, es, he, hq⟩ := h
    rw [← newEvents_error (e := .refused r) he] at hq
    exact .refused r (hf.trans hsf) (by rw [conclude_refused_mark, endState, hr, hsr, Option.none_or])
      (congrArg (· ++ _) ho) hq

theorem exec_ending {i : Instr} {s t : State} (h : exec i s = .next t) : Ending s t := by
  have hs := exec_running h
  rcases exec_cases i hs with ⟨r, -, he⟩ | ⟨-, -, -, -, he, hright⟩
  · cases he.symm.trans h
    exact ending_refusedState hs r
  · cases he.symm.trans h
    exact ending_conclude hs (bodyOf_records i s).1 (rightly_true hright)

theorem eraseWaitIteration_records (k : Nat) (s : State) :
    (endState (eraseWaitIteration k s)).outcomes = s.outcomes :=
  (keeps_eraseWaitIteration admitsAll_records.toAdmitsLoops k s).1

theorem iteration_ending {s : State} (hs : Running s) (k : Nat) : Ending s (conclude (eraseWaitIteration k s)) :=
  ending_conclude hs (eraseWaitIteration_records k s) (right_eraseWaitIteration k s)

theorem advances_ending {s t : State} (h : Advances s t) : Ending s t := by
  obtain ⟨hs, ⟨i, he⟩ | ⟨k, -, rfl⟩⟩ := advances_cases h
  · exact exec_ending he
  · exact iteration_ending hs k

/-! ### Marks -/

/-- The marks that are set are those of the outcomes that were added. -/
def MarksAreOutcomes (s t : State) : Prop :=
  (∀ f, t.faulted = some f ↔ t.outcomes = s.outcomes ++ [.fault f])
    ∧ ∀ r, t.refused = some r ↔ t.outcomes = s.outcomes ++ [.refused r]

theorem marksAreOutcomes_of_ending {s t : State} (h : Ending s t) : MarksAreOutcomes s t := by
  unfold MarksAreOutcomes
  cases h with
  | done v run out quiet => simp [run.1, run.2, out]
  | again run out quiet => simp [run.1, run.2, out]
  | refused r fault mark out quiet => simp [fault, mark, out]
  | fault f noPort mark refusal out quiet => simp [mark, refusal, out]
  | portFail kind es n reached mark refusal out => simp [mark, refusal, out]
  | cancelled op k es run out flag events quiet => simp [run.1, run.2, out]

/-- Settles O10: each end sets the mark of its own outcome, and a step that runs nothing sets none. -/
theorem markIsSetByItsOutcome : Obligations.MarkIsSetByItsOutcome := by
  intro s t hs h
  rcases h with ⟨i, he⟩ | h
  · exact marksAreOutcomes_of_ending (exec_ending he)
  obtain ⟨-, ⟨k, -, rfl⟩ | ⟨-, -, rfl⟩ | ⟨c, rest, i, -, -, -, -, he⟩⟩ := step_eq_next h
  · exact marksAreOutcomes_of_ending (iteration_ending hs k)
  · simp [hs.1, hs.2]
  · exact marksAreOutcomes_of_ending (s := { s with calls := rest }) (exec_ending he)

/-! ### Port failures -/

theorem Quiet.no_fail_last {p : Bool} {es : List Event} (h : Quiet p es) (kind : Access) :
    es.getLast? ≠ some (.portFail kind) := fun hl => h.no_fail kind (List.mem_of_getLast? hl)

theorem Quiet.no_fail_before {p : Bool} {es : List Event} (h : Quiet p es) (kind : Access) :
    .portFail kind ∉ es.dropLast := fun hm => h.no_fail kind (List.mem_of_mem_dropLast hm)

/-- With a fixture attached only the script makes an access fail (rule R68). -/
theorem script_of_fail {s : State} {n : Nat} {reached : Bool} (h : portDrawAt s n = .fail reached)
    (hf : s.fixture ≠ .none) : scriptAt s.oracle.portScript n = some (.fail reached) := by
  have hatt : attached s.fixture = true := by
    cases hx : s.fixture with
    | none => exact absurd hx hf
    | ram => rfl
    | jedec chip => rfl
  rw [portDrawAt, hatt] at h
  cases hd : scriptAt s.oracle.portScript n with
  | none => simp [hd] at h
  | some d => simpa [hd] using h

/-- A port failure is the last event, and the fault, and the access that the environment let fail (rules R212, R218). -/
def PortFailureEnds (s t : State) : Prop :=
  (∀ kind, t.faulted = some (.portIo kind) ↔ (newEvents s t).getLast? = some (.portFail kind))
    ∧ (∀ kind, .portFail kind ∉ (newEvents s t).dropLast)
    ∧ ∀ kind, t.faulted = some (.portIo kind) →
        ∃ n reached, t.oracle.portIdx = s.oracle.portIdx + n + 1 ∧ PortsOk n s
          ∧ portDrawAt s (s.oracle.portIdx + n) = .fail reached
          ∧ (s.fixture ≠ .none → scriptAt s.oracle.portScript (s.oracle.portIdx + n) = some (.fail reached))

/-- An end without a port failure: none among the events, and no such fault. -/
theorem portFailureEnds_of_quiet {s t : State} (hq : Quiet true (newEvents s t))
    (hm : ∀ kind, t.faulted ≠ some (.portIo kind)) : PortFailureEnds s t :=
  ⟨fun kind => iff_of_false (hm kind) (hq.no_fail_last kind), hq.no_fail_before, fun kind h => absurd h (hm kind)⟩

/-- Settles O23: of the ends only the port failure has that fault and that event, and it is the last one. -/
theorem portFailureEndsTheOperation : Obligations.PortFailureEndsTheOperation := by
  intro s t h
  cases advances_ending h with
  | done v run out quiet => exact portFailureEnds_of_quiet quiet (by simp [run.1])
  | again run out quiet => exact portFailureEnds_of_quiet quiet (by simp [run.1])
  | refused r fault mark out quiet => exact portFailureEnds_of_quiet quiet (by simp [fault])
  | fault f noPort mark refusal out quiet => exact portFailureEnds_of_quiet quiet (by simpa [mark] using noPort)
  | portFail kind es n reached mark refusal out events quiet accesses ports failed =>
    rw [events, mark, List.getLast?_concat, List.dropLast_concat]
    exact ⟨fun kind => by simp, quiet.no_fail,
      fun _ _ => ⟨n, reached, accesses, ports, failed, script_of_fail failed⟩⟩
  | cancelled op k es run out flag events quiet =>
    rw [run.1, events, List.getLast?_concat, List.dropLast_concat]
    exact ⟨fun kind => by simp, quiet.no_fail, nofun⟩

/-! ### Cancellation -/

theorem Quiet.no_cancel_before {p : Bool} {xs es : List Event} {e : Event} (h : Quiet p xs) (hx : xs = es ++ [e]) :
    .pollCancel true ∉ es := (hx ▸ h).left.no_cancel

/-- Settles O53: of the ends only the cancelled one has a poll that answers true, and it is the last event. -/
theorem cancelledOnlyAtATruePoll : Obligations.CancelledOnlyAtATruePoll := by
  intro s t h
  cases advances_ending h with
  | done v run out quiet =>
    exact ⟨by simp [out], fun hm => absurd hm quiet.no_cancel, fun es e => quiet.no_cancel_before⟩
  | again run out quiet =>
    exact ⟨by simp [out], fun hm => absurd hm quiet.no_cancel, fun es e => quiet.no_cancel_before⟩
  | refused r fault mark out quiet =>
    exact ⟨by simp [out], fun hm => absurd hm quiet.no_cancel, fun es e => quiet.no_cancel_before⟩
  | fault f noPort mark refusal out quiet =>
    exact ⟨by simp [out], fun hm => absurd hm quiet.no_cancel, fun es e => quiet.no_cancel_before⟩
  | portFail kind es n reached mark refusal out events quiet accesses ports failed =>
    rw [events]
    refine ⟨by simp [out], fun hm => ?_, fun xs e hx => ?_⟩
    · simp [quiet.no_cancel] at hm
    · rw [← List.append_inj_left' hx rfl]
      exact quiet.no_cancel
  | cancelled op k es run out flag events quiet =>
    rw [events]
    refine ⟨fun _ _ _ => ⟨List.getLast?_concat, flag, run⟩, fun _ => ⟨op, k, out⟩, fun xs e hx => ?_⟩
    rw [← List.append_inj_left' hx rfl]
    exact quiet.no_cancel

/-! ### Operations that do not poll -/

theorem pollsInBody_mnemonic {i : Instr}
    (h : i.mnemonic ∉ [.eraseWait, .erase, .blankCheck, .writeImage, .writeImageSector, .writeImageByte]) :
    pollsInBody i = false := by
  cases i <;> simp_all [Instr.mnemonic, pollsInBody]

/-- No poll has been recorded, and the flag has not been read. -/
def Unpolled (s t : State) : Prop :=
  pollsOf (newEvents s t) = [] ∧ t.cancelFlag = s.cancelFlag ∧ t.oracle.pollIdx = s.oracle.pollIdx

theorem unpolled_conclude {s : State} {r : EStateM.Result Stop State Verdict} (h : Rightly false s r) :
    Unpolled s (conclude r) := by
  rcases r with ⟨v, t⟩ | ⟨f | _ | r, t⟩
  · obtain ⟨hg, -, -, ⟨es, he, hq⟩, -⟩ := h
    obtain ⟨hflag, hidx⟩ := hg.flag rfl
    have hpolls : pollsOf (newEvents s (conclude (.ok v t))) = [] := by rw [newEvents_ok he, hq.no_poll]
    cases v with
    | done v => exact ⟨hpolls, hflag, hidx⟩
    | again k => exact ⟨hpolls, hflag, hidx⟩
  · obtain ⟨hg, -, -, hend⟩ := h
    refine ⟨?_, hg.flag rfl⟩
    cases f with
    | portIo kind =>
      obtain ⟨⟨es, he, hq⟩, -⟩ := hend
      rw [newEvents_error he, pollsOf, List.filterMap_append, ← pollsOf, hq.no_poll]
      rfl
    | unsupportedChip id =>
      obtain ⟨es, he, hq⟩ := hend
      rw [newEvents_error he, hq.no_poll]
    | blankCheckMismatch a v =>
      obtain ⟨es, he, hq⟩ := hend
      rw [newEvents_error he, hq.no_poll]
  · cases h.1
  · obtain ⟨-, -, hg, -, -, es, he, hq⟩ := h
    exact ⟨by rw [newEvents_error he, hq.no_poll], hg.flag rfl⟩

theorem unpolled_refusedState (r : Refusal) (s : State) : Unpolled s (refusedState r s) := by
  refine ⟨?_, rfl, rfl⟩
  rw [newEvents_refusedState]
  rfl

theorem unpolled_of_pollsInBody {i : Instr} {s t : State} (hi : pollsInBody i = false) (h : exec i s = .next t) :
    Unpolled s t := by
  rcases exec_cases i (exec_running h) with ⟨r, -, he⟩ | ⟨-, -, -, -, he, hright⟩
  · cases he.symm.trans h
    exact unpolled_refusedState r s
  · cases he.symm.trans h
    exact unpolled_conclude (hi ▸ hright)

theorem mem_pollsOf {c : Bool} {es : List Event} (h : .pollCancel c ∈ es) : c ∈ pollsOf es :=
  List.mem_filterMap.mpr ⟨_, h, rfl⟩

/-- Settles O52: the bodies of these operations hold no poll, and Cancelled comes from a poll only. -/
theorem noPollInsideACommand : Obligations.NoPollInsideACommand := by
  intro i s t hi h
  obtain ⟨hpolls, hflag, hidx⟩ := unpolled_of_pollsInBody (pollsInBody_mnemonic hi) h
  refine ⟨hpolls, hflag, hidx, fun op n hout => ?_⟩
  have hlast := ((cancelledOnlyAtATruePoll s t (.inl ⟨i, h⟩)).1 op n hout).1
  have hpoll := mem_pollsOf (List.mem_of_getLast? hlast)
  rw [hpolls] at hpoll
  cases hpoll

/-! ### One outcome, or a place in the loop -/

theorem eraseWaitIteration_verdict {k : Nat} {v : Verdict} {s t : State} (h : eraseWaitIteration k s = .ok v t) :
    v = .done .none ∨ v = .again (k + 1) := by
  obtain ⟨-, s1, -, h⟩ := bind_eq_ok h
  obtain ⟨-, s2, -, h⟩ := bind_eq_ok h
  obtain ⟨v1, s3, -, h⟩ := bind_eq_ok h
  obtain ⟨v2, s4, -, h⟩ := bind_eq_ok h
  cases h
  exact ite_eq_or_eq _ _ _

/-- An operation that goes on after its first iteration is an ERASE_WAIT. -/
theorem bodyOf_again {i : Instr} {k : Nat} {s t : State} (h : bodyOf i s = .ok (.again k) t) :
    (i = .eraseWait ∨ i = .erase) ∧ k = 1 := by
  have hone : ∀ {u : State}, eraseWaitIteration 0 u = .ok (.again k) t → k = 1 := fun hw => by
    rcases eraseWaitIteration_verdict hw with hv | hv <;> cases hv
    rfl
  cases i
  case eraseWait => exact ⟨.inl rfl, hone h⟩
  case erase =>
    obtain ⟨-, u, -, hw⟩ := bind_eq_ok h
    exact ⟨.inr rfl, hone hw⟩
  all_goals
    obtain ⟨x, u, -, hpure⟩ := bind_eq_ok h
    cases hpure

theorem conclude_place {s : State} {r : EStateM.Result Stop State Verdict} (ho : (endState r).outcomes = s.outcomes) :
    ((conclude r).active = none ∧ ∃ o, (conclude r).outcomes = s.outcomes ++ [o])
      ∨ ∃ k t, r = .ok (.again k) t ∧ (conclude r).active = some k ∧ (conclude r).outcomes = s.outcomes := by
  rcases r with ⟨v | k, t⟩ | ⟨e, t⟩
  · exact .inl ⟨rfl, _, congrArg (· ++ _) ho⟩
  · exact .inr ⟨k, t, rfl, rfl, ho⟩
  · exact .inl ⟨rfl, _, congrArg (· ++ _) ho⟩

/-- Without an outcome the run has not ended. -/
theorem Ending.running {s t : State} (h : Ending s t) (ho : t.outcomes = s.outcomes) : Running t := by
  cases h with
  | again run out quiet => exact run
  | done v run out quiet => exact run
  | cancelled op k es run out flag events quiet => exact run
  | refused r fault mark out quiet => simp [out] at ho
  | fault f noPort mark refusal out quiet => simp [out] at ho
  | portFail kind es n reached mark refusal out => simp [out] at ho

/-- Settles O51: each end but one adds an outcome, and the one that adds none is that of an iteration that goes on. -/
theorem oneOutcomeOrOneLoopPosition : Obligations.OneOutcomeOrOneLoopPosition := by
  intro s t
  refine ⟨fun i h => ?_, fun k hk h => ?_⟩
  · have hend := exec_ending h
    rcases exec_cases i (exec_running h) with ⟨r, -, he⟩ | ⟨-, -, -, -, he, -⟩
    · cases he.symm.trans h
      exact .inl ⟨rfl, _, rfl⟩
    · cases he.symm.trans h
      refine (conclude_place (bodyOf_records i s).1).imp_right fun ⟨k, u, hbody, hact, hout⟩ => ?_
      obtain ⟨hi, rfl⟩ := bodyOf_again hbody
      exact ⟨hi, hact, hout, hend.running hout⟩
  · obtain ⟨hs, ⟨k', hk', rfl⟩ | ⟨hn, -⟩ | ⟨c, rest, i, hn, -⟩⟩ := step_eq_next h
    · cases hk.symm.trans hk'
      refine (conclude_place (eraseWaitIteration_records k s)).imp_right fun ⟨k', u, hr, hact, hout⟩ => ?_
      have hplace : k' = k + 1 := by
        rcases eraseWaitIteration_verdict hr with hv | hv <;> cases hv
        rfl
      exact ⟨hplace ▸ hact, hout, (iteration_ending hs k).running hout⟩
    · exact absurd (hk.symm.trans hn) nofun
    · exact absurd (hk.symm.trans hn) nofun

end Sys2Proof.Machine
end

section
/-! SUPPORT. What no operation and no later iteration changes (rules R4, R7, R20, R23, R26, R33, R65, R242), and what they
store (rules R61, R70, R71). -/

namespace Sys2Proof.Machine

/-- An operation adds its outcome or keeps its place, and changes nothing else when it ends. -/
theorem conclude_eq_withOutcomes (r : EStateM.Result Stop State Verdict) :
    ∃ os k, conclude r = withOutcomes os k (endState r) := by
  rcases r with ⟨v | k, t⟩ | ⟨e, t⟩ <;> exact ⟨_, _, rfl⟩

/-- What every primitive keeps, and the end of an operation too, an operation or a later iteration keeps. -/
theorem advances_keeps {R : State → State → Prop} (h : AdmitsAll R) (hout : ∀ os k s, R s (withOutcomes os k s))
    {s t : State} (ha : Advances s t) : R s t := by
  have hend : ∀ r, R s (endState r) → R s (conclude r) := fun r hr => by
    obtain ⟨os, k, he⟩ := conclude_eq_withOutcomes r
    rw [he]
    exact h.trans hr (hout os k _)
  obtain ⟨-, ⟨i, he⟩ | ⟨k, -, rfl⟩⟩ := advances_cases ha
  · obtain ⟨r, hr, rfl, -⟩ := exec_next_chain h he
    exact hend r hr
  · exact hend _ (keeps_eraseWaitIteration h.toAdmitsLoops k s)

/-! ### What is left alone -/

/-- What no operation writes is the same, the trace has only grown, and a raised flag is still up. -/
structure LeavesAlone (s t : State) : Prop where
  params : t.params = s.params := by rfl
  handle : t.handle = s.handle := by rfl
  calls : t.calls = s.calls := by rfl
  supply : t.supplySettled = s.supplySettled := by rfl
  exposed : t.internalsExposed = s.internalsExposed := by rfl
  bits : ∀ j : Fin 8, j ∉ roleBitList s.params → t.ctrl.getLsbD j = s.ctrl.getLsbD j := by exact fun _ _ => rfl
  portScript : t.oracle.portScript = s.oracle.portScript := by rfl
  statusScript : t.oracle.statusScript = s.oracle.statusScript := by rfl
  hostScript : t.oracle.hostScript = s.oracle.hostScript := by rfl
  trace : s.trace <+: t.trace := by exact List.prefix_refl _
  flag : s.cancelFlag = true → t.cancelFlag = true := by exact id

theorem LeavesAlone.trans {s t u : State} (h1 : LeavesAlone s t) (h2 : LeavesAlone t u) : LeavesAlone s u where
  params := h2.params.trans h1.params
  handle := h2.handle.trans h1.handle
  calls := h2.calls.trans h1.calls
  supply := h2.supply.trans h1.supply
  exposed := h2.exposed.trans h1.exposed
  bits j hj := (h2.bits j (h1.params.symm ▸ hj)).trans (h1.bits j hj)
  portScript := h2.portScript.trans h1.portScript
  statusScript := h2.statusScript.trans h1.statusScript
  hostScript := h2.hostScript.trans h1.hostScript
  trace := h1.trace.trans h2.trace
  flag := h2.flag ∘ h1.flag

theorem admitsAll_leavesAlone : AdmitsAll LeavesAlone where
  refl _ := {}
  trans := LeavesAlone.trans
  fault _ _ := {}
  refusal _ _ := {}
  lines levels s := { bits := (admitsAll_memWf.lines levels s).2.2 }
  wrCtrl _ _ := { trace := ⟨_, rfl⟩ }
  wrData _ _ := { trace := ⟨_, rfl⟩ }
  rdStatus _ _ := { trace := ⟨_, rfl⟩ }
  failCtrl _ _ := { trace := ⟨_, rfl⟩ }
  failData _ _ := { trace := ⟨_, rfl⟩ }
  failStatus _ := { trace := ⟨_, rfl⟩ }
  delay _ _ := { trace := ⟨_, rfl⟩ }
  shift _ _ := {}
  busWrite v s := by unfold busWritten; split <;> exact {}
  busRead s := by unfold busReadState; split <;> exact {}
  poll _ := { trace := ⟨_, rfl⟩, flag := flagAtPoll_of_flag }
  progress _ _ := { trace := ⟨_, rfl⟩ }
  identified _ _ := {}

theorem advances_leavesAlone {s t : State} (h : Advances s t) : LeavesAlone s t :=
  advances_keeps admitsAll_leavesAlone (fun _ _ _ => {}) h

theorem Ending.outcomes_prefix {s t : State} (h : Ending s t) : s.outcomes <+: t.outcomes := by
  cases h with
  | again run out quiet => exact out ▸ List.prefix_refl _
  | done v run out quiet => exact ⟨_, out.symm⟩
  | refused r fault mark out quiet => exact ⟨_, out.symm⟩
  | fault f noPort mark refusal out quiet => exact ⟨_, out.symm⟩
  | portFail kind es n reached mark refusal out => exact ⟨_, out.symm⟩
  | cancelled op k es run out flag events quiet => exact ⟨_, out.symm⟩

/-! ### The record that IDENTIFY returns -/

theorem admitsLoops_identified : AdmitsLoops fun s t => t.identified = s.identified where
  refl _ := rfl
  trans h1 h2 := h2.trans h1
  fault _ _ := rfl
  refusal _ _ := rfl
  lines _ _ := rfl
  wrCtrl _ _ := rfl
  wrData _ _ := rfl
  rdStatus _ _ := rfl
  failCtrl _ _ := rfl
  failData _ _ := rfl
  failStatus _ := rfl
  delay _ _ := rfl
  shift _ _ := rfl
  busWrite v s := by unfold busWritten; split <;> rfl
  busRead s := by unfold busReadState; split <;> rfl
  poll _ := rfl
  progress _ _ := rfl

theorem conclude_identified (r : EStateM.Result Stop State Verdict) :
    (conclude r).identified = (endState r).identified := by
  obtain ⟨os, k, he⟩ := conclude_eq_withOutcomes r
  rw [he]
  rfl

/-- Only IDENTIFY writes the record (rule R242). -/
theorem exec_identified {i : Instr} {s t : State} (h : exec i s = .next t) (hi : i.mnemonic ≠ .identify) :
    t.identified = s.identified := by
  rcases exec_cases i (exec_running h) with ⟨r, -, he⟩ | ⟨-, -, -, -, he, -⟩ <;> cases he.symm.trans h
  · rfl
  · rw [conclude_identified]
    exact keeps_bodyOf_loops admitsLoops_identified i hi s

theorem iteration_identified (k : Nat) (s : State) :
    (conclude (eraseWaitIteration k s)).identified = s.identified :=
  (conclude_identified _).trans (keeps_eraseWaitIteration admitsLoops_identified k s)

theorem matchChip_identified {table : List ChipConfig} {id : Id16} {cfg : ChipConfig} {s t : State}
    (h : matchChip table id s = .ok cfg t) : t.identified = some cfg := by
  cases hl : lookupChip table id <;> rw [matchChip, hl] at h <;> cases h
  rfl

/-- An operation whose result is a record is an IDENTIFY that has kept it. -/
theorem bodyOf_chip {i : Instr} {cfg : ChipConfig} {s t : State} (h : bodyOf i s = .ok (.done (.chip cfg)) t) :
    t.identified = some cfg := by
  cases i
  case identify table =>
    obtain ⟨found, u, hfound, hpure⟩ := bind_eq_ok h
    cases hpure
    obtain ⟨id, s1, -, hmatch⟩ := bind_eq_ok hfound
    exact matchChip_identified hmatch
  case eraseWait => rcases eraseWaitIteration_verdict h with hv | hv <;> cases hv
  case erase =>
    obtain ⟨-, u, -, hw⟩ := bind_eq_ok h
    rcases eraseWaitIteration_verdict hw with hv | hv <;> cases hv
  all_goals
    obtain ⟨x, u, -, hpure⟩ := bind_eq_ok h
    cases hpure

theorem conclude_ok_outcome {r : EStateM.Result Stop State Verdict} {s : State} {v : Value}
    (hs : (endState r).outcomes = s.outcomes) (h : (conclude r).outcomes = s.outcomes ++ [.ok v]) :
    ∃ t, r = .ok (.done v) t := by
  rcases r with ⟨v' | k, t⟩ | ⟨e, t⟩ <;> replace hs : t.outcomes = s.outcomes := hs
  · rw [conclude_done, withOutcomes_outcomes, hs] at h
    simp only [List.append_cancel_left_eq, List.cons.injEq, OpOutcome.ok.injEq, and_true] at h
    exact ⟨t, h ▸ rfl⟩
  · rw [conclude_again, waiting_outcomes, hs] at h
    simp at h
  · rw [conclude_error, withOutcomes_outcomes, hs] at h
    cases e <;> simp [stopOutcome] at h

/-- Settles O50: no primitive writes these, and of the bodies only IDENTIFY's keeps a record. -/
theorem operationsLeaveTheRestAlone : Obligations.OperationsLeaveTheRestAlone := by
  intro s t h
  have hl := advances_leavesAlone h
  refine ⟨hl.params, hl.handle, hl.calls, hl.supply, hl.exposed, hl.bits, hl.portScript, hl.statusScript, hl.hostScript,
    hl.trace, (advances_ending h).outcomes_prefix, hl.flag, fun i => exec_identified, fun ha hstep => ?_,
    fun cfg hout => ?_⟩
  · obtain ⟨-, ⟨k, -, rfl⟩ | ⟨hn, -⟩ | ⟨c, rest, i, hn, -⟩⟩ := step_eq_next hstep
    · exact iteration_identified k s
    · exact absurd hn ha
    · exact absurd hn ha
  · obtain ⟨hs, ⟨i, he⟩ | ⟨k, -, rfl⟩⟩ := advances_cases h
    · rcases exec_cases i hs with ⟨r, -, he'⟩ | ⟨-, -, -, -, he', -⟩ <;> cases he'.symm.trans he
      · simp [refusedState] at hout
      · obtain ⟨u, hbody⟩ := conclude_ok_outcome (bodyOf_records i s).1 hout
        rw [conclude_identified, hbody]
        exact bodyOf_chip hbody
    · obtain ⟨u, hbody⟩ := conclude_ok_outcome (eraseWaitIteration_records k s) hout
      rcases eraseWaitIteration_verdict hbody with hv | hv <;> cases hv

/-! ### Stores -/

theorem admitsAll_staysRam : AdmitsAll fun s t => s.fixture = .ram → t.fixture = .ram where
  refl _ := id
  trans h1 h2 := h2 ∘ h1
  fault _ _ := id
  refusal _ _ := id
  lines _ _ := id
  wrCtrl _ _ := id
  wrData _ _ := id
  rdStatus _ _ := id
  failCtrl _ _ := id
  failData _ _ := id
  failStatus _ := id
  delay _ _ := id
  shift _ _ := id
  busWrite v s h := by simp [busWritten, h]
  busRead s h := by simp [busReadState, h]
  poll _ := id
  progress _ _ := id
  identified _ _ := id

theorem keepsData_eraseWaitIteration (k : Nat) : Keeps KeepsData (eraseWaitIteration k) := by
  have hc := keepsData_read.toChains
  exact keeps_bind hc (keepsData_poll _ _) fun _ => keeps_bind hc (keeps_delay keepsData_read _) fun _ =>
    keeps_bind hc (keeps_readByte keepsData_read _) fun _ =>
      keeps_bind hc (keeps_readByte keepsData_read _) fun _ => keeps_pure hc _

theorem keepsData_conclude {s : State} {r : EStateM.Result Stop State Verdict} (h : KeepsData s (endState r)) :
    KeepsData s (conclude r) := by
  obtain ⟨hmem, -, hdata, hphys⟩ := conclude_target r
  exact ⟨hmem.trans h.1, hdata.trans h.2.1, hphys.trans h.2.2⟩

theorem storesIn_conclude {A : List Nat} {s : State} {r : EStateM.Result Stop State Verdict}
    (h : StoresIn A s (endState r)) : StoresIn A s (conclude r) := by
  obtain ⟨os, k, he⟩ := conclude_eq_withOutcomes r
  rw [he]
  exact storesIn_trans h (storesIn_same rfl rfl rfl)

/-- What an operation stores, whatever its outcome. -/
theorem exec_stores {i : Instr} {s t : State} (h : exec i s = .next t) :
    (cycleAddrs s.params i = [] → KeepsData s t) ∧ StoresIn (cycleAddrs s.params i) s t := by
  rcases exec_cases i (exec_running h) with ⟨r, -, he⟩ | ⟨-, hs, -, -, he, -⟩ <;> cases he.symm.trans h
  · exact ⟨fun _ => ⟨rfl, rfl, rfl⟩, storesIn_same rfl rfl rfl⟩
  · exact ⟨fun hi => keepsData_conclude (keepsData_body hi s),
      storesIn_conclude (storesFrom_body s.params i s rfl (canStart_sda hs))⟩

/-- Settles O54: an operation's stores are those of its own cycles, and a later iteration only reads. -/
theorem storesOnlyAtItsCycles : Obligations.StoresOnlyAtItsCycles := by
  intro s t
  refine ⟨fun i h => ?_, fun ha h => ?_⟩
  · obtain ⟨hdata, -, hstores⟩ := exec_stores h
    exact ⟨hdata, hstores, advances_keeps admitsAll_detached (fun _ _ _ hf => ⟨hf, rfl⟩) (.inl ⟨i, h⟩)⟩
  · have hadv : Advances s t := .inr ⟨ha, h⟩
    have hram := advances_keeps admitsAll_staysRam (fun _ _ _ hf => hf) hadv
    have hnone := advances_keeps admitsAll_detached (fun _ _ _ hf => ⟨hf, rfl⟩) hadv
    obtain ⟨-, ⟨k, -, rfl⟩ | ⟨hn, -⟩ | ⟨c, rest, i, hn, -⟩⟩ := step_eq_next h
    · obtain ⟨hmem, hdata, hphys⟩ := keepsData_conclude (keepsData_eraseWaitIteration k s)
      exact ⟨hmem, hdata, hphys, hram, fun hf => (hnone hf).1⟩
    · exact absurd hn ha
    · exact absurd hn ha

end Sys2Proof.Machine
end

section
/-! SUPPORT. The invariant of the machine: every launch state meets it, and every step keeps it (rules R24, R25, R26, R29,
R116 to R118, R219, R240). -/

namespace Sys2Proof.Machine

/-! ### The launch -/

/-- The entry value of `ctrl`: SCK low, WR asserted, every other bit that of `CTRL_IDLE` (rule R240). -/
theorem entryCtrl_getLsbD (p : Params) (j : Nat) :
    (entryCtrl p).getLsbD j = if j = p.wrBit.val then true else if j = p.sckBit.val then false
      else p.ctrlIdle.getLsbD j := by
  rw [entryCtrl, setLine_getLsbD, setLine_getLsbD]
  rfl

theorem entryCtrl_other {p : Params} {j : Fin 8} (hs : j ≠ p.sckBit) (hw : j ≠ p.wrBit) :
    (entryCtrl p).getLsbD j = p.ctrlIdle.getLsbD j := by
  rw [entryCtrl_getLsbD, if_neg (Fin.val_ne_of_ne hw), if_neg (Fin.val_ne_of_ne hs)]

theorem getLine_wr_entryCtrl (p : Params) : getLine p .wr (entryCtrl p) = true := getLine_setLine_same p .wr true _

theorem getLine_sck_entryCtrl {p : Params} (h : rolesOk p = true) : getLine p .sck (entryCtrl p) = false := by
  obtain ⟨-, -, -, -, -, -, hne, -⟩ := rolesOk_distinct h
  rw [entryCtrl, getLine_setLine, if_neg (show lineBit p .sck ≠ lineBit p .wr from hne), getLine_setLine_same]

theorem inv_of_launch {s : State} (h : Launch s) : Inv s := by
  obtain ⟨hdata, hphysData, hctrl, hphysCtrl, -, hfault, hrefused, -, -, -, hactive, -, -, -, hmem, -⟩ := h
  constructor
  case memWf => exact hmem
  case unnamedBits =>
    intro j hj
    rw [hctrl]
    exact entryCtrl_other (fun e => hj (by simp [roleBitList, e])) (fun e => hj (by simp [roleBitList, e]))
  case oneMark => exact .inl hfault
  case loopCanGoOn => exact fun ha => absurd hactive ha
  case shadows => exact fun _ => ⟨hphysCtrl, hphysData.trans hdata.symm⟩
  case sckLow =>
    intro _ hroles
    rw [hctrl]
    exact getLine_sck_entryCtrl hroles
  case faultRecorded =>
    intro f hf
    cases hfault.symm.trans hf
  case refusalRecorded =>
    intro r hr
    cases hrefused.symm.trans hr

theorem launch_reset : Launch State.reset :=
  ⟨rfl, rfl, rfl, rfl, rfl, rfl, rfl, rfl, rfl, rfl, rfl, rfl, rfl, rfl, rfl, trivial⟩

theorem launch_chip {s : State} {chip : JedecChip} (h : Launch s) (hf : s.fixture = .jedec chip) :
    chip.mode = .array ∧ chip.seq = [] ∧ chip.armed = false ∧ chip.busy = 0 := by
  obtain ⟨-, -, -, -, -, -, -, -, -, -, -, -, -, -, -, hchip⟩ := h
  rw [hf] at hchip
  rw [show chip = freshChip chip.eraseBusyLoads chip.mfr chip.dev from hchip]
  exact ⟨rfl, rfl, rfl, rfl⟩

/-- Settles O48: what rule R240 gives is what the invariant asks of a state with no mark and no loop. -/
theorem launchMeetsTheInvariant : Obligations.LaunchMeetsTheInvariant :=
  ⟨launch_reset, inv_of_launch launch_reset, fun _ h => ⟨inv_of_launch h, fun _ => launch_chip h⟩⟩

/-- Settles O49: the fields of the reset state, and what its control byte holds. -/
theorem entryStateIsAsGiven : Obligations.EntryStateIsAsGiven :=
  ⟨rfl, rfl, rfl, rfl, rfl, rfl, rfl, rfl, rfl, rfl, rfl, rfl, rfl, rfl, fun p h =>
    ⟨getLine_sck_entryCtrl h, getLine_wr_entryCtrl p, fun _ => entryCtrl_other⟩⟩

/-! ### The step -/

theorem Resting.withOutcomes {s : State} (h : Resting s) (os : List OpOutcome) (k : Option Nat) :
    Resting (withOutcomes os k s) := ⟨⟨h.opened, h.roles, h.lines, h.bytes⟩, h.low⟩

theorem resting_of_inv {s : State} (h : Inv s) (hs : CanStart s) : Resting s where
  opened := hs.2.2
  roles := canStart_roles hs
  lines := (h.shadows hs.1.1).1
  bytes := (h.shadows hs.1.1).2
  low := h.sckLow hs.1.1 (canStart_roles hs)

/-- What a body leads to is what its operation leaves, unless that has taken a fault. -/
theorem resting_conclude {m : Op Verdict} {s : State} (hl : Leads Resting Resting m) (hs : Resting s)
    (hm : Rightly true s (m s)) (hf : (conclude (m s)).faulted = none) : Resting (conclude (m s)) := by
  have hlead := hl s hs
  rcases hr : m s with ⟨v, t⟩ | ⟨f | ⟨op, n⟩ | r, t⟩ <;> rw [hr] at hlead hm hf
  · obtain ⟨os, k, he⟩ := conclude_eq_withOutcomes (.ok v t)
    rw [he]
    exact Resting.withOutcomes hlead os k
  · obtain ⟨-, hmark, -⟩ := hm
    have hnone : t.faulted = none := hf
    cases hsf : s.faulted <;> simp [hnone, hsf] at hmark
  · exact Resting.withOutcomes hlead _ _
  · exact hlead.elim

theorem Ending.oneMark {s t : State} (h : Ending s t) : t.faulted = none ∨ t.refused = none := by
  cases h with
  | again run out quiet => exact .inl run.1
  | done v run out quiet => exact .inl run.1
  | refused r fault mark out quiet => exact .inl fault
  | fault f noPort mark refusal out quiet => exact .inr refusal
  | portFail kind es n reached mark refusal out => exact .inr refusal
  | cancelled op k es run out flag events quiet => exact .inl run.1

/-- What the fixture's memory and the bits without a role keep (rules R26, R70, R71). -/
def KeepsForm (s t : State) : Prop :=
  t.params = s.params ∧ (Memory.wf s.mem = true → Memory.wf t.mem = true)
    ∧ ∀ j : Fin 8, j ∉ roleBitList s.params → t.ctrl.getLsbD j = s.ctrl.getLsbD j

theorem admitsAll_keepsForm : AdmitsAll KeepsForm := admitsAll_memWf

theorem inv_conclude {m : Op Verdict} {s : State} (h : Inv s) (hs : CanStart s) (hl : Leads Resting Resting m)
    (hm : Rightly true s (m s)) (hk : KeepsForm s (endState (m s)))
    (ho : (endState (m s)).outcomes = s.outcomes) : Inv (conclude (m s)) := by
  have hend := ending_conclude hs.1 ho hm
  have hrest := resting_conclude hl (resting_of_inv h hs) hm
  obtain ⟨hfault, hrefusal⟩ := marksAreOutcomes_of_ending hend
  have hform : KeepsForm s (conclude (m s)) := by
    obtain ⟨os, k, he⟩ := conclude_eq_withOutcomes (m s)
    rw [he]
    exact hk
  obtain ⟨hparams, hmem, hbits⟩ := hform
  constructor
  case memWf => exact hmem h.memWf
  case unnamedBits =>
    intro j hj
    rw [hparams] at hj ⊢
    exact (hbits j hj).trans (h.unnamedBits j hj)
  case oneMark => exact hend.oneMark
  case loopCanGoOn =>
    intro ha
    rcases conclude_place ho with ⟨hn, -⟩ | ⟨k, t, -, -, hout⟩
    · exact absurd hn ha
    · have hrun := hend.running hout
      exact ⟨hrun, hparams ▸ hs.2.1, (hrest hrun.1).opened⟩
  case shadows => exact fun hf => ⟨(hrest hf).lines, (hrest hf).bytes⟩
  case sckLow => exact fun hf _ => (hrest hf).low
  case faultRecorded =>
    intro f hf
    rw [(hfault f).mp hf, List.getLast?_concat]
  case refusalRecorded =>
    intro r hr
    rw [(hrefusal r).mp hr, List.getLast?_concat]

/-- A refusal at the start touches the mark and the outcomes only. -/
theorem inv_refusedState {s : State} (h : Inv s) (hs : Running s) (r : Refusal) : Inv (refusedState r s) where
  memWf := h.memWf
  unnamedBits := h.unnamedBits
  oneMark := .inl hs.1
  loopCanGoOn ha := absurd rfl ha
  shadows := h.shadows
  sckLow := h.sckLow
  faultRecorded f hf := by cases hs.1.symm.trans hf
  refusalRecorded r' hr := by
    cases hr
    exact List.getLast?_concat

theorem inv_exec {i : Instr} {s t : State} (h : Inv s) (he : exec i s = .next t) : Inv t := by
  have hrun := exec_running he
  rcases exec_cases i hrun with ⟨r, -, he'⟩ | ⟨-, hs, -, ho, he', hright⟩ <;> cases he'.symm.trans he
  · exact inv_refusedState h hrun r
  · exact inv_conclude h hs (leads_bodyOf ho) (rightly_true hright) (keeps_bodyOf admitsAll_keepsForm i s)
      (bodyOf_records i s).1

theorem inv_iteration {k : Nat} {s : State} (h : Inv s) (hs : CanStart s) : Inv (conclude (eraseWaitIteration k s)) :=
  inv_conclude h hs (leads_eraseWaitIteration k) (right_eraseWaitIteration k s)
    (keeps_eraseWaitIteration admitsAll_keepsForm.toAdmitsLoops k s) (eraseWaitIteration_records k s)

/-- The invariant says nothing of the host's calls. -/
theorem inv_withCalls {s : State} (h : Inv s) (calls : List Call) : Inv { s with calls := calls } :=
  ⟨h.memWf, h.unnamedBits, h.oneMark, h.loopCanGoOn, h.shadows, h.sckLow, h.faultRecorded, h.refusalRecorded⟩

/-- Settles O47: a step is an iteration of a loop that can go on, or nothing, or the host's next operation. -/
theorem stepKeepsTheInvariant : Obligations.StepKeepsTheInvariant := by
  intro s t h hstep
  obtain ⟨-, ⟨k, hk, rfl⟩ | ⟨-, -, rfl⟩ | ⟨c, rest, i, -, -, -, -, he⟩⟩ := step_eq_next hstep
  · exact inv_iteration h (h.loopCanGoOn (by simp [hk]))
  · exact h
  · exact inv_exec (inv_withCalls h rest) he

end Sys2Proof.Machine
end

section
/-! SUPPORT. The step and settle times in the answer of an operation (rules R251, R252), and command integrity in the events
of a step (rules R66, R147, R244). -/

namespace Sys2Proof.Machine

theorem newEvents_conclude {s : State} {r : EStateM.Result Stop State Verdict} {es : List Event}
    (h : (endState r).trace = s.trace ++ es) : newEvents s (conclude r) = es := by
  obtain ⟨os, k, he⟩ := conclude_eq_withOutcomes r
  rw [he]
  exact newEvents_append h

/-! ### Times -/

section
variable {τ σ : Nat}

theorem conclude_retimed (tr : List Event) (r : EStateM.Result Stop State Verdict) :
    conclude (mapState (retimed τ σ tr) r) = retimed τ σ tr (conclude r) := by
  rcases r with ⟨v | k, t⟩ | ⟨e, t⟩ <;> rfl

/-- With other times a body leaves the same, but for its delays. -/
theorem conclude_retimes {m : Op Verdict} (h : Retimes τ σ m m) (s : State) :
    ∃ es, withoutDelays es = withoutDelays (newEvents s (conclude (m s)))
      ∧ conclude (m (retimed τ σ s.trace s)) = retimed τ σ (s.trace ++ es) (conclude (m s)) := by
  obtain ⟨es, es', htrace, hdelays, hrun⟩ := h s s.trace
  refine ⟨es', ?_, ?_⟩
  · rw [newEvents_conclude htrace, hdelays]
  · rw [hrun, conclude_retimed]

theorem exec_retimed {i : Instr} {s t : State} (h : exec i s = .next t) :
    ∃ es, withoutDelays es = withoutDelays (newEvents s t)
      ∧ exec i (retimed τ σ s.trace s) = .next (retimed τ σ (s.trace ++ es) t) := by
  rw [exec_eq_perform] at h
  obtain ⟨hs, rfl⟩ := perform_next h
  obtain ⟨es, hdelays, hrun⟩ := conclude_retimes (τ := τ) (σ := σ)
    (retimes_bind (retimes_checkCall (ownProblem i)) fun _ => retimes_bodyOf i) s
  refine ⟨es, hdelays, ?_⟩
  rw [exec_eq_perform, perform_running (s := retimed τ σ s.trace s) hs, hrun]

theorem iteration_retimed {k : Nat} {s : State} (hs : Running s) (hk : s.active = some k) :
    ∃ es, withoutDelays es = withoutDelays (newEvents s (conclude (eraseWaitIteration k s)))
      ∧ step (retimed τ σ s.trace s) = .next (retimed τ σ (s.trace ++ es) (conclude (eraseWaitIteration k s))) := by
  obtain ⟨es, hdelays, hrun⟩ := conclude_retimes (τ := τ) (σ := σ) (retimes_eraseWaitIteration k) s
  exact ⟨es, hdelays,
    (step_active (s := retimed τ σ s.trace s) hs hk).trans (congrArg Host.Outcome.next hrun)⟩

end

/-- Settles O55: no primitive reads the two times but to emit a delay. -/
theorem stepTimesOnlyChangeDelays : Obligations.StepTimesOnlyChangeDelays := by
  rintro s t step1 settle1 other rfl
  refine ⟨fun i h => exec_retimed h, fun ha h => ?_⟩
  obtain ⟨hs, ⟨k, hk, rfl⟩ | ⟨hn, -⟩ | ⟨c, rest, i, hn, -⟩⟩ := step_eq_next h
  · exact iteration_retimed hs hk
  · exact absurd hn ha
  · exact absurd hn ha

/-! ### Command integrity -/

/-- Where an observer stands in a command after what happened from `s` to `t`: outside of any, unless a port failure has
ended the run. -/
def KeepsCommands (s t : State) : Prop :=
  ∃ place, commandPlace s.params.cmdAddr.toNat (newMarks s t) .outside = some place
    ∧ (place = .outside ∨ ∃ kind, t.faulted = some (.portIo kind))

theorem keepsCommands_of_noEvents {s t : State} (h : newEvents s t = []) : KeepsCommands s t := by
  refine ⟨.outside, ?_, .inl rfl⟩
  rw [newMarks, h]
  rfl

/-- With an open handle only a port failure can stop a body inside a command. -/
theorem keepsCommands_conclude {s : State} {r : EStateM.Result Stop State Verdict} (hs : Running s)
    (hopen : s.handle = .opened) (hm : Rightly true s r) (h : Shows s .outside .outside r) :
    KeepsCommands s (conclude r) := by
  rcases r with ⟨v, t⟩ | ⟨e, t⟩
  · obtain ⟨-, es, htrace, hplace⟩ := h
    refine ⟨.outside, ?_, .inl rfl⟩
    rw [newMarks, newEvents_ok htrace]
    exact (hplace (wireView s) rfl).1
  · obtain ⟨es, htrace, hplace⟩ := h
    obtain ⟨q, hq, hend⟩ := hplace (wireView s) rfl
    refine ⟨q, ?_, ?_⟩
    · rw [newMarks, newEvents_error htrace]
      exact hq
    · rcases hend with hq | ⟨kind, rfl⟩ | ⟨r, rfl⟩
      · exact .inl hq
      · obtain ⟨-, hmark, -⟩ := hm
        exact .inr ⟨kind, hmark.trans (by rw [hs.1, Option.none_or])⟩
      · obtain ⟨hclosed, -⟩ := hm
        cases hopen.symm.trans hclosed

theorem exec_keepsCommands {i : Instr} {s t : State} (hi : hostMayCall i = true) (hw : i.mnemonic ≠ .writeByte)
    (h : exec i s = .next t) : KeepsCommands s t := by
  rcases exec_cases i (exec_running h) with ⟨r, -, he⟩ | ⟨-, hs, -, -, he, hright⟩ <;> cases he.symm.trans h
  · exact keepsCommands_of_noEvents (newEvents_refusedState r s)
  · exact keepsCommands_conclude hs.1 hs.2.2 (rightly_true hright) (moves_bodyOf (canStart_sda hs) hi hw s rfl)

theorem setLines_closed {s : State} (h : s.handle = .closed) (ls : List (Role × Bool)) :
    setLines ls s = .error (.refused .handleClosed)
      (markRefused .handleClosed { s with ctrl := setLineList s.params ls s.ctrl }) := by
  simp [setLines, portWrCtrl, h, refuse]

/-- On a closed handle a read is refused at its first access (rule R33). -/
theorem readByte_closed {s : State} (h : s.handle = .closed) {a : Nat} (ha : a < addrSpace) :
    ∃ t, readByte a s = .error (.refused .handleClosed) t ∧ t.trace = s.trace :=
  ⟨_, bind_error (seq_ok (checkAddr_ok ha) (bind_error (bind_error (bind_error (setLines_closed h _))))), rfl⟩

theorem eraseWaitIteration_closed {s : State} (h : s.handle = .closed) (k : Nat) :
    ∃ es, newEvents s (conclude (eraseWaitIteration k s)) = .pollCancel (flagAtPoll s) :: es
      ∧ (es = [] ∨ es = [.delay erasePollUs]) := by
  have hpoll := pollOrCancel_eq .eraseWait k s
  cases hf : flagAtPoll s <;> rw [hf] at hpoll
  · obtain ⟨t, hread, htrace⟩ := readByte_closed (s := addEvent (.delay erasePollUs) (polled s)) h (a := 0) (by decide)
    have hrun : eraseWaitIteration k s = .error (.refused .handleClosed) t :=
      seq_ok hpoll (seq_ok rfl (bind_error hread))
    refine ⟨[.delay erasePollUs], ?_, .inr rfl⟩
    rw [hrun, newEvents_error (es := [.pollCancel false, .delay erasePollUs])]
    rw [htrace, ← hf]
    exact List.append_assoc _ _ _
  · have hrun : eraseWaitIteration k s = .error (.cancelled .eraseWait k) (polled s) := bind_error hpoll
    refine ⟨[], ?_, .inl rfl⟩
    rw [hrun, newEvents_error (es := [.pollCancel true])]
    rw [← hf]
    rfl

theorem iteration_keepsCommands {s : State} (hs : Running s) (k : Nat) :
    KeepsCommands s (conclude (eraseWaitIteration k s)) := by
  cases hh : s.handle with
  | opened =>
    exact keepsCommands_conclude hs hh (right_eraseWaitIteration k s) (moves_eraseWaitIteration k s rfl)
  | closed =>
    obtain ⟨es, hev, hes⟩ := eraseWaitIteration_closed hh k
    refine ⟨.outside, ?_, .inl rfl⟩
    rw [newMarks, hev]
    rcases hes with rfl | rfl <;> rfl

/-- Settles O60: the host reaches whole commands only, and each moves an observer from outside of any to outside. -/
theorem hostCannotSplitACommand : Obligations.HostCannotSplitACommand := by
  intro s t hint hstep hcall
  obtain ⟨hs, ⟨k, -, rfl⟩ | ⟨-, -, rfl⟩ | ⟨c, rest, i, hact, hc, hd, hmay, he⟩⟩ := step_eq_next hstep
  · exact iteration_keepsCommands hs k
  · exact keepsCommands_of_noEvents (newEvents_append (List.append_nil _).symm)
  · have hhost : hostMayCall i = true := by simpa [mayCall, hint] using hmay
    exact exec_keepsCommands (s := { s with calls := rest }) hhost (hcall c rest i hact hc hd) he

end Sys2Proof.Machine
end

section
/-! SUPPORT. The reference fixtures through the operations: what the transparent memory and the JEDEC chip answer after bus
cycles and reads (rules R69, R70, R71, R72). -/

namespace Sys2Proof.Machine

/-! ### Bus cycles and a read after them -/

theorem allSent_target {cs : List TimedCycle} {s : State} (ha : AddrsOk cs) :
    ((allSent cs s).mem, (allSent cs s).fixture) = (cs.map Prod.fst).foldl targetWrite (s.mem, s.fixture) := by
  rw [allSent_eq ha, ← cyclesLeave_target]
  rfl

theorem canStart_allSent {cs : List TimedCycle} {s : State} (ha : AddrsOk cs) (h : CanStart s) :
    CanStart (allSent cs s) := by
  rw [allSent_eq ha]
  exact canStart_cyclesLeave h cs

theorem exec_sequence_allSent {i : Instr} {cs : List TimedCycle} {s : State}
    (ho : operationSequence s.params i = some cs) (hs : CanStart s) (hw : WellFormed i = true)
    (hp : PortsOk (76 * cs.length) s) :
    exec i s = .next (withOutcomes (s.outcomes ++ [.ok .none]) none (allSent cs s)) := by
  have hout : (allSent cs s).outcomes = s.outcomes := by
    rw [allSent_eq (sequence_addrs ho hw)]
    exact cyclesLeave_outcomes s cs
  rw [exec_body hs (sequence_own ho hw), bodyOf_sequence ho hw (canSend_of_canStart hs hp), conclude_done, hout]

theorem exec_readByte_leave {a : Nat} {s : State} (h : CanStart s) (ha : a < addrSpace) (hp : PortsOk 99 s) :
    exec (.readByte a) s = .next (withOutcomes (s.outcomes ++ [.ok (.byte (answerAt s a 0))]) none
      (withRecords (s.trace ++ readTrace a s) s.oracle.pollIdx (readLeave a s))) := by
  rw [exec_readByte h ha hp, readDone_leave ha]
  rfl

/-- An operation of pure bus writes and then a READ_BYTE: the read answers what the target holds after the cycles. -/
theorem exec_sequence_read {i : Instr} {cs : List TimedCycle} {a : Nat} {s : State}
    (ho : operationSequence s.params i = some cs) (hs : CanStart s) (hw : WellFormed i = true) (ha : a < addrSpace)
    (hp : PortsOk (76 * cs.length + 99) s) :
    ∃ t u : State, exec i s = .next t ∧ exec (.readByte a) t = .next u
      ∧ (t.mem, t.fixture) = (cs.map Prod.fst).foldl targetWrite (s.mem, s.fixture)
      ∧ u.outcomes = s.outcomes ++ [.ok .none, .ok (.byte (answerAt t a 0))]
      ∧ u.mem = t.mem ∧ u.fixture = targetAfterRead t a := by
  have haddr := sequence_addrs ho hw
  have hstart : CanStart (withOutcomes (s.outcomes ++ [.ok .none]) none (allSent cs s)) :=
    canStart_allSent haddr hs
  have hports : PortsOk 99 (withOutcomes (s.outcomes ++ [.ok .none]) none (allSent cs s)) :=
    ((canSend_of_canStart hs hp).sent cs).ports
  refine ⟨_, _, exec_sequence_allSent ho hs hw (portsOk_le hp (by omega)), exec_readByte_leave hstart ha hports,
    allSent_target haddr, ?_, rfl, rfl⟩
  exact List.append_assoc _ _ _

/-! ### The transparent memory -/

/-- Settles O56: the cycle writes the byte into the memory that the read then answers from. -/
theorem ramReturnsTheByteWritten : Obligations.RamReturnsTheByteWritten := by
  intro a v d s hs ha hf hp
  have hw : WellFormed (.writeByte a v d) = true := decide_eq_true ha
  obtain ⟨t, u, hwrite, hread, htarget, hout, hmem, -⟩ :=
    exec_sequence_read (i := .writeByte a v d) (a := a) rfl hs hw ha hp
  obtain ⟨htmem, htfix⟩ : t.mem = memWrite s.mem a v ∧ t.fixture = .ram := by
    rw [hf] at htarget
    exact Prod.mk.inj htarget
  have hanswer : answerAt t a 0 = v := by
    rw [answerAt, htfix, htmem]
    simp only [memRead_memWrite, if_true]
  refine ⟨t, u, hwrite, hread, by rw [hout, hanswer], fun x => ?_⟩
  rw [hmem, htmem, memRead_memWrite]

/-! ### The JEDEC fixture -/

/-- The chip is idle in a mode: no sequence begun, nothing armed, not busy (rule R71). -/
structure IdleIn (mode : ChipMode) (chip : JedecChip) : Prop where
  mode : chip.mode = mode
  seq : chip.seq = []
  armed : chip.armed = false
  busy : chip.busy = 0

/-- The two unlock cycles leave the chip in the middle of a sequence. -/
theorem unlock_target {mode : ChipMode} {chip : JedecChip} (h : IdleIn mode chip) (m : List Host.Cell) (c : Byte) :
    [(0x5555, 0xAA#8), (0x2AAA, 0x55#8), (0x5555, c)].foldl targetWrite (m, .jedec chip)
      = targetWrite (m, .jedec { chip with seq := [(0x5555, 0xAA#8), (0x2AAA, 0x55#8)] }) (0x5555, c) := by
  simp [targetWrite, jedecWrite, h.seq, h.armed, h.busy, kept_unlock1, kept_unlock2]

theorem kept_idEntry : isKeptPrefix [(0x5555, 0xAA#8), (0x2AAA, 0x55#8), (0x5555, 0x90#8)] = false := by decide +kernel

theorem kept_idExit : isKeptPrefix [(0x5555, 0xAA#8), (0x2AAA, 0x55#8), (0x5555, 0xF0#8)] = false := by decide +kernel

theorem kept_program : isKeptPrefix [(0x5555, 0xAA#8), (0x2AAA, 0x55#8), (0x5555, 0xA0#8)] = false := by decide +kernel

/-- The three cycles of a command, as the fixture compares them. -/
theorem jedec3Cycles_decided (c : Byte) :
    jedec3Cycles decidedCmdAddr.toNat c = [(0x5555, 0xAA#8), (0x2AAA, 0x55#8), (0x5555, c)] := rfl

theorem idEntry_target {chip : JedecChip} (h : IdleIn .array chip) (m : List Host.Cell) :
    [(0x5555, 0xAA#8), (0x2AAA, 0x55#8), (0x5555, 0x90#8)].foldl targetWrite (m, .jedec chip)
      = (m, .jedec { chip with mode := .id }) := by
  rw [unlock_target h]
  simp [targetWrite, jedecWrite, h.seq, h.armed, h.busy, kept_idEntry, jedec3Cycles_decided, cmdIdEntryByte]

theorem idExit_target {chip : JedecChip} (h : IdleIn .id chip) (m : List Host.Cell) :
    [(0x5555, 0xAA#8), (0x2AAA, 0x55#8), (0x5555, 0xF0#8)].foldl targetWrite (m, .jedec chip)
      = (m, .jedec { chip with mode := .array }) := by
  rw [unlock_target h]
  simp [targetWrite, jedecWrite, h.seq, h.armed, h.busy, kept_idExit, jedec3Cycles_decided, cmdIdEntryByte,
    cmdIdExitByte]

theorem program_target {chip : JedecChip} (h : IdleIn .array chip) (m : List Host.Cell) (a : Nat) (v : Byte) :
    [(0x5555, 0xAA#8), (0x2AAA, 0x55#8), (0x5555, 0xA0#8), (a, v)].foldl targetWrite (m, .jedec chip)
      = (memWrite m a v, .jedec chip) := by
  have hcommand := unlock_target h m 0xA0#8
  rw [List.foldl_cons, List.foldl_cons, List.foldl_cons, List.foldl_nil] at hcommand
  rw [List.foldl_cons, List.foldl_cons, List.foldl_cons, List.foldl_cons, List.foldl_nil, hcommand]
  obtain ⟨mode, seq, armed, busy, loads, mfr, dev⟩ := chip
  obtain ⟨hmode, hseq, harmed, hbusy⟩ := h
  simp only at hmode hseq harmed hbusy
  simp [targetWrite, jedecWrite, hmode, hseq, harmed, hbusy, kept_program, jedec3Cycles_decided, cmdIdEntryByte,
    cmdIdExitByte, cmdProgramByte]

/-- A cycle that begins no sequence leaves the chip idle, and stores nothing (conflict C4). -/
theorem bare_target {mode : ChipMode} {chip : JedecChip} (h : IdleIn mode chip) (m : List Host.Cell) {c : BusCycle}
    (hc : c ≠ (0x5555, 0xAA#8)) : targetWrite (m, .jedec chip) c = (m, .jedec chip) := by
  have hkept : isKeptPrefix [c] = false := by
    have hcons : ∀ rest : List BusCycle, [c].isPrefixOf ((0x5555, 0xAA#8) :: rest) = false := fun rest => by
      rw [List.isPrefixOf, beq_false_of_ne hc, Bool.false_and]
    rw [isKeptPrefix, fixtureErase_eq, hcons, show unlockCycles = [(0x5555, 0xAA#8), (0x2AAA, 0x55#8)] from rfl, hcons,
      Bool.and_false, Bool.and_false, Bool.or_false]
  obtain ⟨mode, seq, armed, busy, loads, mfr, dev⟩ := chip
  obtain ⟨hmode, hseq, harmed, hbusy⟩ := h
  simp only at hmode hseq harmed hbusy
  simp [targetWrite, jedecWrite, hseq, harmed, hbusy, hkept, jedec3Cycles_decided, fixtureErase_eq]

theorem jedecRead_chip (m : List Host.Cell) (chip : JedecChip) (a : Nat) :
    (jedecRead m chip a).2 = { chip with busy := chip.busy - 1 } := by
  rw [jedecRead]
  split
  · rfl
  · have hbusy : chip.busy - 1 = chip.busy := by omega
    rw [hbusy]
    split <;> rfl

theorem targetAfterRead_jedec {s : State} {chip : JedecChip} (h : s.fixture = .jedec chip) (a : Nat) :
    targetAfterRead s a = .jedec { chip with busy := chip.busy - 1 } := by
  rw [targetAfterRead, h]
  exact congrArg Fixture.jedec (jedecRead_chip _ _ _)

theorem targetAfterRead_idle {mode : ChipMode} {s : State} {chip : JedecChip} (h : s.fixture = .jedec chip)
    (hi : IdleIn mode chip) (a : Nat) : targetAfterRead s a = .jedec chip := by
  have hbusy : chip.busy - 1 = chip.busy := by rw [hi.busy]
  rw [targetAfterRead_jedec h, hbusy]

theorem answerAt_array {s : State} {chip : JedecChip} (h : s.fixture = .jedec chip) (hi : IdleIn .array chip)
    (a j : Nat) : answerAt s a j = memRead s.mem a := by
  simp [answerAt, h, jedecRead, hi.busy, hi.mode]

theorem answerAt_id {s : State} {chip : JedecChip} (h : s.fixture = .jedec chip) (hi : IdleIn .id chip)
    (a j : Nat) : answerAt s a j = if a = 0 then chip.mfr else if a = 1 then chip.dev else 0x00#8 := by
  simp [answerAt, h, jedecRead, hi.busy, hi.mode]

theorem programSequence_cycles {p : Params} (h : p.cmdAddr = decidedCmdAddr) (cfg : ChipConfig) (a : Nat) (v : Byte) :
    (programSequence p cfg a v).map Prod.fst = [(0x5555, 0xAA#8), (0x2AAA, 0x55#8), (0x5555, 0xA0#8), (a, v)] := by
  rw [programSequence, List.map_append, commandSequence_cycles h]
  rfl

theorem exec_writeByte_bare {a : Nat} {v : Byte} {d : Nat} {s : State} {chip : JedecChip} (hs : CanStart s)
    (ha : a < addrSpace) (hf : s.fixture = .jedec chip) (hi : IdleIn .array chip) (hp : PortsOk 76 s)
    (hne : (a, v) ≠ (0x5555, 0xAA#8)) :
    ∃ t : State, exec (.writeByte a v d) s = .next t ∧ t.mem = s.mem ∧ t.fixture = s.fixture := by
  have hw : WellFormed (.writeByte a v d) = true := decide_eq_true ha
  have htarget := allSent_target (s := s) (sequence_addrs (i := .writeByte a v d) (p := s.params) rfl hw)
  rw [List.map_singleton, List.foldl_cons, List.foldl_nil, hf, bare_target hi s.mem hne] at htarget
  obtain ⟨hmem, hfix⟩ := Prod.mk.inj htarget
  exact ⟨_, exec_sequence_allSent rfl hs hw hp, hmem, hfix.trans hf.symm⟩

/-- Settles O57: the command arms the chip for its data cycle, and an idle chip keeps nothing of another cycle. -/
theorem jedecProgramsOnlyByCommand : Obligations.JedecProgramsOnlyByCommand := by
  intro a v cfg s chip hs ha hok hcmd hf hmode hseq harmed hbusy hp
  have hi : IdleIn .array chip := ⟨hmode, hseq, harmed, hbusy⟩
  refine ⟨?_, fun d hne => exec_writeByte_bare hs ha hf hi (portsOk_le hp (by omega)) hne⟩
  have hw : WellFormed (.programByte a v cfg) = true := by
    simp [WellFormed, addrOk, ha, hok]
  obtain ⟨t, u, hprogram, hread, htarget, hout, hmem, hfix⟩ :=
    exec_sequence_read (i := .programByte a v cfg) (a := a) rfl hs hw ha hp
  obtain ⟨htmem, htfix⟩ : t.mem = memWrite s.mem a v ∧ t.fixture = .jedec chip := by
    rw [programSequence_cycles hcmd, hf, program_target hi] at htarget
    exact Prod.mk.inj htarget
  have hanswer : answerAt t a 0 = v := by
    rw [answerAt_array htfix hi, htmem, memRead_memWrite, if_pos rfl]
  refine ⟨t, u, hprogram, hread, by rw [hout, hanswer], ?_, fun x => ?_⟩
  · rw [hfix, targetAfterRead_idle htfix hi, hf]
  · rw [hmem, htmem, memRead_memWrite]

/-! ### The id -/

theorem idEntered_target {s : State} {chip : JedecChip} (hcmd : s.params.cmdAddr = decidedCmdAddr)
    (hf : s.fixture = .jedec chip) (hi : IdleIn .array chip) :
    (idEntered s).mem = s.mem ∧ (idEntered s).fixture = .jedec { chip with mode := .id } := by
  have htarget := cyclesLeave_target s (commandSequence s.params cmdIdEntryByte)
  rw [commandSequence_cycles hcmd, hf, show cmdIdEntryByte = 0x90#8 from rfl, idEntry_target hi] at htarget
  exact Prod.mk.inj htarget

theorem idLeave_target {s : State} {chip : JedecChip} (hcmd : s.params.cmdAddr = decidedCmdAddr)
    (hf : s.fixture = .jedec chip) (hi : IdleIn .array chip) :
    (idLeave s).mem = s.mem ∧ (idLeave s).fixture = .jedec chip := by
  obtain ⟨hmem, hfix⟩ := idEntered_target hcmd hf hi
  have hid : IdleIn .id { chip with mode := .id } := ⟨rfl, hi.seq, hi.armed, hi.busy⟩
  have hfix1 : (readLeave 0 (idEntered s)).fixture = .jedec { chip with mode := .id } :=
    targetAfterRead_idle hfix hid 0
  have hfix2 : (readLeave 1 (readLeave 0 (idEntered s))).fixture = .jedec { chip with mode := .id } :=
    targetAfterRead_idle hfix1 hid 1
  have hmem2 : (readLeave 1 (readLeave 0 (idEntered s))).mem = s.mem := hmem
  have htarget := cyclesLeave_target (readLeave 1 (readLeave 0 (idEntered s)))
    (commandSequence s.params cmdIdExitByte)
  rw [commandSequence_cycles hcmd, hfix2, hmem2, show cmdIdExitByte = 0xF0#8 from rfl, idExit_target hid] at htarget
  obtain ⟨hlmem, hlfix⟩ := Prod.mk.inj htarget
  refine ⟨hlmem, hlfix.trans ?_⟩
  rw [← hi.mode]

theorem idRead_target {s : State} {chip : JedecChip} (hcmd : s.params.cmdAddr = decidedCmdAddr)
    (hf : s.fixture = .jedec chip) (hi : IdleIn .array chip) : idRead s = chip.mfr ++ chip.dev := by
  obtain ⟨-, hfix⟩ := idEntered_target hcmd hf hi
  have hid : IdleIn .id { chip with mode := .id } := ⟨rfl, hi.seq, hi.armed, hi.busy⟩
  rw [idRead, joinId_eq, answerAt_id hfix hid, answerAt_id hfix hid]
  rfl

/-- Settles O58: in id mode the two reads answer the chip's id, and the ID exit command brings array mode back. -/
theorem jedecReportsItsId : Obligations.JedecReportsItsId := by
  intro s chip hs hcmd hf hmode hseq harmed hbusy hp
  have hi : IdleIn .array chip := ⟨hmode, hseq, harmed, hbusy⟩
  obtain ⟨hmem, hfix⟩ := idLeave_target hcmd hf hi
  exact ⟨_, exec_readSoftwareId hs hp, by rw [idRead_target hcmd hf hi], hfix, hmem⟩

/-! ### The erase -/

theorem eraseSent_target {s : State} {chip : JedecChip} (hcmd : s.params.cmdAddr = decidedCmdAddr)
    (hf : s.fixture = .jedec chip) (hi : IdleIn .array chip) :
    (eraseSent s).mem = memErased ∧ (eraseSent s).fixture = .jedec { chip with busy := chip.eraseBusyLoads } := by
  have htarget : ((eraseSent s).mem, (eraseSent s).fixture) = _ :=
    allSent_target (s := s) (sequence_addrs (i := .eraseChip) (p := s.params) rfl rfl)
  rw [timed_cycles, hcmd, hf, show decidedCmdAddr.toNat = 0x5555 from rfl,
    erase_target chip s.mem hi.seq hi.armed hi.busy] at htarget
  exact Prod.mk.inj htarget

theorem readsLeave_jedec {s : State} {chip : JedecChip} (h : s.fixture = .jedec chip) (as : List Nat) :
    (readsLeave as s).fixture = .jedec { chip with busy := chip.busy - as.length } := by
  induction as generalizing s chip with
  | nil => exact h
  | cons a as ih =>
    have hread : (readLeave a s).fixture = .jedec { chip with busy := chip.busy - 1 } := targetAfterRead_jedec h a
    have hrest := ih hread
    rw [Nat.sub_sub, Nat.add_comm 1] at hrest
    exact hrest

theorem waitDone_jedec {n : Nat} {s : State} {chip : JedecChip} (h : s.fixture = .jedec chip) :
    (waitDone n s).fixture = .jedec { chip with busy := chip.busy - 2 * n } := by
  have hreads := readsLeave_jedec h (List.replicate (2 * n) 0)
  rw [List.length_replicate] at hreads
  exact hreads

/-- While the chip is busy a pair of reads is not erased; when it is idle again every byte is. -/
theorem pairErased_busy {s : State} {chip : JedecChip} (hmem : s.mem = memErased)
    (hf : s.fixture = .jedec { chip with busy := chip.eraseBusyLoads }) (hmode : chip.mode = .array) (k : Nat) :
    pairErased s k = decide (chip.eraseBusyLoads ≤ 2 * k) := by
  by_cases hk : chip.eraseBusyLoads ≤ 2 * k
  · have h0 : chip.eraseBusyLoads - 2 * k = 0 := by omega
    have h1 : chip.eraseBusyLoads - (2 * k + 1) = 0 := by omega
    simp [pairErased, answerAt, hf, hmem, jedecRead, hmode, h0, h1, hk, memRead_memErased]
  · have h0 : (chip.eraseBusyLoads - (chip.eraseBusyLoads - 2 * k)) % 2 = 0 := by omega
    have h1 : 0 < chip.eraseBusyLoads - 2 * k := by omega
    simp [pairErased, answerAt, hf, jedecRead, h0, h1, hk, erasedByte]

theorem step_erase_call {s : State} {c : Call} {rest : List Call} (hs : CanStart s) (ha : s.active = none)
    (hc : s.calls = c :: rest) (hd : decode c = .ok .erase) (hp : PortsOk 456 s) :
    step s = step (waiting 0 (eraseSent { s with calls := rest })) := by
  have hstart : CanStart { s with calls := rest } := hs
  rw [step_call ha hc hd (Bool.or_true _), exec_erase hstart hp, step_waiting (canStart_eraseSent hstart).1]

/-- Settles O59: the busy pairs come first, then the pair of erased reads that ends the wait. -/
theorem jedecEraseEndsErased : Obligations.JedecEraseEndsErased := by
  intro s chip c rest n hs ha hcalls hd hcmd hf hseq harmed hbusy hn hmode hp hc
  subst hn
  have hstart : CanStart { s with calls := rest } := hs
  obtain ⟨hmem, hfix⟩ := eraseSent_target (s := { s with calls := rest }) hcmd hf ⟨hmode, hseq, harmed, hbusy⟩
  have hout := eraseSent_outcomes { s with calls := rest }
  have hports := (canSend_eraseSent (canSend_of_canStart hstart hp)).ports
  have hpolls := notCancelled_eraseSent (s := { s with calls := rest }) hc
  have hcan := canStart_eraseSent hstart
  have hstep := step_erase_call hs ha hcalls hd (portsOk_le hp (by omega))
  generalize eraseSent { s with calls := rest } = w at hmem hfix hout hports hpolls hcan hstep
  have hrun : runSteps ((chip.eraseBusyLoads + 1) / 2 + 1) s = .next (waitDone ((chip.eraseBusyLoads + 1) / 2 + 1) w) := by
    rw [runSteps, hstep, ← runSteps]
    refine runSteps_waitDone hcan hports hpolls (fun j hj => ?_) ?_
    · rw [pairErased_busy hmem hfix hmode, decide_eq_false (by omega)]
    · rw [pairErased_busy hmem hfix hmode, decide_eq_true (by omega)]
  refine ⟨_, hrun, ?_, rfl, ?_, fun x => ?_⟩
  · rw [waitDone, withOutcomes_outcomes, hout]
  · have hidle : chip.eraseBusyLoads - 2 * ((chip.eraseBusyLoads + 1) / 2 + 1) = chip.busy := by omega
    rw [waitDone_jedec hfix, hidle]
  · rw [waitDone_mem, hmem, memRead_memErased]
    rfl

end Sys2Proof.Machine
end

section
/-! SUPPORT. What a step runs (rules R5, R24, R65, R66, R220), and the primitives one at a time (rules R28, R110 to R112,
R170). -/

namespace Sys2Proof.Machine

/-! ### The step -/

/-- The operations that are internal (rule R90). -/
def internalMnemonics : List Mnemonic :=
  [.writeAddress, .unlock, .command, .cmdIdEntry, .cmdIdExit, .cmdEraseSetup, .cmdChipErase, .cmdProgram, .programByte]

theorem hostMayCall_iff (i : Instr) : hostMayCall i = true ↔ i.mnemonic ∉ internalMnemonics := by
  rw [hostMayCall]
  cases i.mnemonic <;> decide

/-- Settles O6: the host may call whatever is no internal operation, and where those are exposed these too. -/
theorem stepRunsTheNextCall : Obligations.StepRunsTheNextCall := by
  rintro s c rest i inner rfl ha hc hd
  refine ⟨fun h => step_call ha hc hd ?_, fun hx hi hs => step_internal ha hc hd ?_ hs⟩
  · rw [mayCall, Bool.or_eq_true]
    exact h.imp_right (hostMayCall_iff i).mpr
  · have hhost : ¬hostMayCall i = true := fun h => (hostMayCall_iff i).mp h hi
    rw [mayCall, hx, Bool.false_or, Bool.eq_false_of_not_eq_true hhost]

theorem isInternalFrame_eq {frame : List Byte} {i : Instr} (h : decode (.wire frame) = .ok i) :
    isInternalFrame frame = !hostMayCall i := by
  have hwire : decodeWire frame = .ok i := h
  rw [isInternalFrame, hwire]

/-- Settles O7: the word is the next call, and what it stands for is exposed if it is internal. -/
theorem stepRunsThePlacedWord : Obligations.StepRunsThePlacedWord := by
  intro s nbits w i h
  have hd := decode_wire h
  have hmay : mayCall (s.withFetchWord nbits w) i = true := by
    rw [mayCall, State.withFetchWord, placeFrame_internalsExposed, isInternalFrame_eq hd]
    cases hostMayCall i <;> simp
  rw [step_call rfl rfl hd hmay, State.withFetchWord, placeFrame, isInternalFrame_eq hd]

/-- Settles O8: nothing to run, or nothing that the call stands for. -/
theorem stepWithoutAnOperation : Obligations.StepWithoutAnOperation := by
  intro s hs ha
  refine ⟨fun hc => ?_, fun c rest e hc hd => ?_⟩
  · rw [step, ha, fetchCall, hc]
    exact ifRunning_running hs _
  · rw [step, ha, fetchCall, hc]
    simp only [hd]
    exact ifRunning_running hs _

/-- A state in which the answer is settled already gives it to whatever is asked. -/
theorem exec_of_ifRunning {s : State} {o : Host.Outcome State Fault Refusal} (h : ∀ k, ifRunning s k = o) (i : Instr) :
    exec i s = o := by
  rw [exec_eq_perform]
  exact h _

theorem step_of_ifRunning {s : State} {o : Host.Outcome State Fault Refusal} (h : ∀ k, ifRunning s k = o) :
    step s = o := by
  cases ha : s.active with
  | some polls =>
    rw [step, ha]
    exact h _
  | none =>
    cases hc : s.calls with
    | nil =>
      rw [step, ha, fetchCall, hc]
      exact h _
    | cons c rest =>
      have hrest : ∀ k, ifRunning { s with calls := rest } k = o := h
      rw [step, ha, fetchCall, hc]
      cases hd : decode c with
      | error e =>
        simp only [hd]
        exact h _
      | ok i =>
        simp only [hd]
        split
        · exact exec_of_ifRunning hrest i
        · exact h _

theorem ifRunning_faulted {s : State} {f : Fault} (h : s.faulted = some f) (k : Host.Outcome State Fault Refusal) :
    ifRunning s k = .fault f := by
  rw [ifRunning, h]

theorem ifRunning_refused {s : State} {r : Refusal} (hf : s.faulted = none) (h : s.refused = some r)
    (k : Host.Outcome State Fault Refusal) : ifRunning s k = .refused r := by
  simp only [ifRunning, hf, h]

/-- Settles O9: every answer is first asked of the marks. -/
theorem endedRunGoesNoFurther : Obligations.EndedRunGoesNoFurther := fun _ =>
  ⟨fun _ h => ⟨step_of_ifRunning (ifRunning_faulted h), exec_of_ifRunning (ifRunning_faulted h)⟩,
    fun _ hf h => ⟨step_of_ifRunning (ifRunning_refused hf h), exec_of_ifRunning (ifRunning_refused hf h)⟩⟩

/-! ### The port -/

/-- Settles O11: the branches of `PortWrCtrl`. -/
theorem portWriteControl : Obligations.PortWriteControl := by
  intro b s
  refine ⟨fun hh => ?_, fun hh hd => ?_, fun reached hh hd => ?_⟩
  · conv_lhs => simp only [portWrCtrl, hh]
    rfl
  · conv_lhs => simp only [portWrCtrl, hh, hd]
    rfl
  · conv_lhs => simp only [portWrCtrl, hh, hd]
    rfl

/-- Settles O12: the branches of `PortWrData`. -/
theorem portWriteData : Obligations.PortWriteData := by
  intro v s
  refine ⟨fun hh => ?_, fun hh hd => ?_, fun reached hh hd => ?_⟩
  · conv_lhs => simp only [portWrData, hh]
    rfl
  · conv_lhs => simp only [portWrData, hh, hd]
    rfl
  · conv_lhs => simp only [portWrData, hh, hd]
    rfl

/-- Settles O13: the branches of `PortRdStatus`. -/
theorem portReadStatus : Obligations.PortReadStatus := by
  intro fixed s
  refine ⟨fun hh => ?_, fun hh hd hf => ?_, fun b hh hd hf => ?_, fun reached hh hd => ?_⟩
  · conv_lhs => simp only [portRdStatus, hh]
    rfl
  · conv_lhs => simp only [portRdStatus, hh, hd, hf]
    rfl
  · conv_lhs => simp only [portRdStatus, hh, hd, hf]
    rfl
  · conv_lhs => simp only [portRdStatus, hh, hd]
    rfl

theorem setLine_bit (p : Params) (r : Role) (level : Bool) (c : Byte) (j : Fin 8) :
    (setLine p r level c).getLsbD j = if j = lineBit p r then level else c.getLsbD j := by
  rw [setLine_getLsbD]
  simp only [Fin.ext_iff]

/-- Settles O14: the levels are written into the shadow one after the other, and one control write follows. -/
theorem setLinesIsOneWrite : Obligations.SetLinesIsOneWrite := by
  intro s q r x y hne
  refine ⟨setLine s.params q x s.ctrl, setLine s.params r y (setLine s.params q x s.ctrl), ?_, ?_, rfl, rfl⟩
  · exact setLine_bit s.params q x s.ctrl
  · intro j
    rw [setLine_bit, setLine_bit]
    by_cases hq : j = lineBit s.params q
    · rw [if_neg (hq ▸ hne), if_pos hq, if_pos hq]
    · rw [if_neg hq, if_neg hq]

/-- Settles O15: the poll reads the flag, and a flag that is up answers every later poll. -/
theorem pollReadsTheStickyFlag : Obligations.PollReadsTheStickyFlag := by
  intro s
  refine ⟨flagAtPoll s, _, rfl, rfl, rfl, fun hc u hu => ?_⟩
  have hflag : flagAtPoll u = true := flagAtPoll_of_flag (hu.trans hc)
  exact ⟨polled u, by rw [← hflag]; rfl⟩

end Sys2Proof.Machine
end

section
/-! SUPPORT. The transport operations, event for event and bit for bit (rules R53, R54, R91 to R94, R116 to R118). -/

namespace Sys2Proof.Machine

/-! ### WRITE_ADDRESS -/

theorem frameEvents_range (p : Params) (c : Byte) (a : Nat) :
    frameEvents p c a 24 = (List.range 24).flatMap fun k => slotEvents p c (a.testBit (23 - k)) := by
  rw [frameEvents, bitsMsbFirst_eq, List.flatMap_map]

/-- Settles O16: the slots of bits 23 to 0 are the frame, and the shift register holds the address after them. -/
theorem writeAddressSendsItsFrame : Obligations.WriteAddressSendsItsFrame := by
  intro a s hs ha hp
  rw [exec_writeAddress hs ha hp, ← frameEvents_range]
  rfl

/-! ### WRITE_BYTE -/

/-- Settles O18: the state after WRITE_BYTE's bus cycle. -/
theorem writeByteIsOneBusCycle : Obligations.WriteByteIsOneBusCycle := by
  intro a v d s hs ha hp
  rw [exec_writeByte hs ha hp, byteWritten_eq ha]

theorem getLine_setLine_other {p : Params} {r q : Role} (h : lineBit p q ≠ lineBit p r) (level : Bool) (c : Byte) :
    getLine p q (setLine p r level c) = getLine p q c := by
  rw [getLine_setLine, if_neg h]

section
variable {p : Params} (h : rolesOk p = true) (b : Bool) (c : Byte)
include h

/-- While PGM is being asserted WR is as it was. -/
theorem getLine_pgmCtrl :
    getLine p .pgm (pgmCtrl p (slotCtrl p b c)) = true
      ∧ getLine p .wr (pgmCtrl p (slotCtrl p b c)) = getLine p .wr c := by
  obtain ⟨-, -, hsdaWr, -, -, -, hsckWr, -, -, hpgmWr, -⟩ := rolesOk_distinct h
  refine ⟨getLine_setLine_same p .pgm true _, ?_⟩
  exact (getLine_setLine_other (q := .wr) (r := .pgm) hpgmWr.symm _ _).trans
    (getLine_slotCtrl b c (r := .wr) hsdaWr.symm hsckWr.symm)

/-- In the window PGM is asserted and WR is not. -/
theorem getLine_window :
    getLine p .pgm (setLine p .wr false (pgmCtrl p (slotCtrl p b c))) = true
      ∧ getLine p .wr (setLine p .wr false (pgmCtrl p (slotCtrl p b c))) = false := by
  obtain ⟨-, -, -, -, -, -, -, -, -, hpgmWr, -⟩ := rolesOk_distinct h
  refine ⟨?_, getLine_setLine_same p .wr false _⟩
  exact (getLine_setLine_other (q := .pgm) (r := .wr) hpgmWr _ _).trans (getLine_pgmCtrl h b c).1

/-- The lines that WRITE_BYTE leaves. -/
theorem getLine_writtenCtrl :
    getLine p .pgm (writtenCtrl p b c) = true ∧ getLine p .wr (writtenCtrl p b c) = true
      ∧ getLine p .sck (writtenCtrl p b c) = false ∧ getLine p .sda (writtenCtrl p b c) = b := by
  obtain ⟨hsdaSck, hsdaPgm, hsdaWr, -, -, -, -, -, -, hpgmWr, -⟩ := rolesOk_distinct h
  refine ⟨?_, getLine_setLine_same p .wr true _, (getLine_sck_written h b c).2.2, ?_⟩
  · exact (getLine_setLine_other (q := .pgm) (r := .wr) hpgmWr _ _).trans (getLine_window h b c).1
  · rw [writtenCtrl, getLine_setLine_other (q := .sda) (r := .wr) hsdaWr,
      getLine_setLine_other (q := .sda) (r := .wr) hsdaWr, pgmCtrl,
      getLine_setLine_other (q := .sda) (r := .pgm) hsdaPgm, getLine_sda_slotCtrl hsdaSck]

end

theorem writtenCtrl_other {p : Params} (b : Bool) (c : Byte) {j : Fin 8}
    (hj : j ∉ [p.sdaBit, p.sckBit, p.pgmBit, p.wrBit]) : (writtenCtrl p b c).getLsbD j = c.getLsbD j := by
  simp only [List.mem_cons, List.not_mem_nil, or_false, not_or, Fin.ext_iff] at hj
  obtain ⟨hsda, hsck, hpgm, hwr⟩ := hj
  rw [writtenCtrl_getLsbD, if_neg hwr, if_neg hpgm, slotCtrl_getLsbD, if_neg hsck, if_neg hsda]

/-- Settles O19: the levels at each control write after the data write. -/
theorem writeByteLevels : Obligations.WriteByteLevels := by
  intro a v d s hs ha hp
  have hroles := canStart_roles hs
  obtain ⟨hpgm, hwr, hsck, hsda⟩ := getLine_writtenCtrl hroles (a.testBit 0) s.ctrl
  obtain ⟨hpgm1, hwr1⟩ := getLine_pgmCtrl hroles (a.testBit 0) s.ctrl
  obtain ⟨hpgm2, hwr2⟩ := getLine_window hroles (a.testBit 0) s.ctrl
  exact ⟨_, frameEvents s.params s.ctrl a 24, _, _, _, writeByteIsOneBusCycle a v d s hs ha hp, hpgm, hwr, hsck, hsda,
    fun _ => writtenCtrl_other _ _, rfl, newEvents_append rfl, hpgm1, hwr1, hpgm2, hwr2, rfl⟩

/-! ### READ_BYTE -/

theorem answerAt_of_targetAnswer {s : State} {a : Nat} {u : Byte} (h : targetAnswer s a = some u) :
    answerAt s a 0 = u := by
  cases hf : s.fixture <;> rw [targetAnswer, hf] at h <;> cases h <;> rw [answerAt, hf]
  rfl

theorem sampleList_draws (p : Params) (o : Oracle) (idx : Nat) :
    sampleList p o none idx = (List.range 8).map fun k => statusAt o (idx + k) := by
  simp [sampleList, shownByte, drawsUsed]

theorem sampleList_fixture (p : Params) (o : Oracle) (u : Byte) (idx : Nat) :
    sampleList p o (some u) idx = (List.range 8).map fun k => fixtureStatus p u (7 - k) := by
  simp [sampleList, shownByte]

/-- Settles O20: the samples are those the oracle draws or the fixture shows, and the byte is read off them. -/
theorem readByteReturnsTheInvertedSamples : Obligations.ReadByteReturnsTheInvertedSamples := by
  intro a s hs ha hp
  refine ⟨answerAt s a 0, sampleList s.params s.oracle (targetAnswer s a) s.oracle.statusIdx, by simp [sampleList],
    fun k hk => ?_, fun hnone => ?_, fun u hsome => ⟨answerAt_of_targetAnswer hsome, ?_⟩, ?_⟩
  · rw [← byteRead_eq ha, byteRead_bits ha hk]
  · rw [hnone, sampleList_draws]
  · rw [hsome, sampleList_fixture]
  · rw [exec_readByte hs ha hp, readDone_eq ha]
    rfl

end Sys2Proof.Machine
end

section
/-! SUPPORT. The checks before an operation, in the words of the rules (rules R8, R27, R32, R52, R96, R99, R215). -/

namespace Sys2Proof.Machine

/-! ### The role bits -/

theorem forall_mem_roleBitList {p : Params} {P : Fin 8 → Prop} :
    (∀ b ∈ roleBitList p, P b) ↔ ∀ r, P (lineBit p r) := by
  constructor
  · exact fun h r => h _ (by cases r <;> simp [roleBitList, lineBit])
  · intro h
    simp only [roleBitList, List.forall_mem_cons]
    exact ⟨h .sda, h .sck, h .pgm, h .wr, h .hsa, h .hsb, nofun⟩

theorem rolesMeet_of_ok {p : Params} (h : rolesOk p = true) : RolesMeet p := by
  obtain ⟨hsdaSck, hsdaPgm, hsdaWr, hsdaHsa, hsdaHsb, hsckPgm, hsckWr, hsckHsa, hsckHsb, hpgmWr, hhsaHsb⟩ :=
    rolesOk_distinct h
  constructor
  case sdaDedicated =>
    exact fun
      | .sda, hr => absurd rfl hr
      | .sck, _ => hsdaSck.symm
      | .pgm, _ => hsdaPgm.symm
      | .wr, _ => hsdaWr.symm
      | .hsa, _ => hsdaHsa.symm
      | .hsb, _ => hsdaHsb.symm
  case sckDedicated =>
    exact fun
      | .sda, _ => hsdaSck
      | .sck, hr => absurd rfl hr
      | .pgm, _ => hsckPgm.symm
      | .wr, _ => hsckWr.symm
      | .hsa, _ => hsckHsa.symm
      | .hsb, _ => hsckHsb.symm
  case pgmIsNotWr => exact hpgmWr
  case hsaIsNotHsb => exact hhsaHsb
  case fourBits =>
    have hcount : countDistinct (roleBitList p) ≤ 4 := by
      simp only [rolesOk, Bool.and_eq_true, decide_eq_true_eq] at h
      exact h.2
    obtain ⟨cover, hlen, hmem⟩ := (countDistinct_le_iff _).mp hcount
    exact ⟨cover, hlen, forall_mem_roleBitList.mp hmem⟩

theorem rolesOk_of_meet {p : Params} (h : RolesMeet p) : rolesOk p = true := by
  obtain ⟨cover, hlen, hmem⟩ := h.fourBits
  have hcount := (countDistinct_le_iff (roleBitList p)).mpr ⟨cover, hlen, forall_mem_roleBitList.mpr hmem⟩
  have hsda : p.sdaBit ∉ [p.pgmBit, p.wrBit, p.hsaBit, p.hsbBit] := by
    simpa using ⟨(h.sdaDedicated .pgm nofun).symm, (h.sdaDedicated .wr nofun).symm,
      (h.sdaDedicated .hsa nofun).symm, (h.sdaDedicated .hsb nofun).symm⟩
  have hsck : p.sckBit ∉ [p.pgmBit, p.wrBit, p.hsaBit, p.hsbBit] := by
    simpa using ⟨(h.sckDedicated .pgm nofun).symm, (h.sckDedicated .wr nofun).symm,
      (h.sckDedicated .hsa nofun).symm, (h.sckDedicated .hsb nofun).symm⟩
  simp only [rolesOk, Bool.and_eq_true, decide_eq_true_eq, Bool.not_eq_true', List.contains_eq_mem,
    decide_eq_false_iff_not]
  exact ⟨⟨⟨⟨⟨h.sckDedicated .sda nofun, hsda⟩, hsck⟩, h.pgmIsNotWr⟩, h.hsaIsNotHsb⟩, hcount⟩

/-- Four bits are taken by SDA, SCK, PGM and WR already, and a handshake line may have none of the first two. -/
theorem handshake_shares {p : Params} (h : RolesMeet p) {r : Role} (hsda : r ≠ .sda) (hsck : r ≠ .sck) :
    lineBit p r = p.pgmBit ∨ lineBit p r = p.wrBit := by
  by_contra hnone
  obtain ⟨hpgm, hwr⟩ := not_or.mp hnone
  obtain ⟨cover, hlen, hmem⟩ := h.fourBits
  have hnodup : [lineBit p r, lineBit p .sda, lineBit p .sck, lineBit p .pgm, lineBit p .wr].Nodup := by
    have hpgm' : lineBit p r ≠ lineBit p .pgm := hpgm
    have hwr' : lineBit p r ≠ lineBit p .wr := hwr
    simp [h.sdaDedicated r hsda, h.sckDedicated r hsck, hpgm', hwr', h.sckDedicated .sda nofun,
      (h.sdaDedicated .pgm nofun).symm, (h.sdaDedicated .wr nofun).symm, (h.sckDedicated .pgm nofun).symm,
      (h.sckDedicated .wr nofun).symm, h.pgmIsNotWr]
  have hsub : [lineBit p r, lineBit p .sda, lineBit p .sck, lineBit p .pgm, lineBit p .wr] ⊆ cover := by
    simp [hmem]
  have hfive := (List.subperm_of_subset hnodup hsub).length_le
  rw [List.length_cons, List.length_cons, List.length_cons, List.length_cons, List.length_singleton] at hfive
  omega

/-- Settles O22: the check says what (a) to (d) say, and leaves the handshake lines no other bits. -/
theorem handshakeSharesThePgmAndWrBits : Obligations.HandshakeSharesThePgmAndWrBits := by
  intro p
  refine ⟨⟨rolesMeet_of_ok, rolesOk_of_meet⟩, fun h => ?_⟩
  have hne : p.hsaBit ≠ p.hsbBit := h.hsaIsNotHsb
  have hsa : p.hsaBit = p.pgmBit ∨ p.hsaBit = p.wrBit := handshake_shares h (r := .hsa) nofun nofun
  have hsb : p.hsbBit = p.pgmBit ∨ p.hsbBit = p.wrBit := handshake_shares h (r := .hsb) nofun nofun
  rcases hsa with hsa | hsa <;> rcases hsb with hsb | hsb
  · exact absurd (hsa.trans hsb.symm) hne
  · exact .inl ⟨hsa, hsb⟩
  · exact .inr ⟨hsa, hsb⟩
  · exact absurd (hsa.trans hsb.symm) hne

/-! ### The configuration -/

/-- A configuration that an operation carries is wrong in its table or in its record. -/
theorem ownProblem_some {i : Instr} {reason : ConfigReason} (h : ownProblem i = some reason) :
    (∃ table, i = .identify table ∧ tableProblem table = some reason)
      ∨ ∃ cfg, cfgOperand i = some cfg ∧ chipProblem cfg = some reason := by
  cases i
  case identify table => exact .inl ⟨table, rfl, h⟩
  case programByte a v cfg => exact .inr ⟨cfg, rfl, h⟩
  case programRange start bytes cfg => exact .inr ⟨cfg, rfl, h⟩
  case writeImage offset src cfg => exact .inr ⟨cfg, rfl, h⟩
  case writeImageSector offset src cfg => exact .inr ⟨cfg, rfl, h⟩
  case writeImageByte offset src cfg => exact .inr ⟨cfg, rfl, h⟩
  all_goals cases h

theorem ownProblem_of_cfgOperand {i : Instr} {cfg : ChipConfig} (h : cfgOperand i = some cfg) :
    ownProblem i = chipProblem cfg := by
  cases i <;> cases h <;> rfl

/-- The configuration that is checked before an operation (rules R32, R215). -/
def configProblem (p : Params) (i : Instr) : Option ConfigReason := (paramsProblem p).or (ownProblem i)

/-- A problem that a table has is an error of the configuration it stands in. -/
theorem configError_of_table {p : Params} {i : Instr} {table : List ChipConfig} {reason : ConfigReason}
    (hg : GivenTable p i table) (h : tableProblem table = some reason) : ConfigError p i reason := by
  rcases tableProblem_some h with ⟨id, rfl, hid⟩ | ⟨cfg, hcfg, rfl, hsize⟩
  · exact ⟨table, hg, hid⟩
  · exact ⟨hsize, cfg, .inl ⟨table, hg, hcfg⟩, rfl⟩

theorem configError_of_problem {p : Params} {i : Instr} {reason : ConfigReason}
    (h : configProblem p i = some reason) : ConfigError p i reason := by
  rcases Option.or_eq_some_iff.mp h with hp | ⟨-, hown⟩
  · rw [paramsProblem] at hp
    split at hp
    next => exact configError_of_table (.inl rfl) hp
    next hroles =>
      cases hp
      exact fun hmeet => hroles (rolesOk_of_meet hmeet)
  · rcases ownProblem_some hown with ⟨table, rfl, htable⟩ | ⟨cfg, hcfg, hchip⟩
    · exact configError_of_table (.inr rfl) htable
    · obtain ⟨rfl, hsize⟩ := chipProblem_some hchip
      exact ⟨hsize, cfg, .inr hcfg, rfl⟩

theorem no_configError {p : Params} {i : Instr} (h : configProblem p i = none) (reason : ConfigReason) :
    ¬ConfigError p i reason := by
  obtain ⟨hp, hown⟩ := Option.or_eq_none_iff.mp h
  have hroles := paramsProblem_none hp
  have htable : ∀ table, GivenTable p i table → tableProblem table = none := by
    rintro table (rfl | rfl)
    · rwa [paramsProblem, if_pos hroles] at hp
    · exact hown
  cases reason with
  | roleBits => exact fun hbad => hbad (rolesMeet_of_ok hroles)
  | duplicateId id =>
    rintro ⟨table, hg, hshared⟩
    exact (tableProblem_none (htable table hg)).1 id hshared
  | badSectorSize size =>
    rintro ⟨hsize, cfg, ⟨table, hg, hcfg⟩ | hcfg, rfl⟩
    · exact hsize ((tableProblem_none (htable table hg)).2 cfg hcfg)
    · exact hsize (chipProblem_none ((ownProblem_of_cfgOperand hcfg).symm.trans hown))

/-! ### The refusals -/

theorem operandRefusal_ne_config (i : Instr) (reason : ConfigReason) :
    operandRefusal i ≠ some (.configInvalid reason) := by
  unfold operandRefusal
  repeat' split
  all_goals simp

theorem refusalOf_config_iff {s : State} {i : Instr} {reason : ConfigReason} :
    refusalOf s i = some (.configInvalid reason) ↔ configProblem s.params i = some reason := by
  rw [refusalOf, ← configProblem]
  cases configProblem s.params i with
  | some other => simp
  | none =>
    have hop := operandRefusal_ne_config i reason
    by_cases hh : s.handle = .closed <;> simp [hh, hop]

/-- The mark that an operation sets first is that of the refusal that is due. -/
theorem refused_iff_refusalOf {s t : State} {i : Instr} {r : Refusal} (he : exec i s = .next t) :
    t.refused = some r ↔ refusalOf s i = some r := by
  have hs := exec_running he
  cases hr : refusalOf s i with
  | some r' =>
    cases (exec_of_refusalOf hs hr).symm.trans he
    rfl
  | none =>
    obtain ⟨t', he', hnone⟩ := exec_of_refusalOf_none hs hr
    cases he'.symm.trans he
    simp [hnone]

/-- Settles O24: what is due is taken first and what is not due is never taken, and the configuration is due to be
refused exactly if one of its checks fails. -/
theorem refusalIsDecidedFirst : Obligations.RefusalIsDecidedFirst := by
  intro i s hs
  have hmark : ∀ t reason, exec i s = .next t → t.refused = some (.configInvalid reason) →
      configProblem s.params i = some reason := fun t reason he hr =>
    refusalOf_config_iff.mp ((refused_iff_refusalOf he).mp hr)
  refine ⟨fun r hr => exec_of_refusalOf hs hr, fun hr => exec_of_refusalOf_none hs hr, ⟨?_, ?_⟩, ?_⟩
  · rintro ⟨reason, herror⟩
    obtain ⟨other, hother⟩ : ∃ other, configProblem s.params i = some other :=
      Option.ne_none_iff_exists'.mp fun hnone => no_configError hnone reason herror
    exact ⟨_, other, exec_of_refusalOf hs (refusalOf_config_iff.mpr hother), rfl⟩
  · rintro ⟨t, reason, he, hr⟩
    exact ⟨reason, configError_of_problem (hmark t reason he hr)⟩
  · exact fun t reason he hr => configError_of_problem (hmark t reason he hr)

/-! ### The command byte -/

theorem isCommandByte_iff (c : Byte) : isCommandByte c = true ↔ c ∈ [0x90#8, 0xF0#8, 0x80#8, 0x10#8, 0xA0#8] :=
  List.contains_iff_mem

/-- Settles O27: the five bytes are the ones that the check of COMMAND lets pass. -/
theorem badCommandByteIsRefused : Obligations.BadCommandByteIsRefused := by
  intro c s hs hp
  refine ⟨fun hc => ?_, fun hc => ?_⟩
  · have hw : WellFormed (.command c) = true := (isCommandByte_iff c).mpr hc
    exact ⟨_, exec_sequence_allSent (i := .command c) rfl hs hw hp, rfl⟩
  · have hbad : operandRefusal (.command c) = some (.badCommand c) := if_neg (mt (isCommandByte_iff c).mp hc)
    exact exec_of_refusalOf hs.1 ((refusalOf_canStart hs rfl).trans hbad)

/-! ### Well-formedness -/

theorem chipProblem_eq_none_iff (cfg : ChipConfig) : chipProblem cfg = none ↔ sectorSizeOk cfg = true := by
  rw [chipProblem]
  split <;> simp [*]

/-- An operation is well formed exactly if neither its configuration nor its operands are refused. -/
theorem wellFormed_iff (i : Instr) : WellFormed i = true ↔ ownProblem i = none ∧ operandRefusal i = none := by
  cases i
  case programByte a v cfg =>
    simp [WellFormed, ownProblem, operandRefusal, addrOperand, chipProblem_eq_none_iff, addrOk, and_comm]
  case programRange start bytes cfg =>
    simp [WellFormed, ownProblem, operandRefusal, addrOperand, chipProblem_eq_none_iff, rangeOk, and_comm]
  case writeImage offset src cfg =>
    simp [WellFormed, ownProblem, operandRefusal, addrOperand, chipProblem_eq_none_iff, rangeOk, and_comm]
  case writeImageSector offset src cfg =>
    by_cases hz : cfg.sectorSize.toNat = 0 <;> by_cases ha : offset + src.length ≤ addrSpace <;>
      simp [WellFormed, ownProblem, operandRefusal, addrOperand, chipProblem_eq_none_iff, rangeOk, hz, ha]
  case writeImageByte offset src cfg =>
    by_cases hz : cfg.sectorSize.toNat = 0 <;> by_cases ha : offset + src.length ≤ addrSpace <;>
      simp [WellFormed, ownProblem, operandRefusal, addrOperand, chipProblem_eq_none_iff, rangeOk, hz, ha, sectorSizeOk]
  all_goals simp [WellFormed, ownProblem, operandRefusal, addrOperand, addrOk, rangeOk]

theorem refusalOf_none_iff {s : State} {i : Instr} (hs : CanStart s) :
    refusalOf s i = none ↔ ownProblem i = none ∧ operandRefusal i = none := by
  obtain ⟨-, hparams, hopen⟩ := hs
  rw [refusalOf, hparams, Option.none_or]
  cases ownProblem i <;> simp [hopen]

/-- Settles O28: in a state that can start nothing is left to be refused but the operation itself. -/
theorem wellFormedIsNeverRefused : Obligations.WellFormedIsNeverRefused := by
  intro i s hs
  rw [wellFormed_iff, ← refusalOf_none_iff hs]
  cases hr : refusalOf s i with
  | some r => exact ⟨_, exec_of_refusalOf hs.1 hr, by simp [refusedState]⟩
  | none =>
    obtain ⟨t, he, hnone⟩ := exec_of_refusalOf_none hs.1 hr
    exact ⟨t, he, by simp [hnone]⟩

end Sys2Proof.Machine
end

section
/-! SUPPORT. READ_SOFTWARE_ID as its parts called one after the other, and IDENTIFY (rules R56, R142, R143, R213). -/

namespace Sys2Proof.Machine

/-! ### Parts called by the host -/

/-- A state in which operations have ended with these events and outcomes. -/
def ended (tr : List Event) (os : List OpOutcome) (s : State) : State :=
  { s with trace := tr, outcomes := os, active := none }

theorem canStart_ended {s : State} (h : CanStart s) (tr : List Event) (os : List OpOutcome) :
    CanStart (ended tr os s) := h

theorem portsOk_ended {n : Nat} {s : State} (h : PortsOk n s) (tr : List Event) (os : List OpOutcome) :
    PortsOk n (ended tr os s) := h

theorem readLeave_ended (a : Nat) (tr : List Event) (os : List OpOutcome) (s : State) :
    readLeave a (ended tr os s) = ended tr os (readLeave a s) := rfl

theorem readTrace_ended (a : Nat) (tr : List Event) (os : List OpOutcome) (s : State) :
    readTrace a (ended tr os s) = readTrace a s := rfl

theorem answerAt_ended (a j : Nat) (tr : List Event) (os : List OpOutcome) (s : State) :
    answerAt (ended tr os s) a j = answerAt s a j := rfl

theorem cyclesLeave_ended (tr : List Event) (os : List OpOutcome) (s : State) (cs : List TimedCycle) :
    cyclesLeave (ended tr os s) cs = ended tr os (cyclesLeave s cs) := by
  unfold cyclesLeave
  cases cs.getLast? <;> rfl

theorem exec_readByte_ended {a : Nat} {s : State} (h : CanStart s) (ha : a < addrSpace) (hp : PortsOk 99 s)
    (tr : List Event) (os : List OpOutcome) :
    exec (.readByte a) (ended tr os s) =
      .next (ended (tr ++ readTrace a s) (os ++ [.ok (.byte (answerAt s a 0))]) (readLeave a s)) := by
  rw [exec_readByte_leave (canStart_ended h tr os) ha (portsOk_ended hp tr os), readTrace_ended, answerAt_ended,
    readLeave_ended]
  rfl

theorem exec_command_ended {c : Byte} {s : State} (hc : isCommandByte c = true) (h : CanStart s)
    (hp : PortsOk 228 s) (tr : List Event) (os : List OpOutcome) :
    exec (.command c) (ended tr os s) =
      .next (ended (tr ++ sentEvents s.params s.ctrl (commandSequence s.params c)) (os ++ [.ok .none])
        (cyclesLeave s (commandSequence s.params c))) := by
  have ho : operationSequence (ended tr os s).params (.command c) = some (commandSequence s.params c) := rfl
  rw [exec_sequence ho (canStart_ended h tr os) hc (portsOk_ended hp tr os), cyclesLeave_ended]
  rfl

theorem canStart_readLeave {s : State} (h : CanStart s) (a : Nat) : CanStart (readLeave a s) := h

/-! ### READ_SOFTWARE_ID -/

/-- With nothing attached the two reads take the next sixteen draws. -/
theorem answerAt_idEntered_draws {s : State} (hf : s.fixture = .none) (a j : Nat) :
    answerAt (idEntered s) a j = drawnByte s j := by
  have hfix : (idEntered s).fixture = .none := by
    have htarget := cyclesLeave_target s (commandSequence s.params cmdIdEntryByte)
    rw [hf] at htarget
    exact (Prod.mk.inj htarget).2
  have horacle : (idEntered s).oracle = _ := cyclesLeave_oracle s (commandSequence s.params cmdIdEntryByte)
  rw [answerAt, hfix]
  simp only [drawnByte_eq, idEntered_params, horacle]
  rfl

theorem exec_idEntry {s : State} (hs : CanStart s) (hp : PortsOk 228 s) :
    exec (.command 0x90#8) s = .next (ended
      (s.trace ++ sentEvents s.params s.ctrl (commandSequence s.params cmdIdEntryByte)) (s.outcomes ++ [.ok .none])
      (idEntered s)) :=
  exec_sequence (i := .command 0x90#8) rfl hs rfl hp

/-- The two reads and the ID exit command, from a state in which the chip's id can be read. -/
theorem runAll_idReads {w : State} (hw : CanStart w) (hp : PortsOk 426 w) (tr : List Event) (os : List OpOutcome) :
    runAll [.readByte 0, .readByte 1, .command 0xF0#8] (ended tr os w) = .next (ended
      (tr ++ readTrace 0 w ++ readTrace 1 (readLeave 0 w)
        ++ sentEvents w.params (readLeave 1 (readLeave 0 w)).ctrl (commandSequence w.params cmdIdExitByte))
      (os ++ [.ok (.byte (answerAt w 0 0))] ++ [.ok (.byte (answerAt w 1 1))] ++ [.ok .none])
      (cyclesLeave (readLeave 1 (readLeave 0 w)) (commandSequence w.params cmdIdExitByte))) := by
  have hsend := canSend_of_canStart hw hp
  have hsend0 : CanSend 327 (readLeave 0 w) := CanSend.read 0 hsend
  have hsend1 : CanSend 228 (readLeave 1 (readLeave 0 w)) := CanSend.read 1 hsend0
  have hw0 := canStart_readLeave hw 0
  have hanswer : answerAt (readLeave 0 w) 1 0 = answerAt w 1 1 := answerAt_readLeave 0 1 0 w
  simp only [runAll, exec_readByte_ended hw (a := 0) (by decide) (portsOk_le hp (by omega)),
    exec_readByte_ended hw0 (a := 1) (by decide) (hsend0.le (by omega)).ports,
    exec_command_ended (c := 0xF0#8) rfl (canStart_readLeave hw0 1) hsend1.ports, hanswer]
  rfl

/-- The events of the parts, with the delay, are those of the operation. -/
theorem idParts_trace (s : State) :
    s.trace ++ sentEvents s.params s.ctrl (commandSequence s.params cmdIdEntryByte) ++ [.delay 10000]
        ++ readTrace 0 (idEntered s) ++ readTrace 1 (readLeave 0 (idEntered s))
        ++ sentEvents s.params (readLeave 1 (readLeave 0 (idEntered s))).ctrl (commandSequence s.params cmdIdExitByte)
      = s.trace ++ idEvents s := by
  simp only [idEvents, List.append_assoc, List.cons_append, List.nil_append, swidSettleUs]

theorem ended_outcomes (tr : List Event) (os os' : List OpOutcome) (s : State) :
    { ended tr os s with outcomes := os' } = { s with trace := tr, outcomes := os', active := none } := rfl

/-- Settles O32: the events and the state of the operation are those of its parts, the delay put in by hand. -/
theorem readSoftwareIdIsItsParts : Obligations.ReadSoftwareIdIsItsParts := by
  intro s hs hp
  have hstart : CanStart (idEntered s) := canStart_cyclesLeave hs _
  have hsend : CanSend 426 (idEntered s) :=
    CanSend.leave (commandSequence s.params cmdIdEntryByte) (canSend_of_canStart hs hp)
  have hreads := runAll_idReads hstart hsend.ports
    (s.trace ++ sentEvents s.params s.ctrl (commandSequence s.params cmdIdEntryByte) ++ [.delay 10000])
    (s.outcomes ++ [.ok .none])
  rw [idEntered_params, ← idLeave, idParts_trace] at hreads
  refine ⟨_, _, answerAt (idEntered s) 0 0, answerAt (idEntered s) 1 1, exec_idEntry hs (portsOk_le hp (by omega)),
    hreads, ?_, ?_, fun hf => ⟨answerAt_idEntered_draws hf 0 0, answerAt_idEntered_draws hf 1 1⟩⟩
  · exact (List.append_assoc _ _ _).trans ((List.append_assoc _ _ _).trans (List.append_assoc _ _ _))
  · rw [exec_readSoftwareId hs hp, ended_outcomes, idRead, joinId_eq]

/-! ### IDENTIFY -/

theorem idLeave_outcomes (s : State) : (idLeave s).outcomes = s.outcomes := by
  simp [idLeave, cyclesLeave_outcomes, idEntered]

theorem idLeave_faulted (s : State) : (idLeave s).faulted = s.faulted :=
  (cyclesLeave_running _ _).1.trans (cyclesLeave_running s (commandSequence s.params cmdIdEntryByte)).1

theorem idLeave_pollIdx (s : State) : (idLeave s).oracle.pollIdx = s.oracle.pollIdx := by
  simp [idLeave, cyclesLeave_oracle, idEntered]

/-- IDENTIFY up to its lookup. -/
theorem bodyOf_identify {table : List ChipConfig} {s : State} (hs : CanStart s) (hp : PortsOk 654 s) :
    bodyOf (.identify table) s =
      ((matchChip table (idRead s) >>= fun cfg => pure (.done (.chip cfg)) : Op Verdict)
        (withRecords (s.trace ++ idEvents s) (idLeave s).oracle.pollIdx (idLeave s))) := by
  rw [bodyOf, identify, bind_assoc, bind_ok (readSoftwareId_ok (canSend_of_canStart hs hp)), idLeave_pollIdx]

theorem lookupChip_first {before after : List ChipConfig} {cfg : ChipConfig} {id : Id16}
    (hb : ∀ c ∈ before, c.id ≠ id) (hc : cfg.id = id) : lookupChip (before ++ cfg :: after) id = some cfg :=
  List.find?_eq_some_iff_append.mpr ⟨beq_iff_eq.mpr hc, before, after, rfl, fun c h => by simpa using hb c h⟩

theorem lookupChip_none {table : List ChipConfig} {id : Id16} (h : ∀ cfg ∈ table, cfg.id ≠ id) :
    lookupChip table id = none :=
  List.find?_eq_none.mpr fun cfg hcfg => by simpa using h cfg hcfg

theorem exec_identify_found {table : List ChipConfig} {cfg : ChipConfig} {s : State} (hs : CanStart s)
    (ht : tableProblem table = none) (hp : PortsOk 654 s) (h : lookupChip table (idRead s) = some cfg) :
    exec (.identify table) s = .next { ended (s.trace ++ idEvents s) (s.outcomes ++ [.ok (.chip cfg)]) (idLeave s) with
      identified := some cfg } := by
  have hout := idLeave_outcomes s
  have hown : ownProblem (.identify table) = none := ht
  rw [exec_body hs hown, bodyOf_identify hs hp, matchChip, h]
  generalize idLeave s = w at hout
  rw [← hout]
  rfl

theorem exec_identify_unsupported {table : List ChipConfig} {s : State} (hs : CanStart s)
    (ht : tableProblem table = none) (hp : PortsOk 654 s) (h : lookupChip table (idRead s) = none) :
    exec (.identify table) s = .next { ended (s.trace ++ idEvents s)
      (s.outcomes ++ [.fault (.unsupportedChip (idRead s))]) (idLeave s) with
      faulted := some (.unsupportedChip (idRead s)) } := by
  have hout := idLeave_outcomes s
  have hfault := (idLeave_faulted s).trans hs.1.1
  have hown : ownProblem (.identify table) = none := ht
  rw [exec_body hs hown, bodyOf_identify hs hp, matchChip, h]
  generalize idLeave s = w at hout hfault
  have hmark : some (.unsupportedChip (idRead s)) = w.faulted.or (some (.unsupportedChip (idRead s))) := by
    rw [hfault, Option.none_or]
  rw [← hout, hmark]
  rfl

theorem exec_readSoftwareId_ended {s : State} (hs : CanStart s) (hp : PortsOk 654 s) :
    exec .readSoftwareId s =
      .next (ended (s.trace ++ idEvents s) (s.outcomes ++ [.ok (.id (idRead s))]) (idLeave s)) :=
  exec_readSoftwareId hs hp

/-- Settles O33: what follows the id is a lookup in the table and nothing else. -/
theorem identifyLooksUpTheId : Obligations.IdentifyLooksUpTheId := by
  intro table s hs ht hp
  refine ⟨_, idRead s, exec_readSoftwareId_ended hs hp, rfl, ?_, fun hnone => ?_⟩
  · rintro before cfg after rfl hb hc
    rw [exec_identify_found hs ht hp (lookupChip_first hb hc)]
    rfl
  · rw [exec_identify_unsupported hs ht hp (lookupChip_none hnone)]
    rfl

end Sys2Proof.Machine
end
